-- ==== Sys2Proof/Word.lean ====
section
/-! DEFINITION. The words of the JZ-2640: a byte of the host link, a converter word, and one parameter group record.
Every other quantity of the manual is an integer (00_scope, Conventions, Numbers) and is a `Nat` or an `Int`. -/

namespace Sys2Proof

/-- One byte of the host link (R205). -/
abbrev Byte := BitVec 8

/-- One converter word: FE_raw and TE_raw are read signed, −2048..+2047, and SUM_raw unsigned, 0..4095 (R1). -/
abbrev Adc := BitVec 12

/-- One parameter group record: the 33 fields of R77, by field number. -/
abbrev GroupRec := Vector Nat 33

/-- A group number G0..G3 (R77). -/
abbrev GroupId := Fin 4

end Sys2Proof
end

