-- ==== Sys2Proof/Syntax.lean ====
section
/-! DEFINITION. The commands of the block: one constructor for each row of spec/opcode_table.json, in the table's order. The
table gives the rows no operands; an operand here is what the row's rule says the event brings with it. -/

namespace Sys2Proof

/-- The five debounced sense lines (R157). -/
inductive DebLine
  | slot
  | clampEnd
  | ejectEnd
  | innerLimit
  | supplyLow
  deriving DecidableEq, Repr

/-- The seven sense lines as they read at one moment (00_scope, Pins). `true` is active, asserted or, for SHOCK, high. -/
structure Lines where
  slot : Bool
  clampEnd : Bool
  ejectEnd : Bool
  innerLimit : Bool
  supplyLow : Bool
  shock : Bool
  driverFault : Bool
  deriving DecidableEq, Repr

/-- The commands. A request carries the payload bytes of its record (R206); the record is framed, addressed to the part and
given a right check byte by the command itself. -/
inductive Instr
  /-- SERVO_SAMPLE (R1): the three converter values. -/
  | servoSample (fe te sum : Adc)
  /-- HOLD_LIMIT (R62). -/
  | holdLimit
  /-- FOCUS_FAIL (R42). -/
  | focusFail
  /-- SETTLE_TIMEOUT (R45). -/
  | settleTimeout
  /-- CLOSE_TIMEOUT (R50). -/
  | closeTimeout
  /-- MOVE_STALL (R51). -/
  | moveStall
  /-- OFF_TRACK (R53). -/
  | offTrack
  /-- FOCUS_LOST (R55). -/
  | focusLost
  /-- SLED_COMPUTATION (R107). -/
  | sledComputation
  /-- FG_EDGE (R17): the time since the previous FG edge, in µs. -/
  | fgEdge (sinceUs : Nat)
  /-- TIMED_BIN_BOUNDARY (R20). -/
  | timedBinBoundary
  /-- PENDING_LAUNCH_EFFECT (R87). -/
  | pendingLaunchEffect
  /-- SHOCK_MODE_EXIT (R93). -/
  | shockModeExit
  /-- KICK_TIMEOUT (R99). -/
  | kickTimeout
  /-- LOCKING_TIMEOUT (R100). -/
  | lockingTimeout
  /-- BRAKING_TIMEOUT (R103). -/
  | brakingTimeout
  /-- ADDRESS_REPORT (R112, R208): the bits taken at ACLK edges, first bit first, and whether AFRM became inactive after them. -/
  | addressReport (bits : List Bool) (ended : Bool)
  /-- ADDRESS_LOST (R114). -/
  | addressLost
  /-- ADDRESS_WAIT_TIMEOUT (R125). -/
  | addressWaitTimeout
  /-- LEG_REORDER (R130). -/
  | legReorder
  /-- ENTRY_START (R136). -/
  | entryStart
  /-- ENGAGE_ADDRESS_TIMEOUT (R140). -/
  | engageAddressTimeout
  /-- RECOVERY_LOOP_WAIT_TIMEOUT (R151). -/
  | recoveryLoopWaitTimeout
  /-- RECOVERY_ADDRESS_TIMEOUT (R152). -/
  | recoveryAddressTimeout
  /-- IDLE_TIMER_EXPIRY (R185). -/
  | idleTimerExpiry
  /-- SENSE_LINE_SAMPLE (R157): one sample of one debounced line and its raw level. -/
  | senseLineSample (line : DebLine) (active : Bool)
  /-- DEBOUNCED_LINE_CHANGE (R157): the line whose run count stands at the debounce setting. -/
  | debouncedLineChange (line : DebLine)
  /-- EJECT_RELEASE (R165). -/
  | ejectRelease
  /-- LOAD_TIMEOUT (R164). -/
  | loadTimeout
  /-- RELEASE_TIMEOUT (R167). -/
  | releaseTimeout
  /-- RELOAD_TIMER_EXPIRY (R168). -/
  | reloadTimerExpiry
  /-- SHOCK_EDGE (R174): the level the SHOCK line takes. -/
  | shockEdge (high : Bool)
  /-- DRIVER_FAULT_ASSERT (R177). -/
  | driverFaultAssert
  /-- DRIVER_FAULT_DROP (R178). -/
  | driverFaultDrop
  /-- POWER_ON_RESET (R187): `none`, RESET_N is asserted or the supply begins to rise, and the part is held; `some lines`, the hold ends
  and the part starts, with the lines as the start reads them. The ADDR strap's level is sampled at the end only. -/
  | powerOnReset (lines : Option Lines) (addrHigh : Bool)
  /-- WRITE_TRANSFER_END (R192): the data bytes that still arrive, then the end of the write transfer. `some a` first makes a
  START with target address `a`; `none` ends the transfer under way. -/
  | writeTransferEnd (start : Option (BitVec 7)) (bytes : List Byte)
  /-- READ_TRANSFER (R195): `some a` first makes a START with target address `a` and direction read; `none` goes on with the
  transfer under way. Then `clocks` bytes are clocked out, and `stop` ends the transfer. -/
  | readTransfer (start : Option (BitVec 7)) (clocks : Nat) (stop : Bool)
  /-- UNKNOWN_REQUEST (R193): a START to the part's own address in direction write, and the bytes of a record as they come. -/
  | unknownRequest (record : List Byte)
  /-- ATTN_PULSE_END (R199). -/
  | attnPulseEnd
  /-- STATUS (R201). -/
  | status (payload : List Byte)
  /-- POSITION (R202). -/
  | position (payload : List Byte)
  /-- IDENT (R203). -/
  | ident (payload : List Byte)
  /-- PARAM_GET (R84). -/
  | paramGet (payload : List Byte)
  /-- PARAM_SET (R83). -/
  | paramSet (payload : List Byte)
  /-- LAUNCH_NOW (R85): a LAUNCH record whose timing byte is NOW. -/
  | launchNow (payload : List Byte)
  /-- LAUNCH_INDEX (R86): a LAUNCH record whose timing byte is INDEX. -/
  | launchIndex (payload : List Byte)
  /-- SHOCK_CONFIG (R89). -/
  | shockConfig (payload : List Byte)
  /-- ZONE_SET (R118). -/
  | zoneSet (payload : List Byte)
  /-- ZONE_LIMIT (R119). -/
  | zoneLimit (payload : List Byte)
  /-- TABLE_READ (R34). -/
  | tableRead (payload : List Byte)
  /-- TABLE_CLEAR (R33). -/
  | tableClear (payload : List Byte)
  /-- DEFECT_READ (R74). -/
  | defectRead (payload : List Byte)
  /-- DEFECT_ADD (R72). -/
  | defectAdd (payload : List Byte)
  /-- DEFECT_CLEAR (R73). -/
  | defectClear (payload : List Byte)
  /-- OFFSET (R4). -/
  | offset (payload : List Byte)
  /-- NOTICE_MASK (R198). -/
  | noticeMask (payload : List Byte)
  /-- LINE_CONFIG (R175). -/
  | lineConfig (payload : List Byte)
  /-- CLEAR_FAULT (R179). -/
  | clearFault (payload : List Byte)
  /-- POWER_ACTIVE (R184): a POWER record whose mode byte is ACTIVE. -/
  | powerActive (payload : List Byte)
  /-- POWER_STANDBY (R182): a POWER record whose mode byte is STANDBY. -/
  | powerStandby (payload : List Byte)
  /-- POWER_SLEEP (R183): a POWER record whose mode byte is SLEEP. -/
  | powerSleep (payload : List Byte)
  /-- SOFT_RESET (R188). -/
  | softReset (payload : List Byte)
  /-- ENGAGE (R139). -/
  | engage (payload : List Byte)
  /-- SEEK (R141). -/
  | seek (payload : List Byte)
  /-- JUMP (R141). -/
  | jump (payload : List Byte)
  /-- PAUSE (R142). -/
  | pause (payload : List Byte)
  /-- DISENGAGE (R144). -/
  | disengage (payload : List Byte)
  /-- HALT (R145). -/
  | halt (payload : List Byte)
  /-- LOAD (R162). -/
  | load (payload : List Byte)
  /-- EJECT (R163). -/
  | eject (payload : List Byte)
  deriving DecidableEq, Repr

end Sys2Proof
end

