-- ==== Sys2Proof/Config.lean ====
section
/-! DEFINITION. What the manual leaves open, as free values: the order of two events that come together inside one step, of which the
manual gives both outcomes; and the payload of a refused SHOCK CONFIG, of which two of its rules say opposite things. -/

namespace Sys2Proof

/-- Which of two events that come together inside one step is taken first. It has no body, so no proof can see
which. The machine applies it to `State.freeCount`, which moves on at each use (log entry 1). -/
opaque Config.freeOrder : Nat → Bool

/-- Whether the reply to a SHOCK CONFIG refused with a status of this code carries the six settings, as R89 says of every case, or no
payload, as R207 says of refused replies. It has no body: the model follows neither rule against the other (log entry 20). -/
opaque Config.refusedShockCarries : Nat → Bool

end Sys2Proof
end

