-- ==== Sys2Proof/Machine/Tables.lean ====
section
/-! DEFINITION. The group field table of R77 and the field widths of R206. -/

namespace Sys2Proof.Machine

/-- Range of each group field, by number (R77). -/
def fieldRanges : Vector (Nat × Nat) 33 := #v[
  (0, 1023), (0, 255), (0, 1023), (0, 16), (0, 1023), (0, 255), (0, 1023), (0, 16),
  (256, 4095), (256, 8191), (256, 8191), (256, 8191), (256, 8191), (256, 8191),
  (0, 4095), (0, 4095), (0, 4095), (0, 4095), (0, 1023), (0, 1023), (1, 1023), (1, 4095),
  (256, 2047), (1, 255), (0, 2047), (1, 1023), (1, 255), (0, 1023), (0, 255), (0, 2047),
  (0, 255), (0, 2047), (256, 2047)]

/-- The G0 defaults (R77). -/
def g0Defaults : GroupRec := #v[
  48, 4, 192, 2, 64, 8, 256, 4, 2048, 512, 4096, 1280, 1792, 2560, 1536, 1280, 1024, 768, 128, 256,
  128, 384, 1200, 32, 512, 64, 48, 32, 4, 400, 16, 1536, 1024]

/-- The G1 defaults (R77). -/
def g1Defaults : GroupRec := #v[
  64, 6, 256, 0, 96, 12, 384, 0, 2048, 512, 4096, 1280, 1792, 2560, 1536, 1280, 1024, 768, 128, 256,
  192, 512, 1600, 64, 384, 128, 16, 32, 4, 400, 16, 1024, 1024]

/-- Bytes of a field's value on the link: one for the eight fields whose ranges end at 255 or below, two for every other field
number 0..63 (R206). -/
def fieldWidth (n : Nat) : Nat :=
  if n = 1 ∨ n = 3 ∨ n = 5 ∨ n = 7 ∨ n = 23 ∨ n = 26 ∨ n = 28 ∨ n = 30 then 1 else 2

/-- A value clamped into the range of field `n` (R79, R83). -/
def clampField (n v : Nat) : Nat :=
  match fieldRanges[n]? with
  | some (lo, hi) => max lo (min hi v)
  | none => v

end Sys2Proof.Machine
end

