-- ==== Sys2Proof/Machine/State.lean ====
section
/-! DEFINITION. The state of the JZ-2640, block by block, as the manual's own state tables give it, and its value after
power-on. Each field's default is its reset value; INVENTORY.md lists each with its rule. Quantities are integers as the manual
has them; ranges are kept by the rules, not by the types. -/

namespace Sys2Proof.Machine

/-! ## Signal Front End (R1 to R16) -/

/-- The side the crossing detector holds (R13). -/
inductive Side
  | unknown
  | negative
  | positive
  deriving DecidableEq, Repr

/-- The Signal Front End (R16). -/
structure FrontEnd where
  feOff : Int := 0
  teOff : Int := 0
  /-- The normalization coefficient, in 1/1024. -/
  c : Nat := 1024
  /-- The level L. -/
  level : Nat := 0
  sumAcc : Nat := 0
  sumCount : Nat := 0
  side : Side := .unknown
  crossings : Nat := 0
  eF : Int := 0
  eT : Int := 0
  sumN : Nat := 0
  /-- The model's own: the sample being taken has reported a crossing that a restart may still meet (R14). False between
  commands. -/
  crossingNow : Bool := false
  deriving DecidableEq, Repr

/-! ## Angle Tracker (R17 to R26) -/

/-- The timed boundaries still to come in the present FG interval (R20). -/
structure Schedule where
  /-- The next boundary, j in 1..7. -/
  next : Nat
  /-- floor(P/8), in µs. -/
  spacing : Nat
  deriving DecidableEq, Repr

/-- The Angle Tracker (R26). -/
structure Angle where
  /-- The edge count k. -/
  edge : Fin 8 := 0
  bin : Fin 64 := 0
  revs : Nat := 0
  /-- P, in µs. -/
  p : Nat := 0
  spinUp : Nat := 0
  refValid : Bool := false
  schedule : Option Schedule := none
  /-- The time since the last FG edge as the model's own tick counts it, in µs (log entry 4). -/
  sinceEdge : Nat := 0
  deriving DecidableEq, Repr

/-! ## Revolution Table (R27 to R34) -/

/-- One record of the Revolution Table. -/
structure RevRecord where
  trkFf : Int := 0
  focFf : Int := 0
  trkSum : Int := 0
  trkCount : Nat := 0
  focSum : Int := 0
  focCount : Nat := 0
  deriving DecidableEq, Repr

/-! ## Loop Processor (R35 to R57) -/

/-- What both loops hold: integrator A, previous error, held output h, controller output u_c and drive u. -/
structure Axis where
  a : Int := 0
  ePrev : Int := 0
  h : Int := 0
  uc : Int := 0
  u : Int := 0
  deriving DecidableEq, Repr

/-- The states of the focus loop. -/
inductive FocusState
  | off
  | search
  | locked
  | hold
  deriving DecidableEq, Repr

/-- The states of the tracking loop. -/
inductive TrackState
  | off
  | pullin
  | settling
  | locked
  | hold
  | jumping
  | openSeek
  deriving DecidableEq, Repr

/-- The jump phases. -/
inductive JumpPhase
  | none
  | kick
  | brake
  | coast
  | close
  deriving DecidableEq, Repr

/-- The report that falls due when the tracking loop next reaches LOCKED: track locked after a pull-in (R43), jump done for a
jump or a stopped move (R48, R50), or none. -/
inductive Goal
  | none
  | trackLocked
  | jumpDone
  deriving DecidableEq, Repr

/-- The focus loop (R57). -/
structure FocusLoop where
  state : FocusState := .off
  ax : Axis := {}
  /-- The focus-lost counter. -/
  lost : Nat := 0
  /-- Sweep number. -/
  sweep : Nat := 0
  /-- Sweep position. -/
  pos : Nat := 0
  /-- FEc of the previous sample of the search, none before its first (R41). -/
  prevFec : Option Int := none
  deriving DecidableEq, Repr

/-- The tracking loop (R57). -/
structure TrackLoop where
  state : TrackState := .off
  ax : Axis := {}
  /-- The off-track counter. -/
  offCount : Nat := 0
  phase : JumpPhase := .none
  /-- Signed jump length in tracks. -/
  jumpLen : Int := 0
  attempt : Nat := 0
  settleRun : Nat := 0
  timer : Nat := 0
  stall : Nat := 0
  /-- SETTLING was entered from PULLIN (R45). -/
  fromPullin : Bool := false
  goal : Goal := .none
  /-- The procedure was ordered by the sequencer's PAUSE (R142). -/
  byPause : Bool := false
  /-- The crossing count N of the open move in progress (R49). -/
  moveCount : Nat := 0
  deriving DecidableEq, Repr

/-! ## Dropout Detector and Defect Window Table (R58 to R76) -/

/-- The Dropout Detector (R76). -/
structure Detector where
  /-- True in HOLD, false in CLEAR. -/
  inHold : Bool := false
  entryArmed : Bool := false
  length : Nat := 0
  startBin : Fin 64 := 0
  binsPassed : Nat := 0
  depth : Nat := 0
  goodRun : Nat := 0
  /-- Bin boundaries taken since the hold began, which the next sample in hold reads (R61). -/
  boundaries : Nat := 0
  deriving DecidableEq, Repr

/-- Who made a defect window. -/
inductive Origin
  | learned
  | host
  deriving DecidableEq, Repr

/-- The progress of a pass under a window (R70). -/
inductive Pass
  | none
  | watching
  | clean
  | hit
  deriving DecidableEq, Repr

/-- One entry of the Defect Window Table. -/
structure Defect where
  origin : Origin
  first : Fin 64
  span : Nat
  inner : Nat
  outer : Nat
  hits : Nat
  depth : Option Nat
  pass : Pass
  deriving DecidableEq, Repr

/-- The Defect Window Table: 32 indices, and the armed flag. -/
structure DefectTable where
  entries : Vector (Option Defect) 32 := Vector.replicate 32 none
  armed : Bool := false
  deriving DecidableEq, Repr

/-! ## Group Store (R77 to R94) -/

/-- The Group Store (R79). -/
structure Groups where
  recs : Vector GroupRec 4 := #v[g0Defaults, g1Defaults, g0Defaults, g0Defaults]
  base : GroupId := 0
  shock : GroupId := 1
  shockRevs : Nat := 8
  shockMode : Bool := false
  clean : Nat := 0
  disturbed : Bool := false
  /-- The pending launch. -/
  pending : Option GroupId := none
  deriving DecidableEq, Repr

/-! ## Spindle and Sled Controllers (R95 to R111) -/

/-- The spindle states. -/
inductive SpindleState
  | stopped
  | kick
  | locking
  | locked
  | coast
  | braking
  deriving DecidableEq, Repr

/-- The Spindle Controller (R106). -/
structure Spindle where
  state : SpindleState := .stopped
  /-- Run demand. -/
  run : Bool := false
  /-- Target T, in µs. -/
  target : Nat := 20000
  isp : Int := 0
  drive : Int := 0
  lockRun : Nat := 0
  unlockRun : Nat := 0
  /-- State timer, in ms. -/
  timer : Nat := 0
  deriving DecidableEq, Repr

/-- The Sled Controller (R111). -/
structure Sled where
  sum : Int := 0
  count : Nat := 0
  /-- The open move in progress: `some true` outward, `some false` inward. -/
  move : Option Bool := none
  drive : Int := 0
  deriving DecidableEq, Repr

/-! ## Seek Engine (R112 to R131) -/

/-- One zone record (R117). -/
structure Zone where
  /-- F_z. -/
  first : Nat
  /-- B_z, in 1/256 block. -/
  bpt : Nat
  /-- T_z, in µs. -/
  interval : Nat
  deriving DecidableEq, Repr

/-- The task the sequencer has handed over. -/
inductive Task
  | seek (target : Nat)
  | jump (n : Int)
  deriving DecidableEq, Repr

/-- The present step of the task. A move leg is `landed` once it has reported move done (R124). -/
inductive Leg
  | none
  | jump (n : Int)
  | move (outward : Bool) (count : Nat) (landed : Bool)
  | wait
  deriving DecidableEq, Repr

/-- The frame on the address input (R112): none, in progress with the bits taken so far, or in progress when a reset ended, so
that its beginning was not seen. -/
inductive Frame
  | idle
  | taking (bits : List Bool)
  | unseen
  deriving DecidableEq, Repr

/-- The Seek Engine (R131). -/
structure Seek where
  aCur : Nat := 0
  tpCur : Nat := 0
  known : Bool := false
  valid : Bool := false
  /-- Address age, in ms. -/
  age : Nat := 65535
  /-- Watch time, in ms. -/
  watch : Nat := 0
  zones : List Zone := [⟨0, 3200, 20000⟩]
  lastBlock : Nat := 4194303
  /-- The list of first tracks, one per zone (R117). -/
  firstTracks : List Nat := [0]
  task : Option Task := none
  leg : Leg := .none
  /-- The task has made a leg (R123). -/
  madeLeg : Bool := false
  /-- The leg's order was not taken and waits for the next LOCKED (R130). -/
  retry : Bool := false
  /-- The leg was stopped at the inner limit and ends LIMIT (R128). -/
  limitStop : Bool := false
  corrections : Nat := 0
  waitTimer : Nat := 0
  /-- Jump remainder, signed in its direction (R127). -/
  remainder : Int := 0
  frame : Frame := .idle
  deriving DecidableEq, Repr

/-! ## Motion Sequencer (R132 to R156) -/

/-- Kind and argument of a motion order. -/
inductive Motion
  | engage
  | seek (target : Nat)
  | jump (tracks : Int)
  | pause
  | disengage
  deriving DecidableEq, Repr

/-- One entry of the Motion Queue. -/
structure Entry where
  motion : Motion
  tag : Byte
  inProgress : Bool
  deriving DecidableEq, Repr

/-- The sequencer states. -/
inductive SeqState
  | idle
  | standby
  | engaging
  | following
  | seeking
  | jumping
  | paused
  | recovering
  | suspended
  | disengaging
  deriving DecidableEq, Repr

/-- The outcomes of an entry. -/
inductive EndOutcome
  | done
  | abandoned
  | focusFail
  | trackFail
  | spinFail
  | noAddress
  | seekMiss
  | limit
  | recoveryFail
  deriving DecidableEq, Repr

/-- The causes of the incident record. -/
inductive Cause
  | none
  | offTrack
  | focusLost
  | addressLost
  | spinFail
  deriving DecidableEq, Repr

/-- The step inside ENGAGING (R139), RECOVERING (R151) or the return of a suspended JUMP (R149). -/
inductive SeqStep
  | none
  | engageFocus
  | engageTrack
  | engageReady
  | engageReturn
  /-- Recovery step 1, waiting for focus captured. -/
  | recoverFocus
  /-- Recovery step 1, waiting for the tracking loop to enter LOCKED. -/
  | recoverLock
  | recoverAddress
  | recoverReturn
  | jumpReturn
  deriving DecidableEq, Repr

/-- The Motion Sequencer and its Motion Queue, oldest entry first (R156). -/
structure Sequencer where
  state : SeqState := .idle
  queue : List Entry := []
  /-- Resume address. -/
  resume : Option Nat := none
  /-- Incident record: cause. -/
  cause : Cause := .none
  /-- Incident record: attempts. -/
  attempts : Nat := 0
  /-- Laser demand. -/
  laser : Bool := false
  /-- The ENGAGE in progress came from STANDBY (R139). -/
  fromStandby : Bool := false
  /-- The disengage under way ends in STANDBY (R143). -/
  toStandby : Bool := false
  step : SeqStep := .none
  /-- The 1 s address timer of ENGAGE step 3, in ms (R139, R140). -/
  addrTimer : Option Nat := none
  /-- The 20 ms wait of recovery step 1, in ms (R151). -/
  loopWait : Option Nat := none
  /-- The 300 ms address step of a recovery attempt, in ms (R151). -/
  recTimer : Nat := 0
  deriving DecidableEq, Repr

/-! ## Loader Controller (R157 to R172) -/

/-- The loader states. -/
inductive LoaderState
  | empty
  | pulling
  | clamped
  | releasing
  | presented
  | jammed
  deriving DecidableEq, Repr

/-- The reload timer: time counted and length, in ms (R168). -/
structure Reload where
  time : Nat
  length : Nat
  deriving DecidableEq, Repr

/-- The Loader Controller (R171, R172). -/
structure Loader where
  state : LoaderState := .empty
  ejectPending : Bool := false
  jam : Bool := false
  /-- Loader timer, in ms. -/
  timer : Nat := 0
  reload : Option Reload := none
  autoLoad : Bool := true
  reloadSetting : Nat := 0
  drive : Int := 0
  deriving DecidableEq, Repr

/-! ## Supervisor (R157, R158, R173 to R189) -/

/-- A debounced line: its level and run count (R157). -/
structure Debounced where
  level : Bool := false
  run : Nat := 0
  deriving DecidableEq, Repr

/-- The SHOCK edge select. -/
inductive EdgeSelect
  | rising
  | falling
  | both
  deriving DecidableEq, Repr

/-- The power modes. -/
inductive Power
  | active
  | standby
  | sleep
  deriving DecidableEq, Repr

/-- The calibration store: twelve 16-bit words, kept without power (R186): fe_off, te_off, G0 fields 0 to 8, check word. -/
abbrev CalStore := Vector (BitVec 16) 12

/-- The Supervisor (R173), with the pins it reads. -/
structure Supervisor where
  slot : Debounced := {}
  clampEnd : Debounced := {}
  ejectEnd : Debounced := { level := true }
  innerLimit : Debounced := {}
  supplyLow : Debounced := {}
  debounce : Nat := 5
  edgeSelect : EdgeSelect := .rising
  /-- SHOCK level last seen, true for high. -/
  shockSeen : Bool := false
  /-- The SHOCK pin as it stands, which a wake reads (R174). -/
  shockPin : Bool := false
  /-- The DRIVER_FAULT pin as it stands, true for asserted (R178, R180). -/
  faultPin : Bool := false
  crankHold : Bool := false
  faultLatch : Bool := false
  mute : Bool := false
  power : Power := .active
  idleSetting : Nat := 0
  /-- Idle timer, in ms. -/
  idleTimer : Option Nat := none
  /-- Calibration status VALID. -/
  calValid : Bool := false
  monSelect : Nat := 0
  /-- The ADDR strap as sampled at the last start, true for high (R187). -/
  addrHigh : Bool := false
  calStore : CalStore := Vector.replicate 12 0xFFFF#16
  deriving DecidableEq, Repr

/-! ## Link Interface (R190 to R208) -/

/-- The receive states. -/
inductive RxState
  | idle
  | write
  | read
  deriving DecidableEq, Repr

/-- An outgoing record without its L and check bytes, which follow from it (R205). -/
structure OutRecord where
  kind : Byte
  status : Byte
  payload : List Byte
  deriving DecidableEq, Repr

/-- The notice kinds 0x40..0x4A, in code order (R204). -/
inductive NoticeKind
  | loader
  | motionDone
  | recovery
  | shock
  | defect
  | fault
  | supply
  | power
  | discAtSlot
  | launch
  | spindle
  deriving DecidableEq, Repr

/-- One notice of the Notice Queue. -/
structure Notice where
  kind : NoticeKind
  payload : List Byte
  deriving DecidableEq, Repr

/-- Where the record in flight was copied from; `spent` once it has been read out or when it was the empty record. -/
inductive FlightSource
  | reply
  | notice
  | spent
  deriving DecidableEq, Repr

/-- The record in flight (R195). -/
structure Flight where
  copy : OutRecord
  source : FlightSource
  changed : Bool
  /-- Bytes clocked out in this transfer. -/
  clocked : Nat
  deriving DecidableEq, Repr

/-- The ATTN modes. -/
inductive AttnMode
  | level
  | pulse
  deriving DecidableEq, Repr

/-- The Link Interface (R200). -/
structure Link where
  rx : RxState := .idle
  /-- Receive assembly buffer. -/
  buffer : List Byte := []
  reply : Option OutRecord := none
  /-- Notice Queue, oldest first. -/
  notices : List Notice := []
  flight : Option Flight := none
  /-- Notice mask: bit n masks kind 0x40 + n. -/
  mask : BitVec 16 := 0
  attnMode : AttnMode := .level
  overflow : Bool := false
  /-- A pulse of ATTN in PULSE mode is in progress (R199). -/
  pulse : Bool := false
  /-- The bytes the part has put on SDA in the present or last read transfer. -/
  sent : List Byte := []
  /-- The acknowledge of each byte since the last START, true for acknowledged: the address byte, then the data bytes of a write
  transfer of the part's own (R190, R191). -/
  acks : List Bool := []
  deriving DecidableEq, Repr

/-! ## The machine -/

/-- What one block hands on to another inside a step: the reports of the Loop Processor (R40), the incidents, the spindle's
changes (R105), the Seek Engine's outcome (R121) and the test of the queue's head (R136). -/
inductive Signal
  | focusCaptured
  | focusFail
  | trackLocked
  | trackFail (byPause : Bool)
  | jumpDone (byPause : Bool)
  | moveDone
  /-- The tracking loop has entered LOCKED. -/
  | lockEntered
  | offTrack
  | focusLost
  /-- FOCUS_LOST of the sample or switch that has raised OFF_TRACK first: it acts once that OFF_TRACK has been taken (R55). -/
  | focusLostDue
  | addressLost
  | spinFail
  | spindleMoved
  | spindleStopped
  | outcome (o : EndOutcome)
  | testHead
  /-- The Group Store takes a pending launch at the spindle's entry to STOPPED (R87, R103). -/
  | launchDue
  /-- The loader tests its release at the spindle's entry to STOPPED (R103, R165). -/
  | loaderDue
  deriving DecidableEq, Repr

/-- The whole machine. -/
structure State where
  fe : FrontEnd := {}
  angle : Angle := {}
  rev : Vector RevRecord 64 := Vector.replicate 64 {}
  focus : FocusLoop := {}
  track : TrackLoop := {}
  det : Detector := {}
  defects : DefectTable := {}
  groups : Groups := {}
  spindle : Spindle := {}
  sled : Sled := {}
  seek : Seek := {}
  seq : Sequencer := {}
  loader : Loader := {}
  sup : Supervisor := {}
  link : Link := {}
  /-- The part is held: RESET_N is asserted, or the supply is rising to its working level (R187). -/
  held : Bool := false
  /-- The model's own: what is being handed on inside the step. Empty between commands. -/
  signals : List Signal := []
  /-- The model's own: how many free orders have been read. -/
  freeCount : Nat := 0
  /-- The commands that are waiting, first in, first out. -/
  pending : List Instr := []
  deriving DecidableEq, Repr

/-- The machine right after power-on, with the lines of log entry 2 and the calibration store of log entry 3: every field at
its default. -/
def State.reset : State := {}

/-- Nothing the machine does ends in a fault: the manual gives every command an effect in every state. -/
inductive Fault
  deriving DecidableEq, Repr

/-- Why a command has no meaning. -/
inductive Refusal
  /-- Raised only by an arm of the dispatch whose command has no meaning yet; no arm is left so. Safe: the machine stops. -/
  | notModelled (mnemonic : String)
  deriving DecidableEq, Repr

/-- The outcome of a command. -/
abbrev Result := Host.Outcome State Fault Refusal

/-! ## Updates of one block -/

def State.setFe (s : State) (x : FrontEnd) : State := { s with fe := x }
def State.setAngle (s : State) (x : Angle) : State := { s with angle := x }
def State.setRev (s : State) (x : Vector RevRecord 64) : State := { s with rev := x }
def State.setFocus (s : State) (x : FocusLoop) : State := { s with focus := x }
def State.setTrack (s : State) (x : TrackLoop) : State := { s with track := x }
def State.setDet (s : State) (x : Detector) : State := { s with det := x }
def State.setDefects (s : State) (x : DefectTable) : State := { s with defects := x }
def State.setGroups (s : State) (x : Groups) : State := { s with groups := x }
def State.setSpindle (s : State) (x : Spindle) : State := { s with spindle := x }
def State.setSled (s : State) (x : Sled) : State := { s with sled := x }
def State.setSeek (s : State) (x : Seek) : State := { s with seek := x }
def State.setSeq (s : State) (x : Sequencer) : State := { s with seq := x }
def State.setLoader (s : State) (x : Loader) : State := { s with loader := x }
def State.setSup (s : State) (x : Supervisor) : State := { s with sup := x }
def State.setLink (s : State) (x : Link) : State := { s with link := x }
def State.setHeld (s : State) (x : Bool) : State := { s with held := x }
def State.setSignals (s : State) (x : List Signal) : State := { s with signals := x }
def State.setFreeCount (s : State) (x : Nat) : State := { s with freeCount := x }

end Sys2Proof.Machine
end

