-- ==== Sys2Proof/Machine/Arith.lean ====
section
/-! DEFINITION. The arithmetic of 00_scope (Arithmetic) and the operations on fixed tables. -/

namespace Sys2Proof.Machine

/-- "sat lo..hi x": `x` clamped into the range. -/
def sat (lo hi x : Int) : Int := max lo (min hi x)

/-- sat ±2047, the range of every drive and normalized error. -/
def satDrive (x : Int) : Int := sat (-2047) 2047 x

/-- "sat lo..hi x" on naturals. -/
def satNat (lo hi x : Nat) : Nat := max lo (min hi x)

/-- A count that saturates. -/
def countUp (limit x : Nat) : Nat := min limit (x + 1)

/-- The largest block address and track position, 4,194,303. -/
def maxBlock : Nat := 4194303

/-- Magnitude of a signed value. -/
def mag (x : Int) : Nat := x.natAbs

/-- A function applied to every element of a fixed table. -/
def mapTable {α β : Type} {n : Nat} (f : α → β) (v : Vector α n) : Vector β n :=
  ⟨⟨v.toArray.toList.map f⟩, by simp⟩

/-- The position of the first element that meets the test, counted on from `i`. -/
def firstIndex {α : Type} (test : α → Bool) : List α → Nat → Option Nat
  | [], _ => none
  | x :: xs, i => if test x then some i else firstIndex test xs (i + 1)

end Sys2Proof.Machine
end

