-- ==== Sys2Proof/Machine/Operands.lean ====
section
/-! DEFINITION. The byte layouts of the host link (R205 to R207) and of the address report (R208): most significant byte first,
signed values in two's complement, flags as 1 and 0, enumerated values by the codes of R205. -/

namespace Sys2Proof.Machine

/-! ## Bytes and values -/

/-- The low eight bits of a value. -/
def byte (n : Nat) : Byte := BitVec.ofNat 8 n

/-- A value in two bytes. -/
def be2 (n : Nat) : List Byte := [byte (n / 256), byte n]

/-- A value in three bytes. -/
def be3 (n : Nat) : List Byte := [byte (n / 65536), byte (n / 256), byte n]

/-- A signed value in two bytes. -/
def be2Signed (x : Int) : List Byte := be2 (x % 65536).toNat

/-- A flag as 1 or 0. -/
def flag (b : Bool) : Nat := if b then 1 else 0

/-- A flag byte. -/
def flagByte (b : Bool) : Byte := byte (flag b)

/-- The value of bytes, most significant first. -/
def beNat (bytes : List Byte) : Nat := bytes.foldl (fun acc b => acc * 256 + b.toNat) 0

/-- The `n`-byte value at offset `i` of a payload. -/
def fieldAt (payload : List Byte) (i n : Nat) : Nat := beNat ((payload.drop i).take n)

/-- A 16-bit value read as signed. -/
def signed16 (n : Nat) : Int := if n < 32768 then (n : Int) else (n : Int) - 65536

/-- The signed two-byte value at offset `i`. -/
def signedAt (payload : List Byte) (i : Nat) : Int := signed16 (fieldAt payload i 2)

/-! ## Records (R191, R205) -/

/-- The 8-bit sum of bytes. -/
def byteSum (bytes : List Byte) : Byte := bytes.foldl (· + ·) 0

/-- The check byte that brings the sum of a record to 0. -/
def checkByte (bytes : List Byte) : Byte := 0 - byteSum bytes

/-- A request record as its sender forms it. -/
def requestRecord (kind : Nat) (payload : List Byte) : List Byte :=
  let body := byte kind :: byte payload.length :: payload
  body ++ [checkByte body]

/-- An outgoing record as it is clocked out. -/
def OutRecord.bytes (r : OutRecord) : List Byte :=
  let body := r.kind :: r.status :: byte r.payload.length :: r.payload
  body ++ [checkByte body]

/-- The kind of the reply to a received kind (R193). -/
def replyKind (kind : Byte) : Byte := if kind.toNat < 128 then kind + 128 else kind

/-- The empty record (R195). -/
def emptyRecord : OutRecord := ⟨0, 0, []⟩

/-- Code of a notice kind (R204). -/
def NoticeKind.code : NoticeKind → Nat
  | .loader => 0x40
  | .motionDone => 0x41
  | .recovery => 0x42
  | .shock => 0x43
  | .defect => 0x44
  | .fault => 0x45
  | .supply => 0x46
  | .power => 0x47
  | .discAtSlot => 0x48
  | .launch => 0x49
  | .spindle => 0x4A

/-- Whether a notice kind is a state kind (R204). -/
def NoticeKind.isState : NoticeKind → Bool
  | .loader => true
  | .motionDone => false
  | .recovery => false
  | .shock => true
  | .defect => false
  | .fault => true
  | .supply => true
  | .power => true
  | .discAtSlot => true
  | .launch => false
  | .spindle => true

/-- A notice as an outgoing record, status byte 0x00 (R196). -/
def Notice.record (n : Notice) : OutRecord := ⟨byte n.kind.code, 0, n.payload⟩

/-! ## Statuses (R204) -/

/-- The statuses of a reply. -/
inductive Status
  | ok
  | queued
  | merged
  | clamped
  | unknown
  | length
  | check
  | short
  | busy
  | queueFull
  | notEngaged
  | noDisc
  | fault
  | groupActive
  | inconsistent
  | tableFull
  | range
  deriving DecidableEq, Repr

/-- Code of a status. -/
def Status.code : Status → Nat
  | .ok => 0x00
  | .queued => 0x01
  | .merged => 0x02
  | .clamped => 0x03
  | .unknown => 0x10
  | .length => 0x11
  | .check => 0x12
  | .short => 0x13
  | .busy => 0x20
  | .queueFull => 0x21
  | .notEngaged => 0x22
  | .noDisc => 0x23
  | .fault => 0x24
  | .groupActive => 0x25
  | .inconsistent => 0x26
  | .tableFull => 0x27
  | .range => 0x28

/-- OK, or CLAMPED where a value was clamped. -/
def okOrClamped (clamped : Bool) : Status := if clamped then .clamped else .ok

/-! ## Enumeration codes (R205) -/

def FocusState.code : FocusState → Nat
  | .off => 0
  | .search => 1
  | .locked => 2
  | .hold => 3

def TrackState.code : TrackState → Nat
  | .off => 0
  | .pullin => 1
  | .settling => 2
  | .locked => 3
  | .hold => 4
  | .jumping => 5
  | .openSeek => 6

def JumpPhase.code : JumpPhase → Nat
  | .none => 0
  | .kick => 1
  | .brake => 2
  | .coast => 3
  | .close => 4

def SpindleState.code : SpindleState → Nat
  | .stopped => 0
  | .kick => 1
  | .locking => 2
  | .locked => 3
  | .coast => 4
  | .braking => 5

def LoaderState.code : LoaderState → Nat
  | .empty => 0
  | .pulling => 1
  | .clamped => 2
  | .releasing => 3
  | .presented => 4
  | .jammed => 5

def SeqState.code : SeqState → Nat
  | .idle => 0
  | .standby => 1
  | .engaging => 2
  | .following => 3
  | .seeking => 4
  | .jumping => 5
  | .paused => 6
  | .recovering => 7
  | .suspended => 8
  | .disengaging => 9

def Power.code : Power → Nat
  | .active => 0
  | .standby => 1
  | .sleep => 2

/-- Entry kind codes. -/
def Motion.code : Motion → Nat
  | .engage => 0
  | .seek _ => 1
  | .jump _ => 2
  | .pause => 3
  | .disengage => 4

def EndOutcome.code : EndOutcome → Nat
  | .done => 0
  | .abandoned => 1
  | .focusFail => 2
  | .trackFail => 3
  | .spinFail => 4
  | .noAddress => 5
  | .seekMiss => 6
  | .limit => 7
  | .recoveryFail => 8

def Cause.code : Cause → Nat
  | .none => 0
  | .offTrack => 1
  | .focusLost => 2
  | .addressLost => 3
  | .spinFail => 4

/-- Recovery results. -/
inductive RecoveryResult
  | resumed
  | failed
  | abandoned
  deriving DecidableEq, Repr

def RecoveryResult.code : RecoveryResult → Nat
  | .resumed => 0
  | .failed => 1
  | .abandoned => 2

/-- Reasons of a DEFECT notice (R75). -/
inductive DefectReason
  | learned
  | evicted
  | expired
  | full
  deriving DecidableEq, Repr

def DefectReason.code : DefectReason → Nat
  | .learned => 0
  | .evicted => 1
  | .expired => 2
  | .full => 3

def Origin.code : Origin → Nat
  | .learned => 0
  | .host => 1

def AttnMode.code : AttnMode → Nat
  | .level => 0
  | .pulse => 1

def EdgeSelect.code : EdgeSelect → Nat
  | .rising => 0
  | .falling => 1
  | .both => 2

/-- Code of a pending launch: 255 for none. -/
def pendingCode : Option GroupId → Nat
  | none => 255
  | some g => g.val

/-! ## Layouts of single items -/

/-- One bin of a TABLE READ reply: two 12-bit signed values in three bytes (R207). -/
def feedforwardBytes (r : RevRecord) : List Byte :=
  let t := (r.trkFf % 4096).toNat
  let f := (r.focFf % 4096).toNat
  [byte (t / 16), byte (t % 16 * 16 + f / 256), byte f]

/-- One record of a DEFECT READ reply (R207). -/
def defectBytes : Option Defect → List Byte
  | none => byte 0x80 :: List.replicate 9 (byte 0)
  | some d =>
    byte (d.origin.code * 64 + d.first.val) :: be2 ((d.span - 1) * 4096 + d.depth.getD 0)
      ++ be3 (flag d.depth.isNone * 8388608 + d.inner) ++ be3 d.outer ++ [byte d.hits]

/-- A group field's value in its width (R206). -/
def fieldBytes (n v : Nat) : List Byte := if fieldWidth n = 1 then [byte v] else be2 v

/-- A PARAM SET payload divided into its pairs (group, field, value), or none where it does not divide exactly. The fuel is the
number of pairs still allowed (R206). -/
def paramPairs : Nat → List Byte → Option (List (Nat × Nat × Nat))
  | _, [] => some []
  | 0, _ :: _ => none
  | fuel + 1, code :: rest =>
    let field := code.toNat % 64
    let width := fieldWidth field
    if rest.length < width then none
    else (paramPairs fuel (rest.drop width)).map
      (fun more => (code.toNat / 64, field, beNat (rest.take width)) :: more)

/-- The bits of an address report as its four bytes' value, first bit most significant (R208). -/
def bitsNat (bits : List Bool) : Nat := bits.foldl (fun acc b => acc * 2 + flag b) 0

end Sys2Proof.Machine
end

