-- ==== Sys2Proof/Machine/Flags.lean ====
section
/-! DEFINITION. Conditions that follow from the state and are stored nowhere, and the levels of the output pins. -/

namespace Sys2Proof.Machine

/-! ## Groups -/

/-- The active group (R80). -/
def activeId (g : Groups) : GroupId := if g.shockMode then g.shock else g.base

/-- The record of the active group. -/
def State.active (s : State) : GroupRec := s.groups.recs[activeId s.groups]

/-! ## Loops, spindle and sequencer -/

/-- The focus loop is LOCKED or HOLD. -/
def State.focusHeld (s : State) : Bool := s.focus.state = .locked || s.focus.state = .hold

/-- The tracking loop is LOCKED or HOLD. -/
def State.trackHeld (s : State) : Bool := s.track.state = .locked || s.track.state = .hold

/-- The spindle is LOCKING or LOCKED. -/
def State.spinning (s : State) : Bool := s.spindle.state = .locking || s.spindle.state = .locked

/-- Engaged: any sequencer state except IDLE and STANDBY (00_scope, Terms). -/
def SeqState.engaged (st : SeqState) : Bool := !(st = .idle || st = .standby)

/-- The entry in progress: the head of the queue once it has started (R132). -/
def State.current (s : State) : Option Entry :=
  match s.seq.queue with
  | e :: _ => if e.inProgress then some e else none
  | [] => none

/-- An entry waits: behind the one in progress, or with none in progress. -/
def State.waitsBehind (s : State) : Bool := s.seq.queue.any (fun e => !e.inProgress)

/-- After HALT the sequencer keeps its state with no entry in progress until the tracking loop holds a track (R145). -/
def State.haltWait (s : State) : Bool :=
  (s.seq.state = .seeking || s.seq.state = .jumping || s.seq.state = .paused || s.seq.state = .suspended)
    && s.current.isNone

/-- While a hold is in force (R58). -/
def State.inHold (s : State) : Bool := s.det.inHold

/-! ## Laser, motor permit, loader -/

/-- The laser demand is set and mute is inactive (R138). -/
def State.laserOn (s : State) : Bool := s.seq.laser && !s.sup.mute

/-- The motor permit (R159). -/
def State.motorPermit (s : State) : Bool :=
  s.spindle.state = .stopped && !s.laserOn && !s.sup.crankHold && !s.sup.mute

/-- CLAMPED for ENGAGE: a CLAMPED loader with an eject pending counts as not CLAMPED (R165). -/
def State.discReady (s : State) : Bool := s.loader.state = .clamped && !s.loader.ejectPending

/-- A moving loader for the power mode's test (R165, R181). -/
def State.loaderMoving (s : State) : Bool :=
  s.loader.state = .pulling || s.loader.state = .releasing || (s.loader.state = .clamped && s.loader.ejectPending)

/-- The loader drive by R159. -/
def State.loaderDemand (s : State) : Int :=
  if s.motorPermit then
    match s.loader.state with
    | .pulling => 1536
    | .releasing => -1536
    | .empty => 0
    | .clamped => 0
    | .presented => 0
    | .jammed => 0
  else 0

/-- The 7-bit target address (R187, R190). -/
def State.targetAddress (s : State) : BitVec 7 := if s.sup.addrHigh then 0x2D else 0x2C

/-! ## Output pins -/

/-- A drive pin: mute forces 0 (R178), and so does the hold (R187). -/
def State.muted (s : State) (drive : Int) : Int := if s.sup.mute || s.held then 0 else drive

/-- LASER_EN, true for on (R138, R187). -/
def State.laserEn (s : State) : Bool := s.laserOn && !s.held

/-- FOC_DRV (R35). -/
def State.focDrv (s : State) : Int := s.muted s.focus.ax.u

/-- TRK_DRV (R35). -/
def State.trkDrv (s : State) : Int := s.muted s.track.ax.u

/-- SLED_DRV (R110). -/
def State.sledDrv (s : State) : Int := s.muted s.sled.drive

/-- SPIN_DRV (R95). -/
def State.spinDrv (s : State) : Int := s.muted s.spindle.drive

/-- LOAD_DRV (R159). -/
def State.loadDrv (s : State) : Int := s.muted s.loader.drive

/-- ATTN, true for asserted; released while the part is held (R187, R199). -/
def State.attn (s : State) : Bool :=
  !s.held && (match s.link.attnMode with
    | .level => s.link.reply.isSome || !s.link.notices.isEmpty
    | .pulse => s.link.pulse)

/-- The condition that the MON select chooses (R189). -/
def State.monSource (s : State) : Bool :=
  match s.sup.monSelect with
  | 1 => s.angle.bin = 0
  | 2 => s.inHold
  | 3 => s.groups.shockMode
  | 4 => s.seek.valid
  | 5 => 0 < s.track.offCount
  | 6 => s.attn
  | 7 => s.sup.mute
  | _ => false

/-- MON, true for high; low while the part is held (R187, R189). -/
def State.mon (s : State) : Bool := s.monSource && !s.held

end Sys2Proof.Machine
end

