-- ==== Sys2Proof/Machine/Ops.lean ====
section
/-! DEFINITION. The shared operations that every block uses: handing on inside a step, the free order, posting a notice, placing a
reply, the power mode, and the debounced lines. -/

namespace Sys2Proof.Machine

/-- Hands a signal on; `settle` delivers it inside the same step. -/
def emit (x : Signal) (s : State) : State := s.setSignals (s.signals ++ [x])

/-- Hands a signal on ahead of every other: the next thing the step takes. -/
def emitNow (x : Signal) (s : State) : State := s.setSignals (x :: s.signals)

/-- Reads a free order: whether the first of two events that come together is taken first (log entry 1). -/
def takeOrder (s : State) : Bool × State :=
  (Config.freeOrder s.freeCount, s.setFreeCount (s.freeCount + 1))

/-! ## Notices and replies -/

/-- ATTN in PULSE mode: a pulse begins, or begins again (R199). -/
def Link.startPulse (l : Link) : Link := { l with pulse := l.attnMode = .pulse }

/-- Whether a kind is masked (R196, R206). -/
def Link.masked (l : Link) (k : NoticeKind) : Bool := l.mask.getLsbD (k.code - 0x40)

/-- Replaces the payload of the unread record of kind `k`. -/
def replaceNotice (k : NoticeKind) (payload : List Byte) (notices : List Notice) : List Notice :=
  notices.map (fun n => if n.kind = k then { n with payload := payload } else n)

/-- An update in place of the notice in flight marks the record in flight changed (R195). -/
def Link.markFlight (l : Link) (k : NoticeKind) : Link :=
  match l.flight, l.notices with
  | some f, n :: _ => if f.source = .notice && n.kind = k then { l with flight := some { f with changed := true } } else l
  | _, _ => l

/-- Posting a notice: masked, updated in place, appended or dropped (R196). -/
def Link.post (k : NoticeKind) (payload : List Byte) (l : Link) : Link :=
  if l.masked k then l
  else if k.isState && l.notices.any (fun n => n.kind = k) then
    Link.startPulse (Link.markFlight { l with notices := replaceNotice k payload l.notices } k)
  else if l.notices.length < 8 then
    Link.startPulse { l with notices := l.notices ++ [⟨k, payload⟩] }
  else { l with overflow := true }

/-- A block posts a notice (R196). -/
def post (k : NoticeKind) (payload : List Byte) (s : State) : State := s.setLink (s.link.post k payload)

/-- Places a reply in the reply slot (R193, R194, R199). -/
def Link.place (r : OutRecord) (l : Link) : Link := Link.startPulse { l with reply := some r }

/-- The reply to a request of kind `kind` (R193). -/
def reply (kind : Nat) (st : Status) (payload : List Byte) (s : State) : State :=
  s.setLink (s.link.place ⟨replyKind (byte kind), byte st.code, payload⟩)

/-! ## Debounced lines -/

/-- A debounced line. -/
def Supervisor.line (x : Supervisor) : DebLine → Debounced
  | .slot => x.slot
  | .clampEnd => x.clampEnd
  | .ejectEnd => x.ejectEnd
  | .innerLimit => x.innerLimit
  | .supplyLow => x.supplyLow

/-- Writes a debounced line. -/
def Supervisor.setLine (x : Supervisor) (l : DebLine) (d : Debounced) : Supervisor :=
  match l with
  | .slot => { x with slot := d }
  | .clampEnd => { x with clampEnd := d }
  | .ejectEnd => { x with ejectEnd := d }
  | .innerLimit => { x with innerLimit := d }
  | .supplyLow => { x with supplyLow := d }

/-! ## Power mode -/

/-- Entry to a power mode: a POWER notice at each entry to a new mode (R181). -/
def setPower (m : Power) (s : State) : State :=
  if s.sup.power = m then s
  else post .power [byte m.code] (s.setSup { s.sup with power := m })

/-- A wake from SLEEP: the mode entered, and SHOCK's level taken as the level last seen (R174, R184). In any other mode nothing
happens. -/
def wakeTo (m : Power) (s : State) : State :=
  if s.sup.power = .sleep then setPower m (s.setSup { s.sup with shockSeen := s.sup.shockPin })
  else s

end Sys2Proof.Machine
end

