-- ==== Sys2Proof/Machine/Defects.lean ====
section
/-! DEFINITION. The Defect Window Table (R65 to R76). -/

namespace Sys2Proof.Machine

/-! ## Bins and ranges -/

/-- Whether `b` is one of the `span` bins from `first` on, each modulo 64. -/
def inSpan (first : Fin 64) (span : Nat) (b : Fin 64) : Bool := (b - first).val < span

/-- Whether two runs of bins share a bin. -/
def spansMeet (f1 : Fin 64) (n1 : Nat) (f2 : Fin 64) (n2 : Nat) : Bool := inSpan f1 n1 f2 || inSpan f2 n2 f1

/-- The last bin of an entry. -/
def Defect.lastBin (d : Defect) : Fin 64 := d.first + Fin.ofNat 64 (d.span + 63)

/-- tp_cur lies in inner..outer. -/
def Defect.inRange (d : Defect) (tp : Nat) : Bool := d.inner ≤ tp && tp ≤ d.outer

/-- The entry covers the pickup (R66). -/
def Defect.covers (d : Defect) (b : Fin 64) (tp : Nat) : Bool := inSpan d.first d.span b && d.inRange tp

/-- sat(tp_cur − 16, 0..4,194,303). -/
def lowTrack (tp : Nat) : Nat := min maxBlock (tp - 16)

/-- sat(tp_cur + 16, 0..4,194,303). -/
def highTrack (tp : Nat) : Nat := min maxBlock (tp + 16)

/-- The range widened to include tp_cur ± 16 (R65). -/
def Defect.widen (d : Defect) (tp : Nat) : Defect :=
  { d with inner := min d.inner (lowTrack tp), outer := max d.outer (highTrack tp) }

/-- The union of two runs of bins that meet: the shortest run that holds every bin of both (R68). -/
def unionSpan (f1 : Fin 64) (n1 : Nat) (f2 : Fin 64) (n2 : Nat) : Fin 64 × Nat :=
  if inSpan f1 n1 f2 then (f1, max n1 ((f2 - f1).val + n2)) else (f2, max n2 ((f1 - f2).val + n1))

/-! ## The table -/

/-- The entry at an index. -/
def DefectTable.entry (t : DefectTable) (i : Nat) : Option Defect := (t.entries[i]?).getD none

/-- Writes an index. -/
def DefectTable.put (t : DefectTable) (i : Nat) (d : Option Defect) : DefectTable :=
  { t with entries := t.entries.setIfInBounds i d }

/-- The same change to every entry. -/
def DefectTable.update (t : DefectTable) (f : Defect → Defect) : DefectTable :=
  { t with entries := mapTable (fun d => d.map f) t.entries }

/-- Number of entries (R64). -/
def DefectTable.count (t : DefectTable) : Nat := t.entries.toList.countP (·.isSome)

/-- The lowest free index (R65). -/
def DefectTable.freeIndex (t : DefectTable) : Option Nat := firstIndex (·.isNone) t.entries.toList 0

/-- The LEARNED entry with the lowest hits, the lowest index among equals (R69): index and hits. -/
def weakest : List (Option Defect) → Nat → Option (Nat × Nat) → Option (Nat × Nat)
  | [], _, best => best
  | d :: ds, i, best =>
    let best' :=
      match d, best with
      | some x, none => if x.origin = .learned then some (i, x.hits) else none
      | some x, some b => if x.origin = .learned && x.hits < b.2 then some (i, x.hits) else best
      | none, _ => best
    weakest ds (i + 1) best'

/-- The index an eviction frees. -/
def DefectTable.evictIndex (t : DefectTable) : Option Nat := (weakest t.entries.toList 0 none).map Prod.fst

/-- The armed flag evaluated for a bin and track position (R66). -/
def DefectTable.arm (t : DefectTable) (b : Fin 64) (tp : Nat) : DefectTable :=
  { t with armed := t.entries.toList.any (fun d => match d with | some x => x.covers b tp | none => false) }

/-- The arming at once after a change of the table's entries (R66). -/
def rearm (s : State) : State := s.setDefects (s.defects.arm s.angle.bin s.seek.tpCur)

/-- The arming after the hits taken since `old`: at once where a hit has changed an entry, and else not (R66, log entry 36). -/
def rearmIfChanged (old s : State) : State := if s.defects.entries = old.defects.entries then s else rearm s

/-- A DEFECT notice (R75). -/
def postDefect (r : DefectReason) (index : Nat) (s : State) : State := post .defect [byte r.code, byte index] s

/-! ## Holds that end (R63, R67 to R69) -/

/-- The region of a hold that ended normally (R63). -/
structure Region where
  first : Fin 64
  span : Nat
  length : Nat
  depth : Nat
  armed : Bool
  deriving DecidableEq, Repr

/-- The effect of a hit (R67). -/
def Defect.hit (d : Defect) (depth tp : Nat) : Defect :=
  { d.widen tp with
    hits := countUp 255 d.hits
    depth := some (match d.depth with | some x => min x depth | none => depth) }

/-- Whether an entry takes a hit from a region (R67). -/
def Defect.hitBy (d : Defect) (r : Region) (tp : Nat) : Bool := spansMeet d.first d.span r.first r.span && d.inRange tp

/-- The hits of an armed hold (R67). -/
def hitEntries (r : Region) (s : State) : State :=
  s.setDefects (s.defects.update (fun d => if d.hitBy r s.seek.tpCur then d.hit r.depth s.seek.tpCur else d))

/-- Whether an entry qualifies for the merge of a region (R68). -/
def Defect.merges (d : Defect) (r : Region) (tp : Nat) : Bool :=
  d.origin = .learned && spansMeet d.first d.span r.first r.span
    && d.inner ≤ tp + 64 && tp ≤ d.outer + 64
    && (unionSpan d.first d.span r.first r.span).2 ≤ 16

/-- The merge of a region into an entry (R68). -/
def Defect.merge (d : Defect) (r : Region) (tp : Nat) : Defect :=
  let u := unionSpan d.first d.span r.first r.span
  { d.hit r.depth tp with first := u.1, span := u.2, pass := .none }

/-- The entry a region creates (R69). -/
def Region.entry (r : Region) (tp : Nat) : Defect :=
  { origin := .learned, first := r.first, span := r.span, inner := lowTrack tp, outer := highTrack tp, hits := 2,
    depth := some r.depth, pass := .none }

/-- Index `i` as learning leaves it, with the arming at once and the notice (R66, R75). -/
def putLearned (i : Nat) (d : Option Defect) (s : State) : State :=
  postDefect .learned i (rearm (s.setDefects (s.defects.put i d)))

/-- The creation of an entry, with an eviction where no index is free (R69). -/
def createEntry (r : Region) (s : State) : State :=
  let d := r.entry s.seek.tpCur
  match s.defects.freeIndex with
  | some i => putLearned i (some d) s
  | none =>
    match s.defects.evictIndex with
    | some i => putLearned i (some d) (postDefect .evicted i s)
    | none => postDefect .full 255 s

/-- Learning from a region: a merge into the qualifying entry of lowest index, else a new entry (R68, R69). -/
def learnRegion (r : Region) (s : State) : State :=
  let test := fun d => match d with | some x => Defect.merges x r s.seek.tpCur | none => false
  match firstIndex test s.defects.entries.toList 0 with
  | some i => putLearned i ((s.defects.entry i).map (·.merge r s.seek.tpCur)) s
  | none => createEntry r s

/-- Whether an unarmed hold is offered for learning (R63). -/
def offered (r : Region) (s : State) : Bool :=
  8 ≤ r.length && !s.groups.shockMode && (s.seq.state = .following || s.seq.state = .paused) && s.seek.valid

/-- The table's treatment of a region (R63). -/
def takeRegion (r : Region) (s : State) : State :=
  if r.armed then
    if s.seek.valid then rearmIfChanged s (hitEntries r s) else s
  else if offered r s then learnRegion r s
  else s

/-! ## Passes and aging (R70, R71) -/

/-- The pass state on a sample in one of the entry's bins (R70). -/
def Pass.onSample (p : Pass) (inHold : Bool) : Pass :=
  match p with
  | .none => .none
  | .watching => if inHold then .hit else .clean
  | .clean => if inHold then .hit else .clean
  | .hit => .hit

/-- The marks of a sample taken in hold, or with the focus loop LOCKED and not in hold (R70). -/
def DefectTable.markSample (t : DefectTable) (b : Fin 64) (inHold : Bool) : DefectTable :=
  t.update (fun d => if inSpan d.first d.span b then { d with pass := d.pass.onSample inHold } else d)

/-- The focus loop leaves LOCKED and HOLD for OFF or SEARCH (R70). -/
def Pass.onFocusLeft : Pass → Pass
  | .hit => .hit
  | .none => .none
  | .watching => .none
  | .clean => .none

/-- The same for every entry. -/
def DefectTable.focusLeft (t : DefectTable) : DefectTable :=
  t.update (fun d => { d with pass := d.pass.onFocusLeft })

/-- An entry whose last bin ends: none if it expires (R71). -/
def Defect.age (d : Defect) (tp : Nat) : Option Defect :=
  if d.pass = .clean && d.inRange tp then
    let d' := { d with hits := d.hits - 1, pass := .none }
    if d.origin = .learned && d'.hits = 0 then none else some d'
  else some { d with pass := .none }

/-- The entries at a boundary that ends bin `ending` (R71). -/
def ageEntry (ending : Fin 64) (tp : Nat) (d : Option Defect) : Option Defect :=
  match d with
  | some x => if x.lastBin = ending then x.age tp else some x
  | none => none

/-- The indices whose entries expire at a boundary, ascending. -/
def expiring (ending : Fin 64) (tp : Nat) : List (Option Defect) → Nat → List Nat
  | [], _ => []
  | d :: ds, i =>
    if d.isSome && (ageEntry ending tp d).isNone then i :: expiring ending tp ds (i + 1)
    else expiring ending tp ds (i + 1)

/-- The pass state at the boundary that begins the entry's first bin (R70). -/
def Defect.begin (d : Defect) (beginning : Fin 64) (focusHeld : Bool) : Defect :=
  if d.first = beginning then { d with pass := if focusHeld then .watching else .none } else d

/-- The table at a bin boundary: aging of the entries whose last bin ends, the passes that begin, and the arming for the beginning
bin. Several entries that expire at once are noticed in ascending index (R66, R70, R71, log entry 37). -/
def defectBoundary (ending beginning : Fin 64) (s : State) : State :=
  let tp := s.seek.tpCur
  let gone := expiring ending tp s.defects.entries.toList 0
  let aged := { s.defects with entries := mapTable (ageEntry ending tp) s.defects.entries }
  let begun := aged.update (fun d => d.begin beginning s.focusHeld)
  let s := s.setDefects (begun.arm beginning tp)
  gone.foldl (fun s i => postDefect .expired i s) s

end Sys2Proof.Machine
end

