-- ==== Sys2Proof/Machine/FrontEnd.lean ====
section
/-! DEFINITION. The Signal Front End: offsets, normalization, the coefficient c and its level, the crossing detector (R1 to R16). -/

namespace Sys2Proof.Machine

/-- What the Front End forms from one set of converter values (R1). -/
structure Formed where
  fec : Int
  tec : Int
  eF : Int
  eT : Int
  sumRaw : Nat
  sumN : Nat
  deriving DecidableEq, Repr

/-- The offset-corrected error (R2). -/
def correct (raw off : Int) : Int := sat (-2047) 2047 (raw - off)

/-- The normalized error: the magnitude rounded half away from zero, the sign put back, saturated (R11). -/
def normalize (c : Nat) (x : Int) : Int :=
  let m : Int := ((mag x * c + 512) / 1024 : Nat)
  satDrive (if x < 0 then -m else m)

/-- The normalized SUM (R12). -/
def normalizeSum (c sumRaw : Nat) : Nat := min 4095 (sumRaw * c / 1024)

/-- The Front End's work on one sample, with the c in force when it is taken (R1, R2, R11, R12). -/
def formSample (fe : FrontEnd) (feRaw teRaw sumRaw : Adc) : Formed :=
  let fec := correct feRaw.toInt fe.feOff
  let tec := correct teRaw.toInt fe.teOff
  { fec := fec, tec := tec, eF := normalize fe.c fec, eT := normalize fe.c tec,
    sumRaw := sumRaw.toNat, sumN := normalizeSum fe.c sumRaw.toNat }

/-- The level of a coefficient in a group (R10). -/
def levelOf (g : GroupRec) (c : Nat) : Nat :=
  if c ≤ g[11] then 0 else if c ≤ g[12] then 1 else if c ≤ g[13] then 2 else 3

/-- D_L of a level (R10). -/
def dropThreshold (g : GroupRec) (level : Nat) : Nat :=
  match level with
  | 0 => g[14]
  | 1 => g[15]
  | 2 => g[16]
  | _ => g[17]

/-- Sets c, clamped into the group's c_min..c_max, and evaluates L again (R9, R10). -/
def FrontEnd.setC (fe : FrontEnd) (g : GroupRec) (c : Nat) : FrontEnd :=
  let c := satNat g[9] g[10] c
  { fe with c := c, level := levelOf g c }

/-- The clamp at a group switch (R9). -/
def FrontEnd.switchGroup (fe : FrontEnd) (g : GroupRec) : FrontEnd := fe.setC g fe.c

/-- The setting at the start of an ENGAGE (R8). -/
def FrontEnd.engage (fe : FrontEnd) (g : GroupRec) : FrontEnd :=
  { fe.setC g 1024 with sumAcc := 0, sumCount := 0 }

/-- The new c of a bin that closes with count 1 or more, before the clamp (R6). -/
def binCoefficient (g : GroupRec) (sum count : Nat) : Nat :=
  let mean := sum / count
  if mean = 0 then g[10] else (2048 * g[8] + mean) / (2 * mean)

/-- The close of a bin's measurement; with a hold in force it is discarded and c is frozen (R6, R7). -/
def FrontEnd.closeBin (fe : FrontEnd) (g : GroupRec) (inHold : Bool) : FrontEnd :=
  if inHold then { fe with sumAcc := 0, sumCount := 0 }
  else
    let c := if fe.sumCount = 0 then fe.c else binCoefficient g fe.sumAcc fe.sumCount
    { fe.setC g c with sumAcc := 0, sumCount := 0 }

/-- SUM accumulation on a sample not in hold with the focus loop LOCKED (R5). -/
def FrontEnd.accumulate (fe : FrontEnd) (sumRaw : Nat) : FrontEnd :=
  if 65535 ≤ fe.sumCount then fe
  else { fe with sumAcc := fe.sumAcc + sumRaw, sumCount := fe.sumCount + 1 }

/-- The side after a sample not in hold, and whether it detects a crossing (R13). -/
def crossingStep (side : Side) (tec : Int) : Side × Bool :=
  match side with
  | .unknown => if tec ≤ -128 then (.negative, false) else if 128 ≤ tec then (.positive, false) else (.unknown, false)
  | .negative => if 128 ≤ tec then (.positive, true) else (.negative, false)
  | .positive => if tec ≤ -128 then (.negative, true) else (.positive, false)

/-- The crossing detector on one sample (R13, R14). -/
def FrontEnd.cross (fe : FrontEnd) (inHold : Bool) (tec : Int) : FrontEnd :=
  if inHold then { fe with crossingNow := false }
  else
    let r := crossingStep fe.side tec
    { fe with side := r.1, crossingNow := r.2, crossings := if r.2 then countUp 16777215 fe.crossings else fe.crossings }

/-- The restart of the crossing count at the start of a counted move. With a crossing on the same sample, the order of the two is
free: the count is 0 if the crossing is taken first and 1 if the restart is (R14). -/
def restartCrossings (s : State) : State :=
  if s.fe.crossingNow then
    let r := takeOrder s
    r.2.setFe { r.2.fe with crossings := if r.1 then 0 else 1, crossingNow := false }
  else s.setFe { s.fe with crossings := 0 }

/-- The stop of the converters at entry to SLEEP (R15). -/
def FrontEnd.stop (fe : FrontEnd) : FrontEnd := { fe with sumAcc := 0, sumCount := 0, side := .unknown }

end Sys2Proof.Machine
end

