-- ==== Sys2Proof/Machine/Loops.lean ====
section
/-! DEFINITION. The Loop Processor: compensator, orders, procedures, incidents (R35 to R57). -/

namespace Sys2Proof.Machine

/-! ## Arithmetic (R35, R36) -/

/-- One run of the compensator with gains kp, ki, kd on error e, and the drive with feedforward ff (R36). -/
def Axis.compensate (x : Axis) (kp ki kd : Nat) (e ff : Int) : Axis :=
  let a := sat (-8388608) 8388607 (x.a + ki * e)
  let sum := kp * e + a / 64 + kd * (e - x.ePrev)
  let uc := satDrive (sum / 256)
  { x with a := a, uc := uc, ePrev := e, u := satDrive (uc + ff) }

/-- A sample whose controller output is given: u = sat(u_c + ff) (R35). -/
def Axis.output (x : Axis) (uc ff : Int) : Axis := { x with uc := uc, u := satDrive (uc + ff) }

/-- The search ramp at a sweep position (R41). -/
def searchRamp (p : Nat) : Int :=
  if p < 8192 then -1024 + ((p / 4 : Nat) : Int) else 1024 - (((p - 8192) / 4 : Nat) : Int)

/-! ## Opening the loops (R55, R56) -/

/-- The tracking loop enters OFF; the sled drive goes to 0 if a move was in progress (R56). -/
def openTrack (s : State) : State :=
  let sled := if s.track.state = .openSeek then { s.sled with drive := 0, move := none } else s.sled
  (s.setTrack {}).setSled sled

/-- The focus loop enters OFF; a hold in force ends and passes under way are dropped (R56, R58, R70). -/
def focusToOff (s : State) : State :=
  let table := if s.focusHeld then s.defects.focusLeft else s.defects
  ((s.setFocus {}).setDet { s.det with inHold := false }).setDefects table

/-- The open focus order (R56). -/
def openFocus (s : State) : State := openTrack (focusToOff s)

/-! ## Orders (R40) -/

/-- The search order (R41). -/
def searchOrder (s : State) : State :=
  if s.focus.state = .off then s.setFocus { s.focus with state := .search, sweep := 1, pos := 0, prevFec := none }
  else s

/-- The tracking loop in PULLIN at a given attempt, with A = 0 and the timer at 0 (R43, R45, R46). -/
def TrackLoop.pullIn (t : TrackLoop) (attempt : Nat) : TrackLoop :=
  { t with state := .pullin, ax := { t.ax with a := 0, h := 0 }, attempt := attempt, timer := 0, offCount := 0,
           phase := .none }

/-- The end of a sled move: drive 0 (R49, R50, R51). -/
def Sled.endMove (x : Sled) : Sled := { x with drive := 0, move := none }

/-- The sled at a change that takes the tracking loop out of OPEN_SEEK. -/
def leaveMove (s : State) : State := if s.track.state = .openSeek then s.setSled s.sled.endMove else s

/-- The pull-in order (R43). -/
def pullInOrder (s : State) : State :=
  if s.focusHeld then
    let s := leaveMove s
    s.setTrack { s.track.pullIn 1 with goal := .trackLocked, byPause := false }
  else emitNow (.trackFail false) (openTrack s)

/-- The jump order of `n` tracks, by the sequencer's PAUSE or by the Seek Engine: whether it was taken (R47). An order of 0 tracks
enters SETTLING with the settle run at 0 and jump done due (log entry 38). Where a crossing of the same sample is counted after the restart
(R14), a jump of one track is in KICK until the next sample takes the phase from the count: the model's choice (log entry 50). -/
def jumpOrder (n : Int) (byPause : Bool) (s : State) : Bool × State :=
  if s.trackHeld then
    if n = 0 then
      (true, s.setTrack { s.track with state := .settling, timer := 0, settleRun := 0, offCount := 0, fromPullin := false,
                                       goal := .jumpDone, byPause := byPause })
    else
      let s := s.setTrack { s.track with state := .jumping, phase := .kick, jumpLen := n, stall := 0, offCount := 0,
                                         goal := .jumpDone, byPause := byPause }
      (true, restartCrossings s)
  else (false, s)

/-- The move order, with its direction and crossing count: whether it was taken (R49). -/
def moveOrder (outward : Bool) (count : Nat) (s : State) : Bool × State :=
  if s.trackHeld then
    let s := s.setTrack { s.track with state := .openSeek, stall := 0, offCount := 0, moveCount := count,
                                       goal := .trackLocked, byPause := false }
    (true, restartCrossings (s.setSled { s.sled with move := some outward }))
  else (false, s)

/-- The tracking loop in JUMPING, phase CLOSE. The timer counts the samples toward the close without a crossing: from the last
crossing of the move, or from the stop order if the move had none (R50). -/
def TrackLoop.close (t : TrackLoop) (crossings : Nat) : TrackLoop :=
  { t with state := .jumping, phase := .close, goal := .jumpDone, timer := if crossings = 0 then 0 else t.stall }

/-- The stop order (R50). -/
def stopOrder (s : State) : State :=
  match s.track.state, s.track.phase with
  | .openSeek, _ => (s.setSled s.sled.endMove).setTrack (s.track.close s.fe.crossings)
  | .jumping, .kick => s.setTrack (s.track.close s.fe.crossings)
  | .jumping, .brake => s.setTrack (s.track.close s.fe.crossings)
  | .jumping, .coast => s.setTrack (s.track.close s.fe.crossings)
  | _, _ => s

/-! ## Procedures of the tracking loop -/

/-- The tracking loop enters LOCKED and reports what is due (R43, R45, R48). -/
def enterLocked (s : State) : State :=
  let goal := s.track.goal
  let byPause := s.track.byPause
  let s := s.setTrack { s.track with state := .locked, offCount := 0, goal := .none, byPause := false }
  let s := match goal with
    | .none => s
    | .trackLocked => emit .trackLocked s
    | .jumpDone => emit (.jumpDone byPause) s
  emit .lockEntered s

/-- The close into SETTLING from PULLIN: A = 0, e_prev the sample's e_t, the timer runs on (R43). -/
def TrackLoop.closePullIn (t : TrackLoop) (eT : Int) : TrackLoop :=
  { t with state := .settling, ax := { t.ax with a := 0, ePrev := eT }, settleRun := 0, fromPullin := true }

/-- The close into SETTLING of a jump or a stopped move: A as it was frozen (R48, R50). -/
def TrackLoop.closeJump (t : TrackLoop) (eT : Int) : TrackLoop :=
  { t with state := .settling, phase := .none, ax := { t.ax with ePrev := eT }, settleRun := 0, timer := 0,
           fromPullin := false }

/-- A failed pull-in attempt: the next attempt, or OFF with TRACK_FAIL after the third (R46). -/
def attemptFails (s : State) : State :=
  if 3 ≤ s.track.attempt then emit (.trackFail s.track.byPause) (openTrack s)
  else s.setTrack (s.track.pullIn (s.track.attempt + 1))

/-- The 1,280-sample limit reached in PULLIN or SETTLING (R45, R46). -/
def settleTimeout (s : State) : State :=
  match s.track.state with
  | .pullin => attemptFails s
  | .settling =>
    if s.track.fromPullin then attemptFails s
    else
      let goal := if s.track.goal = .jumpDone then Goal.jumpDone else .trackLocked
      s.setTrack { s.track.pullIn 1 with goal := goal }
  | _ => s

/-- CLOSE reaches 1,280 samples with no crossing: the loop closes where it is, with e_prev the e_t of that sample, a sample
in hold too (R50, R37, log entry 49). -/
def closeTimeout (s : State) : State :=
  if s.track.state = .jumping && s.track.phase = .close then s.setTrack (s.track.closeJump s.fe.eT) else s

/-- Whether the tracking loop is in a move whose stall is counted (R51). -/
def stalls (t : TrackLoop) : Bool :=
  t.state = .openSeek || (t.state = .jumping && (t.phase = .kick || t.phase = .brake || t.phase = .coast))

/-- A stall: PULLIN at attempt 1 with h at 0 (log entry 39), OFF_TRACK raised, the sled drive 0 (R51). -/
def moveStall (s : State) : State :=
  if stalls s.track then
    let s := leaveMove s
    emit .offTrack (s.setTrack { s.track.pullIn 1 with goal := .trackLocked, byPause := false })
  else s

/-! ## Incidents (R52 to R55) -/

/-- OFF_TRACK from the off-track test or at a group switch (R53). -/
def raiseOffTrack (s : State) : State :=
  if s.trackHeld then
    emit .offTrack (s.setTrack { s.track with state := .settling, settleRun := 0, timer := 0, offCount := 0,
                                              fromPullin := false, goal := .none, byPause := false })
  else s

/-- FOCUS_LOST: both loops OFF, the sled drive 0, the incident handed on (R55). -/
def raiseFocusLost (s : State) : State :=
  if s.focusHeld then
    let s := openFocus s
    emit .focusLost (s.setSled { s.sled with drive := 0 })
  else s

/-- The off-track counter stands at its limit (R39, R52). -/
def State.offTrackDue (s : State) : Bool := s.trackHeld && s.active[23] ≤ s.track.offCount

/-- The focus-lost counter stands at its limit (R39, R54). -/
def State.focusLostDue (s : State) : Bool := s.focusHeld && s.active[25] ≤ s.focus.lost

/-- FOCUS_LOST falls due: it acts at once, or behind an OFF_TRACK raised before it and not yet taken (R55, log entry 7). -/
def loseFocus (s : State) : State :=
  if .offTrack ∈ s.signals then emit .focusLostDue s else raiseFocusLost s

/-- The incidents whose counters stand at their limits. Where both do, their order is free; after FOCUS_LOST no OFF_TRACK is
raised (R39, R52 to R55). -/
def raiseDue (s : State) : State :=
  if s.offTrackDue && s.focusLostDue then
    let r := takeOrder s
    if r.1 then loseFocus (raiseOffTrack r.2) else raiseFocusLost r.2
  else if s.offTrackDue then raiseOffTrack s
  else if s.focusLostDue then loseFocus s
  else s

end Sys2Proof.Machine
end

