-- ==== Sys2Proof/Machine/Groups.lean ====
section
/-! DEFINITION. The Group Store: group switch, launches, shock mode (R77 to R94). -/

namespace Sys2Proof.Machine

/-- The group switch: c is clamped and L evaluated again, and the loops' counters are tested against the new limits (R81). -/
def groupSwitch (s : State) : State := raiseDue (s.setFe (s.fe.switchGroup s.active))

/-- A change of the Group Store's settings, with the group switch where the active group becomes another record (R80). -/
def regroup (g : Groups) (s : State) : State :=
  let old := activeId s.groups
  let s := s.setGroups g
  if activeId g = old then s else groupSwitch s

/-- A launch takes effect: the base group becomes the named group (R88). -/
def launchGroup (g : GroupId) (s : State) : State := regroup { s.groups with base := g } s

/-- A pending launch takes effect; its LAUNCH notice follows what `between` does (R87). -/
def takePendingThen (between : State → State) (s : State) : State :=
  match s.groups.pending with
  | none => between s
  | some g =>
    post .launch [byte g.val] (between (launchGroup g (s.setGroups { s.groups with pending := none })))

/-- A pending launch takes effect, with its LAUNCH notice (R87). -/
def takePending (s : State) : State := takePendingThen id s

/-- A shock trigger: entry to shock mode, or a further trigger in it (R90, R91). -/
def shockTrigger (s : State) : State :=
  if s.seq.state.engaged && !(s.seq.state = .disengaging) then
    if s.groups.shockMode then s.setGroups { s.groups with clean := 0, disturbed := true }
    else
      let s := regroup { s.groups with shockMode := true, clean := 0, disturbed := true } s
      post .shock [1, byte s.groups.shock.val] s
  else s

/-- The end of shock mode (R93). -/
def endShock (s : State) : State :=
  if s.groups.shockMode then
    let s := regroup { s.groups with shockMode := false, clean := 0, disturbed := false } s
    post .shock [0, byte s.groups.base.val] s
  else s

/-- A FOCUS_LOST incident disturbs the revolution in shock mode (R91). -/
def disturb (s : State) : State :=
  if s.groups.shockMode then s.setGroups { s.groups with disturbed := true } else s

/-- The clean count after the revolution that has just ended (R92). -/
def Groups.cleanNext (g : Groups) : Nat := if g.disturbed then g.clean else g.clean + 1

/-- The index event would end shock mode (R92, R93). -/
def Groups.exitDue (g : Groups) : Bool := g.shockMode && g.shockRevs ≤ g.cleanNext

/-- The revolution counted at an index event in shock mode (R92). -/
def countRevolution (s : State) : State :=
  if s.groups.shockMode then
    if s.groups.exitDue then endShock s
    else s.setGroups { s.groups with clean := s.groups.cleanNext, disturbed := false }
  else s

/-- The Group Store at an index event: the pending launch and the clean count. Where the launch meets the end of shock mode, their
order is free; in either the SHOCK notice comes before the LAUNCH notice (R87, R92, R93). -/
def groupIndex (s : State) : State :=
  if s.groups.pending.isSome && s.groups.exitDue then
    let r := takeOrder s
    if r.1 then takePendingThen countRevolution r.2 else takePending (countRevolution r.2)
  else countRevolution (takePending s)

/-- The index event finds a launch to take or shock mode to end. -/
def Groups.indexActs (g : Groups) : Bool := g.pending.isSome || g.exitDue

end Sys2Proof.Machine
end

