-- ==== Sys2Proof/Machine/Spindle.lean ====
section
/-! DEFINITION. The Spindle Controller: target, orders, edges, timeouts, coast (R95 to R106), and the zone arithmetic it shares with
the Seek Engine (R97, R117). -/

namespace Sys2Proof.Machine

/-! ## Zones (R97, R117) -/

/-- The last index whose zone begins at or below the address, counted on from `i`; `best` where there is none. -/
def lastZone (a : Nat) : List Zone → Nat → Nat → Nat
  | [], _, best => best
  | z :: zs, i, best => lastZone a zs (i + 1) (if z.first ≤ a then i else best)

/-- The zone that contains an address: the highest index whose F_z is at or below it (R97). -/
def zoneOf (zones : List Zone) (a : Nat) : Nat := lastZone a zones 0 0

/-- The reset Zone Table's one zone (R131). -/
def resetZone : Zone := ⟨0, 3200, 20000⟩

/-- The record of a zone. -/
def zoneAt (zones : List Zone) (z : Nat) : Zone := (zones[z]?).getD resetZone

/-- first_track of the zones after one whose first track is `track` (R117). -/
def tracksAfter (z : Zone) (track : Nat) : List Zone → List Nat
  | [] => []
  | y :: ys =>
    let next := track + (y.first - z.first) * 256 / z.bpt
    next :: tracksAfter y next ys

/-- The list of first tracks of a table (R117). -/
def firstTracksOf : List Zone → List Nat
  | [] => []
  | z :: zs => 0 :: tracksAfter z 0 zs

/-- tp(A): the track position of an address (R117). -/
def Seek.track (x : Seek) (a : Nat) : Nat :=
  let z := zoneOf x.zones a
  let r := zoneAt x.zones z
  (x.firstTracks[z]?).getD 0 + (a - r.first) * 256 / r.bpt

/-! ## The target (R97) -/

/-- The target of the SEEK entry in progress. -/
def State.seekTarget (s : State) : Option Nat :=
  match s.current with
  | some e =>
    match e.motion with
    | .seek t => some t
    | .engage => none
    | .jump _ => none
    | .pause => none
    | .disengage => none
  | none => none

/-- The zone the target T is taken from (R97). -/
def State.referenceZone (s : State) : Nat :=
  let own := if s.seek.known then zoneOf s.seek.zones s.seek.aCur else 0
  if s.seq.state = .seeking then
    match s.seekTarget with
    | some t => zoneOf s.seek.zones t
    | none => own
  else own

/-- T evaluated again (R97). -/
def evalTarget (s : State) : State :=
  s.setSpindle { s.spindle with target := (zoneAt s.seek.zones s.referenceZone).interval }

/-! ## Changes of state (R95, R105) -/

/-- Whether a change of state is reported in a SPINDLE notice: an entry to LOCKED or an exit from it (R105). -/
def spindleReports (old new : SpindleState) : Bool := (old = .locked || new = .locked) && !(old = new)

/-- The controller's new state, with its SPINDLE notice, handed to the sequencer (R105). -/
def setSpindleState (x : Spindle) (s : State) : State :=
  let old := s.spindle.state
  let s := s.setSpindle x
  let s := if spindleReports old x.state then post .spindle [byte x.state.code] s else s
  if old = x.state then s else emit .spindleMoved s

/-- Entry to KICK (R99). -/
def enterKick (s : State) : State :=
  setSpindleState { s.spindle with state := .kick, drive := 2047, lockRun := 0, unlockRun := 0, timer := 0 } s

/-- Entry to COAST (R104). -/
def enterCoast (s : State) : State :=
  setSpindleState { s.spindle with state := .coast, drive := 0, lockRun := 0, unlockRun := 0 } s

/-- Entry to BRAKING (R103). -/
def enterBraking (s : State) : State :=
  setSpindleState { s.spindle with state := .braking, drive := -1024, lockRun := 0, unlockRun := 0, timer := 0 } s

/-- What a stop hands on to the sequencer, to the Group Store where a launch is pending, and to the loader where an eject is. The
sequencer's part is taken before, between or after the others in a free order; the launch comes before the release, so that an unclamp
finds none pending (R79, R87, R103, R165, log entry 1). -/
def stopSignals (s : State) : List Signal × State :=
  match s.groups.pending.isSome, s.loader.ejectPending with
  | false, false => ([.spindleStopped], s)
  | true, false =>
    let r := takeOrder s
    (if r.1 then [.launchDue, .spindleStopped] else [.spindleStopped, .launchDue], r.2)
  | false, true =>
    let r := takeOrder s
    (if r.1 then [.loaderDue, .spindleStopped] else [.spindleStopped, .loaderDue], r.2)
  | true, true =>
    let r := takeOrder s
    let q := takeOrder r.2
    (if !r.1 then [.spindleStopped, .launchDue, .loaderDue]
     else if q.1 then [.launchDue, .loaderDue, .spindleStopped]
     else [.launchDue, .spindleStopped, .loaderDue], q.2)

/-- Entry to STOPPED, handed to the Angle Tracker, the Group Store, the sequencer and the loader (R103). -/
def enterStopped (s : State) : State :=
  let s := setSpindleState { s.spindle with state := .stopped, drive := 0, isp := 0, lockRun := 0, unlockRun := 0 } s
  let s := s.setAngle { s.angle with spinUp := 0 }
  let r := stopSignals s
  r.2.setSignals (r.2.signals ++ r.1)

/-! ## Orders (R96) -/

/-- Crank hold or mute is active. -/
def State.motorsHeld (s : State) : Bool := s.sup.crankHold || s.sup.mute

/-- The start order (R96, R97). -/
def startOrder (s : State) : State :=
  let s := evalTarget (s.setSpindle { s.spindle with run := true })
  match s.spindle.state with
  | .stopped => if s.motorsHeld then enterCoast s else enterKick s
  | .braking => if s.motorsHeld then s else enterKick s
  | .kick => s
  | .locking => s
  | .locked => s
  | .coast => s

/-- The brake order (R96). -/
def brakeOrder (s : State) : State :=
  let s := s.setSpindle { s.spindle with run := false }
  match s.spindle.state with
  | .kick => enterBraking s
  | .locking => enterBraking s
  | .locked => enterBraking s
  | .stopped => s
  | .coast => s
  | .braking => s

/-- Crank hold or mute becomes active (R104). -/
def spindleHold (s : State) : State :=
  match s.spindle.state with
  | .kick => enterCoast s
  | .locking => enterCoast s
  | .locked => enterCoast s
  | .braking => enterCoast s
  | .stopped => s
  | .coast => s

/-- The release: neither crank hold nor mute is active any longer (R104). -/
def spindleRelease (s : State) : State :=
  if s.motorsHeld then s
  else if s.spindle.state = .coast then
    if s.spindle.run then enterKick s else enterBraking s
  else s

/-! ## Measured edges (R98 to R101, R103) -/

/-- err = P − T. -/
def Spindle.err (x : Spindle) (p : Nat) : Int := (p : Int) - (x.target : Int)

/-- The computation at a measured edge with gains kp and ki (R98). -/
def Spindle.compute (x : Spindle) (kp ki p : Nat) : Spindle :=
  let e := x.err p
  let isp := sat (-4194304) 4194303 (x.isp + ki * e)
  { x with isp := isp, drive := satDrive ((kp * e + isp / 16) / 256) }

/-- The computation with the active group's gains. -/
def spindleCompute (p : Nat) (s : State) : State :=
  s.setSpindle (s.spindle.compute s.active[27] s.active[28] p)

/-- LOCKING at a measured edge: the computation and the lock test (R98, R100). -/
def lockingEdge (p : Nat) (s : State) : State :=
  let s := spindleCompute p s
  if mag (s.spindle.err p) ≤ s.spindle.target / 32 then
    if 7 ≤ s.spindle.lockRun then
      setSpindleState { s.spindle with state := .locked, lockRun := 8, unlockRun := 0 } s
    else s.setSpindle { s.spindle with lockRun := s.spindle.lockRun + 1 }
  else s.setSpindle { s.spindle with lockRun := 0 }

/-- LOCKED at a measured edge: the computation and the hold test (R98, R101). -/
def lockedEdge (p : Nat) (s : State) : State :=
  let s := spindleCompute p s
  if s.spindle.target / 16 < mag (s.spindle.err p) then
    if 3 ≤ s.spindle.unlockRun then
      setSpindleState { s.spindle with state := .locking, lockRun := 0, unlockRun := 4, timer := 0 } s
    else s.setSpindle { s.spindle with unlockRun := s.spindle.unlockRun + 1 }
  else s.setSpindle { s.spindle with unlockRun := 0 }

/-- KICK at a measured edge (R99). -/
def kickEdge (p : Nat) (s : State) : State :=
  if p ≤ 2 * s.spindle.target then
    lockingEdge p (setSpindleState { s.spindle with state := .locking, timer := 0 } s)
  else s

/-- BRAKING at an edge, with P where the edge measured it (R103). -/
def brakingEdge (p : Option Nat) (s : State) : State :=
  let s := s.setSpindle { s.spindle with timer := 0 }
  match p with
  | some p => if 50000 < p then enterStopped s else s
  | none => s

/-- The Spindle Controller at an FG edge, with P where the edge measured it (R98 to R103). -/
def spindleEdge (p : Option Nat) (s : State) : State :=
  match s.spindle.state, p with
  | .kick, some p => kickEdge p s
  | .locking, some p => lockingEdge p s
  | .locked, some p => lockedEdge p s
  | .braking, p => brakingEdge p s
  | .kick, none => s
  | .locking, none => s
  | .locked, none => s
  | .stopped, _ => s
  | .coast, _ => s

/-! ## Timeouts (R99, R100, R102, R103) -/

/-- A KICK or LOCKING has timed out: SPIN_FAIL, BRAKING, the run demand cleared (R102). -/
def spinFails (s : State) : State :=
  enterBraking (emit .spinFail (s.setSpindle { s.spindle with run := false }))

/-- KICK reaches 1,500 ms (R99). -/
def kickTimeout (s : State) : State := if s.spindle.state = .kick then spinFails s else s

/-- LOCKING reaches 3,000 ms (R100). -/
def lockingTimeout (s : State) : State := if s.spindle.state = .locking then spinFails s else s

/-- BRAKING reaches 100 ms without an FG edge (R103). -/
def brakingTimeout (s : State) : State := if s.spindle.state = .braking then enterStopped s else s

end Sys2Proof.Machine
end

