-- ==== Sys2Proof/Machine/Angle.lean ====
section
/-! DEFINITION. The Angle Tracker and the Revolution Table: bin boundaries, the index event, FG edges (R17 to R34). -/

namespace Sys2Proof.Machine

/-! ## Learning (R28 to R31) -/

/-- sat ±1023. -/
def satFf (x : Int) : Int := sat (-1023) 1023 x

/-- A feedforward value after the close of its bin with λ, sum and count (R30). -/
def learn (ff : Int) (lambda : Nat) (sum : Int) (count : Nat) : Int :=
  if 16 ≤ count then satFf (ff + (lambda * sum.tdiv count + 8) / 16) else ff

/-- The close of a record (R30). -/
def RevRecord.close (r : RevRecord) (fLambda tLambda : Nat) : RevRecord :=
  { trkFf := learn r.trkFf tLambda r.trkSum r.trkCount, focFf := learn r.focFf fLambda r.focSum r.focCount }

/-- One tracking sample added to a record (R29). -/
def RevRecord.addTrack (r : RevRecord) (uc : Int) : RevRecord :=
  if 65535 ≤ r.trkCount then r else { r with trkSum := r.trkSum + uc, trkCount := r.trkCount + 1 }

/-- One focus sample added to a record (R29). -/
def RevRecord.addFocus (r : RevRecord) (uc : Int) : RevRecord :=
  if 65535 ≤ r.focCount then r else { r with focSum := r.focSum + uc, focCount := r.focCount + 1 }

/-- The record of a bin. -/
def State.bin (s : State) : RevRecord := s.rev[s.angle.bin]

/-- Writes the record of a bin. -/
def setBin (b : Fin 64) (r : RevRecord) (s : State) : State := s.setRev (s.rev.set b r)

/-! ## What a boundary does (R23) -/

/-- The Front End at a boundary (R6, R7). -/
def closeFrontEnd (s : State) : State := s.setFe (s.fe.closeBin s.active s.inHold)

/-- The Revolution Table at a boundary that ends bin `ending` (R30). -/
def closeRevolution (ending : Fin 64) (s : State) : State :=
  setBin ending (s.rev[ending].close s.active[3] s.active[7]) s

/-- The sequencer at an index event: the PAUSE jump (R142). -/
def pauseJump (s : State) : State :=
  if s.seq.state = .paused then (jumpOrder (-1) true s).2 else s

/-- The current bin moves on, and a hold in force counts the boundary (R23, R61). -/
def advanceBin (s : State) : State :=
  let s := s.setAngle { s.angle with bin := s.angle.bin + 1 }
  if s.inHold then s.setDet { s.det with boundaries := countUp 15 s.det.boundaries } else s

/-- One block's act, taken before the Group Store's where `before` says so and `now` stands before it. -/
def when (now : Bool) (f : State → State) (s : State) : State := if now then f s else s

/-- The index event: every block's act at the boundary. Where the Group Store has a launch to take or shock mode to end, each
block's act is taken before or after it in a free order (R9, R31, R87, R93). -/
def indexBoundary (ending : Fin 64) (s : State) : State :=
  let s := s.setAngle { s.angle with revs := (s.angle.revs + 1) % 65536 }
  if s.groups.indexActs then
    let a := takeOrder s
    let b := takeOrder a.2
    let c := takeOrder b.2
    let d := takeOrder c.2
    let s := when a.1 closeFrontEnd d.2
    let s := when b.1 (closeRevolution ending) s
    let s := when c.1 (defectBoundary ending 0) s
    let s := when d.1 pauseJump s
    let s := groupIndex s
    let s := when (!a.1) closeFrontEnd s
    let s := when (!b.1) (closeRevolution ending) s
    let s := when (!c.1) (defectBoundary ending 0) s
    when (!d.1) pauseJump s
  else groupIndex (pauseJump (defectBoundary ending 0 (closeRevolution ending (closeFrontEnd s))))

/-- One bin boundary (R23, R24). -/
def boundary (s : State) : State :=
  let ending := s.angle.bin
  let s := advanceBin s
  if s.angle.bin = 0 then indexBoundary ending s
  else defectBoundary ending s.angle.bin (closeRevolution ending (closeFrontEnd s))

/-- Several boundaries in turn. -/
def boundaries : Nat → State → State
  | 0, s => s
  | n + 1, s => boundaries n (boundary s)

/-! ## FG edges (R17 to R19) -/

/-- How many boundaries an edge delivers: 8 minus the position of the current bin within its sector (R17). -/
def owed (b : Fin 64) : Nat := 8 - b.val % 8

/-- The interval an edge measures, or none (R18). -/
def measured (s : State) (sinceUs : Nat) : Option Nat :=
  if s.spindle.state = .stopped || s.angle.spinUp = 0 then none else some (min 65535 sinceUs)

/-- The interval step of an edge: P and the spin-up edge count (R18). -/
def edgeInterval (sinceUs : Nat) (s : State) : State :=
  if s.spindle.state = .stopped then s
  else
    let p := (measured s sinceUs).getD s.angle.p
    s.setAngle { s.angle with p := p, spinUp := min 2 (s.angle.spinUp + 1) }

/-- The first two steps of an edge: the interval, and the count (R17). -/
def edgeCount (sinceUs : Nat) (s : State) : State :=
  let s := edgeInterval sinceUs s
  s.setAngle { s.angle with edge := s.angle.edge + 1 }

/-- The schedule step of an edge, and the reference-valid flag (R17, R19, R20). -/
def edgeSchedule (timed : Bool) (s : State) : State :=
  if timed then
    s.setAngle { s.angle with schedule := some ⟨1, s.angle.p / 8⟩, refValid := true, sinceEdge := 0 }
  else s.setAngle { s.angle with schedule := none, sinceEdge := 0 }

/-- The last two steps of an edge: the boundaries still owed, and the schedule (R17). -/
def edgeBoundaries (timed : Bool) (s : State) : State :=
  edgeSchedule timed (boundaries (owed s.angle.bin) s)

/-- A timed boundary whose time has come (R20). -/
def timedBoundary (s : State) : State :=
  match s.angle.schedule with
  | none => s
  | some x =>
    let s := s.setAngle { s.angle with schedule := if x.next < 7 then some { x with next := x.next + 1 } else none }
    boundary s

/-! ## Table requests (R33, R34) -/

/-- Every record's feedforward to 0, and the accumulators of the current bin (R33). -/
def clearFeedforward (s : State) : State :=
  let cleared := mapTable (fun r : RevRecord => { r with trkFf := 0, focFf := 0 }) s.rev
  s.setRev (cleared.set s.angle.bin {})

end Sys2Proof.Machine
end

