-- ==== Sys2Proof/Machine/Seek.lean ====
section
/-! DEFINITION. The Seek Engine: address reports, tasks, legs, waits, cancelling (R112 to R131). -/

namespace Sys2Proof.Machine

/-! ## Tasks and legs -/

/-- The Seek Engine with no task: the leg, counts, timer and remainder cleared (R129). -/
def Seek.dropTask (x : Seek) : Seek :=
  { x with task := none, leg := .none, madeLeg := false, retry := false, limitStop := false, corrections := 0,
           waitTimer := 0, remainder := 0 }

/-- A signal is an outcome of the Seek Engine. -/
def Signal.isOutcome : Signal → Bool
  | .outcome _ => true
  | .focusCaptured => false
  | .focusFail => false
  | .trackLocked => false
  | .trackFail _ => false
  | .jumpDone _ => false
  | .moveDone => false
  | .lockEntered => false
  | .offTrack => false
  | .focusLost => false
  | .focusLostDue => false
  | .addressLost => false
  | .spinFail => false
  | .spindleMoved => false
  | .spindleStopped => false
  | .testHead => false
  | .launchDue => false
  | .loaderDue => false

/-- The cancel: the task is dropped and no outcome is handed back (R129). -/
def cancelTask (s : State) : State :=
  (s.setSeek s.seek.dropTask).setSignals (s.signals.filter (fun x => !x.isOutcome))

/-- The task ends with an outcome, handed back at once (R121); what belongs to it is cleared as at a cancel (log entry 51). -/
def endTask (o : EndOutcome) (s : State) : State := emitNow (.outcome o) (s.setSeek s.seek.dropTask)

/-- An address wait begins (R125). -/
def beginWait (s : State) : State :=
  s.setSeek { s.seek with leg := .wait, waitTimer := 0, retry := false, limitStop := false }

/-- A leg is inward (R123, R128). -/
def Leg.inward : Leg → Bool
  | .jump n => n < 0
  | .move outward _ _ => !outward
  | .none => false
  | .wait => false

/-- Gives the order of the present leg; one not taken waits for the next LOCKED (R123, R130). -/
def orderLeg (s : State) : State :=
  match s.seek.leg with
  | .jump n =>
    let r := jumpOrder n false s
    r.2.setSeek { r.2.seek with retry := !r.1 }
  | .move outward count _ =>
    let r := moveOrder outward count s
    r.2.setSeek { r.2.seek with retry := !r.1 }
  | .none => s
  | .wait => s

/-- The inner-limit test, then the order (R123, R127). Through a leg that follows a wait the wait timer keeps its last count, which nothing
reads outside a wait: the model's choice (R125, log entry 51). -/
def orderTested (leg : Leg) (s : State) : State :=
  if leg.inward && s.sup.innerLimit.level then endTask .limit s
  else orderLeg (s.setSeek { s.seek with leg := leg, madeLeg := true, limitStop := false })

/-- One more correction, or the end of the seek where four have been made (R123, R125). -/
def countCorrection (next : State → State) (s : State) : State :=
  if 4 ≤ s.seek.corrections then endTask .seekMiss s
  else next (s.setSeek { s.seek with corrections := s.seek.corrections + 1 })

/-- A leg of a seek that a check has decided (R123). -/
def seekLeg (leg : Leg) (s : State) : State :=
  if s.seek.madeLeg then countCorrection (orderTested leg) s else orderTested leg s

/-- The crossing count of a move over a distance (R122, R127). -/
def moveCrossings (distance limit : Nat) : Nat := 2 * (distance - limit / 2)

/-- The step a check decides: none ends the task DONE (R122). -/
def checkStep (d : Int) (a target limit : Nat) : Option Leg :=
  if d = 0 then (if a ≤ target then none else some (.jump (-1)))
  else if mag d ≤ limit then some (.jump d)
  else some (.move (0 < d) (moveCrossings (mag d) limit) false)

/-- The check of a seek with an address (R122). -/
def seekCheck (target a : Nat) (s : State) : State :=
  let d : Int := (s.seek.track target : Int) - (s.seek.track a : Int)
  match checkStep d a target s.active[26] with
  | none => endTask .done s
  | some leg => seekLeg leg s

/-- A seek task starts (R121). -/
def startSeek (target : Nat) (s : State) : State :=
  let s := s.setSeek { s.seek.dropTask with task := some (.seek target) }
  if s.seek.valid then seekCheck target s.seek.aCur s else beginWait s

/-- `n` tracks in the direction of `d`. -/
def signedTracks (d : Int) (n : Nat) : Int := if d < 0 then -(n : Int) else n

/-- Pays the remainder of a jump, or ends the task where none is left (R127). -/
def payRemainder (s : State) : State :=
  if s.seek.remainder = 0 then endTask .done s
  else
    orderTested (.jump (signedTracks s.seek.remainder (min (mag s.seek.remainder) s.active[26]))) s

/-- A jump task starts (R127). -/
def startJump (n : Int) (s : State) : State :=
  let limit := s.active[26]
  let s := s.setSeek { s.seek.dropTask with task := some (.jump n) }
  if n = 0 then endTask .done s
  else if mag n ≤ limit then orderTested (.jump n) s
  else
    let s := s.setSeek { s.seek with remainder := signedTracks n (limit / 2) }
    orderTested (.move (0 < n) (moveCrossings (mag n) limit) false) s

/-! ## Reports of the Loop Processor (R124, R127, R128, R130) -/

/-- Jump done (R124). While the leg's order waits to be taken the report is that of an earlier leg, cancelled, and is ignored (R129,
R130). The jump done of a stopped inward leg ends the task LIMIT (R128, log entry 19). -/
def seekJumpDone (s : State) : State :=
  if s.seek.retry then s
  else if s.seek.limitStop then endTask .limit s
  else
    match s.seek.leg, s.seek.task with
    | .jump _, some (.seek _) => beginWait s
    | .jump n, some (.jump _) =>
      payRemainder (s.setSeek { s.seek with remainder := if s.seek.remainder = 0 then 0 else s.seek.remainder - n })
    | _, _ => s

/-- Move done: the leg goes on (R124). -/
def seekMoveDone (s : State) : State :=
  match s.seek.leg with
  | .move outward count _ => s.setSeek { s.seek with leg := .move outward count true }
  | .none => s
  | .jump _ => s
  | .wait => s

/-- Track locked after move done (R124, R127). A move leg that INNER_LIMIT met before its order was taken is not stopped, and goes on
here (R128, log entry 19). -/
def seekTrackLocked (s : State) : State :=
  match s.seek.leg, s.seek.task with
  | .move _ _ true, some (.seek _) => beginWait s
  | .move _ _ true, some (.jump _) => payRemainder s
  | _, _ => s

/-- A leg whose order was not taken is ordered again (R130). -/
def seekReorder (s : State) : State := if s.seek.retry && s.trackHeld then orderLeg s else s

/-- TRACK_FAIL ends the task, a leg whose order waits and an address wait too (R124, log entry 18). -/
def seekTrackFail (s : State) : State := if s.seek.task.isSome then endTask .trackFail s else s

/-- INNER_LIMIT becomes active during an inward leg that has been ordered and has not reported, its order taken or waiting for the
next LOCKED. The stop order closes whatever jump or move is in progress, a PAUSE jump behind which the leg waits among them (R50, R128,
R142, log entry 19). -/
def seekInnerLimit (s : State) : State :=
  let running :=
    match s.seek.leg with
    | .jump _ => true
    | .move _ _ landed => !landed
    | .none => false
    | .wait => false
  if running && s.seek.leg.inward && s.seek.task.isSome then
    stopOrder (s.setSeek { s.seek with limitStop := true })
  else s

/-! ## Address reports (R112, R113, R125) -/

/-- The bits of a frame with its beginning seen, after more bits: none where its beginning was not seen. -/
def Frame.take (f : Frame) (bits : List Bool) : Frame :=
  match f with
  | .idle => .taking bits
  | .taking old => .taking (old ++ bits)
  | .unseen => .unseen

/-- The address of a valid report: 32 bits, the validity flag set, the address in range (R112, R113, R208). -/
def reportAddress (bits : List Bool) : Option Nat :=
  if bits.length = 32 then
    let n := bitsNat bits
    let address := n % 16777216
    if 128 ≤ n / 16777216 && address ≤ maxBlock then some address else none
  else none

/-- The Seek Engine's own part of a valid report (R113). -/
def Seek.takeAddress (x : Seek) (a : Nat) : Seek :=
  { x with aCur := a, tpCur := x.track a, valid := true, known := true, age := 0, watch := 0 }

/-- A fresh report ends an address wait (R125). -/
def seekFresh (a : Nat) (s : State) : State :=
  match s.seek.task with
  | some (.seek target) => seekCheck target a s
  | some (.jump _) => s
  | none => s

/-- An address wait reaches 300 ms (R125). -/
def addressWaitTimeout (s : State) : State :=
  if s.seek.leg = .wait then countCorrection beginWait s else s

/-- The watch time reaches 300 ms (R114). -/
def addressLost (s : State) : State :=
  if s.seq.state = .following || s.seq.state = .paused then
    emit .addressLost (s.setSeek { s.seek with valid := false, watch := 0 })
  else s

/-! ## The Zone Table (R118 to R120) -/

/-- A changed Zone Table: the first-track list, tp_cur and T follow (R117, R120). -/
def setZones (zones : List Zone) (lastBlock : Nat) (s : State) : State :=
  let x := { s.seek with zones := zones, lastBlock := lastBlock, firstTracks := firstTracksOf zones }
  evalTarget (s.setSeek { x with tpCur := x.track x.aCur })

/-- The Zone Table law (R117). -/
def zonesLawful (zones : List Zone) (lastBlock : Nat) : Bool :=
  (zones.head?.map (·.first)) = some 0 && zones.length ≤ 16
    && (zones.zip zones.tail).all (fun p => p.1.first < p.2.first) && zones.all (fun z => z.first ≤ lastBlock)

/-- The Seek Engine at unclamp, and at the resets that do not keep the disc (R131). -/
def Seek.cleared (x : Seek) : Seek := { frame := x.frame }

end Sys2Proof.Machine
end

