-- ==== Sys2Proof/Machine/Sequencer.lean ====
section
/-! DEFINITION. The Motion Sequencer and its Motion Queue (R132 to R156). -/

namespace Sys2Proof.Machine

/-! ## Changes of state (R114, R137, R181, R185) -/

/-- The motion of the entry in progress. -/
def State.motion (s : State) : Option Motion :=
  match s.current with
  | some e => some e.motion
  | none => none

/-- FOLLOWING or PAUSED. -/
def SeqState.reading (st : SeqState) : Bool := st = .following || st = .paused

/-- The sequencer's own part of entering a state: the steps and timers of the state left are dropped, the incident record is kept
in RECOVERING only, and the resume address takes A_cur at an entry to FOLLOWING or PAUSED with address valid (R137). -/
def Sequencer.enter (x : Sequencer) (st : SeqState) (k : Seek) : Sequencer :=
  { x with
    state := st
    step := .none
    addrTimer := none
    loopWait := none
    recTimer := 0
    cause := if st = .recovering then x.cause else .none
    attempts := if st = .recovering then x.attempts else 0
    resume := if st.reading && k.valid then some k.aCur else x.resume }

/-- The sequencer enters a state; the neighbours that read it follow: the watch time (R114), the idle timer (R185), T (R97) and the
power mode STANDBY (R182). -/
def setSeqState (st : SeqState) (s : State) : State :=
  let old := s.seq.state
  let s := s.setSeq (s.seq.enter st s.seek)
  let s := if st.reading && !old.reading then s.setSeek { s.seek with watch := 0 } else s
  let s := s.setSup { s.sup with idleTimer := if st = .paused then some 0 else none }
  let s := if old = .seeking || st = .seeking then evalTarget s else s
  if st = .standby then setPower .standby s else s

/-! ## Ends of entries (R132, R155) -/

/-- A MOTION_DONE notice (R155). -/
def postDone (e : Entry) (o : EndOutcome) (s : State) : State :=
  post .motionDone [e.tag, byte e.motion.code, byte o.code] s

/-- A RECOVERY notice (R155). -/
def postRecovery (c : Cause) (r : RecoveryResult) (attempts : Nat) (s : State) : State :=
  post .recovery [byte c.code, byte r.code, byte attempts] s

/-- The entry in progress, if any, ends with an outcome. -/
def endEntry (o : EndOutcome) (s : State) : State :=
  match s.seq.queue with
  | e :: rest => if e.inProgress then postDone e o (s.setSeq { s.seq with queue := rest }) else s
  | [] => s

/-- Posts ABANDONED for each of a list of entries. -/
def postAbandoned : List Entry → State → State
  | [], s => s
  | e :: es, s => postAbandoned es (postDone e .abandoned s)

/-- The flush: every waiting entry ends ABANDONED, oldest first (R132). -/
def flush (s : State) : State :=
  let waiting := s.seq.queue.filter (fun e => !e.inProgress)
  postAbandoned waiting (s.setSeq { s.seq with queue := s.seq.queue.filter (·.inProgress) })

/-- The test of the head, taken next (R136). -/
def testHead (s : State) : State := emitNow .testHead s

/-- The entry in progress ends and the sequencer goes on in FOLLOWING (R136). -/
def endFollowing (o : EndOutcome) (s : State) : State := testHead (setSeqState .following (endEntry o s))

/-! ## Disengaging (R143, R144) -/

/-- The end of a disengage: IDLE, or STANDBY for a standby order. A DISENGAGE in progress ends DONE (R143, R144). -/
def arrive (s : State) : State :=
  let s := setSeqState (if s.seq.toStandby then .standby else .idle) s
  testHead (endEntry .done (s.setSeq { s.seq with toStandby := false }))

/-- The steps at the start of a disengage (R143). -/
def disengageSteps (s : State) : State :=
  let s := openFocus (cancelTask s)
  let s := brakeOrder (s.setSeq { s.seq with laser := false })
  let s := endShock s
  s.setSeek { s.seek with valid := false }

/-- A disengage, to STANDBY for a standby order (R143). -/
def disengage (standby : Bool) (s : State) : State :=
  let s := disengageSteps s
  let s := s.setSeq { s.seq with toStandby := standby }
  if s.spindle.state = .stopped then arrive s else setSeqState .disengaging s

/-- A failure end (R136). -/
def failureEnd (o : EndOutcome) (s : State) : State := disengage false (flush (endEntry o s))

/-! ## ENGAGE (R139, R140) -/

/-- Step 4 and the end of an ENGAGE (R139). -/
def engageReturn (s : State) : State :=
  match s.seq.fromStandby, s.seq.resume with
  | true, some target => startSeek target (s.setSeq { s.seq with step := .engageReturn })
  | true, none => endFollowing .done s
  | false, _ => endFollowing .done s

/-- Step 3 of an ENGAGE (R139, R140). -/
def engageReady (s : State) : State :=
  let s := if s.seek.valid then s.setSeq { s.seq with addrTimer := none } else s
  if s.trackHeld && s.spindle.state = .locked && s.seek.valid then engageReturn s else s

/-- Step 2 of an ENGAGE (R139). -/
def engageTrack (s : State) : State :=
  if s.trackHeld then engageReady (s.setSeq { s.seq with step := .engageReady, addrTimer := some 0 })
  else if s.track.state = .off then pullInOrder s
  else s

/-- Step 1 of an ENGAGE (R139). -/
def engageFocus (s : State) : State :=
  if s.focusHeld then engageTrack (s.setSeq { s.seq with step := .engageTrack })
  else if s.spinning then searchOrder s
  else s

/-- An ENGAGE goes on as far as its steps pass (R139). -/
def engageAdvance (s : State) : State :=
  if s.seq.state = .engaging then
    match s.seq.step with
    | .engageFocus => engageFocus s
    | .engageTrack => engageTrack s
    | .engageReady => engageReady s
    | .none => s
    | .engageReturn => s
    | .recoverFocus => s
    | .recoverLock => s
    | .recoverAddress => s
    | .recoverReturn => s
    | .jumpReturn => s
  else s

/-- ENGAGING: c, the laser demand, the start order, and the steps (R8, R138, R139). -/
def engageRun (s : State) : State :=
  let s := setSeqState .engaging s
  let s := s.setFe (s.fe.engage s.active)
  let s := startOrder (s.setSeq { s.seq with laser := true })
  engageAdvance (s.setSeq { s.seq with step := .engageFocus })

/-- An ENGAGE starts for the first time: its origin is recorded, and from IDLE the resume address becomes none (R137, R139). -/
def engageFirst (s : State) : State :=
  if s.seq.state = .standby then
    engageRun (setPower .active (s.setSeq { s.seq with fromStandby := true }))
  else engageRun (s.setSeq { s.seq with fromStandby := false, resume := none })

/-! ## Starting entries (R136) -/

/-- The head becomes the entry in progress. -/
def markHead (s : State) : State :=
  match s.seq.queue with
  | e :: rest => s.setSeq { s.seq with queue := { e with inProgress := true } :: rest }
  | [] => s

/-- An entry that ends at its start; the next head is tested (R136). -/
def endsAtOnce (o : EndOutcome) (s : State) : State := testHead (endEntry o (markHead s))

/-- PAUSED, or the end of a PAUSE behind which an entry waits (R142). -/
def pauseRun (s : State) : State :=
  if s.waitsBehind then endFollowing .done s else setSeqState .paused s

/-- The head starts in a disengaged state (R136). -/
def startDisengaged (m : Motion) (s : State) : State :=
  match m with
  | .engage => if s.discReady then engageFirst (markHead s) else endsAtOnce .abandoned s
  | .seek _ => endsAtOnce .abandoned s
  | .jump _ => endsAtOnce .abandoned s
  | .pause => endsAtOnce .abandoned s
  | .disengage => endsAtOnce .done s

/-- The head starts in FOLLOWING (R136). -/
def startFollowing (m : Motion) (s : State) : State :=
  match m with
  | .engage => endsAtOnce .done s
  | .seek t => startSeek t (setSeqState .seeking (markHead s))
  | .jump n => startJump n (setSeqState .jumping (markHead s))
  | .pause => pauseRun (markHead s)
  | .disengage => disengage false (markHead s)

/-- The head is waiting, crank hold is inactive and the sequencer is IDLE, STANDBY or FOLLOWING (R136). -/
def State.headDue (s : State) : Option Motion :=
  match s.seq.queue with
  | e :: _ =>
    if !e.inProgress && !s.sup.crankHold
        && (s.seq.state = .idle || s.seq.state = .standby || s.seq.state = .following) then some e.motion
    else none
  | [] => none

/-- The head entry starts, where it may (R136). -/
def startHead (s : State) : State :=
  match s.headDue with
  | some m => if s.seq.state = .following then startFollowing m s else startDisengaged m s
  | none => s

/-! ## Recovery (R150 to R153) -/

/-- Step 2 of an attempt begins (R151). -/
def recoverAddress (s : State) : State := s.setSeq { s.seq with step := .recoverAddress, recTimer := 0, loopWait := none }

/-- The pull-in order of an attempt, then the wait for LOCKED (R151). -/
def recoverPullIn (s : State) : State :=
  pullInOrder (s.setSeq { s.seq with step := .recoverLock, loopWait := none })

/-- Step 1 for FOCUS_LOST (R151). -/
def recoverFocus (s : State) : State :=
  let s := openTrack s
  if s.focusHeld then recoverPullIn s
  else searchOrder (s.setSeq { s.seq with step := .recoverFocus, loopWait := none })

/-- Step 1 for OFF_TRACK and ADDRESS_LOST (R151). -/
def recoverLoops (s : State) : State :=
  if s.trackHeld then recoverAddress s
  else if s.track.state = .off then recoverPullIn s
  else s.setSeq { s.seq with step := .recoverLock, loopWait := some 0 }

/-- An attempt begins (R151). -/
def attemptBegin (s : State) : State :=
  let s := s.setSeq { s.seq with attempts := s.seq.attempts + 1 }
  match s.seq.cause with
  | .focusLost => recoverFocus s
  | .offTrack => recoverLoops s
  | .addressLost => recoverLoops s
  | .spinFail => recoverLoops s
  | .none => recoverLoops s

/-- An attempt fails: the next one, or the failed recovery after the third (R152). -/
def attemptFail (s : State) : State :=
  let s := stopOrder (cancelTask s)
  if s.seq.attempts < 3 then attemptBegin s
  else failureEnd .recoveryFail (postRecovery s.seq.cause .failed s.seq.attempts s)

/-- The replay of a JUMP at its count (R149, R153). -/
def replayJump (n : Int) (s : State) : State := startJump n (setSeqState .jumping s)

/-- An attempt succeeds: the notice, then the suspended entry goes on (R153). -/
def attemptSuccess (s : State) : State :=
  let s := postRecovery s.seq.cause .resumed s.seq.attempts s
  match s.motion with
  | some .engage => if s.sup.crankHold then setSeqState .suspended s else engageRun s
  | some (.seek t) =>
    if s.sup.crankHold then setSeqState .suspended s else startSeek t (setSeqState .seeking s)
  | some (.jump n) => if s.sup.crankHold then setSeqState .suspended s else replayJump n s
  | some .pause => pauseRun s
  | some .disengage => testHead (setSeqState .following s)
  | none => testHead (setSeqState .following s)

/-- Step 3 of an attempt (R151). -/
def recoverReturn (s : State) : State :=
  match s.seq.resume with
  | none => attemptSuccess s
  | some target =>
    let s := s.setSeq { s.seq with step := .recoverReturn }
    if s.sup.crankHold then s else startSeek target s

/-- An incident starts recovery (R150). -/
def recoveryStart (c : Cause) (s : State) : State :=
  let s := setSeqState .recovering (stopOrder (cancelTask s))
  attemptBegin (s.setSeq { s.seq with cause := c, attempts := 0 })

/-- An incident reaches the sequencer (R150, R152). -/
def incident (c : Cause) (s : State) : State :=
  match s.seq.state with
  | .recovering => attemptFail (s.setSeq { s.seq with cause := c })
  | .engaging => recoveryStart c s
  | .following => recoveryStart c s
  | .seeking => recoveryStart c s
  | .jumping => recoveryStart c s
  | .paused => recoveryStart c s
  | .suspended => recoveryStart c s
  | .idle => s
  | .standby => s
  | .disengaging => s

/-- The 20 ms wait of step 1 ends (R151). -/
def loopWaitTimeout (s : State) : State :=
  if s.seq.state = .recovering && s.seq.loopWait.isSome then
    let s := s.setSeq { s.seq with loopWait := none }
    if s.track.state = .pullin then s else pullInOrder s
  else s

/-- The address step of an attempt reaches 300 ms (R152). -/
def recoveryAddressTimeout (s : State) : State :=
  if s.seq.state = .recovering && s.seq.step = .recoverAddress then attemptFail s else s

/-- The address timer of an ENGAGE reaches 1 s with address valid clear (R140). -/
def engageAddressTimeout (s : State) : State :=
  if s.seq.state = .engaging && s.seq.step = .engageReady && s.seq.addrTimer.isSome && !s.seek.valid then
    failureEnd .noAddress s
  else s

/-! ## Orders of the outer blocks (R145 to R149) -/

/-- The abandoned end of everything an order finds: the entry in progress, the waiting entries, and a recovery (R145 to R148,
R155). -/
def abandonAll (s : State) : State :=
  let recovering : Bool := s.seq.state = .recovering
  let s := flush (endEntry .abandoned s)
  if recovering then postRecovery s.seq.cause .abandoned s.seq.attempts s else s

/-- After HALT: FOLLOWING if the tracking loop is held, a disengage if it is OFF, else the wait for either (R145). -/
def haltSettle (s : State) : State :=
  if s.trackHeld then testHead (setSeqState .following s)
  else if s.track.state = .off then disengage false (flush s)
  else s.setSeq { s.seq with step := .none }

/-- The entry in progress is an ENGAGE. -/
def State.engageInProgress (s : State) : Bool := s.motion = some .engage

/-- HALT (R145). -/
def haltOrder (s : State) : State :=
  let engaging := s.engageInProgress
  let state := s.seq.state
  if state = .idle || state = .standby || state = .following || state = .disengaging then flush s
  else
    let s := abandonAll s
    if engaging && !(state = .recovering) then disengage false s
    else if state = .recovering then
      let s := cancelTask s
      if s.focusHeld && s.trackHeld then testHead (setSeqState .following s) else disengage false s
    else haltSettle (stopOrder (cancelTask s))

/-- The eject order (R146). -/
def ejectOrder (s : State) : State :=
  let s := abandonAll s
  match s.seq.state with
  | .idle => s
  | .standby => setPower .active (setSeqState .idle s)
  | .disengaging => s.setSeq { s.seq with toStandby := false }
  | .engaging => disengage false s
  | .following => disengage false s
  | .seeking => disengage false s
  | .jumping => disengage false s
  | .paused => disengage false s
  | .recovering => disengage false s
  | .suspended => disengage false s

/-- The fault order (R147). -/
def faultOrder (s : State) : State :=
  let s := abandonAll s
  if s.seq.state.engaged then
    let s := disengageSteps s
    setSeqState .idle (s.setSeq { s.seq with toStandby := false })
  else s

/-- The standby order (R148, R182). -/
def standbyOrder (s : State) : State :=
  let s := abandonAll s
  match s.seq.state with
  | .idle => setSeqState .standby s
  | .standby => setPower .standby s
  | .disengaging => s.setSeq { s.seq with toStandby := true }
  | .engaging => disengage true s
  | .following => disengage true s
  | .seeking => disengage true s
  | .jumping => disengage true s
  | .paused => disengage true s
  | .recovering => disengage true s
  | .suspended => disengage true s

/-- The idle timer expires: the PAUSE ends DONE, then the standby order. It counts, and so expires, only while nothing waits (R142, R185,
log entry 40). -/
def idleExpiry (s : State) : State :=
  if s.seq.state = .paused && !s.waitsBehind && !(s.sup.idleSetting = 255) then standbyOrder (endEntry .done s) else s

/-- A suspension at the start of crank hold (R149). A stop order is given only where a task was under way, so that an ENGAGE gives
no order to the loops of its own. -/
def suspend (s : State) : State :=
  let running := s.seek.task.isSome
  let s := setSeqState .suspended (cancelTask s)
  if running then stopOrder s else s

/-- The start of crank hold (R149). -/
def crankStart (s : State) : State :=
  match s.seq.state with
  | .engaging => suspend s
  | .seeking => if s.current.isSome then suspend s else setSeqState .suspended s
  | .jumping => if s.current.isSome then suspend s else setSeqState .suspended s
  | .recovering => if s.seek.task.isSome then stopOrder (cancelTask s) else s
  | .suspended => if s.seek.task.isSome then stopOrder (cancelTask s) else s
  | .idle => s
  | .standby => s
  | .following => s
  | .paused => s
  | .disengaging => s

/-- The replay of a suspended entry at the end of crank hold (R149). -/
def replay (s : State) : State :=
  match s.motion with
  | some .engage => engageRun s
  | some (.seek t) => startSeek t (setSeqState .seeking s)
  | some (.jump n) =>
    match s.seq.resume with
    | some target => startSeek target (s.setSeq { s.seq with step := .jumpReturn })
    | none => replayJump n s
  | some .pause => s
  | some .disengage => s
  | none => s

/-- The end of crank hold (R136, R149, R151). -/
def crankEnd (s : State) : State :=
  if s.seq.state = .suspended then replay (startOrder s)
  else if s.seq.state = .recovering && s.seq.step = .recoverReturn then recoverReturn s
  else testHead s

/-! ## Reports (R124, R139 to R142, R145, R149, R151 to R154) -/

/-- Focus captured. -/
def seqFocusCaptured (s : State) : State :=
  if s.seq.state = .recovering && s.seq.step = .recoverFocus then recoverPullIn s else engageAdvance s

/-- FOCUS_FAIL (R140, R152). -/
def seqFocusFail (s : State) : State :=
  if s.seq.state = .engaging then failureEnd .focusFail s
  else if s.seq.state = .recovering then attemptFail s
  else s

/-- The tracking loop has entered LOCKED (R139, R145, R151). -/
def seqLockEntered (s : State) : State :=
  if s.haltWait then
    if s.trackHeld then testHead (setSeqState .following s) else s
  else if s.seq.state = .recovering && s.seq.step = .recoverLock then
    if s.trackHeld then recoverAddress s else s
  else engageAdvance s

/-- TRACK_FAIL, from a procedure of the sequencer's PAUSE or from any other (R124, R140, R142, R145, R152). In RECOVERING
either fails the attempt (log entry 48). One that is not the PAUSE's own, taken in FOLLOWING, PAUSED or SUSPENDED with no task, changes
nothing (log entry 41). -/
def seqTrackFail (byPause : Bool) (s : State) : State :=
  if s.seq.state = .recovering then attemptFail s
  else if s.haltWait then disengage false (flush s)
  else if byPause && s.seq.state.engaged && !(s.seq.state = .disengaging) then failureEnd .trackFail s
  else if s.seek.task.isSome then seekTrackFail s
  else if s.seq.state = .engaging then failureEnd .trackFail s
  else s

/-- FOCUS_LOST reaches the sequencer: R150, or after HALT the disengage of R145, since the tracking loop has entered OFF. -/
def seqFocusLost (s : State) : State :=
  if s.haltWait then disengage false (flush s) else incident .focusLost s

/-- An outcome of the Seek Engine (R140, R141, R149, R151, R152). -/
def seqOutcome (o : EndOutcome) (s : State) : State :=
  match s.seq.state with
  | .engaging => if o = .trackFail then failureEnd o s else endFollowing o s
  | .seeking => if o = .trackFail then failureEnd o s else endFollowing o s
  | .jumping => if o = .trackFail then failureEnd o s else endFollowing o s
  | .recovering => if o = .done then attemptSuccess s else attemptFail s
  | .suspended =>
    if o = .done then
      match s.motion with
      | some (.jump n) => replayJump n s
      | some .engage => s
      | some (.seek _) => s
      | some .pause => s
      | some .disengage => s
      | none => s
    else if o = .trackFail then failureEnd o s
    else endFollowing o s
  | .idle => s
  | .standby => s
  | .following => s
  | .paused => s
  | .disengaging => s

/-- SPIN_FAIL (R154). -/
def seqSpinFail (s : State) : State :=
  if s.seq.state.engaged && !(s.seq.state = .disengaging) then
    let s :=
      if s.seq.state = .recovering then postRecovery s.seq.cause .failed s.seq.attempts s
      else if s.current.isNone then postRecovery .spinFail .failed 0 s
      else s
    failureEnd .spinFail s
  else s

/-- The spindle enters STOPPED (R143, R144). -/
def seqStopped (s : State) : State := if s.seq.state = .disengaging then arrive s else s

/-- A valid address report reaches the sequencer (R137, R139, R151). -/
def seqAddress (s : State) : State :=
  if s.seq.state = .recovering && s.seq.step = .recoverAddress then recoverReturn s else engageAdvance s

/-! ## Motion requests (R132 to R135, R142) -/

/-- The resume address in step with a valid report (R137). -/
def followAddress (a : Nat) (s : State) : State :=
  if s.seq.state.reading then s.setSeq { s.seq with resume := some a } else s

/-- The saturation of a JUMP's count. -/
def satJump (n : Int) : Int := sat (-32767) 32767 n

/-- What the merge test gives: the entry that replaces the tail, and whether its sum saturated (R135). -/
def mergeTail (tail : Entry) (m : Motion) (tag : Byte) : Option (Entry × Bool) :=
  if tail.inProgress then none
  else
    match tail.motion, m with
    | .seek _, .seek t => some (⟨.seek t, tag, false⟩, false)
    | .jump a, .jump b => some (⟨.jump (satJump (a + b)), tag, false⟩, satJump (a + b) ≠ a + b)
    | _, _ => none

/-- The newest entry, and the entries before it. -/
def splitTail : List Entry → Option (List Entry × Entry)
  | [] => none
  | [e] => some ([], e)
  | e :: es => (splitTail es).map (fun p => (e :: p.1, p.2))

/-- An ENGAGE stands in the queue (R133). -/
def hasEngage (queue : List Entry) : Bool := queue.any (fun e => e.motion = .engage)

/-- What the appending of an entry starts (R136, R142). -/
def afterAppend (s : State) : State :=
  if s.seq.state = .paused && s.current.isSome then endFollowing .done s else testHead s

/-- The payload of an accepted motion reply (R207). -/
def motionReply (tag : Byte) (superseded : Option Byte) (entries : Nat) : List Byte :=
  [tag, flagByte superseded.isSome, superseded.getD 0, byte entries]

/-- The refusals that stand before the merge test (R133). -/
def motionRefusal (m : Motion) (s : State) : Option Status :=
  if s.sup.faultLatch then some .fault
  else
    match m with
    | .engage => if s.discReady then none else some .noDisc
    | .disengage => none
    | .seek _ => if s.seq.state.engaged || hasEngage s.seq.queue then none else some .notEngaged
    | .jump _ => if s.seq.state.engaged || hasEngage s.seq.queue then none else some .notEngaged
    | .pause => if s.seq.state.engaged || hasEngage s.seq.queue then none else some .notEngaged

/-- A motion adjusted, and whether it was (R134). -/
def adjustMotion (lastBlock : Nat) : Motion → Motion × Bool
  | .seek t => (.seek (min lastBlock t), lastBlock < t)
  | .jump n => (.jump (satJump n), satJump n ≠ n)
  | .engage => (.engage, false)
  | .pause => (.pause, false)
  | .disengage => (.disengage, false)

/-- The merge a request makes with the tail of the queue, as the new queue, the superseded tag and whether the sum saturated
(R135). -/
def mergeQueue (queue : List Entry) (m : Motion) (tag : Byte) : Option (List Entry × Byte × Bool) :=
  match splitTail queue with
  | none => none
  | some (before, tail) => (mergeTail tail m tag).map (fun p => (before ++ [p.1], tail.tag, p.2))

/-- A motion request of kind `kind` (R133). The reply counts the entries right after the append (log entry 42). -/
def motionRequest (kind : Nat) (m : Motion) (tag : Byte) (s : State) : State :=
  let s := wakeTo .active s
  match motionRefusal m s with
  | some st => reply kind st [tag] s
  | none =>
    let a := adjustMotion s.seek.lastBlock m
    match mergeQueue s.seq.queue a.1 tag with
    | some (queue, old, saturated) =>
      reply kind (if a.2 || saturated then .clamped else .merged) (motionReply tag (some old) queue.length)
        (s.setSeq { s.seq with queue := queue })
    | none =>
      if 4 ≤ s.seq.queue.length then reply kind .queueFull [tag] s
      else
        let queue := s.seq.queue ++ [⟨a.1, tag, false⟩]
        afterAppend (reply kind (if a.2 then .clamped else .queued) (motionReply tag none queue.length)
          (s.setSeq { s.seq with queue := queue }))

end Sys2Proof.Machine
end

