-- ==== Sys2Proof/Machine/Loader.lean ====
section
/-! DEFINITION. The Loader Controller (R159 to R172). -/

namespace Sys2Proof.Machine

/-- A LOADER notice (R170). -/
def postLoader (s : State) : State := post .loader [byte s.loader.state.code, flagByte s.loader.jam] s

/-- The loader's new state, with its LOADER notice (R170). -/
def setLoaderState (x : Loader) (s : State) : State := postLoader (s.setLoader x)

/-! ## Unclamp (R166) -/

/-- Unclamp: each block that holds state about the disc clears its own (R26, R32, R76, R97, R131, R137). -/
def unclamp (s : State) : State :=
  let s := (s.setAngle {}).setRev (Vector.replicate 64 {})
  let s := (s.setDefects {}).setSeek s.seek.cleared
  let s := s.setSeq { s.seq with resume := none }
  evalTarget s

/-! ## Entries to the states (R164, R167 to R169) -/

/-- Entry to CLAMPED (R164, R169). -/
def enterClamped (s : State) : State :=
  setLoaderState { s.loader with state := .clamped, ejectPending := false, jam := false } s

/-- Entry to PULLING: CLAMP_END is tested on its level (R164). -/
def enterPulling (s : State) : State :=
  let s := setLoaderState
    { s.loader with state := .pulling, ejectPending := false, jam := false, timer := 0, reload := none } s
  if s.sup.clampEnd.level then enterClamped s else s

/-- Entry to EMPTY (R168). -/
def enterEmpty (s : State) : State :=
  setLoaderState { s.loader with state := .empty, jam := false, reload := none } s

/-- The reload timer that an entry to PRESENTED starts (R168). -/
def Loader.startReload (x : Loader) : Option Reload :=
  if x.reloadSetting = 255 || x.jam then none
  else some ⟨0, if x.reloadSetting = 0 then 10000 else x.reloadSetting * 1000⟩

/-- Entry to PRESENTED: SLOT is tested on its level (R168). -/
def enterPresented (s : State) : State :=
  let s := setLoaderState { s.loader with state := .presented, reload := s.loader.startReload } s
  if s.sup.slot.level then s else enterEmpty s

/-- Entry to RELEASING; from CLAMPED it is the unclamp. EJECT_END is tested on its level (R166, R167). -/
def enterReleasing (s : State) : State :=
  let clamped : Bool := s.loader.state = .clamped
  let s := setLoaderState { s.loader with state := .releasing, ejectPending := false, timer := 0 } s
  let s := if clamped then unclamp s else s
  if s.sup.ejectEnd.level then enterPresented s else s

/-- Entry to JAMMED (R167, R169). -/
def enterJammed (s : State) : State := setLoaderState { s.loader with state := .jammed, jam := true } s

/-! ## Events (R161, R164, R165, R167, R168) -/

/-- A disc may be pulled in by itself: auto-load on, neither crank hold nor mute active (R161). -/
def State.autoPull (s : State) : Bool := s.loader.autoLoad && !s.motorsHeld

/-- A disc is pulled in by itself, with the wake of R184. -/
def pullIn (s : State) : State := enterPulling (wakeTo .active s)

/-- SLOT changes (R161, R168). -/
def loaderSlot (s : State) : State :=
  match s.loader.state with
  | .empty =>
    if s.sup.slot.level then
      if s.autoPull then pullIn s else post .discAtSlot [] s
    else s
  | .presented => if s.sup.slot.level then s else enterEmpty s
  | .pulling => s
  | .clamped => s
  | .releasing => s
  | .jammed => s

/-- CLAMP_END changes (R164). -/
def loaderClampEnd (s : State) : State :=
  if s.loader.state = .pulling && s.sup.clampEnd.level then enterClamped s else s

/-- EJECT_END changes (R167). -/
def loaderEjectEnd (s : State) : State :=
  if s.loader.state = .releasing && s.sup.ejectEnd.level then enterPresented s else s

/-- Neither crank hold nor mute is any longer active: a disc waiting at the slot is pulled in (R161). -/
def loaderFreed (s : State) : State :=
  if s.loader.state = .empty && s.sup.slot.level && s.autoPull then pullIn s else s

/-- The release of a CLAMPED loader with eject pending, as soon as the permit holds (R165). -/
def ejectRelease (s : State) : State :=
  if s.loader.state = .clamped && s.loader.ejectPending && s.motorPermit then enterReleasing s else s

/-- The loader timer reaches 5,000 ms in PULLING (R164). -/
def loadTimeout (s : State) : State :=
  if s.loader.state = .pulling && s.motorPermit then enterReleasing (s.setLoader { s.loader with timer := 5000, jam := true })
  else s

/-- The loader timer reaches 5,000 ms in RELEASING (R167). -/
def releaseTimeout (s : State) : State :=
  if s.loader.state = .releasing && s.motorPermit then enterJammed (s.setLoader { s.loader with timer := 5000 })
  else s

/-- The reload timer counts: PRESENTED, neither crank hold nor mute, not SLEEP (R160). -/
def State.reloadRuns (s : State) : Bool :=
  s.loader.state = .presented && s.loader.reload.isSome && !s.motorsHeld && !(s.sup.power = .sleep)

/-- The reload timer reaches its length (R168). -/
def reloadExpiry (s : State) : State := if s.reloadRuns then enterPulling s else s

/-- The test of the motor permit: a waiting release, and the drive (R159, R165). -/
def loaderTest (s : State) : State :=
  let s := ejectRelease s
  s.setLoader { s.loader with drive := s.loaderDemand }

/-! ## LOAD and EJECT (R162, R163) -/

/-- LOAD's effect and status, after the wake (R162). -/
def loadEffect (s : State) : Status × State :=
  match s.loader.state with
  | .empty => if s.sup.slot.level then (.ok, enterPulling s) else (.noDisc, s)
  | .pulling => (.ok, s)
  | .clamped => (if s.loader.ejectPending then .busy else .ok, s)
  | .releasing => (.busy, s)
  | .presented => (.ok, enterPulling s)
  | .jammed => (.ok, enterPulling s)

/-- EJECT's own effect on the loader (R163). The release of a CLAMPED loader follows at the test of the permit. -/
def ejectEffect (s : State) : State :=
  match s.loader.state with
  | .pulling => enterReleasing s
  | .clamped => s.setLoader { s.loader with ejectPending := true }
  | .jammed => enterReleasing s
  | .empty => s
  | .releasing => s
  | .presented => s

end Sys2Proof.Machine
end

