-- ==== Sys2Proof/Machine/Settle.lean ====
section
/-! DEFINITION. The end of a step: what the blocks have handed on is taken, oldest first, each with all that follows from it at
once; then the loader's permit is tested (R40, R159). -/

namespace Sys2Proof.Machine

/-- OFF_TRACK reaches the sequencer and the Group Store. Only where the third failed attempt ends the engagement does their order
show, and there it is free; else the sequencer is first, so that what the entry to shock mode raises reaches it after OFF_TRACK
(R53, R90, R152). -/
def takeOffTrack (s : State) : State :=
  if s.seq.state = .recovering && 3 ≤ s.seq.attempts then
    let r := takeOrder s
    if r.1 then incident .offTrack (shockTrigger r.2) else shockTrigger (incident .offTrack r.2)
  else shockTrigger (incident .offTrack s)

/-- What a signal does. -/
def handle (x : Signal) (s : State) : State :=
  match x with
  | .focusCaptured => seqFocusCaptured s
  | .focusFail => seqFocusFail s
  | .trackLocked => seekTrackLocked s
  | .trackFail byPause => seqTrackFail byPause s
  | .jumpDone byPause => if byPause then s else seekJumpDone s
  | .moveDone => seekMoveDone s
  | .lockEntered => seqLockEntered (seekReorder s)
  | .offTrack => takeOffTrack s
  | .focusLost => seqFocusLost (disturb s)
  | .focusLostDue => raiseFocusLost s
  | .addressLost => incident .addressLost s
  | .spinFail => seqSpinFail s
  | .spindleMoved => engageAdvance s
  | .spindleStopped => seqStopped s
  | .outcome o => seqOutcome o s
  | .testHead => startHead s
  | .launchDue => takePending s
  | .loaderDue => ejectRelease s

/-- Takes signals until none is left. The fuel bounds a step; no step comes near it, and past it nothing would be handed on
(log entry 6). -/
def drain : Nat → State → State
  | 0, s => s.setSignals []
  | fuel + 1, s =>
    match s.signals with
    | [] => s
    | x :: rest => drain fuel (handle x (s.setSignals rest))

/-- The end of a step. -/
def settle (s : State) : State := loaderTest (drain 64 s)

/-- The outcome of a command that does `f`: the next state. A part held in reset takes no command (R187). -/
def done (f : State → State) (s : State) : Result := .next (if s.held then s else settle (f s))

end Sys2Proof.Machine
end

