-- ==== Sys2Proof/Machine/Sample.lean ====
section
/-! DEFINITION. The servo sample, part by part in the order of the manual: the Front End, the Dropout Detector, the hold's effect on
the loops, the drives, learning, the sled, the procedures and the incidents (R1, R5, R13, R27 to R29, R35 to R55, R58 to R64, R70,
R107 to R110). -/

namespace Sys2Proof.Machine

/-! ## The Dropout Detector (R58 to R63) -/

/-- The threshold th (R59). -/
def holdThreshold (g : GroupRec) (level : Nat) (armed : Bool) : Nat :=
  if armed then min 4095 (dropThreshold g level + g[19]) else dropThreshold g level

/-- The exit level (R59). -/
def holdExit (g : GroupRec) (level : Nat) (armed : Bool) : Nat := min 4095 (holdThreshold g level armed + g[18])

/-- The limit (R59). -/
def holdLimitOf (g : GroupRec) (armed : Bool) : Nat := if armed then g[21] else g[20]

/-- What the detector gives on a sample. -/
structure Detection where
  det : Detector
  /-- The sample is in hold (R1). -/
  inHold : Bool
  /-- A hold begins on the sample (R60). -/
  begins : Bool
  /-- The region of a hold that ends normally on the sample (R61, R63). -/
  region : Option Region
  /-- The hold reaches its limit on the sample (R62). -/
  limit : Bool
  deriving DecidableEq, Repr

/-- A sample on which the detector does not run, or finds nothing. -/
def Detector.quiet (d : Detector) : Detection := ⟨d, false, false, none, false⟩

/-- The region of a hold (R63). -/
def Detector.region (d : Detector) : Region :=
  { first := d.startBin, span := d.binsPassed + 1, length := d.length, depth := d.depth, armed := d.entryArmed }

/-- The limit test of a sample in hold (R62). -/
def Detector.limitTest (d : Detector) (limit : Nat) (begins : Bool) : Detection :=
  let reached : Bool := limit ≤ d.length
  ⟨{ d with inHold := !reached }, true, begins, none, reached⟩

/-- The hold record of a hold that begins (R60). -/
def Detector.start (armed : Bool) (bin : Fin 64) (sumN : Nat) : Detector :=
  { inHold := true, entryArmed := armed, length := 1, startBin := bin, binsPassed := 0, depth := sumN, goodRun := 0,
    boundaries := 0 }

/-- The hold record after one more sample in hold (R61). -/
def Detector.more (d : Detector) (good sumN : Nat) : Detector :=
  { d with length := countUp 4095 d.length, depth := min d.depth sumN, binsPassed := min 15 d.boundaries, goodRun := good }

/-- The detector on a sample it runs on (R60 to R62). -/
def Detector.sample (d : Detector) (g : GroupRec) (level : Nat) (armed : Bool) (bin : Fin 64) (sumN : Nat) : Detection :=
  if d.inHold then
    let good := if holdExit g level d.entryArmed ≤ sumN then d.goodRun + 1 else 0
    if 4 ≤ good then ⟨{ d with inHold := false, goodRun := 4 }, false, false, some d.region, false⟩
    else (d.more good sumN).limitTest (holdLimitOf g d.entryArmed) false
  else if sumN < holdThreshold g level armed then
    (Detector.start armed bin sumN).limitTest (holdLimitOf g armed) true
  else d.quiet

/-- The detector's decision on a sample (R58). -/
def detect (s : State) (sumN : Nat) : Detection :=
  if s.focusHeld then s.det.sample s.active s.fe.level s.defects.armed s.angle.bin sumN else s.det.quiet

/-! ## The hold in the loops (R37, R38) -/

/-- The focus loop follows the hold. -/
def FocusLoop.follow (l : FocusLoop) (h : Detection) : FocusLoop :=
  if h.begins then { l with state := if l.state = .locked then .hold else l.state, ax := { l.ax with h := l.ax.uc } }
  else if h.inHold then l
  else { l with state := if l.state = .hold then .locked else l.state }

/-- The tracking loop keeps its h through a jump or a move (R47, R49). -/
def TrackLoop.keepsHeld (l : TrackLoop) : Bool := l.state = .jumping || l.state = .openSeek

/-- The tracking loop follows the hold. -/
def TrackLoop.follow (l : TrackLoop) (h : Detection) : TrackLoop :=
  if h.begins then
    { l with state := if l.state = .locked then .hold else l.state
             ax := if l.keepsHeld then l.ax else { l.ax with h := l.ax.uc } }
  else if h.inHold then l
  else { l with state := if l.state = .hold then .locked else l.state }

/-! ## Controller outputs and drives (R35, R36, R47) -/

/-- The focus loop's output on a sample (R35). -/
def focusOutput (g : GroupRec) (inHold : Bool) (eF ff : Int) (l : FocusLoop) : FocusLoop :=
  match l.state with
  | .off => { l with ax := { l.ax with uc := 0, u := 0 } }
  | .search => { l with ax := { l.ax with uc := 0, u := searchRamp l.pos } }
  | .locked =>
    if inHold then { l with ax := l.ax.output l.ax.h ff } else { l with ax := l.ax.compensate g[0] g[1] g[2] eF ff }
  | .hold => { l with ax := l.ax.output l.ax.h ff }

/-- The phase of a jump at a crossing count (R47). -/
def jumpPhaseAt (n crossings : Nat) : JumpPhase :=
  if 2 * n - 1 ≤ crossings then .coast else if n ≤ crossings then .brake else .kick

/-- A jump in KICK, BRAKE or COAST moves to the phase of the count as the sample leaves it (R47). -/
def TrackLoop.advancePhase (l : TrackLoop) (crossings : Nat) : TrackLoop :=
  if l.state = .jumping && !(l.phase = .close) then { l with phase := jumpPhaseAt (mag l.jumpLen) crossings } else l

/-- The count closes the jump on this sample (R48). -/
def TrackLoop.jumpComplete (l : TrackLoop) (crossings : Nat) : Bool :=
  l.state = .jumping && !(l.phase = .close) && 2 * mag l.jumpLen ≤ crossings

/-- u_c of a jump in a phase (R35). -/
def jumpOutput (kick : Nat) (n : Int) (phase : JumpPhase) : Int :=
  match phase with
  | .kick => signedTracks n kick
  | .brake => -signedTracks n kick
  | .coast => 0
  | .close => 0
  | .none => 0

/-- The tracking loop's output on a sample (R35). -/
def trackOutput (g : GroupRec) (inHold : Bool) (eT ff : Int) (l : TrackLoop) : TrackLoop :=
  match l.state with
  | .off => { l with ax := { l.ax with uc := 0, u := 0 } }
  | .pullin => { l with ax := l.ax.output 0 ff }
  | .openSeek => { l with ax := l.ax.output 0 ff }
  | .jumping => { l with ax := l.ax.output (jumpOutput g[32] l.jumpLen l.phase) ff }
  | .hold => { l with ax := l.ax.output l.ax.h ff }
  | .locked =>
    if inHold then { l with ax := l.ax.output l.ax.h ff } else { l with ax := l.ax.compensate g[4] g[5] g[6] eT ff }
  | .settling =>
    if inHold then { l with ax := l.ax.output l.ax.h ff } else { l with ax := l.ax.compensate g[4] g[5] g[6] eT ff }

/-! ## Learning (R28, R29) -/

/-- The sample's part of the current bin's record. -/
def learnSample (inHold : Bool) (s : State) : State :=
  let locked : Bool := s.spindle.state = .locked && !inHold
  let r := s.bin
  let r := if locked && s.track.state = .locked && s.seq.state.reading then r.addTrack s.track.ax.uc else r
  let r := if locked && s.focus.state = .locked then r.addFocus s.focus.ax.uc else r
  setBin s.angle.bin r s

/-! ## Counters (R52, R54) -/

/-- The off-track counter after a sample (R52). -/
def TrackLoop.countOff (l : TrackLoop) (g : GroupRec) (inHold : Bool) (eT : Int) : TrackLoop :=
  if l.state = .locked && !inHold then
    { l with offCount := if g[22] < mag eT || 2047 ≤ mag l.ax.u then countUp 255 l.offCount else 0 }
  else l

/-- The focus-lost counter after a sample (R54). -/
def FocusLoop.countLost (l : FocusLoop) (g : GroupRec) (inHold : Bool) (sumN : Nat) : FocusLoop :=
  if l.state = .locked && !inHold then { l with lost := if sumN < g[24] then countUp 1023 l.lost else 0 } else l

/-! ## The sled (R107 to R110) -/

/-- The force of crank hold and of INNER_LIMIT on a value the drive takes (R109, R110). -/
def sledForce (crank inner : Bool) (drive : Int) : Int := if crank then 0 else if inner && drive < 0 then 0 else drive

/-- The force in effect. -/
def State.forceSled (s : State) (drive : Int) : Int := sledForce s.sup.crankHold s.sup.innerLimit.level drive

/-- The drive a follow block gives (R107). -/
def followDrive (level gain : Nat) (sum : Int) : Int :=
  let avg := sum / 64
  if level < mag avg then satDrive (gain * avg / 16) else 0

/-- The sled computation (R107). -/
def sledCompute (s : State) : State :=
  s.setSled { s.sled with sum := 0, count := 0, drive := s.forceSled (followDrive s.active[29] s.active[30] s.sled.sum) }

/-- The drive of an open move (R108). -/
def moveDrive (seek : Nat) (move : Option Bool) : Int :=
  match move with
  | some true => seek
  | some false => -(seek : Int)
  | none => 0

/-- The sled on a sample, by the state the tracking loop is taken in (R107, R108). -/
def sledSample (s : State) : State :=
  if s.trackHeld then
    let s := s.setSled { s.sled with sum := s.sled.sum + s.track.ax.uc, count := s.sled.count + 1 }
    if 64 ≤ s.sled.count then sledCompute s else s
  else
    let drive := if s.track.state = .openSeek then s.forceSled (moveDrive s.active[31] s.sled.move) else 0
    s.setSled { s.sled with sum := 0, count := 0, drive := drive }

/-! ## The focus procedure (R41, R42) -/

/-- The capture test (R41). -/
def captures (level : Nat) (prev : Option Int) (fec : Int) (sumN : Nat) : Bool :=
  match prev with
  | none => false
  | some p => 2 * level ≤ sumN && decide (p < 0) != decide (fec < 0)

/-- The capture (R41). -/
def FocusLoop.capture (l : FocusLoop) (eF : Int) : FocusLoop :=
  { state := .locked, ax := { l.ax with a := 0, ePrev := eF, h := 0 }, lost := 0, sweep := 0, pos := 0, prevFec := none }

/-- The search fails: OFF and FOCUS_FAIL (R42). -/
def searchFails (s : State) : State := emit .focusFail (s.setFocus {})

/-- The search on a sample, after its drive (R41, R42). -/
def searchSample (f : Formed) (s : State) : State :=
  if s.focus.state = .search then
    if captures s.active[24] s.focus.prevFec f.fec f.sumN then
      emit .focusCaptured (s.setFocus (s.focus.capture f.eF))
    else if s.focus.pos < 16383 then
      s.setFocus { s.focus with pos := s.focus.pos + 1, prevFec := some f.fec }
    else if 3 ≤ s.focus.sweep then searchFails s
    else s.setFocus { s.focus with pos := 0, sweep := s.focus.sweep + 1, prevFec := some f.fec }
  else s

/-! ## The tracking procedures (R43 to R51) -/

/-- The settle run after a sample (R45). -/
def settleRunNext (run : Nat) (inHold : Bool) (eT : Int) : Nat :=
  if inHold then run else if mag eT < 256 then run + 1 else 0

/-- SETTLING on a sample (R45). -/
def settlingSample (inHold : Bool) (eT : Int) (s : State) : State :=
  let run := settleRunNext s.track.settleRun inHold eT
  let s := s.setTrack { s.track with settleRun := run, timer := countUp 1280 s.track.timer }
  if 64 ≤ run then enterLocked s
  else if 1280 ≤ s.track.timer then settleTimeout s
  else s

/-- PULLIN on a sample (R43, R45). A crossing on the sample that ends the attempt is the failing attempt's, and the next one begins in
PULLIN (R46, log entry 47). -/
def pullinSample (crossing : Bool) (eT : Int) (s : State) : State :=
  let t := { s.track with timer := countUp 1280 s.track.timer }
  let s := s.setTrack (if crossing then t.closePullIn eT else t)
  if 1280 ≤ s.track.timer then settleTimeout s else s

/-- The stall count after a sample of a move (R51). -/
def stallSample (crossing : Bool) (s : State) : State :=
  if crossing then s.setTrack { s.track with stall := 0 }
  else
    let s := s.setTrack { s.track with stall := countUp 1280 s.track.stall }
    if 1280 ≤ s.track.stall then moveStall s else s

/-- CLOSE on a sample; its limit may be reached on a sample in hold (R50, log entry 49). -/
def closeSample (crossing : Bool) (eT : Int) (s : State) : State :=
  if crossing then s.setTrack (s.track.closeJump eT)
  else
    let s := s.setTrack { s.track with timer := countUp 1280 s.track.timer }
    if 1280 ≤ s.track.timer then closeTimeout s else s

/-- A jump in KICK, BRAKE or COAST on a sample; its last crossing restarts the stall count like any other (R44, R47, R48, R51). -/
def jumpSample (crossing : Bool) (eT : Int) (s : State) : State :=
  if s.track.jumpComplete s.fe.crossings then s.setTrack { s.track.closeJump eT with stall := 0 } else stallSample crossing s

/-- The open move reaches its crossing count, with a crossing that restarts the stall count (R44, R49). -/
def moveComplete (s : State) : State :=
  emit .moveDone ((s.setSled s.sled.endMove).setTrack { s.track.pullIn 1 with stall := 0, goal := .trackLocked, byPause := false })

/-- OPEN_SEEK on a sample (R49, R51). -/
def moveSample (crossing : Bool) (s : State) : State :=
  if crossing && s.track.moveCount ≤ s.fe.crossings then moveComplete s else stallSample crossing s

/-- The tracking loop's procedure on a sample, after its drive (R44). -/
def trackSample (crossing inHold : Bool) (eT : Int) (s : State) : State :=
  match s.track.state with
  | .settling => settlingSample inHold eT s
  | .pullin => pullinSample crossing eT s
  | .openSeek => moveSample crossing s
  | .jumping => if s.track.phase = .close then closeSample crossing eT s else jumpSample crossing eT s
  | .off => s
  | .locked => s
  | .hold => s

/-! ## The sample (R1) -/

/-- The Front End's own part of a sample: the values kept, and after the detector's decision the SUM accumulation and the crossing
detector (R1, R5, R13). -/
def frontEndSample (f : Formed) (inHold accumulates : Bool) (fe : FrontEnd) : FrontEnd :=
  let fe := { fe with eF := f.eF, eT := f.eT, sumN := f.sumN }
  let fe := if accumulates then fe.accumulate f.sumRaw else fe
  fe.cross inHold f.tec

/-- The detector's hold ends normally: the region goes to the table (R63). -/
def takeDetection (h : Detection) (s : State) : State :=
  match h.region with
  | some r => takeRegion r s
  | none => s

/-- The incidents of a sample: the hold limit, or the counters (R52 to R55, R62). -/
def sampleIncidents (h : Detection) (s : State) : State :=
  if h.limit then raiseFocusLost s else if h.inHold then s else raiseDue s

/-- FOCUS_LOST falls due on a sample, by the hold limit or by the focus-lost count (R54, R62). -/
def losesFocus (h : Detection) (s : State) : Bool := h.limit || (!h.inHold && s.focusLostDue)

/-- The tracking procedure of a sample with what it hands on, then the sample's incidents. Where the move stalls on a sample that loses
focus too, the order is free, and after FOCUS_LOST there is no move left to stall (R51, R55, log entry 1). -/
def sampleEvents (h : Detection) (crossing : Bool) (eT : Int) (s : State) : State :=
  let t := trackSample crossing h.inHold eT s
  if .offTrack ∈ t.signals ∧ losesFocus h s then
    let r := takeOrder s
    if r.1 then raiseFocusLost (drain 64 (trackSample crossing h.inHold eT r.2)) else raiseFocusLost r.2
  else sampleIncidents h (drain 64 t)

/-- The loops follow the hold, the Front End finishes its part, and both loops form their drives (R1, R35 to R38). -/
def sampleDrives (f : Formed) (h : Detection) (s : State) : State :=
  let ff := s.bin
  let g := s.active
  let focus := s.focus.follow h
  let track := s.track.follow h
  let s := (s.setDet h.det).setFe (frontEndSample f h.inHold (!h.inHold && focus.state = .locked) s.fe)
  let track := track.advancePhase s.fe.crossings
  let focus := (focusOutput g h.inHold f.eF ff.focFf focus).countLost g h.inHold f.sumN
  let track := (trackOutput g h.inHold f.eT ff.trkFf track).countOff g h.inHold f.eT
  (s.setFocus focus).setTrack track

/-- The pass marks of a sample (R70). -/
def markPasses (inHold : Bool) (s : State) : State :=
  if inHold || s.focus.state = .locked then s.setDefects (s.defects.markSample s.angle.bin inHold) else s

/-- The whole of a sample, up to the end of the step: the reports of its procedures are taken before its incidents (log entry 7). -/
def sampleBody (fe te sum : Adc) (s : State) : State :=
  let f := formSample s.fe fe te sum
  let h := detect s f.sumN
  let s := sampleDrives f h s
  let crossing := s.fe.crossingNow
  let s := markPasses h.inHold (sledSample (learnSample h.inHold s))
  sampleEvents h crossing f.eT (searchSample f (takeDetection h s))

/-- The end of a sample: no crossing stands any longer for a restart to meet. -/
def endSample (s : State) : State := s.setFe { s.fe with crossingNow := false }

/-- A servo sample; in SLEEP and in a part held in reset none arrives (R15, R187). -/
def servoSample (fe te sum : Adc) (s : State) : State :=
  if s.held || s.sup.power = .sleep then s else endSample (settle (sampleBody fe te sum s))

end Sys2Proof.Machine
end

