-- ==== Sys2Proof/Machine/Reset.lean ====
section
/-! DEFINITION. The calibration store and the resets (R3, R16, R26, R32, R57, R76, R79, R106, R111, R131, R156, R158, R171 to R173,
R186 to R188, R200). -/

namespace Sys2Proof.Machine

/-! ## Calibration (R3, R79, R186) -/

/-- The check of the store: the sum of its twelve words is 0 modulo 65,536 (R186). -/
def calPasses (store : CalStore) : Bool := (store.toArray.toList.foldl (fun n w => n + w.toNat) 0) % 65536 = 0

/-- An offset clamped into −511..+511 (R3, R4). -/
def clampOffset (x : Int) : Int := sat (-511) 511 x

/-- A stored offset word (R3). -/
def calOffset (store : CalStore) (i : Fin 12) : Int := if calPasses store then clampOffset (signed16 (store[i]).toNat) else 0

/-- G0 as a reset loads it (R79). -/
def calGroup (store : CalStore) : GroupRec :=
  if calPasses store then
    ((((((((g0Defaults.set 0 (clampField 0 store[2].toNat)).set 1 (clampField 1 store[3].toNat)).set 2
      (clampField 2 store[4].toNat)).set 3 (clampField 3 store[5].toNat)).set 4 (clampField 4 store[6].toNat)).set 5
      (clampField 5 store[7].toNat)).set 6 (clampField 6 store[8].toNat)).set 7 (clampField 7 store[9].toNat)).set 8
      (clampField 8 store[10].toNat)
  else g0Defaults

/-- The Group Store after a reset (R79). -/
def resetGroups (store : CalStore) : Groups :=
  let g := calGroup store
  { recs := #v[g, g1Defaults, g, g] }

/-- The Front End after a reset (R16). -/
def resetFrontEnd (store : CalStore) : FrontEnd :=
  ({ feOff := calOffset store 0, teOff := calOffset store 1 } : FrontEnd).setC (calGroup store) 1024

/-! ## The loader's derivation (R171) -/

/-- The state derived from the three switches (R171). -/
def derivedState (x : Supervisor) : LoaderState :=
  if x.clampEnd.level then .clamped
  else if x.ejectEnd.level then (if x.slot.level then .presented else .empty)
  else .releasing

/-- The loader after a reset: no notice, no unclamp (R171, R172). The drive follows at the test of the permit. -/
def derivedLoader (x : Supervisor) : Loader :=
  let l : Loader := { state := derivedState x }
  { l with reload := if l.state = .presented then l.startReload else none }

/-! ## Power-on and RESET_N (R187) -/

/-- A line at its first sample (R158). -/
def firstLevel (active : Bool) : Debounced := { level := active }

/-- The Supervisor after power-on or RESET_N (R158, R173, R180, R187). -/
def startSupervisor (lines : Lines) (addrHigh : Bool) (store : CalStore) : Supervisor :=
  { slot := firstLevel lines.slot, clampEnd := firstLevel lines.clampEnd, ejectEnd := firstLevel lines.ejectEnd
    innerLimit := firstLevel lines.innerLimit, supplyLow := firstLevel lines.supplyLow
    shockSeen := lines.shock, shockPin := lines.shock, faultPin := lines.driverFault
    crankHold := lines.supplyLow, faultLatch := lines.driverFault, mute := lines.driverFault
    calValid := calPasses store, addrHigh := addrHigh, calStore := store }

/-- A frame a reset meets part way: its beginning was not seen (R112). -/
def Frame.cut : Frame → Frame
  | .idle => .idle
  | .taking _ => .unseen
  | .unseen => .unseen

/-- Power-on or RESET_N: every block takes its reset values (R187). The waiting commands and the count of free orders read are the
model's own and stay. The part is held no longer. -/
def powerOn (lines : Lines) (addrHigh : Bool) (s : State) : State :=
  let store := s.sup.calStore
  let sup := startSupervisor lines addrHigh store
  { fe := resetFrontEnd store, groups := resetGroups store, sup := sup, loader := derivedLoader sup
    seek := { frame := s.seek.frame.cut }, freeCount := s.freeCount, pending := s.pending }

/-- RESET_N is asserted, or the supply has not reached its working level: the part is held and the transfer under way is lost. The
registers stand until the start sets them; the pins do not show them (R187, log entry 43). -/
def holdPart (s : State) : State :=
  (s.setHeld true).setLink { s.link with rx := .idle, buffer := [], flight := none, sent := [], acks := [] }

/-- POWER_ON_RESET: the hold begins, or it ends and the part starts (R187). -/
def powerOnReset (lines : Option Lines) (addrHigh : Bool) (s : State) : State :=
  match lines with
  | none => holdPart s
  | some x => settle (powerOn x addrHigh s)

/-! ## SOFT RESET (R188) -/

/-- The Supervisor after a SOFT RESET (R158, R173, R180). -/
def Supervisor.softReset (x : Supervisor) : Supervisor :=
  { slot := x.slot, clampEnd := x.clampEnd, ejectEnd := x.ejectEnd, innerLimit := x.innerLimit, supplyLow := x.supplyLow
    shockSeen := x.shockPin, shockPin := x.shockPin, faultPin := x.faultPin
    crankHold := x.crankHold, faultLatch := x.faultPin, mute := x.faultPin
    calValid := calPasses x.calStore, addrHigh := x.addrHigh, calStore := x.calStore }

/-- The Seek Engine after a SOFT RESET that keeps the disc (R131). -/
def Seek.kept (x : Seek) : Seek :=
  { aCur := x.aCur, tpCur := x.tpCur, known := x.known, age := x.age, zones := x.zones, lastBlock := x.lastBlock,
    firstTracks := x.firstTracks, frame := x.frame.cut }

/-- The Defect Window Table after a SOFT RESET that keeps the disc, before the arming (R76). -/
def DefectTable.kept (t : DefectTable) : DefectTable := t.update (fun d => { d with pass := .none })

/-- The Spindle Controller after a SOFT RESET, before T is evaluated: stopped, or braking, which gives way to coast under crank hold
or mute. No notice is posted (R104, R106). -/
def Spindle.softReset (x : Spindle) (held : Bool) : Spindle :=
  if x.state = .stopped then { x with run := false, lockRun := 0, unlockRun := 0 }
  else
    { x with
      state := if held then .coast else .braking
      drive := if held then 0 else -1024
      run := false, isp := 0, lockRun := 0, unlockRun := 0, timer := 0 }

/-- The Link Interface after a SOFT RESET, before its reply (R200). -/
def Link.softReset (l : Link) : Link := { rx := l.rx, buffer := l.buffer, sent := l.sent, acks := l.acks }

/-- The blocks at a SOFT RESET (R188). -/
def softReset (s : State) : State :=
  let sup := s.sup.softReset
  let loader := derivedLoader sup
  let keeps : Bool := loader.state = .clamped
  let seek := if keeps then s.seek.kept else { frame := s.seek.frame.cut }
  let defects := if keeps then s.defects.kept else {}
  let angle := if keeps then s.angle else {}
  let r : State :=
    { fe := resetFrontEnd sup.calStore, groups := resetGroups sup.calStore, sup := sup, loader := loader, seek := seek
      defects := defects.arm angle.bin seek.tpCur, angle := angle
      rev := if keeps then s.rev else Vector.replicate 64 {}
      spindle := s.spindle.softReset (sup.crankHold || sup.mute), link := s.link.softReset
      freeCount := s.freeCount, pending := s.pending }
  evalTarget r

end Sys2Proof.Machine
end

