-- ==== Sys2Proof/Machine/Link.lean ====
section
/-! DEFINITION. The I2C target port: transfers, the receive assembly, read-out (R190 to R195). -/

namespace Sys2Proof.Machine

/-! ## The receive assembly (R191, R192) -/

/-- The buffer holds a complete record: 3 + L bytes, L at most 24 (R191). -/
def bufferComplete (buffer : List Byte) : Bool :=
  match buffer with
  | _ :: l :: _ => l.toNat ≤ 24 && buffer.length = 3 + l.toNat
  | [_] => false
  | [] => false

/-- The buffer's L byte is above 24 (R191). -/
def bufferOversize (buffer : List Byte) : Bool :=
  match buffer with
  | _ :: l :: _ => 24 < l.toNat
  | [_] => false
  | [] => false

/-- The record a write transfer leaves behind as a reply when it ends: LENGTH for an L above 24, SHORT for an incomplete record,
nothing for a record that was taken and for no byte at all (R191, R192). -/
def closingReply (buffer : List Byte) : Option OutRecord :=
  match buffer with
  | [] => none
  | kind :: _ =>
    if bufferComplete buffer then none
    else if bufferOversize buffer then some ⟨replyKind kind, byte Status.length.code, []⟩
    else some ⟨replyKind kind, byte Status.short.code, []⟩

/-- The end of a transfer, by a STOP or a START (R190). -/
def Link.endTransfer (l : Link) : Link :=
  match l.rx with
  | .idle => l
  | .read => { l with rx := .idle, flight := none }
  | .write =>
    let closed := { l with rx := .idle, buffer := [] }
    match closingReply l.buffer with
    | some r => closed.place r
    | none => closed

/-- A START with direction write: acknowledged at the own address with the reply slot empty (R190). -/
def Link.startWrite (l : Link) (own : Bool) : Link :=
  let l := l.endTransfer
  if own && l.reply.isNone then { l with rx := .write, buffer := [], acks := [true] } else { l with acks := [false] }

/-! ## Reads (R195) -/

/-- The record a read transfer chooses, and where it stands (R195). -/
def Link.choose (l : Link) : OutRecord × FlightSource :=
  match l.reply, l.notices with
  | some r, _ => (r, .reply)
  | none, n :: _ => (n.record, .notice)
  | none, [] => (emptyRecord, .spent)

/-- A START with direction read (R190, R195). -/
def Link.startRead (l : Link) (own : Bool) : Link :=
  let l := { l.endTransfer with sent := [], acks := [own] }
  if own then
    let c := l.choose
    { l with rx := .read, flight := some ⟨c.1, c.2, false, 0⟩ }
  else l

/-- The record in flight has been read out (R195). -/
def Link.readOut (l : Link) (f : Flight) : Link :=
  let l := { l with flight := some { f with source := .spent } }
  match f.source with
  | .reply => { l with reply := none }
  | .notice => if f.changed then l else { l with notices := l.notices.tail }
  | .spent => l

/-- One byte clocked out: the record's bytes in order, then 0xFF (R195). -/
def Link.clock (l : Link) : Link :=
  match l.rx, l.flight with
  | .read, some f =>
    let bytes := f.copy.bytes
    let g := { f with clocked := f.clocked + 1 }
    let l := { l with sent := l.sent ++ [(bytes[f.clocked]?).getD 0xFF], flight := some g }
    if g.clocked = bytes.length then l.readOut g else l
  | .read, none => l
  | .idle, _ => l
  | .write, _ => l

/-- Several bytes clocked out. -/
def Link.clocks : Nat → Link → Link
  | 0, l => l
  | n + 1, l => Link.clocks n l.clock

/-- A read transfer's steps: a START where one is given, the clocks, and a STOP where one is given. -/
def Link.readTransfer (l : Link) (start : Option Bool) (n : Nat) (stop : Bool) : Link :=
  let l := match start with
    | some own => l.startRead own
    | none => l
  let l := Link.clocks n l
  if stop then l.endTransfer else l

end Sys2Proof.Machine
end

