-- ==== Sys2Proof/Machine/Queries.lean ====
section
/-! DEFINITION. The requests that read the part, and the payloads of their replies: STATUS, POSITION, IDENT, PARAM GET, TABLE READ,
DEFECT READ (R34, R74, R84, R201 to R203, R207). -/

namespace Sys2Proof.Machine

/-- A byte from its bits, bit 7 first. -/
def bitsByte (bits : List Bool) : Byte := byte (bitsNat bits)

/-- STATUS byte 3 (R207). -/
def statusFlags (s : State) : Byte :=
  bitsByte [s.angle.refValid, s.det.inHold, s.defects.armed, s.groups.shockMode, s.sup.crankHold, s.sup.faultLatch,
            s.sup.mute, s.sup.faultPin]

/-- STATUS byte 4 (R207). -/
def loaderFlags (s : State) : Byte :=
  bitsByte [s.loader.jam, s.loader.ejectPending, s.sup.slot.level, s.sup.clampEnd.level, s.sup.ejectEnd.level,
            !s.sup.calValid, s.link.overflow, s.seek.valid]

/-- The STATUS payload (R201, R207). -/
def statusPayload (s : State) : List Byte :=
  be2 s.fe.c ++ [byte s.fe.level, statusFlags s, loaderFlags s] ++ be2 s.angle.p
    ++ [byte s.focus.state.code, byte s.track.state.code,
        byte (if s.track.state = .jumping then s.track.phase.code else 0), byte s.defects.count,
        byte (activeId s.groups).val, byte s.spindle.state.code]
    ++ be2 s.spindle.target ++ be2 s.seek.age
    ++ [byte s.seek.zones.length, byte s.loader.state.code] ++ be2 s.loader.timer
    ++ [byte s.seq.state.code, byte s.seq.queue.length, byte s.seq.cause.code, byte s.seq.attempts, byte s.sup.power.code]

/-- STATUS: the snapshot, and the overflow flag cleared (R197, R201). -/
def takeStatus (s : State) : State :=
  let s := reply 0x01 .ok (statusPayload s) s
  s.setLink { s.link with overflow := false }

/-- The target of a SEEK entry. -/
def Entry.target (e : Entry) : Option Nat :=
  match e.motion with
  | .seek t => some t
  | .engage => none
  | .jump _ => none
  | .pause => none
  | .disengage => none

/-- The destination: the target of the newest SEEK in the queue (R202). -/
def destination (queue : List Entry) : Option Nat := (queue.filterMap Entry.target).getLast?

/-- The POSITION payload (R202, R207). -/
def positionPayload (s : State) : List Byte :=
  let d := destination s.seq.queue
  be3 s.seek.aCur ++ be3 s.seek.tpCur
    ++ [bitsByte [s.seek.valid, d.isSome, false, false, false, false, false, false], byte s.angle.bin.val]
    ++ be2 s.angle.revs ++ be3 (d.getD 0)

/-- POSITION (R202). -/
def takePosition (s : State) : State := reply 0x02 .ok (positionPayload s) s

/-- The IDENT payload (R203, R207). -/
def identPayload (s : State) : List Byte :=
  be2 2640 ++ [1, flagByte (!s.sup.calValid), s.targetAddress.setWidth 8]

/-- IDENT (R203). -/
def takeIdent (s : State) : State := reply 0x03 .ok (identPayload s) s

/-- First and count of a read, adjusted to a table of `size` rows and at most `most` of them (R34, R74, R84). -/
def adjustRead (size most first count : Nat) : Nat × Nat :=
  let first' := min (size - 1) first
  (first', min (size - first') (satNat 1 most count))

/-- The byte at an offset of a payload. -/
def byteAt (payload : List Byte) (i : Nat) : Nat := ((payload[i]?).getD 0).toNat

/-- The values of `count` fields of a record from `first` on, each in its width (R84, R207). -/
def fieldValues (g : GroupRec) (first count : Nat) : List Byte :=
  (List.range count).flatMap (fun i => fieldBytes (first + i) ((g[first + i]?).getD 0))

/-- PARAM GET (R84). -/
def takeParamGet (payload : List Byte) (s : State) : State :=
  let group := byteAt payload 0
  if 3 < group then reply 0x04 .range [] s
  else
    let a := adjustRead 33 16 (byteAt payload 1) (byteAt payload 2)
    let st := okOrClamped (a ≠ (byteAt payload 1, byteAt payload 2))
    reply 0x04 st (byte (group * 64 + a.1) :: fieldValues (s.groups.recs[Fin.ofNat 4 group]) a.1 a.2) s

/-- The bytes of `count` bins from `first` on (R34, R207). -/
def binValues (rev : Vector RevRecord 64) (first count : Nat) : List Byte :=
  (List.range count).flatMap (fun i => feedforwardBytes ((rev[first + i]?).getD {}))

/-- TABLE READ (R34). -/
def takeTableRead (payload : List Byte) (s : State) : State :=
  let a := adjustRead 64 8 (byteAt payload 0) (byteAt payload 1)
  let st := okOrClamped (a ≠ (byteAt payload 0, byteAt payload 1))
  reply 0x0A st (byte a.1 :: binValues s.rev a.1 a.2) s

/-- The bytes of `count` defect records from `first` on (R74, R207). -/
def defectValues (t : DefectTable) (first count : Nat) : List Byte :=
  (List.range count).flatMap (fun i => defectBytes (t.entry (first + i)))

/-- DEFECT READ (R74). -/
def takeDefectRead (payload : List Byte) (s : State) : State :=
  let a := adjustRead 32 3 (byteAt payload 0) (byteAt payload 1)
  let st := okOrClamped (a ≠ (byteAt payload 0, byteAt payload 1))
  reply 0x0C st (byte a.1 :: defectValues s.defects a.1 a.2) s

end Sys2Proof.Machine
end

