-- ==== Sys2Proof/Machine/Requests.lean ====
section
/-! DEFINITION. The requests that write the part: groups, launches, zones, tables, offsets, settings, power (R4, R33, R72, R73, R82 to
R89, R118, R119, R175, R179, R181 to R184, R188, R198). -/

namespace Sys2Proof.Machine

/-! ## Groups (R78, R82, R83, R85, R86, R89) -/

/-- The first failing comparison of a record, by the field it reports (R78). -/
def firstFailure (g : GroupRec) : Option Nat :=
  if g[10] < g[9] then some 10
  else if g[12] < g[11] then some 12
  else if g[13] < g[12] then some 13
  else if g[14] < g[15] then some 15
  else if g[15] < g[16] then some 16
  else if g[16] < g[17] then some 17
  else if g[21] < g[20] then some 21
  else none

/-- The pairs applied to a record in their order, each value clamped (R83). -/
def applyPairs (pairs : List (Nat × Nat × Nat)) (g : GroupRec) : GroupRec :=
  pairs.foldl (fun g p => g.setIfInBounds p.2.1 (clampField p.2.1 p.2.2)) g

/-- A value of some pair is clamped (R83). -/
def pairsClamp (pairs : List (Nat × Nat × Nat)) : Bool := pairs.any (fun p => clampField p.2.1 p.2.2 ≠ p.2.2)

/-- The refusals of R82, in their order. -/
def paramRefusal (group : Nat) (pairs : List (Nat × Nat × Nat)) (g : Groups) : Option Status :=
  if pairs.any (fun p => p.1 ≠ group) then some .range
  else if pairs.any (fun p => 32 < p.2.1) then some .range
  else if Fin.ofNat 4 group = activeId g then some .groupActive
  else none

/-- PARAM SET on its pairs (R82, R83). -/
def paramSet (pairs : List (Nat × Nat × Nat)) (s : State) : State :=
  let group := (pairs.head?.map (·.1)).getD 0
  match paramRefusal group pairs s.groups with
  | some st => reply 0x05 st [] s
  | none =>
    let id : GroupId := Fin.ofNat 4 group
    let g := applyPairs pairs s.groups.recs[id]
    match firstFailure g with
    | some field => reply 0x05 .inconsistent [byte field] s
    | none =>
      reply 0x05 (okOrClamped (pairsClamp pairs)) [] (s.setGroups { s.groups with recs := s.groups.recs.set id g })

/-- PARAM SET (R82, R83, R206). -/
def takeParamSet (payload : List Byte) (s : State) : State := paramSet ((paramPairs 8 payload).getD []) s

/-- LAUNCH NOW's effect (R85). -/
def launchNow (g : GroupId) (s : State) : State := launchGroup g (s.setGroups { s.groups with pending := none })

/-- LAUNCH INDEX's effect (R86). -/
def launchIndex (g : GroupId) (s : State) : State :=
  if s.spindle.state = .stopped then post .launch [byte g.val] (launchGroup g s)
  else s.setGroups { s.groups with pending := some g }

/-- LAUNCH (R85, R86). -/
def takeLaunch (payload : List Byte) (s : State) : State :=
  let group := byteAt payload 0
  let timing := byteAt payload 1
  if 3 < group || 1 < timing then reply 0x06 .range [] s
  else
    let g : GroupId := Fin.ofNat 4 group
    reply 0x06 .ok [] (if timing = 0 then launchNow g s else launchIndex g s)

/-- The payload of a SHOCK CONFIG reply (R207). -/
def shockPayload (g : Groups) : List Byte :=
  [byte g.base.val, byte g.shock.val, byte g.shockRevs, flagByte g.shockMode, byte g.clean, byte (pendingCode g.pending)]

/-- A refused SHOCK CONFIG: the reply carries the six settings (R89) or no payload (R207), and which is a free value (log entry 20). -/
def refuseShockConfig (st : Status) (s : State) : State :=
  reply 0x07 st (if Config.refusedShockCarries st.code then shockPayload s.groups else []) s

/-- SHOCK CONFIG (R89). A group above 3 is refused RANGE in shock mode as well: the order of the two tests is the model's choice (log
entry 45). -/
def takeShockConfig (payload : List Byte) (s : State) : State :=
  if payload = [] then reply 0x07 .ok (shockPayload s.groups) s
  else
    let group := byteAt payload 0
    let revs := byteAt payload 1
    if 3 < group then refuseShockConfig .range s
    else if s.groups.shockMode then refuseShockConfig .busy s
    else
      let s := s.setGroups { s.groups with shock := Fin.ofNat 4 group, shockRevs := max 1 revs }
      reply 0x07 (okOrClamped (revs = 0)) (shockPayload s.groups) s

/-! ## Zones (R118, R119) -/

/-- The payload of a ZONE SET reply (R207). -/
def zonePayload (z : Nat) (r : Zone) (count : Nat) : List Byte :=
  byte z :: (be3 r.first ++ be2 r.bpt ++ be2 r.interval ++ [byte count])

/-- The record of a ZONE SET write, clamped (R118). -/
def clampZone (r : Zone) : Zone := ⟨min maxBlock r.first, satNat 256 65535 r.bpt, satNat 2000 60000 r.interval⟩

/-- The table with record `z` written, or appended where `z` is the count (R118). -/
def writeZone (zones : List Zone) (z : Nat) (r : Zone) : List Zone :=
  if z < zones.length then zones.set z r else zones ++ [r]

/-- The write of a zone record (R118). -/
def zoneSet (z : Nat) (asked : Zone) (s : State) : State :=
  let r := clampZone asked
  if s.seek.zones.length < z || 16 ≤ z then reply 0x08 .range [] s
  else
    let zones := writeZone s.seek.zones z r
    if zonesLawful zones s.seek.lastBlock then
      reply 0x08 (okOrClamped (r ≠ asked)) (zonePayload z r zones.length) (setZones zones s.seek.lastBlock s)
    else reply 0x08 .inconsistent [] s

/-- ZONE SET (R118). -/
def takeZoneSet (payload : List Byte) (s : State) : State :=
  let z := byteAt payload 0
  if payload.length = 1 then
    match s.seek.zones[z]? with
    | some r => reply 0x08 .ok (zonePayload z r s.seek.zones.length) s
    | none => reply 0x08 .range [] s
  else zoneSet z ⟨fieldAt payload 1 3, fieldAt payload 4 2, fieldAt payload 6 2⟩ s

/-- The payload of a ZONE LIMIT reply (R207). -/
def limitPayload (s : State) : List Byte := byte s.seek.zones.length :: be3 s.seek.lastBlock

/-- The write of the zone count and last block (R119). -/
def zoneLimit (count last : Nat) (s : State) : State :=
  let count' := min s.seek.zones.length (max 1 count)
  let last' := min maxBlock last
  let zones := s.seek.zones.take count'
  if zones.all (fun z => z.first ≤ last') then
    let s := setZones zones last' s
    reply 0x09 (okOrClamped (count' ≠ count || last' ≠ last)) (limitPayload s) s
  else reply 0x09 .inconsistent [] s

/-- ZONE LIMIT (R119). -/
def takeZoneLimit (payload : List Byte) (s : State) : State :=
  if payload = [] then reply 0x09 .ok (limitPayload s) s
  else zoneLimit (byteAt payload 0) (fieldAt payload 1 3) s

/-! ## Disc tables (R33, R72, R73) -/

/-- TABLE CLEAR (R33). -/
def takeTableClear (s : State) : State := reply 0x0B .ok [] (clearFeedforward s)

/-- The entry DEFECT ADD places (R72). -/
def hostEntry (first span inner outer : Nat) : Defect :=
  { origin := .host, first := Fin.ofNat 64 first, span := span, inner := inner, outer := outer, hits := 0, depth := none,
    pass := .none }

/-- DEFECT ADD's values, adjusted (R72). -/
def adjustAdd (first span inner outer : Nat) : Nat × Nat × Nat × Nat :=
  (min 63 first, satNat 1 16 span, min maxBlock inner, min maxBlock outer)

/-- Places a HOST entry (R69, R72): the index taken, or none where the table is full of HOST entries. -/
def addEntry (d : Defect) (s : State) : Option Nat × State :=
  match s.defects.freeIndex with
  | some i => (some i, rearm (s.setDefects (s.defects.put i (some d))))
  | none =>
    match s.defects.evictIndex with
    | some i => (some i, rearm ((postDefect .evicted i s).setDefects (s.defects.put i (some d))))
    | none => (none, s)

/-- DEFECT ADD on its values (R72). -/
def defectAdd (first span inner outer : Nat) (s : State) : State :=
  let a := adjustAdd first span inner outer
  if a.2.2.2 < a.2.2.1 then reply 0x0D .inconsistent [] s
  else
    let r := addEntry (hostEntry a.1 a.2.1 a.2.2.1 a.2.2.2) s
    match r.1 with
    | some i => reply 0x0D (okOrClamped (a ≠ (first, span, inner, outer))) [byte i] r.2
    | none => reply 0x0D .tableFull [] s

/-- DEFECT ADD (R72). -/
def takeDefectAdd (payload : List Byte) (s : State) : State :=
  defectAdd (byteAt payload 0) (byteAt payload 1) (fieldAt payload 2 3) (fieldAt payload 5 3) s

/-- The entries a clear keeps (R73). -/
def keptBy (selector : Nat) (d : Option Defect) : Option Defect :=
  match d with
  | some x => if selector = 2 || x.origin.code = selector then none else some x
  | none => none

/-- DEFECT CLEAR (R73). -/
def takeDefectClear (payload : List Byte) (s : State) : State :=
  let selector := byteAt payload 0
  if 2 < selector then reply 0x0E .range [] s
  else
    reply 0x0E .ok [] (rearm (s.setDefects { s.defects with entries := mapTable (keptBy selector) s.defects.entries }))

/-! ## Offsets and settings (R4, R175, R179, R198) -/

/-- The payload of an OFFSET reply (R207). -/
def offsetPayload (fe : FrontEnd) : List Byte := be2Signed fe.feOff ++ be2Signed fe.teOff

/-- OFFSET (R4). -/
def takeOffset (payload : List Byte) (s : State) : State :=
  if payload = [] then reply 0x0F .ok (offsetPayload s.fe) s
  else
    let a := signedAt payload 0
    let b := signedAt payload 2
    let s := s.setFe { s.fe with feOff := clampOffset a, teOff := clampOffset b }
    reply 0x0F (okOrClamped (clampOffset a ≠ a || clampOffset b ≠ b)) (offsetPayload s.fe) s

/-- NOTICE MASK (R198, R206). -/
def takeNoticeMask (payload : List Byte) (s : State) : State :=
  let s :=
    if payload = [] then s
    else s.setLink { s.link with mask := BitVec.ofNat 16 (fieldAt payload 0 2) &&& 0x07FF#16 }
  reply 0x10 .ok (be2 s.link.mask.toNat) s

/-- The seven settings, as LINE CONFIG sends them (R207). -/
def linePayload (s : State) : List Byte :=
  [byte s.link.attnMode.code, byte s.sup.edgeSelect.code, byte s.sup.debounce, flagByte s.loader.autoLoad,
   byte s.loader.reloadSetting, byte s.sup.idleSetting, byte s.sup.monSelect]

/-- The ATTN mode of a code. -/
def attnOf (n : Nat) : AttnMode := if n = 1 then .pulse else .level

/-- The SHOCK edge select of a code. -/
def edgeOf (n : Nat) : EdgeSelect := if n = 0 then .rising else if n = 1 then .falling else .both

/-- A change of the ATTN mode ends a pulse (R199). -/
def Link.setAttn (l : Link) (m : AttnMode) : Link := { l with attnMode := m, pulse := l.pulse && l.attnMode = m }

/-- The seven settings written (R175). -/
def writeLines (payload : List Byte) (s : State) : State :=
  let s := s.setLink (s.link.setAttn (attnOf (byteAt payload 0)))
  let s := s.setLoader { s.loader with autoLoad := byteAt payload 3 = 1, reloadSetting := byteAt payload 4 }
  s.setSup { s.sup with
    edgeSelect := edgeOf (byteAt payload 1)
    debounce := satNat 1 15 (byteAt payload 2)
    idleSetting := byteAt payload 5
    monSelect := byteAt payload 6 }

/-- LINE CONFIG (R175). -/
def takeLineConfig (payload : List Byte) (s : State) : State :=
  if payload = [] then reply 0x11 .ok (linePayload s) s
  else if 1 < byteAt payload 0 || 2 < byteAt payload 1 || 1 < byteAt payload 3 || 7 < byteAt payload 6 then
    reply 0x11 .range [] s
  else
    let s' := writeLines payload s
    reply 0x11 (okOrClamped (s'.sup.debounce ≠ byteAt payload 2)) (linePayload s') s'

/-- A FAULT notice (R180). -/
def postFault (s : State) : State := post .fault [flagByte s.sup.faultLatch, flagByte s.sup.mute] s

/-- CLEAR FAULT (R179). -/
def takeClearFault (s : State) : State :=
  let s := if s.sup.faultLatch then postFault (s.setSup { s.sup with faultLatch := false }) else s
  reply 0x12 .ok [] s

/-! ## Power (R181 to R184) -/

/-- POWER ACTIVE's effect (R184). -/
def powerActive (s : State) : State := setPower .active (wakeTo .active s)

/-- POWER STANDBY's effect (R182). -/
def powerStandby (s : State) : State := standbyOrder (wakeTo .standby s)

/-- POWER SLEEP's effect (R15, R183). -/
def powerSleep (s : State) : State := setPower .sleep (s.setFe s.fe.stop)

/-- Whether a POWER SLEEP is refused BUSY (R181). -/
def State.sleepBusy (s : State) : Bool :=
  s.seq.state.engaged || !s.seq.queue.isEmpty || !(s.spindle.state = .stopped) || s.loaderMoving

/-- POWER (R181). A request for the mode in force is answered OK before the BUSY test. -/
def takePower (payload : List Byte) (s : State) : State :=
  match byteAt payload 0 with
  | 0 => reply 0x13 .ok [] (powerActive s)
  | 1 =>
    if s.sup.power = .standby then reply 0x13 .ok [] s
    else if s.loaderMoving then reply 0x13 .busy [] s
    else reply 0x13 .ok [] (powerStandby s)
  | 2 =>
    if s.sup.power = .sleep then reply 0x13 .ok [] s
    else if s.sleepBusy then reply 0x13 .busy [] s
    else reply 0x13 .ok [] (powerSleep s)
  | _ => reply 0x13 .range [] s

/-- SOFT RESET (R188, R200). -/
def takeSoftReset (s : State) : State := reply 0x14 .ok [] (softReset s)

/-! ## Motion, HALT, LOAD, EJECT (R133, R145, R162, R163) -/

/-- The tag of a motion request. -/
def tagOf (payload : List Byte) : Byte := (payload[0]?).getD 0

/-- ENGAGE (R133). -/
def takeEngage (payload : List Byte) (s : State) : State := motionRequest 0x15 .engage (tagOf payload) s

/-- SEEK (R133). -/
def takeSeek (payload : List Byte) (s : State) : State :=
  motionRequest 0x16 (.seek (fieldAt payload 1 3)) (tagOf payload) s

/-- JUMP (R133). -/
def takeJump (payload : List Byte) (s : State) : State := motionRequest 0x17 (.jump (signedAt payload 1)) (tagOf payload) s

/-- PAUSE (R133). -/
def takePause (payload : List Byte) (s : State) : State := motionRequest 0x18 .pause (tagOf payload) s

/-- DISENGAGE (R133). -/
def takeDisengage (payload : List Byte) (s : State) : State := motionRequest 0x19 .disengage (tagOf payload) s

/-- HALT (R145). -/
def takeHalt (s : State) : State := reply 0x1A .ok [] (haltOrder s)

/-- LOAD (R162). -/
def takeLoad (s : State) : State :=
  let r := loadEffect (wakeTo .active s)
  reply 0x1B r.1 [] r.2

/-- EJECT (R163). -/
def takeEject (s : State) : State := reply 0x1C .ok [] (ejectEffect (ejectOrder (wakeTo .active s)))

/-! ## A complete record (R193) -/

/-- The payload lengths allowed for a kind, with the division of a PARAM SET payload (R204, R206). -/
def lengthAllowed (kind : Nat) (payload : List Byte) : Bool :=
  let n := payload.length
  match kind with
  | 0x01 => n = 0
  | 0x02 => n = 0
  | 0x03 => n = 0
  | 0x04 => n = 3
  | 0x05 => 2 ≤ n && n ≤ 24 && (paramPairs 8 payload).isSome
  | 0x06 => n = 2
  | 0x07 => n = 0 || n = 2
  | 0x08 => n = 1 || n = 8
  | 0x09 => n = 0 || n = 4
  | 0x0A => n = 2
  | 0x0B => n = 0
  | 0x0C => n = 2
  | 0x0D => n = 8
  | 0x0E => n = 1
  | 0x0F => n = 0 || n = 4
  | 0x10 => n = 0 || n = 2
  | 0x11 => n = 0 || n = 7
  | 0x12 => n = 0
  | 0x13 => n = 1
  | 0x14 => n = 0
  | 0x15 => n = 1
  | 0x16 => n = 4
  | 0x17 => n = 3
  | 0x18 => n = 1
  | 0x19 => n = 1
  | 0x1A => n = 0
  | 0x1B => n = 0
  | 0x1C => n = 0
  | _ => false

/-- The block that owns a kind takes the request (R193, R204). -/
def handOver (kind : Nat) (payload : List Byte) (s : State) : State :=
  match kind with
  | 0x01 => takeStatus s
  | 0x02 => takePosition s
  | 0x03 => takeIdent s
  | 0x04 => takeParamGet payload s
  | 0x05 => takeParamSet payload s
  | 0x06 => takeLaunch payload s
  | 0x07 => takeShockConfig payload s
  | 0x08 => takeZoneSet payload s
  | 0x09 => takeZoneLimit payload s
  | 0x0A => takeTableRead payload s
  | 0x0B => takeTableClear s
  | 0x0C => takeDefectRead payload s
  | 0x0D => takeDefectAdd payload s
  | 0x0E => takeDefectClear payload s
  | 0x0F => takeOffset payload s
  | 0x10 => takeNoticeMask payload s
  | 0x11 => takeLineConfig payload s
  | 0x12 => takeClearFault s
  | 0x13 => takePower payload s
  | 0x14 => takeSoftReset s
  | 0x15 => takeEngage payload s
  | 0x16 => takeSeek payload s
  | 0x17 => takeJump payload s
  | 0x18 => takePause payload s
  | 0x19 => takeDisengage payload s
  | 0x1A => takeHalt s
  | 0x1B => takeLoad s
  | 0x1C => takeEject s
  | _ => s

/-- A complete record is tested and taken (R193). -/
def takeRecord (buffer : List Byte) (s : State) : State :=
  let kind := byteAt buffer 0
  let payload := (buffer.drop 2).take (byteAt buffer 1)
  if byteSum buffer ≠ 0 then reply kind .check [] s
  else if kind = 0 || 0x1C < kind then reply kind .unknown [] s
  else if !lengthAllowed kind payload then reply kind .length [] s
  else handOver kind payload s

/-- One data byte of a write transfer: stored and acknowledged while the record is neither complete nor refused, and the record taken
at the moment its last byte arrives. An L byte above 24 and every byte after it, and every byte after a complete record, are not
acknowledged (R191). -/
def takeByte (b : Byte) (s : State) : State :=
  if s.link.rx = .write then
    if bufferComplete s.link.buffer || bufferOversize s.link.buffer then
      s.setLink { s.link with acks := s.link.acks ++ [false] }
    else
      let buffer := s.link.buffer ++ [b]
      let s := s.setLink { s.link with buffer := buffer, acks := s.link.acks ++ [!bufferOversize buffer] }
      if bufferComplete buffer then takeRecord buffer s else s
  else s

/-- Several data bytes. -/
def takeBytes : List Byte → State → State
  | [], s => s
  | b :: bs, s => takeBytes bs (takeByte b s)

/-- A START with direction write (R190). -/
def startWrite (address : BitVec 7) (s : State) : State := s.setLink (s.link.startWrite (address = s.targetAddress))

/-- A record written to the part's own address: the START and the bytes, with the transfer still open. -/
def writeRecord (bytes : List Byte) (s : State) : State := takeBytes bytes (startWrite s.targetAddress s)

/-- A request of a kind, framed with a right check byte. -/
def request (kind : Nat) (payload : List Byte) (s : State) : State := writeRecord (requestRecord kind payload) s

end Sys2Proof.Machine
end

