-- ==== Sys2Proof/Machine/Lines.lean ====
section
/-! DEFINITION. The sense lines: debouncing, crank hold, SHOCK, DRIVER_FAULT (R109, R157, R174, R176 to R178). -/

namespace Sys2Proof.Machine

/-! ## Crank hold (R176) -/

/-- A SUPPLY notice (R176). -/
def postSupply (s : State) : State := post .supply [flagByte s.sup.crankHold] s

/-- Crank hold starts: each block that reads it acts by its own rule (R104, R110, R149, R176). -/
def crankHoldStart (s : State) : State :=
  let s := s.setSup { s.sup with crankHold := true }
  let s := spindleHold s
  let s := s.setSled { s.sled with drive := 0 }
  postSupply (crankStart s)

/-- Crank hold ends (R104, R149, R161, R176). -/
def crankHoldEnd (s : State) : State :=
  let s := s.setSup { s.sup with crankHold := false }
  postSupply (crankEnd (loaderFreed (spindleRelease s)))

/-! ## Debounced lines (R157) -/

/-- INNER_LIMIT becomes active: the sled first, then the Seek Engine (R109, R128). -/
def innerLimitActive (s : State) : State :=
  let s := s.setSled { s.sled with drive := if s.sled.drive < 0 then 0 else s.sled.drive }
  seekInnerLimit s

/-- A change of a debounced level is handed to the blocks that read the line (R157). -/
def lineChanged (line : DebLine) (s : State) : State :=
  match line with
  | .slot => loaderSlot s
  | .clampEnd => loaderClampEnd s
  | .ejectEnd => loaderEjectEnd s
  | .innerLimit => if s.sup.innerLimit.level then innerLimitActive s else s
  | .supplyLow => if s.sup.supplyLow.level then crankHoldStart s else crankHoldEnd s

/-- A debounced level changes: the level taken, the run count 0, the change handed on (R157). -/
def changeLine (line : DebLine) (s : State) : State :=
  lineChanged line (s.setSup (s.sup.setLine line { level := !(s.sup.line line).level, run := 0 }))

/-- One sample of a debounced line (R157). -/
def sampleLine (line : DebLine) (raw : Bool) (s : State) : State :=
  let d := s.sup.line line
  if raw = d.level then s.setSup (s.sup.setLine line { d with run := 0 })
  else if s.sup.debounce ≤ d.run + 1 then changeLine line s
  else s.setSup (s.sup.setLine line { d with run := d.run + 1 })

/-! ## SHOCK (R174) -/

/-- A change to a level counts for the edge select (R174). -/
def EdgeSelect.counts (e : EdgeSelect) (rising : Bool) : Bool :=
  match e with
  | .rising => rising
  | .falling => !rising
  | .both => true

/-- The SHOCK line takes a level: in SLEEP it is not watched (R174). -/
def shockLine (high : Bool) (s : State) : State :=
  if s.sup.power = .sleep then s.setSup { s.sup with shockPin := high }
  else
    let changed : Bool := s.sup.shockSeen ≠ high
    let s := s.setSup { s.sup with shockPin := high, shockSeen := high }
    if changed && s.sup.edgeSelect.counts high then shockTrigger s else s

/-! ## DRIVER_FAULT (R177, R178) -/

/-- The asserting edge (R177). -/
def faultAssert (s : State) : State :=
  if s.sup.faultPin then s
  else
    let s := s.setSup { s.sup with faultPin := true, faultLatch := true, mute := true }
    postFault (faultOrder (spindleHold s))

/-- The line drops (R178). -/
def faultDrop (s : State) : State :=
  if s.sup.faultPin then
    let s := s.setSup { s.sup with faultPin := false, mute := false }
    postFault (loaderFreed (spindleRelease s))
  else s

/-! ## The address input (R112, R113) -/

/-- A valid address report: the Seek Engine, then its neighbours. A report that ends an address wait is not taken by any other wait
that its check begins (R97, R113, R125, R137). -/
def validReport (a : Nat) (s : State) : State :=
  let waiting : Bool := s.seek.leg = .wait
  let s := followAddress a (evalTarget (s.setSeek (s.seek.takeAddress a)))
  if waiting then seekFresh a s else seqAddress s

/-- Bits on the address input, and the end of the frame where it comes (R112). -/
def addressBits (bits : List Bool) (ended : Bool) (s : State) : State :=
  let f := s.seek.frame.take bits
  if ended then
    let s := s.setSeek { s.seek with frame := .idle }
    match f with
    | .taking all =>
      match reportAddress all with
      | some a => validReport a s
      | none => s
    | .idle => s
    | .unseen => s
  else s.setSeek { s.seek with frame := f }

/-- The address input of a part held in reset: a frame that is in progress when the hold ends was not seen from its beginning (R112,
R187). -/
def heldBits (ended : Bool) (s : State) : State := s.setSeek { s.seek with frame := if ended then .idle else .unseen }

/-- The end of an ATTN pulse (R199). -/
def pulseEnd (s : State) : State := s.setLink { s.link with pulse := false }

end Sys2Proof.Machine
end

