-- ==== Sys2Proof/Machine/Tick.lean ====
section
/-! DEFINITION. The passing of one millisecond, which step takes in place of idling on an empty queue: every timer that runs counts,
and each expiry acts by its own rule (R20, R99, R100, R103, R114, R125, R140, R151, R152, R160, R185, R199). The order of expiries
that fall in the same millisecond is log entry 4's. -/

namespace Sys2Proof.Machine

/-! ## One timer each -/

/-- The limit of the spindle's state timer, where it runs (R99, R100, R103). -/
def SpindleState.limit : SpindleState → Option Nat
  | .kick => some 1500
  | .locking => some 3000
  | .braking => some 100
  | .stopped => none
  | .locked => none
  | .coast => none

/-- The timeout of the spindle's state. -/
def spindleTimeout (s : State) : State :=
  match s.spindle.state with
  | .kick => kickTimeout s
  | .locking => lockingTimeout s
  | .braking => brakingTimeout s
  | .stopped => s
  | .locked => s
  | .coast => s

/-- The spindle's state timer. -/
def tickSpindle (s : State) : State :=
  match s.spindle.state.limit with
  | none => s
  | some limit =>
    let s := s.setSpindle { s.spindle with timer := countUp limit s.spindle.timer }
    if limit ≤ s.spindle.timer then spindleTimeout s else s

/-- The address age and the watch time (R114). -/
def tickAddress (s : State) : State :=
  let s := s.setSeek { s.seek with age := countUp 65535 s.seek.age }
  if s.seq.state.reading then
    let s := s.setSeek { s.seek with watch := countUp 300 s.seek.watch }
    if 300 ≤ s.seek.watch then addressLost s else s
  else s

/-- The wait timer (R125). -/
def tickWait (s : State) : State :=
  if s.seek.leg = .wait then
    let s := s.setSeek { s.seek with waitTimer := countUp 300 s.seek.waitTimer }
    if 300 ≤ s.seek.waitTimer then addressWaitTimeout s else s
  else s

/-- The address timer of an ENGAGE (R140). -/
def tickEngage (s : State) : State :=
  match s.seq.addrTimer with
  | none => s
  | some t =>
    let s := s.setSeq { s.seq with addrTimer := some (countUp 1000 t) }
    if 1000 ≤ t + 1 then engageAddressTimeout s else s

/-- The 20 ms wait of a recovery attempt (R151). -/
def tickLoopWait (s : State) : State :=
  match s.seq.loopWait with
  | none => s
  | some t =>
    let s := s.setSeq { s.seq with loopWait := some (countUp 20 t) }
    if 20 ≤ t + 1 then loopWaitTimeout s else s

/-- The address step of a recovery attempt (R151, R152). -/
def tickRecovery (s : State) : State :=
  if s.seq.state = .recovering && s.seq.step = .recoverAddress then
    let s := s.setSeq { s.seq with recTimer := countUp 300 s.seq.recTimer }
    if 300 ≤ s.seq.recTimer then recoveryAddressTimeout s else s
  else s

/-- The length of the idle timer (R185). -/
def idleLength (setting : Nat) : Option Nat :=
  if setting = 0 then some 300000 else if setting = 255 then none else some (setting * 60000)

/-- The idle timer. It counts only while nothing waits, and stands while an entry waits in PAUSED left without one by HALT (R185,
log entry 40). -/
def tickIdle (s : State) : State :=
  match s.sup.idleTimer with
  | none => s
  | some t =>
    if s.waitsBehind then s
    else
      let t := countUp 15240000 t
      let s := s.setSup { s.sup with idleTimer := some t }
      match idleLength s.sup.idleSetting with
      | some l => if l ≤ t then idleExpiry s else s
      | none => s

/-- The loader timer's timeout, by the state it runs in (R164, R167). -/
def loaderTimeout (s : State) : State :=
  match s.loader.state with
  | .pulling => loadTimeout s
  | .releasing => releaseTimeout s
  | .empty => s
  | .clamped => s
  | .presented => s
  | .jammed => s

/-- The loader timer (R160). -/
def tickLoader (s : State) : State :=
  if (s.loader.state = .pulling || s.loader.state = .releasing) && s.motorPermit then
    let s := s.setLoader { s.loader with timer := countUp 5000 s.loader.timer }
    if 5000 ≤ s.loader.timer then loaderTimeout s else s
  else s

/-- The reload timer (R160, R168). -/
def tickReload (s : State) : State :=
  match s.loader.reload with
  | none => s
  | some r =>
    if s.reloadRuns then
      let s := s.setLoader { s.loader with reload := some { r with time := countUp r.length r.time } }
      if r.length ≤ r.time + 1 then reloadExpiry s else s
    else s

/-- The timed boundaries whose time has come; the fuel is the number that an interval can still owe (R20). -/
def dueBoundaries : Nat → State → State
  | 0, s => s
  | fuel + 1, s =>
    match s.angle.schedule with
    | none => s
    | some x => if x.next * x.spacing ≤ s.angle.sinceEdge then dueBoundaries fuel (settle (timedBoundary s)) else s

/-- The timed boundaries of the millisecond (R20). -/
def tickAngle (s : State) : State :=
  if s.angle.schedule.isSome then
    dueBoundaries 7 (s.setAngle { s.angle with sinceEdge := s.angle.sinceEdge + 1000 })
  else s

/-! ## The millisecond -/

/-- The parts of a millisecond in the order they are taken. -/
def tickParts : List (State → State) :=
  [pulseEnd, tickAngle, tickSpindle, tickWait, tickEngage, tickLoopWait, tickRecovery, tickAddress, tickIdle, tickLoader,
   tickReload]

/-- The passing of one millisecond; in a part held in reset nothing counts (R187). -/
def tick (s : State) : State := if s.held then s else tickParts.foldl (fun s part => settle (part s)) s

end Sys2Proof.Machine
end

