-- ==== Sys2Proof/Machine/AngleCommands.lean ====
section
/-! DEFINITION. FG edges, timed boundaries and the Group Store's events (R17, R20, R87, R93). -/

namespace Sys2Proof.Machine

/-! ## The FG edge (R17) -/

/-- The edge just counted brings an index event at which the Group Store acts. -/
def edgeSwitches (s : State) : Bool := s.angle.edge = 0 && s.groups.indexActs

/-- What the spindle's act hands on is taken before the boundaries of the same edge; a stop is handed on after them (R103, R139, log
entry 44). -/
def afterSpindle (s : State) : State := if s.spindle.state = .stopped then s else drain 64 s

/-- An FG edge: the Angle Tracker's four steps, and the Spindle Controller with P. Where the edge brings an index event at which
the Group Store acts, the spindle's act is taken before or after the boundaries in a free order, each with what it hands on, so that a
T which the switch changes is the edge's own or not (R17, R81, R97, log entry 1). At any other edge the boundaries, the index event
among them, are delivered before the spindle's act (log entries 44 and 46). The schedule's test takes the spin-up count as the edge's
own interval step left it, also where the spindle's act has stopped the spindle before it (R17, R18, log entry 44). -/
def fgEdge (sinceUs : Nat) (s : State) : State :=
  let p := measured s sinceUs
  let s := edgeCount sinceUs s
  let timed : Bool := s.angle.spinUp = 2
  if edgeSwitches s then
    let r := takeOrder s
    if r.1 then spindleEdge p (drain 64 (edgeBoundaries timed r.2))
    else edgeBoundaries timed (afterSpindle (spindleEdge p r.2))
  else spindleEdge p (edgeBoundaries timed s)

/-! ## The commands -/

/-- FG_EDGE (R17). -/
def execFgEdge (sinceUs : Nat) (s : State) : Result := done (fgEdge sinceUs) s

/-- TIMED_BIN_BOUNDARY (R20). -/
def execTimedBinBoundary (s : State) : Result := done timedBoundary s

/-- PENDING_LAUNCH_EFFECT (R87). -/
def execPendingLaunchEffect (s : State) : Result := done takePending s

/-- SHOCK_MODE_EXIT (R93): the clean count reaches shock_revs. -/
def execShockModeExit (s : State) : Result := done endShock s

end Sys2Proof.Machine
end

