-- ==== Sys2Proof/Machine/LinkCommands.lean ====
section
/-! DEFINITION. The transfers of the host link (R190 to R195, R199). -/

namespace Sys2Proof.Machine

/-- A write transfer from its START, or from where it stands, to its end (R190 to R192). -/
def endWrite (start : Option (BitVec 7)) (bytes : List Byte) (s : State) : State :=
  let s := match start with
    | some a => startWrite a s
    | none => s
  let s := takeBytes bytes s
  s.setLink s.link.endTransfer

/-- WRITE_TRANSFER_END (R191, R192). -/
def execWriteTransferEnd (start : Option (BitVec 7)) (bytes : List Byte) (s : State) : Result :=
  done (endWrite start bytes) s

/-- A read transfer from its START, or from where it stands (R190, R195). -/
def readPart (start : Option (BitVec 7)) (clocks : Nat) (stop : Bool) (s : State) : State :=
  s.setLink (s.link.readTransfer (start.map (fun a => decide (a = s.targetAddress))) clocks stop)

/-- READ_TRANSFER (R195). -/
def execReadTransfer (start : Option (BitVec 7)) (clocks : Nat) (stop : Bool) (s : State) : Result :=
  done (readPart start clocks stop) s

/-- UNKNOWN_REQUEST (R193). -/
def execUnknownRequest (record : List Byte) (s : State) : Result := done (writeRecord record) s

/-- ATTN_PULSE_END (R199). -/
def execAttnPulseEnd (s : State) : Result := done pulseEnd s

end Sys2Proof.Machine
end

