-- ==== Sys2Proof/Machine/LoaderCommands.lean ====
section
/-! DEFINITION. The events of the Loader Controller (R164, R165, R167, R168). -/

namespace Sys2Proof.Machine

/-- EJECT_RELEASE (R165). -/
def execEjectRelease (s : State) : Result := done ejectRelease s

/-- LOAD_TIMEOUT (R164). -/
def execLoadTimeout (s : State) : Result := done loadTimeout s

/-- RELEASE_TIMEOUT (R167). -/
def execReleaseTimeout (s : State) : Result := done releaseTimeout s

/-- RELOAD_TIMER_EXPIRY (R168). -/
def execReloadTimerExpiry (s : State) : Result := done reloadExpiry s

end Sys2Proof.Machine
end

