-- ==== Sys2Proof/Machine/RequestCommands.lean ====
section
/-! DEFINITION. The requests of the catalogue: each writes its record to the part's own address (R193, R204). -/

namespace Sys2Proof.Machine

/-- STATUS (R201). -/
def execStatus (payload : List Byte) (s : State) : Result := done (request 0x01 payload) s

/-- POSITION (R202). -/
def execPosition (payload : List Byte) (s : State) : Result := done (request 0x02 payload) s

/-- IDENT (R203). -/
def execIdent (payload : List Byte) (s : State) : Result := done (request 0x03 payload) s

/-- PARAM GET (R84). -/
def execParamGet (payload : List Byte) (s : State) : Result := done (request 0x04 payload) s

/-- PARAM SET (R83). -/
def execParamSet (payload : List Byte) (s : State) : Result := done (request 0x05 payload) s

/-- LAUNCH with timing NOW (R85). -/
def execLaunchNow (payload : List Byte) (s : State) : Result := done (request 0x06 payload) s

/-- LAUNCH with timing INDEX (R86). -/
def execLaunchIndex (payload : List Byte) (s : State) : Result := done (request 0x06 payload) s

/-- SHOCK CONFIG (R89). -/
def execShockConfig (payload : List Byte) (s : State) : Result := done (request 0x07 payload) s

/-- ZONE SET (R118). -/
def execZoneSet (payload : List Byte) (s : State) : Result := done (request 0x08 payload) s

/-- ZONE LIMIT (R119). -/
def execZoneLimit (payload : List Byte) (s : State) : Result := done (request 0x09 payload) s

/-- TABLE READ (R34). -/
def execTableRead (payload : List Byte) (s : State) : Result := done (request 0x0A payload) s

/-- TABLE CLEAR (R33). -/
def execTableClear (payload : List Byte) (s : State) : Result := done (request 0x0B payload) s

/-- DEFECT READ (R74). -/
def execDefectRead (payload : List Byte) (s : State) : Result := done (request 0x0C payload) s

/-- DEFECT ADD (R72). -/
def execDefectAdd (payload : List Byte) (s : State) : Result := done (request 0x0D payload) s

/-- DEFECT CLEAR (R73). -/
def execDefectClear (payload : List Byte) (s : State) : Result := done (request 0x0E payload) s

/-- OFFSET (R4). -/
def execOffset (payload : List Byte) (s : State) : Result := done (request 0x0F payload) s

/-- NOTICE MASK (R198). -/
def execNoticeMask (payload : List Byte) (s : State) : Result := done (request 0x10 payload) s

/-- LINE CONFIG (R175). -/
def execLineConfig (payload : List Byte) (s : State) : Result := done (request 0x11 payload) s

/-- CLEAR FAULT (R179). -/
def execClearFault (payload : List Byte) (s : State) : Result := done (request 0x12 payload) s

/-- POWER with mode ACTIVE (R184). -/
def execPowerActive (payload : List Byte) (s : State) : Result := done (request 0x13 payload) s

/-- POWER with mode STANDBY (R182). -/
def execPowerStandby (payload : List Byte) (s : State) : Result := done (request 0x13 payload) s

/-- POWER with mode SLEEP (R183). -/
def execPowerSleep (payload : List Byte) (s : State) : Result := done (request 0x13 payload) s

/-- SOFT RESET (R188). -/
def execSoftReset (payload : List Byte) (s : State) : Result := done (request 0x14 payload) s

/-- ENGAGE (R133, R139). -/
def execEngage (payload : List Byte) (s : State) : Result := done (request 0x15 payload) s

/-- SEEK (R133, R141). -/
def execSeek (payload : List Byte) (s : State) : Result := done (request 0x16 payload) s

/-- JUMP (R133, R141). -/
def execJump (payload : List Byte) (s : State) : Result := done (request 0x17 payload) s

/-- PAUSE (R133, R142). -/
def execPause (payload : List Byte) (s : State) : Result := done (request 0x18 payload) s

/-- DISENGAGE (R133, R144). -/
def execDisengage (payload : List Byte) (s : State) : Result := done (request 0x19 payload) s

/-- HALT (R145). -/
def execHalt (payload : List Byte) (s : State) : Result := done (request 0x1A payload) s

/-- LOAD (R162). -/
def execLoad (payload : List Byte) (s : State) : Result := done (request 0x1B payload) s

/-- EJECT (R163). -/
def execEject (payload : List Byte) (s : State) : Result := done (request 0x1C payload) s

end Sys2Proof.Machine
end

