-- ==== Sys2Proof/Machine/SeekCommands.lean ====
section
/-! DEFINITION. The address input and the events of the Seek Engine (R112 to R114, R125, R130). -/

namespace Sys2Proof.Machine

/-- ADDRESS_REPORT (R112, R113). -/
def execAddressReport (bits : List Bool) (ended : Bool) (s : State) : Result :=
  if s.held then .next (heldBits ended s) else done (addressBits bits ended) s

/-- ADDRESS_LOST (R114). -/
def execAddressLost (s : State) : Result := done addressLost s

/-- ADDRESS_WAIT_TIMEOUT (R125). -/
def execAddressWaitTimeout (s : State) : Result := done addressWaitTimeout s

/-- LEG_REORDER (R130). -/
def execLegReorder (s : State) : Result := done seekReorder s

end Sys2Proof.Machine
end

