-- ==== Sys2Proof/Machine/SequencerCommands.lean ====
section
/-! DEFINITION. The events of the Motion Sequencer (R136, R140, R151, R152, R185). -/

namespace Sys2Proof.Machine

/-- ENTRY_START (R136): the test of the head. -/
def execEntryStart (s : State) : Result := done testHead s

/-- ENGAGE_ADDRESS_TIMEOUT (R140). -/
def execEngageAddressTimeout (s : State) : Result := done engageAddressTimeout s

/-- RECOVERY_LOOP_WAIT_TIMEOUT (R151). -/
def execRecoveryLoopWaitTimeout (s : State) : Result := done loopWaitTimeout s

/-- RECOVERY_ADDRESS_TIMEOUT (R152). -/
def execRecoveryAddressTimeout (s : State) : Result := done recoveryAddressTimeout s

/-- IDLE_TIMER_EXPIRY (R185). -/
def execIdleTimerExpiry (s : State) : Result := done idleExpiry s

end Sys2Proof.Machine
end

