-- ==== Sys2Proof/Machine/ServoCommands.lean ====
section
/-! DEFINITION. The servo samples and the events of the sample-driven blocks. A row whose event a count of samples brings stands for that event in any state in which it can come about (log entry 5). -/

namespace Sys2Proof.Machine

/-- SERVO_SAMPLE (R1). -/
def execServoSample (fe te sum : Adc) (s : State) : Result := .next (servoSample fe te sum s)

/-- The hold in force reaches its limit (R62). -/
def holdLimit (s : State) : State :=
  if s.inHold then raiseFocusLost (s.setDet { s.det with inHold := false }) else s

/-- HOLD_LIMIT (R62). -/
def execHoldLimit (s : State) : Result := done holdLimit s

/-- The third sweep of the search ends without a capture (R42). -/
def lastSweepEnds (s : State) : State := if s.focus.state = .search then searchFails s else s

/-- FOCUS_FAIL (R42). -/
def execFocusFail (s : State) : Result := done lastSweepEnds s

/-- SETTLE_TIMEOUT (R45). -/
def execSettleTimeout (s : State) : Result := done settleTimeout s

/-- CLOSE_TIMEOUT (R50). -/
def execCloseTimeout (s : State) : Result := done closeTimeout s

/-- MOVE_STALL (R51). -/
def execMoveStall (s : State) : Result := done moveStall s

/-- OFF_TRACK (R53). -/
def execOffTrack (s : State) : Result := done raiseOffTrack s

/-- FOCUS_LOST (R55). -/
def execFocusLost (s : State) : Result := done raiseFocusLost s

/-- The follow block ends with the sum it has (R107). -/
def followBlockEnds (s : State) : State := if s.trackHeld then sledCompute s else s

/-- SLED_COMPUTATION (R107). -/
def execSledComputation (s : State) : Result := done followBlockEnds s

end Sys2Proof.Machine
end

