-- ==== Sys2Proof/Machine/SpindleCommands.lean ====
section
/-! DEFINITION. The timeouts of the spindle (R99, R100, R103). -/

namespace Sys2Proof.Machine

/-- KICK_TIMEOUT (R99). -/
def execKickTimeout (s : State) : Result := done kickTimeout s

/-- LOCKING_TIMEOUT (R100). -/
def execLockingTimeout (s : State) : Result := done lockingTimeout s

/-- BRAKING_TIMEOUT (R103). -/
def execBrakingTimeout (s : State) : Result := done brakingTimeout s

end Sys2Proof.Machine
end

