-- ==== Sys2Proof/Machine/SupervisorCommands.lean ====
section
/-! DEFINITION. The sense lines and the hardware reset (R157, R174, R177, R178, R187). -/

namespace Sys2Proof.Machine

/-- SENSE_LINE_SAMPLE (R157). -/
def execSenseLineSample (line : DebLine) (active : Bool) (s : State) : Result := done (sampleLine line active) s

/-- DEBOUNCED_LINE_CHANGE (R157): the run count of the line reaches the debounce setting. -/
def execDebouncedLineChange (line : DebLine) (s : State) : Result := done (changeLine line) s

/-- SHOCK_EDGE (R174). -/
def execShockEdge (high : Bool) (s : State) : Result := done (shockLine high) s

/-- DRIVER_FAULT_ASSERT (R177). -/
def execDriverFaultAssert (s : State) : Result := done faultAssert s

/-- DRIVER_FAULT_DROP (R178). -/
def execDriverFaultDrop (s : State) : Result := done faultDrop s

/-- POWER_ON_RESET (R187). -/
def execPowerOnReset (lines : Option Lines) (addrHigh : Bool) (s : State) : Result :=
  .next (powerOnReset lines addrHigh s)

end Sys2Proof.Machine
end

