-- ==== Sys2Proof/Machine/Dispatch.lean ====
section
/-! DEFINITION. The dispatch: one arm for each command, each one call of its meaning. -/

namespace Sys2Proof.Machine

/-- A command's effect on everything but the queue. -/
def exec (i : Instr) (s : State) : Host.Outcome State Fault Refusal :=
  match i with
  | .servoSample fe te sum => Sys2Proof.Machine.execServoSample fe te sum s
  | .holdLimit => Sys2Proof.Machine.execHoldLimit s
  | .focusFail => Sys2Proof.Machine.execFocusFail s
  | .settleTimeout => Sys2Proof.Machine.execSettleTimeout s
  | .closeTimeout => Sys2Proof.Machine.execCloseTimeout s
  | .moveStall => Sys2Proof.Machine.execMoveStall s
  | .offTrack => Sys2Proof.Machine.execOffTrack s
  | .focusLost => Sys2Proof.Machine.execFocusLost s
  | .sledComputation => Sys2Proof.Machine.execSledComputation s
  | .fgEdge sinceUs => Sys2Proof.Machine.execFgEdge sinceUs s
  | .timedBinBoundary => Sys2Proof.Machine.execTimedBinBoundary s
  | .pendingLaunchEffect => Sys2Proof.Machine.execPendingLaunchEffect s
  | .shockModeExit => Sys2Proof.Machine.execShockModeExit s
  | .kickTimeout => Sys2Proof.Machine.execKickTimeout s
  | .lockingTimeout => Sys2Proof.Machine.execLockingTimeout s
  | .brakingTimeout => Sys2Proof.Machine.execBrakingTimeout s
  | .addressReport bits ended => Sys2Proof.Machine.execAddressReport bits ended s
  | .addressLost => Sys2Proof.Machine.execAddressLost s
  | .addressWaitTimeout => Sys2Proof.Machine.execAddressWaitTimeout s
  | .legReorder => Sys2Proof.Machine.execLegReorder s
  | .entryStart => Sys2Proof.Machine.execEntryStart s
  | .engageAddressTimeout => Sys2Proof.Machine.execEngageAddressTimeout s
  | .recoveryLoopWaitTimeout => Sys2Proof.Machine.execRecoveryLoopWaitTimeout s
  | .recoveryAddressTimeout => Sys2Proof.Machine.execRecoveryAddressTimeout s
  | .idleTimerExpiry => Sys2Proof.Machine.execIdleTimerExpiry s
  | .senseLineSample line active => Sys2Proof.Machine.execSenseLineSample line active s
  | .debouncedLineChange line => Sys2Proof.Machine.execDebouncedLineChange line s
  | .ejectRelease => Sys2Proof.Machine.execEjectRelease s
  | .loadTimeout => Sys2Proof.Machine.execLoadTimeout s
  | .releaseTimeout => Sys2Proof.Machine.execReleaseTimeout s
  | .reloadTimerExpiry => Sys2Proof.Machine.execReloadTimerExpiry s
  | .shockEdge high => Sys2Proof.Machine.execShockEdge high s
  | .driverFaultAssert => Sys2Proof.Machine.execDriverFaultAssert s
  | .driverFaultDrop => Sys2Proof.Machine.execDriverFaultDrop s
  | .powerOnReset lines addrHigh => Sys2Proof.Machine.execPowerOnReset lines addrHigh s
  | .writeTransferEnd start bytes => Sys2Proof.Machine.execWriteTransferEnd start bytes s
  | .readTransfer start clocks stop => Sys2Proof.Machine.execReadTransfer start clocks stop s
  | .unknownRequest record => Sys2Proof.Machine.execUnknownRequest record s
  | .attnPulseEnd => Sys2Proof.Machine.execAttnPulseEnd s
  | .status payload => Sys2Proof.Machine.execStatus payload s
  | .position payload => Sys2Proof.Machine.execPosition payload s
  | .ident payload => Sys2Proof.Machine.execIdent payload s
  | .paramGet payload => Sys2Proof.Machine.execParamGet payload s
  | .paramSet payload => Sys2Proof.Machine.execParamSet payload s
  | .launchNow payload => Sys2Proof.Machine.execLaunchNow payload s
  | .launchIndex payload => Sys2Proof.Machine.execLaunchIndex payload s
  | .shockConfig payload => Sys2Proof.Machine.execShockConfig payload s
  | .zoneSet payload => Sys2Proof.Machine.execZoneSet payload s
  | .zoneLimit payload => Sys2Proof.Machine.execZoneLimit payload s
  | .tableRead payload => Sys2Proof.Machine.execTableRead payload s
  | .tableClear payload => Sys2Proof.Machine.execTableClear payload s
  | .defectRead payload => Sys2Proof.Machine.execDefectRead payload s
  | .defectAdd payload => Sys2Proof.Machine.execDefectAdd payload s
  | .defectClear payload => Sys2Proof.Machine.execDefectClear payload s
  | .offset payload => Sys2Proof.Machine.execOffset payload s
  | .noticeMask payload => Sys2Proof.Machine.execNoticeMask payload s
  | .lineConfig payload => Sys2Proof.Machine.execLineConfig payload s
  | .clearFault payload => Sys2Proof.Machine.execClearFault payload s
  | .powerActive payload => Sys2Proof.Machine.execPowerActive payload s
  | .powerStandby payload => Sys2Proof.Machine.execPowerStandby payload s
  | .powerSleep payload => Sys2Proof.Machine.execPowerSleep payload s
  | .softReset payload => Sys2Proof.Machine.execSoftReset payload s
  | .engage payload => Sys2Proof.Machine.execEngage payload s
  | .seek payload => Sys2Proof.Machine.execSeek payload s
  | .jump payload => Sys2Proof.Machine.execJump payload s
  | .pause payload => Sys2Proof.Machine.execPause payload s
  | .disengage payload => Sys2Proof.Machine.execDisengage payload s
  | .halt payload => Sys2Proof.Machine.execHalt payload s
  | .load payload => Sys2Proof.Machine.execLoad payload s
  | .eject payload => Sys2Proof.Machine.execEject payload s

end Sys2Proof.Machine
end

