-- ==== Sys2Proof/Safety.lean ====
section
/-! DEFINITION. What a safe run keeps: the laws that the manual states of the whole machine, each a condition on one state. And the
words in which claims about a request are said: a settled machine, a link ready for a write, an answered request. -/

namespace Sys2Proof.Machine

/-! ## Between commands -/

/-- Nothing is being handed on, the loader drive stands as R159 gives it, and no release of R165 is due. -/
abbrev State.atRest (s : State) : Prop :=
  s.signals = [] ∧ s.loader.drive = s.loaderDemand
    ∧ ¬(s.loader.state = .clamped ∧ s.loader.ejectPending = true ∧ s.motorPermit = true)

/-- Nothing is left to be handed on, and the part is not held in reset (R187): a command has its effect. -/
abbrev State.settled (s : State) : Prop := s.atRest ∧ s.held = false

/-- No transfer is under way and the reply slot is empty: a write to the own address is acknowledged (R190). -/
abbrev State.linkReady (s : State) : Prop := s.link.rx = .idle ∧ s.link.reply = none

/-- The link after a request of kind `kind` with payload `payload`, answered with the status code and payload given: the transfer
still open with its whole record, the address and every byte acknowledged, the reply in the reply slot, and in PULSE mode a pulse of ATTN
(R190, R191, R193, R199). -/
def Link.answered (l : Link) (kind : Nat) (payload : List Byte) (st : Nat) (out : List Byte) : Link :=
  { l with
    rx := .write
    buffer := requestRecord kind payload
    reply := some ⟨BitVec.ofNat 8 (kind + 128), BitVec.ofNat 8 st, out⟩
    pulse := decide (l.attnMode = .pulse)
    acks := List.replicate (payload.length + 4) true }

/-- No incident counter stands above 0: no change of group raises an incident while the group records are lawful (R39). -/
abbrev State.countersClear (s : State) : Prop := s.track.offCount = 0 ∧ s.focus.lost = 0

/-- The tracking loop is held and its off-track counter stands at or above the limit of a group (R39). -/
abbrev State.offReached (s : State) (r : GroupRec) : Prop :=
  (s.track.state = .locked ∨ s.track.state = .hold) ∧ r[23] ≤ s.track.offCount

/-- The focus loop is held and its focus-lost counter stands at or above the limit of a group (R39). -/
abbrev State.lostReached (s : State) (r : GroupRec) : Prop :=
  (s.focus.state = .locked ∨ s.focus.state = .hold) ∧ r[25] ≤ s.focus.lost

/-- The bin is one of the `span` bins from `first` on, each modulo 64: its distance from the first, going up, is below the span
(section 4.2). -/
abbrev binOf (first : Fin 64) (span : Nat) (b : Fin 64) : Prop := (b.val + 64 - first.val) % 64 < span

/-- Some entry covers the pickup (R66). -/
def covered (entries : Vector (Option Defect) 32) (b : Fin 64) (tp : Nat) : Prop :=
  ∃ (i : Fin 32) (d : Defect), entries[i] = some d ∧ binOf d.first d.span b ∧ d.inner ≤ tp ∧ tp ≤ d.outer

/-- The machine as a waking request finds it: out of SLEEP in ACTIVE, SHOCK taken as it stands, the POWER notice posted; in any other mode
as it is (R174, R184). -/
def State.awake (s : State) : State :=
  if s.sup.power = .sleep then
    { s with sup := { s.sup with power := .active, shockSeen := s.sup.shockPin }, link := s.link.post .power [0] }
  else s

/-- The target of a SEEK, and the count of a JUMP. -/
def Motion.argument : Motion → Option Nat
  | .seek t => some t
  | .engage => none
  | .jump _ => none
  | .pause => none
  | .disengage => none

def Motion.tracks : Motion → Option Int
  | .jump n => some n
  | .engage => none
  | .seek _ => none
  | .pause => none
  | .disengage => none

/-- The request that carries a motion, with its tag (R204, R206). -/
def Motion.command (tag : Byte) : Motion → Instr
  | .engage => .engage [tag]
  | .seek t => .seek (tag :: be3 t)
  | .jump n => .jump (tag :: be2Signed n)
  | .pause => .pause [tag]
  | .disengage => .disengage [tag]

/-- Its kind byte (R204). -/
def Motion.requestKind : Motion → Nat
  | .engage => 0x15
  | .seek _ => 0x16
  | .jump _ => 0x17
  | .pause => 0x18
  | .disengage => 0x19

/-- Its payload (R206). -/
def Motion.requestPayload (tag : Byte) : Motion → List Byte
  | .engage => [tag]
  | .seek t => tag :: be3 t
  | .jump n => tag :: be2Signed n
  | .pause => [tag]
  | .disengage => [tag]

/-- The argument fits its field (R206). -/
def Motion.fits : Motion → Prop
  | .seek t => t < 16777216
  | .jump n => -32768 ≤ n ∧ n < 32768
  | .engage => True
  | .pause => True
  | .disengage => True

/-! ## The timers of a millisecond -/

/-- The timers that count time (R20, R99, R100, R103, R114, R125, R140, R151, R160, R185). -/
inductive Timer
  | boundary
  | spindle
  | wait
  | engage
  | loopWait
  | recovery
  | watch
  | idle
  | loader
  | reload
  deriving DecidableEq, Repr

/-- The timers in the order in which a millisecond counts them (log entry 4). -/
def Timer.order : List Timer := [.boundary, .spindle, .wait, .engage, .loopWait, .recovery, .watch, .idle, .loader, .reload]

/-- The timer runs. -/
def State.runs (s : State) : Timer → Bool
  | .boundary => s.angle.schedule.isSome
  | .spindle => s.spindle.state = .kick || s.spindle.state = .locking || s.spindle.state = .braking
  | .wait => s.seek.leg = .wait
  | .engage => s.seq.addrTimer.isSome
  | .loopWait => s.seq.loopWait.isSome
  | .recovery => s.seq.state = .recovering && s.seq.step = .recoverAddress
  | .watch => s.seq.state = .following || s.seq.state = .paused
  | .idle => s.sup.idleTimer.isSome && s.seq.queue.all (·.inProgress)
  | .loader =>
    (s.loader.state = .pulling || s.loader.state = .releasing) && s.spindle.state = .stopped
      && !(s.seq.laser && !s.sup.mute) && !s.sup.crankHold && !s.sup.mute
  | .reload =>
    s.loader.state = .presented && s.loader.reload.isSome && !s.sup.crankHold && !s.sup.mute && !(s.sup.power = .sleep)

/-- What it has counted: µs for the timed boundaries, ms for the others. -/
def State.elapsed (s : State) : Timer → Nat
  | .boundary => s.angle.sinceEdge
  | .spindle => s.spindle.timer
  | .wait => s.seek.waitTimer
  | .engage => s.seq.addrTimer.getD 0
  | .loopWait => s.seq.loopWait.getD 0
  | .recovery => s.seq.recTimer
  | .watch => s.seek.watch
  | .idle => s.sup.idleTimer.getD 0
  | .loader => s.loader.timer
  | .reload => (s.loader.reload.map (·.time)).getD 0

/-- One millisecond in its unit. -/
def Timer.unit (k : Timer) : Nat := if k = .boundary then 1000 else 1

/-- Where it expires (R20, R99, R100, R103, R114, R125, R140, R151, R152, R164, R167, R168, R185); `none` for the idle timer whose
setting is NEVER. -/
def State.deadline (s : State) : Timer → Option Nat
  | .boundary => s.angle.schedule.map (fun x => x.next * x.spacing)
  | .spindle => some (match s.spindle.state with | .kick => 1500 | .locking => 3000 | _ => 100)
  | .wait => some 300
  | .engage => some 1000
  | .loopWait => some 20
  | .recovery => some 300
  | .watch => some 300
  | .idle => if s.sup.idleSetting = 255 then none else some (if s.sup.idleSetting = 0 then 300000 else s.sup.idleSetting * 60000)
  | .loader => some 5000
  | .reload => s.loader.reload.map (·.length)

/-- The millisecond does not bring the timer to its end. -/
def State.below (s : State) (k : Timer) : Bool :=
  match s.deadline k with
  | some l => s.elapsed k + k.unit < l
  | none => true

/-- The millisecond brings the timer to its end; of the timed boundaries, one and no more. -/
def State.expires (s : State) (k : Timer) : Bool :=
  match k with
  | .boundary =>
    match s.angle.schedule with
    | some x =>
      x.next * x.spacing ≤ s.angle.sinceEdge + 1000 && (x.next = 7 || s.angle.sinceEdge + 1000 < (x.next + 1) * x.spacing)
    | none => false
  | k => s.deadline k = some (s.elapsed k + 1)

/-- The timer one millisecond on. -/
def State.countOn (s : State) : Timer → State
  | .boundary => s.setAngle { s.angle with sinceEdge := s.angle.sinceEdge + 1000 }
  | .spindle => s.setSpindle { s.spindle with timer := s.spindle.timer + 1 }
  | .wait => s.setSeek { s.seek with waitTimer := s.seek.waitTimer + 1 }
  | .engage => s.setSeq { s.seq with addrTimer := s.seq.addrTimer.map (· + 1) }
  | .loopWait => s.setSeq { s.seq with loopWait := s.seq.loopWait.map (· + 1) }
  | .recovery => s.setSeq { s.seq with recTimer := s.seq.recTimer + 1 }
  | .watch => s.setSeek { s.seek with watch := s.seek.watch + 1 }
  | .idle => s.setSup { s.sup with idleTimer := s.sup.idleTimer.map (fun t => min 15240000 (t + 1)) }
  | .loader => s.setLoader { s.loader with timer := s.loader.timer + 1 }
  | .reload => s.setLoader { s.loader with reload := s.loader.reload.map (fun r => { r with time := r.time + 1 }) }

/-- The event of its end, as the table names it. -/
def State.expiry (s : State) : Timer → Instr
  | .boundary => .timedBinBoundary
  | .spindle => match s.spindle.state with | .kick => .kickTimeout | .locking => .lockingTimeout | _ => .brakingTimeout
  | .wait => .addressWaitTimeout
  | .engage => .engageAddressTimeout
  | .loopWait => .recoveryLoopWaitTimeout
  | .recovery => .recoveryAddressTimeout
  | .watch => .addressLost
  | .idle => .idleTimerExpiry
  | .loader => if s.loader.state = .pulling then .loadTimeout else .releaseTimeout
  | .reload => .reloadTimerExpiry

/-- The running ones of some timers one millisecond on. -/
def State.count (s : State) (ks : List Timer) : State := ks.foldl (fun u k => if u.runs k then u.countOn k else u) s

/-- The address age one millisecond on (R114). -/
def State.aged (s : State) : State := s.setSeek { s.seek with age := if s.seek.age < 65535 then s.seek.age + 1 else 65535 }

/-! ## Ends and the disengage -/

/-- Notices posted one after another (R196). -/
def Link.postAll (l : Link) (ns : List Notice) : Link := ns.foldl (fun l n => l.post n.kind n.payload) l

/-- The MOTION_DONE notices of entries that end with an outcome, by its code (R155, R205, R206). -/
def endNotices (outcome : Nat) (entries : List Entry) : List Notice :=
  entries.map (fun e => ⟨.motionDone, [e.tag, byte e.motion.code, byte outcome]⟩)

/-- What is posted when the entry in progress ends with one outcome and the waiting ones ABANDONED (R132, R136). -/
def allEnd (outcome : Nat) (queue : List Entry) : List Notice :=
  endNotices outcome (queue.filter (·.inProgress)) ++ endNotices 1 (queue.filter (fun e => !e.inProgress))

/-- What is posted when an order ends everything ABANDONED: the entries, then a recovery under way (R145 to R148, R155). -/
def State.abandons (s : State) : List Notice :=
  allEnd 1 s.seq.queue
    ++ (if s.seq.state = .recovering then [⟨.recovery, [byte s.seq.cause.code, 2, byte s.seq.attempts]⟩] else [])

/-- The tracking loop OFF, and the focus loop OFF, as an opened loop stands (R56). -/
def trackOff : TrackLoop := ⟨.off, ⟨0, 0, 0, 0, 0⟩, 0, .none, 0, 0, 0, 0, 0, false, .none, false, 0⟩
def focusOff : FocusLoop := ⟨.off, ⟨0, 0, 0, 0, 0⟩, 0, 0, 0, none⟩

/-- T as R97 gives it outside SEEKING. -/
def State.ownTarget (s : State) : Nat :=
  (zoneAt s.seek.zones (if s.seek.known then zoneOf s.seek.zones s.seek.aCur else 0)).interval

/-- The Front End as a switch to group `g` leaves it (R9, R10). -/
def FrontEnd.underGroup (fe : FrontEnd) (r : GroupRec) : FrontEnd :=
  { fe with c := max r[9] (min r[10] fe.c), level := levelOf r (max r[9] (min r[10] fe.c)) }

/-- The machine that a disengage leaves with the spindle turning: the task dropped, both loops OFF, the laser demand cleared, the
spindle braking, shock mode ended, the address not valid, the sequencer DISENGAGING with an empty queue (R56, R70, R93, R96, R103, R129,
R143). `ends` are the notices of the ends before it. -/
def State.disengaged (s : State) (standby : Bool) (ends : List Notice) : State :=
  { s with
    fe :=
      if s.groups.shockMode = true ∧ s.groups.shock ≠ s.groups.base then s.fe.underGroup s.groups.recs[s.groups.base] else s.fe
    focus := focusOff
    track := trackOff
    det := { s.det with inHold := false }
    defects :=
      if s.focus.state = .locked ∨ s.focus.state = .hold then
        { s.defects with
          entries := s.defects.entries.map (fun d => d.map (fun d => if d.pass = .hit then d else { d with pass := .none })) }
      else s.defects
    groups := if s.groups.shockMode then { s.groups with shockMode := false, clean := 0, disturbed := false } else s.groups
    spindle := { s.spindle with
      state := .braking, run := false, drive := -1024, lockRun := 0, unlockRun := 0, timer := 0
      target := if s.seq.state = .seeking then s.ownTarget else s.spindle.target }
    sled := if s.track.state = .openSeek then { s.sled with drive := 0, move := none } else s.sled
    seek := { s.seek with
      valid := false, task := none, leg := .none, madeLeg := false, retry := false, limitStop := false, corrections := 0
      waitTimer := 0, remainder := 0 }
    seq := { s.seq with
      state := .disengaging, queue := [], cause := .none, attempts := 0, laser := false, toStandby := standby, step := .none
      addrTimer := none, loopWait := none, recTimer := 0 }
    sup := { s.sup with idleTimer := none }
    link := s.link.postAll (ends
      ++ (if s.spindle.state = .locked then [⟨.spindle, [5]⟩] else [])
      ++ (if s.groups.shockMode then [⟨.shock, [0, byte s.groups.base.val]⟩] else [])) }

/-- The spindle turns under a drive that a brake order ends (R96). -/
abbrev State.turning (s : State) : Prop :=
  s.spindle.state = .kick ∨ s.spindle.state = .locking ∨ s.spindle.state = .locked

/-! ## The laws -/

/-- At most four entries, and only the head in progress (R132). -/
abbrev queueLaw (queue : List Entry) : Prop := queue.length ≤ 4 ∧ ∀ e ∈ queue.tail, e.inProgress = false

/-- At most eight notices, and never two of one state kind (R196). -/
abbrev noticeLaw (notices : List Notice) : Prop :=
  notices.length ≤ 8 ∧ ((notices.filter (fun n => n.kind.isState)).map (·.kind)).Nodup

/-- The Zone Table law, the ranges of its fields, and the list of first tracks (R117). -/
abbrev zoneLaw (x : Seek) : Prop :=
  1 ≤ x.zones.length ∧ x.zones.length ≤ 16 ∧ (x.zones.map (·.first)).head? = some 0
    ∧ (x.zones.map (·.first)).Pairwise (· < ·)
    ∧ (∀ z ∈ x.zones, z.first ≤ x.lastBlock ∧ 256 ≤ z.bpt ∧ z.bpt ≤ 65535 ∧ 2000 ≤ z.interval ∧ z.interval ≤ 60000)
    ∧ x.lastBlock ≤ 4194303 ∧ x.firstTracks = firstTracksOf x.zones

/-- Every field in its range, and the four cross-field conditions (R77, R78). -/
abbrev recordLaw (g : GroupRec) : Prop :=
  (∀ n : Fin 33, (fieldRanges[n]).1 ≤ g[n] ∧ g[n] ≤ (fieldRanges[n]).2)
    ∧ g[9] ≤ g[10] ∧ g[11] ≤ g[12] ∧ g[12] ≤ g[13] ∧ g[15] ≤ g[14] ∧ g[16] ≤ g[15] ∧ g[17] ≤ g[16] ∧ g[20] ≤ g[21]

/-- Every group record is lawful, and shock_revs is in 1..255 (R77, R78, R80). -/
abbrev groupLaw (g : Groups) : Prop := (∀ i : Fin 4, recordLaw g.recs[i]) ∧ 1 ≤ g.shockRevs ∧ g.shockRevs ≤ 255

/-- The normalization coefficient lies within the active group's c_min..c_max, and L is its level (R9, R10). -/
abbrev State.coefficientLaw (s : State) : Prop :=
  s.active[9] ≤ s.fe.c ∧ s.fe.c ≤ s.active[10] ∧ s.fe.level = levelOf s.active s.fe.c

/-- The clean count is below shock_revs in shock mode, and 0 with the disturbed flag clear otherwise (R80, R91). -/
abbrev shockLaw (g : Groups) : Prop :=
  1 ≤ g.shockRevs ∧ (if g.shockMode then g.clean < g.shockRevs else g.clean = 0 ∧ g.disturbed = false)

/-- Every feedforward value lies within ±1023, and the accumulators of every bin but the current one are 0 (R30, section 2.5). -/
abbrev State.feedforwardLaw (s : State) : Prop :=
  ∀ b : Fin 64,
    -1023 ≤ s.rev[b].trkFf ∧ s.rev[b].trkFf ≤ 1023 ∧ -1023 ≤ s.rev[b].focFf ∧ s.rev[b].focFf ≤ 1023
      ∧ (b ≠ s.angle.bin →
          s.rev[b].trkSum = 0 ∧ s.rev[b].trkCount = 0 ∧ s.rev[b].focSum = 0 ∧ s.rev[b].focCount = 0)

/-- Each entry has span 1..16 and inner ≤ outer, and every LEARNED entry has hits ≥ 1; bins passed stays in 0..15 (R65, section
4.1). -/
def State.defectLaw (s : State) : Prop :=
  s.det.binsPassed ≤ 15
    ∧ ∀ i : Fin 32, ∀ d, s.defects.entries[i] = some d →
        1 ≤ d.span ∧ d.span ≤ 16 ∧ d.inner ≤ d.outer ∧ (d.origin = .learned → 1 ≤ d.hits)

/-- A value lies within ±2047. -/
abbrev inDrive (x : Int) : Prop := -2047 ≤ x ∧ x ≤ 2047

/-- Every drive lies within −2047..+2047 (R178), with the sweep position in 0..16,383 (section 3.1). -/
abbrev State.driveLaw (s : State) : Prop :=
  inDrive s.focus.ax.u ∧ inDrive s.track.ax.u ∧ inDrive s.sled.drive ∧ inDrive s.spindle.drive ∧ inDrive s.loader.drive
    ∧ s.focus.pos ≤ 16383

/-- The loader motor is driven only while the spindle is STOPPED, LASER_EN is off and neither crank hold nor mute is active, inward in
PULLING and outward in RELEASING (R159). -/
abbrev State.loaderLaw (s : State) : Prop :=
  s.loader.drive =
    if s.spindle.state = .stopped ∧ ¬(s.seq.laser = true ∧ s.sup.mute = false) ∧ s.sup.crankHold = false ∧ s.sup.mute = false then
      (if s.loader.state = .pulling then 1536 else if s.loader.state = .releasing then -1536 else 0)
    else 0

/-- The laser law of R138 with what keeps it: the laser demand stands only in an engaged state other than DISENGAGING, such a state
has the disc clamped with no eject pending and the power mode ACTIVE, and STANDBY and SLEEP are modes of a disengaged part. -/
abbrev State.laserLaw (s : State) : Prop :=
  (s.seq.laser = true → s.seq.state.engaged = true ∧ s.seq.state ≠ .disengaging)
    ∧ (s.seq.state.engaged = true → s.sup.power = .active)
    ∧ (s.seq.state.engaged = true → s.seq.state ≠ .disengaging → s.loader.state = .clamped ∧ s.loader.ejectPending = false)
    ∧ (s.sup.power = .standby → s.seq.state = .standby)
    ∧ (s.sup.power = .sleep → s.seq.state.engaged = false ∧ s.seq.queue = [])

/-- Mute is active exactly while DRIVER_FAULT is asserted (R178). -/
abbrev State.muteLaw (s : State) : Prop := s.sup.mute = s.sup.faultPin

/-- The settings of LINE CONFIG stand in their ranges (R175, R185, R189). -/
abbrev State.settingLaw (s : State) : Prop :=
  1 ≤ s.sup.debounce ∧ s.sup.debounce ≤ 15 ∧ s.sup.idleSetting ≤ 255 ∧ s.sup.monSelect ≤ 7 ∧ s.loader.reloadSetting ≤ 255

/-- A state of a safe run. -/
def State.safe (s : State) : Prop :=
  queueLaw s.seq.queue ∧ noticeLaw s.link.notices ∧ zoneLaw s.seek ∧ groupLaw s.groups ∧ s.coefficientLaw ∧ shockLaw s.groups
    ∧ s.feedforwardLaw ∧ s.defectLaw ∧ s.driveLaw ∧ s.loaderLaw ∧ s.laserLaw ∧ s.muteLaw ∧ s.settingLaw
    ∧ s.atRest

end Sys2Proof.Machine
end

