-- ==== Sys2Proof/Certificates/Slice0/Obligations.lean ====
section
/-! DEFINITION. The statements for the provers. Each docstring names the rules it formalises; a statement that rests on a choice of the
model names the log entry. -/

open Sys2Proof Sys2Proof.Machine

/-! ## The step -/

/-- A step takes the command at the front of the queue and runs it on the machine with the rest of the queue. -/
def Obligations.StepTakesTheFront : Prop :=
  ∀ (c : Instr) (rest : List Instr) (s : State), s.pending = c :: rest → step s = exec c (s.setPending rest)

/-- The model's choice of log entry 4: on an empty queue a step is the passing of one millisecond. An ATTN pulse ends and the address
age counts. Every timer that runs counts on, and with none at its end nothing else happens. A timer brought to its end acts as the table's
event for it does, where it stands in the order of the timers: those before it have counted, and those after it count on in what the
event leaves. The limits are those of R20, R99, R100, R103, R114, R125, R140, R151, R152, R164, R167, R168 and R185. -/
def Obligations.EmptyQueuePassesAMillisecond : Prop :=
  ∀ (s : State) (before after : List Timer) (k : Timer), s.pending = [] → s.settled → s.sup.idleSetting ≤ 255 →
    let p : State := s.setLink { s.link with pulse := false }
    ((∀ j : Timer, s.runs j = true → s.below j = true) → step s = .next (p.count Timer.order).aged)
    ∧ (Timer.order = before ++ k :: after → (∀ j ∈ before, s.runs j = true → s.below j = true) → s.runs k = true →
        s.expires k = true →
        ∀ t, exec (s.expiry k) (p.count (before ++ [k])) = .next t → (∀ j ∈ after, t.runs j = true → t.below j = true) →
          step s = .next (t.count after).aged)

/-! ## Requests: questions -/

/-- IDENT is answered in every state of the part (R203, with the layout of R207). -/
def Obligations.IdentIsAnswered : Prop :=
  ∀ s : State, s.settled → s.linkReady →
    exec (.ident []) s = .next (s.setLink (s.link.answered 0x03 [] 0x00
      [0x0A, 0x50, 0x01, if s.sup.calValid then 0x00 else 0x01, if s.sup.addrHigh then 0x2D else 0x2C]))

/-- STATUS is answered in every state with the 26 bytes of R207's table, and the overflow flag is cleared as it is answered; nothing
else changes (R197, R201). POSITION is answered with the 13 bytes of R207's list; the destination is the target of the newest SEEK in
the queue, and absent where the queue holds none (R202). -/
def Obligations.StatusAndPositionAreSnapshots : Prop :=
  ∀ s : State, s.settled → s.linkReady →
    (let out : List Byte := be2 s.fe.c ++ [byte s.fe.level,
            byte (128 * flag s.angle.refValid + 64 * flag s.det.inHold + 32 * flag s.defects.armed
              + 16 * flag s.groups.shockMode + 8 * flag s.sup.crankHold + 4 * flag s.sup.faultLatch
              + 2 * flag s.sup.mute + flag s.sup.faultPin),
            byte (128 * flag s.loader.jam + 64 * flag s.loader.ejectPending + 32 * flag s.sup.slot.level
              + 16 * flag s.sup.clampEnd.level + 8 * flag s.sup.ejectEnd.level + 4 * flag (!s.sup.calValid)
              + 2 * flag s.link.overflow + flag s.seek.valid)]
          ++ be2 s.angle.p
          ++ [byte s.focus.state.code, byte s.track.state.code,
              byte (if s.track.state = .jumping then s.track.phase.code else 0),
              byte (s.defects.entries.toList.countP (·.isSome)),
              byte (if s.groups.shockMode then s.groups.shock.val else s.groups.base.val), byte s.spindle.state.code]
          ++ be2 s.spindle.target ++ be2 s.seek.age
          ++ [byte s.seek.zones.length, byte s.loader.state.code] ++ be2 s.loader.timer
          ++ [byte s.seq.state.code, byte s.seq.queue.length, byte s.seq.cause.code, byte s.seq.attempts,
              byte s.sup.power.code]
     exec (.status []) s = .next (s.setLink { s.link.answered 0x01 [] 0x00 out with overflow := false }))
    ∧ ((∀ e ∈ s.seq.queue, ∀ t, e.motion ≠ .seek t) →
        exec (.position []) s = .next (s.setLink (s.link.answered 0x02 [] 0x00
          (be3 s.seek.aCur ++ be3 s.seek.tpCur ++ [byte (128 * flag s.seek.valid), byte s.angle.bin.val]
            ++ be2 s.angle.revs ++ be3 0))))
    ∧ (∀ before after : List Entry, ∀ e : Entry, ∀ t : Nat, s.seq.queue = before ++ e :: after → e.motion = .seek t →
        (∀ x ∈ after, ∀ y, x.motion ≠ .seek y) →
        exec (.position []) s = .next (s.setLink (s.link.answered 0x02 [] 0x00
          (be3 s.seek.aCur ++ be3 s.seek.tpCur ++ [byte (128 * flag s.seek.valid + 64), byte s.angle.bin.val]
            ++ be2 s.angle.revs ++ be3 t))))

/-! ## Requests: groups -/

/-- PARAM GET and PARAM SET (R78, R82, R83, R84). A read clamps its first field and count and answers the fields in order. A write is
refused RANGE for a pair of another group or of a field above 32, GROUP_ACTIVE for the active group, INCONSISTENT with the number of
the first failing comparison's field, and else replaces the record by the copy that took every pair in its order, each value
clamped. -/
def Obligations.ParamRequests : Prop :=
  ∀ (s : State) (g f n : Byte) (p : List Byte), s.settled → s.linkReady → p.length ≤ 24 →
    exec (.paramGet [g, f, n]) s = .next (s.setLink
      (if 3 < g.toNat then s.link.answered 0x04 [g, f, n] 0x28 []
       else
        let first := min f.toNat 32
        let count := min (max 1 (min n.toNat 16)) (33 - first)
        s.link.answered 0x04 [g, f, n] (if first = f.toNat ∧ count = n.toNat then 0x00 else 0x03)
          (BitVec.ofNat 8 (g.toNat * 64 + first) ::
            ((List.range count).map (fun i => fieldBytes (first + i) ((s.groups.recs[Fin.ofNat 4 g.toNat].toList)[first + i]?.getD 0))).flatten)))
    ∧ (∀ pairs, paramPairs 8 p = some pairs → ∀ a, pairs.head? = some a →
        ((∃ q ∈ pairs, q.1 ≠ a.1 ∨ 32 < q.2.1) → exec (.paramSet p) s = .next (s.setLink (s.link.answered 0x05 p 0x28 [])))
        ∧ ((∀ q ∈ pairs, q.1 = a.1 ∧ q.2.1 ≤ 32) →
            let id : GroupId := Fin.ofNat 4 a.1
            let copy := pairs.foldl (fun (g : GroupRec) q => g.setIfInBounds q.2.1 (clampField q.2.1 q.2.2)) s.groups.recs[id]
            (id = activeId s.groups → exec (.paramSet p) s = .next (s.setLink (s.link.answered 0x05 p 0x25 [])))
            ∧ (id ≠ activeId s.groups →
                (∀ field, firstFailure copy = some field →
                  exec (.paramSet p) s = .next (s.setLink (s.link.answered 0x05 p 0x26 [BitVec.ofNat 8 field])))
                ∧ (firstFailure copy = none →
                  exec (.paramSet p) s = .next ((s.setGroups { s.groups with recs := s.groups.recs.set id copy }).setLink
                    (s.link.answered 0x05 p (if ∃ q ∈ pairs, clampField q.2.1 q.2.2 ≠ q.2.2 then 0x03 else 0x00) []))))))

/-- LAUNCH (R85, R86, R88): an ill group or timing is refused RANGE. NOW makes the group the base group at once and cancels a pending
launch. INDEX does so at once with a LAUNCH notice while the spindle is STOPPED, and else records the pending launch. Where the launch
changes the active group, c is clamped into the new range and L evaluated again (R9, R10), and an incident counter that stands at or above
its new limit raises its incident at once: what follows is what that incident does to the machine under the new group (R39, R53, R55, R81).
Where both stand so, their order is free (log entry 1). -/
def Obligations.LaunchRequests : Prop :=
  ∀ (s : State) (g t : Byte), s.settled → s.linkReady →
    (3 < g.toNat ∨ 1 < t.toNat →
      exec (.launchNow [g, t]) s = .next (s.setLink (s.link.answered 0x06 [g, t] 0x28 []))
        ∧ exec (.launchIndex [g, t]) s = .next (s.setLink (s.link.answered 0x06 [g, t] 0x28 [])))
    ∧ (g.toNat ≤ 3 → groupLaw s.groups →
        let id : GroupId := Fin.ofNat 4 g.toNat
        let r := s.groups.recs[id]
        let c := max r[9] (min r[10] s.fe.c)
        let switches : Bool := s.groups.shockMode = false ∧ id ≠ s.groups.base
        let fe := if switches then { s.fe with c := c, level := levelOf r c } else s.fe
        let off : Bool := switches = true ∧ s.offReached r
        let lost : Bool := switches = true ∧ s.lostReached r
        let now : State := ((s.setGroups { s.groups with base := id, pending := none }).setFe fe).setLink
          (s.link.answered 0x06 [g, 0] 0x00 [])
        let stopped : State := ((s.setGroups { s.groups with base := id }).setFe fe).setLink
          ((s.link.post .launch [g]).answered 0x06 [g, 1] 0x00 [])
        (off = false → lost = false → exec (.launchNow [g, 0]) s = .next now
          ∧ (s.spindle.state = .stopped → exec (.launchIndex [g, 1]) s = .next stopped))
        ∧ (off = true → lost = false → exec (.launchNow [g, 0]) s = exec .offTrack now
            ∧ (s.spindle.state = .stopped → exec (.launchIndex [g, 1]) s = exec .offTrack stopped))
        ∧ (off = false → lost = true → exec (.launchNow [g, 0]) s = exec .focusLost now
            ∧ (s.spindle.state = .stopped → exec (.launchIndex [g, 1]) s = exec .focusLost stopped))
        ∧ (s.spindle.state ≠ .stopped →
            exec (.launchIndex [g, 1]) s = .next ((s.setGroups { s.groups with pending := some id }).setLink
              (s.link.answered 0x06 [g, 1] 0x00 []))))

/-- SHOCK CONFIG (R89): a read; a refusal RANGE; a refusal BUSY in shock mode; a write, with a count of 0 clamped to 1. The reply to a
read and to a write carries the six settings. A refusal writes nothing, and its reply carries the six settings, as R89 says of every case,
or no payload, as R207 says of refused replies: which of the two is a free value, by the status (log entry 20). That a group above 3 is
tested before shock mode is the model's choice (log entry 45). -/
def Obligations.ShockConfigRequests : Prop :=
  ∀ (s : State) (g n : Byte), s.settled → s.linkReady →
    let settings : List Byte :=
      [byte s.groups.base.val, byte s.groups.shock.val, byte s.groups.shockRevs, byte (flag s.groups.shockMode),
       byte s.groups.clean, byte (match s.groups.pending with | some p => p.val | none => 255)]
    let refused (code : Nat) : List Byte := if Config.refusedShockCarries code then settings else []
    exec (.shockConfig []) s = .next (s.setLink (s.link.answered 0x07 [] 0x00 settings))
    ∧ (3 < g.toNat → exec (.shockConfig [g, n]) s = .next (s.setLink (s.link.answered 0x07 [g, n] 0x28 (refused 0x28))))
    ∧ (g.toNat ≤ 3 → s.groups.shockMode = true →
        exec (.shockConfig [g, n]) s = .next (s.setLink (s.link.answered 0x07 [g, n] 0x20 (refused 0x20))))
    ∧ (g.toNat ≤ 3 → s.groups.shockMode = false →
        exec (.shockConfig [g, n]) s =
          .next ((s.setGroups { s.groups with shock := Fin.ofNat 4 g.toNat, shockRevs := max 1 n.toNat }).setLink
            (s.link.answered 0x07 [g, n] (if n.toNat = 0 then 0x03 else 0x00)
              [byte s.groups.base.val, g, byte (max 1 n.toNat), 0x00, byte s.groups.clean,
               byte (match s.groups.pending with | some p => p.val | none => 255)])))

/-! ## Requests: zones -/

/-- ZONE SET (R117, R118, R120): a read of a zone or RANGE; a write refused RANGE above the count or at 16; refused INCONSISTENT where
the order of first blocks would break; and else written, clamped, with the first tracks, tp_cur and T computed again. -/
def Obligations.ZoneSetRequests : Prop :=
  ∀ (s : State) (z : Byte) (f b t : Nat), s.settled → s.linkReady → zoneLaw s.seek → f < 16777216 → b < 65536 → t < 65536 →
    let p := z :: (be3 f ++ be2 b ++ be2 t)
    let f' := min f 4194303
    let b' := max 256 b
    let t' := max 2000 (min t 60000)
    (∀ r, s.seek.zones[z.toNat]? = some r →
      exec (.zoneSet [z]) s = .next (s.setLink (s.link.answered 0x08 [z] 0x00
        (z :: (be3 r.first ++ be2 r.bpt ++ be2 r.interval ++ [byte s.seek.zones.length])))))
    ∧ (s.seek.zones.length ≤ z.toNat → exec (.zoneSet [z]) s = .next (s.setLink (s.link.answered 0x08 [z] 0x28 [])))
    ∧ (s.seek.zones.length < z.toNat ∨ z.toNat = 16 → exec (.zoneSet p) s = .next (s.setLink (s.link.answered 0x08 p 0x28 [])))
    ∧ (z.toNat ≤ s.seek.zones.length → z.toNat < 16 →
        (((z.toNat = 0 ∧ f' ≠ 0) ∨ (1 ≤ z.toNat ∧ ∃ y, s.seek.zones[z.toNat - 1]? = some y ∧ f' ≤ y.first)
            ∨ (∃ y, s.seek.zones[z.toNat + 1]? = some y ∧ y.first ≤ f') ∨ s.seek.lastBlock < f') →
          exec (.zoneSet p) s = .next (s.setLink (s.link.answered 0x08 p 0x26 [])))
        ∧ (¬((z.toNat = 0 ∧ f' ≠ 0) ∨ (1 ≤ z.toNat ∧ ∃ y, s.seek.zones[z.toNat - 1]? = some y ∧ f' ≤ y.first)
            ∨ (∃ y, s.seek.zones[z.toNat + 1]? = some y ∧ y.first ≤ f') ∨ s.seek.lastBlock < f') →
          let zones := if z.toNat = s.seek.zones.length then s.seek.zones ++ [⟨f', b', t'⟩] else s.seek.zones.set z.toNat ⟨f', b', t'⟩
          let x := { s.seek with zones := zones, firstTracks := firstTracksOf zones }
          let x := { x with tpCur := x.track x.aCur }
          exec (.zoneSet p) s = .next (((s.setSeek x).setSpindle
              { s.spindle with target := (zoneAt zones (s.setSeek x).referenceZone).interval }).setLink
            (s.link.answered 0x08 p (if f' = f ∧ b' = b ∧ t' = t then 0x00 else 0x03)
              (z :: (be3 f' ++ be2 b' ++ be2 t' ++ [byte zones.length]))))))

/-- ZONE LIMIT (R119, R120): a read; a write clamped, refused INCONSISTENT where a kept zone begins above the new last block, and else
carried out with the first tracks, tp_cur and T computed again. -/
def Obligations.ZoneLimitRequests : Prop :=
  ∀ (s : State) (n : Byte) (last : Nat), s.settled → s.linkReady → zoneLaw s.seek → last < 16777216 →
    let p := n :: be3 last
    let count := min (max 1 n.toNat) s.seek.zones.length
    let last' := min last 4194303
    let kept := s.seek.zones.take count
    exec (.zoneLimit []) s = .next (s.setLink (s.link.answered 0x09 [] 0x00 (byte s.seek.zones.length :: be3 s.seek.lastBlock)))
    ∧ ((∃ y ∈ kept, last' < y.first) → exec (.zoneLimit p) s = .next (s.setLink (s.link.answered 0x09 p 0x26 [])))
    ∧ ((∀ y ∈ kept, y.first ≤ last') →
        let x := { s.seek with zones := kept, lastBlock := last', firstTracks := firstTracksOf kept }
        let x := { x with tpCur := x.track x.aCur }
        exec (.zoneLimit p) s = .next (((s.setSeek x).setSpindle
            { s.spindle with target := (zoneAt kept (s.setSeek x).referenceZone).interval }).setLink
          (s.link.answered 0x09 p (if count = n.toNat ∧ last' = last then 0x00 else 0x03) (byte count :: be3 last'))))

/-! ## Requests: the disc tables -/

/-- TABLE CLEAR (R33): every feedforward value and the current bin's accumulators go to 0; the reply is OK in every state. -/
def Obligations.TableClearRequest : Prop :=
  ∀ s : State, s.settled → s.linkReady →
    ∃ t, exec (.tableClear []) s = .next t
      ∧ t = (s.setRev t.rev).setLink (s.link.answered 0x0B [] 0x00 [])
      ∧ ∀ b : Fin 64, t.rev[b] = if b = s.angle.bin then ⟨0, 0, 0, 0, 0, 0⟩ else { s.rev[b] with trkFf := 0, focFf := 0 }

/-- TABLE READ and DEFECT READ (R34, R74, R207): the adjusted first and count, then three bytes a bin or ten bytes an index. -/
def Obligations.TableAndDefectReads : Prop :=
  ∀ (s : State) (f n : Byte), s.settled → s.linkReady →
    (let first := min f.toNat 63
     let count := min (max 1 (min n.toNat 8)) (64 - first)
     exec (.tableRead [f, n]) s = .next (s.setLink (s.link.answered 0x0A [f, n]
       (if first = f.toNat ∧ count = n.toNat then 0x00 else 0x03)
       (byte first :: ((List.range count).map (fun i =>
          let r := (s.rev.toList[first + i]?).getD {}
          be3 ((r.trkFf % 4096).toNat * 4096 + (r.focFf % 4096).toNat))).flatten))))
    ∧ (let first := min f.toNat 31
       let count := min (max 1 (min n.toNat 3)) (32 - first)
       exec (.defectRead [f, n]) s = .next (s.setLink (s.link.answered 0x0C [f, n]
         (if first = f.toNat ∧ count = n.toNat then 0x00 else 0x03)
         (byte first :: ((List.range count).map (fun i =>
            match (s.defects.entries.toList[first + i]?).getD none with
            | none => [0x80, 0, 0, 0, 0, 0, 0, 0, 0, 0]
            | some d =>
              byte (64 * d.origin.code + d.first.val) :: (be2 (4096 * (d.span - 1) + d.depth.getD 0)
                ++ be3 (8388608 * flag d.depth.isNone + d.inner) ++ be3 d.outer ++ [byte d.hits]))).flatten))))

/-- DEFECT ADD and DEFECT CLEAR (R66, R69, R72, R73): the adjusted entry in the lowest free index; in a full table the LEARNED entry of
lowest hits, lowest index among equals, is evicted with a notice; with 32 HOST entries the request is refused TABLE_FULL; with inner
above outer INCONSISTENT. A clear removes what its selector names. The armed flag is evaluated again after each. -/
def Obligations.DefectWrites : Prop :=
  ∀ (s : State) (f n : Byte) (inner outer : Nat), s.settled → s.linkReady → inner < 16777216 → outer < 16777216 →
    let p := f :: n :: (be3 inner ++ be3 outer)
    let d : Defect := ⟨.host, Fin.ofNat 64 (min f.toNat 63), max 1 (min n.toNat 16), min inner 4194303, min outer 4194303, 0, none, .none⟩
    let st := if f.toNat ≤ 63 ∧ 1 ≤ n.toNat ∧ n.toNat ≤ 16 ∧ inner ≤ 4194303 ∧ outer ≤ 4194303 then 0x00 else 0x03
    (d.outer < d.inner → exec (.defectAdd p) s = .next (s.setLink (s.link.answered 0x0D p 0x26 [])))
    ∧ (d.inner ≤ d.outer →
        (∀ i : Fin 32, s.defects.entries[i] = none → (∀ j : Fin 32, j < i → s.defects.entries[j] ≠ none) →
          ∃ armed, exec (.defectAdd p) s = .next ((s.setDefects ⟨s.defects.entries.set i (some d), armed⟩).setLink
              (s.link.answered 0x0D p st [byte i.val]))
            ∧ (armed = true ↔ covered (s.defects.entries.set i (some d)) s.angle.bin s.seek.tpCur))
        ∧ ((∀ j : Fin 32, ∃ x, s.defects.entries[j] = some x ∧ x.origin = .host) →
            exec (.defectAdd p) s = .next (s.setLink (s.link.answered 0x0D p 0x27 [])))
        ∧ (∀ i : Fin 32, (∀ j : Fin 32, s.defects.entries[j] ≠ none) → ∀ y, s.defects.entries[i] = some y → y.origin = .learned →
            (∀ j : Fin 32, ∀ x, s.defects.entries[j] = some x → x.origin = .learned →
              y.hits < x.hits ∨ (y.hits = x.hits ∧ i ≤ j)) →
            ∃ armed, exec (.defectAdd p) s = .next ((s.setDefects ⟨s.defects.entries.set i (some d), armed⟩).setLink
                ((s.link.post .defect [0x01, byte i.val]).answered 0x0D p st [byte i.val]))
              ∧ (armed = true ↔ covered (s.defects.entries.set i (some d)) s.angle.bin s.seek.tpCur)))
    ∧ (2 < f.toNat → exec (.defectClear [f]) s = .next (s.setLink (s.link.answered 0x0E [f] 0x28 [])))
    ∧ (f.toNat ≤ 2 →
        ∃ t, exec (.defectClear [f]) s = .next t
          ∧ t = (s.setDefects t.defects).setLink (s.link.answered 0x0E [f] 0x00 [])
          ∧ (∀ i : Fin 32, t.defects.entries[i] =
              if f.toNat = 2 ∨ (f.toNat = 0 ∧ s.defects.entries[i].map (·.origin) = some .learned)
                  ∨ (f.toNat = 1 ∧ s.defects.entries[i].map (·.origin) = some .host) then none else s.defects.entries[i])
          ∧ (t.defects.armed = true ↔ covered t.defects.entries s.angle.bin s.seek.tpCur))

/-! ## Requests: settings -/

/-- OFFSET and NOTICE MASK (R4, R198, R206): a read answers what stands; a written offset is clamped into ±511; a written mask keeps its
low eleven bits. -/
def Obligations.OffsetAndMaskRequests : Prop :=
  ∀ (s : State) (a b : Int) (m : BitVec 16), s.settled → s.linkReady → -32768 ≤ a → a < 32768 → -32768 ≤ b → b < 32768 →
    let p := be2Signed a ++ be2Signed b
    let a' := max (-511) (min a 511)
    let b' := max (-511) (min b 511)
    exec (.offset []) s = .next (s.setLink (s.link.answered 0x0F [] 0x00 (be2Signed s.fe.feOff ++ be2Signed s.fe.teOff)))
    ∧ exec (.offset p) s = .next ((s.setFe { s.fe with feOff := a', teOff := b' }).setLink
        (s.link.answered 0x0F p (if a' = a ∧ b' = b then 0x00 else 0x03) (be2Signed a' ++ be2Signed b')))
    ∧ exec (.noticeMask []) s = .next (s.setLink (s.link.answered 0x10 [] 0x00 (be2 s.link.mask.toNat)))
    ∧ exec (.noticeMask (be2 m.toNat)) s = .next (s.setLink
        { s.link.answered 0x10 (be2 m.toNat) 0x00 (be2 (m.toNat % 2048)) with mask := BitVec.ofNat 16 (m.toNat % 2048) })

/-- LINE CONFIG (R175): a read of the seven settings; a refusal RANGE that writes nothing; a write, the debounce clamped into 1..15. A
change of ATTN mode ends a pulse, and the reply then gives one where the new mode is PULSE (R199). -/
def Obligations.LineConfigRequests : Prop :=
  ∀ (s : State) (am es db al rl im mo : Byte), s.settled → s.linkReady →
    let p := [am, es, db, al, rl, im, mo]
    exec (.lineConfig []) s = .next (s.setLink (s.link.answered 0x11 [] 0x00
      [byte s.link.attnMode.code, byte s.sup.edgeSelect.code, byte s.sup.debounce, byte (flag s.loader.autoLoad),
       byte s.loader.reloadSetting, byte s.sup.idleSetting, byte s.sup.monSelect]))
    ∧ (1 < am.toNat ∨ 2 < es.toNat ∨ 1 < al.toNat ∨ 7 < mo.toNat →
        exec (.lineConfig p) s = .next (s.setLink (s.link.answered 0x11 p 0x28 [])))
    ∧ (∀ (m : AttnMode) (e : EdgeSelect) (on : Bool), am.toNat = m.code → es.toNat = e.code → al.toNat = flag on → mo.toNat ≤ 7 →
        let d := max 1 (min db.toNat 15)
        exec (.lineConfig p) s = .next (((s.setSup { s.sup with
              edgeSelect := e, debounce := d, idleSetting := im.toNat, monSelect := mo.toNat }).setLoader
            { s.loader with autoLoad := on, reloadSetting := rl.toNat }).setLink
          ({ s.link with attnMode := m }.answered 0x11 p (if d = db.toNat then 0x00 else 0x03) [am, es, byte d, al, rl, im, mo])))

/-- CLEAR FAULT (R179): the latch is cleared, with a FAULT notice where it was set; mute stays; the reply is OK. -/
def Obligations.ClearFaultRequest : Prop :=
  ∀ s : State, s.settled → s.linkReady →
    (s.sup.faultLatch = false → exec (.clearFault []) s = .next (s.setLink (s.link.answered 0x12 [] 0x00 [])))
    ∧ (s.sup.faultLatch = true → exec (.clearFault []) s = .next ((s.setSup { s.sup with faultLatch := false }).setLink
        ((s.link.post .fault [0x00, byte (flag s.sup.mute)]).answered 0x12 [] 0x00 [])))


/-! ## Resets -/

/-- The machine right after power-on meets every law of Safety.lean. The lines it starts from and its calibration store are the model's
choice (log entries 2 and 3), and so are the reset values of the model's own fields (log entry 33). -/
def Obligations.ResetIsSafe : Prop := State.reset.safe

/-- Power-on and RESET_N (R187): every block at its reset value (R16, R26, R32, R57, R76, R79, R106, R111, R131, R156, R173, R200), the
lines taken at once (R158), the loader derived from its switches (R171), the offsets and G0 fields 0 to 8 from the calibration store where
its check passes (R3, R79, R186). The waiting commands and the count of free orders are the model's own and stay. The model's own fields
stand as log entries 10, 30, 32 and 33 give them, and the words of the store are read as log entry 34 says. Before it the part is held:
every drive pin is 0, LASER_EN is off, ATTN is released and MON is low, the transfer under way is lost, and nothing but the end of the
hold has an effect, the address input's frame apart. The hold as an operand of the command, and what a held part takes, are log entry
43's. -/
def Obligations.PowerOnLeaves : Prop :=
  ∀ (l : Lines) (high : Bool) (s : State) (c : Instr),
    let pass : Bool := (s.sup.calStore.toList.map (·.toNat)).sum % 65536 = 0
    let word (i : Nat) : BitVec 16 := (s.sup.calStore.toList[i]?).getD 0
    let offset (i : Nat) : Int := if pass then max (-511) (min 511 (word i).toInt) else 0
    let state : LoaderState :=
      if l.clampEnd then .clamped else if !l.ejectEnd then .releasing else if l.slot then .presented else .empty
    exec (.powerOnReset none high) s = .next { s with
      held := true, link := { s.link with rx := .idle, buffer := [], flight := none, sent := [], acks := [] } }
    ∧ (s.held = true → s.focDrv = 0 ∧ s.trkDrv = 0 ∧ s.sledDrv = 0 ∧ s.spinDrv = 0 ∧ s.loadDrv = 0 ∧ s.laserEn = false
        ∧ s.attn = false ∧ s.mon = false
        ∧ (s.pending = [] → step s = .next s)
        ∧ ((∀ x h, c ≠ .powerOnReset x h) → (∀ b e, c ≠ .addressReport b e) → exec c s = .next s))
    ∧ ∃ t, exec (.powerOnReset (some l) high) s = .next t ∧ t.held = false
      ∧ t.fe = ⟨offset 0, offset 1, 1024, 0, 0, 0, .unknown, 0, 0, 0, 0, false⟩
      ∧ (∀ n : Fin 33, t.groups.recs[0][n] =
          if pass ∧ n.val ≤ 8 then max (fieldRanges[n]).1 (min (fieldRanges[n]).2 (word (n.val + 2)).toNat) else g0Defaults[n])
      ∧ t.groups = ⟨#v[t.groups.recs[0], g1Defaults, t.groups.recs[0], t.groups.recs[0]], 0, 1, 8, false, 0, false, none⟩
      ∧ t.angle = ⟨0, 0, 0, 0, 0, false, none, 0⟩ ∧ (∀ b : Fin 64, t.rev[b] = ⟨0, 0, 0, 0, 0, 0⟩)
      ∧ t.focus = ⟨.off, ⟨0, 0, 0, 0, 0⟩, 0, 0, 0, none⟩
      ∧ t.track = ⟨.off, ⟨0, 0, 0, 0, 0⟩, 0, .none, 0, 0, 0, 0, 0, false, .none, false, 0⟩
      ∧ t.det = ⟨false, false, 0, 0, 0, 0, 0, 0⟩ ∧ (∀ i : Fin 32, t.defects.entries[i] = none) ∧ t.defects.armed = false
      ∧ t.spindle = ⟨.stopped, false, 20000, 0, 0, 0, 0, 0⟩ ∧ t.sled = ⟨0, 0, none, 0⟩
      ∧ t.seek = { State.reset.seek with frame := if s.seek.frame = .idle then .idle else .unseen }
      ∧ State.reset.seek = ⟨0, 0, false, false, 65535, 0, [⟨0, 3200, 20000⟩], 4194303, [0], none, .none, false, false, false, 0, 0, 0, .idle⟩
      ∧ t.seq = ⟨.idle, [], none, .none, 0, false, false, false, .none, none, none, 0⟩
      ∧ t.loader = ⟨state, false, false, 0, if state = .presented then some ⟨0, 10000⟩ else none, true, 0,
          if state = .releasing ∧ l.supplyLow = false ∧ l.driverFault = false then -1536 else 0⟩
      ∧ t.sup = ⟨⟨l.slot, 0⟩, ⟨l.clampEnd, 0⟩, ⟨l.ejectEnd, 0⟩, ⟨l.innerLimit, 0⟩, ⟨l.supplyLow, 0⟩, 5, .rising, l.shock, l.shock,
          l.driverFault, l.supplyLow, l.driverFault, l.driverFault, .active, 0, none, pass, 0, high, s.sup.calStore⟩
      ∧ t.link = ⟨.idle, [], none, [], none, 0, .level, false, false, [], []⟩
      ∧ t.signals = [] ∧ t.pending = s.pending ∧ t.freeCount = s.freeCount

/-- SOFT RESET (R188): answered OK; the Front End and the Group Store stand as power-on leaves them, and the sequencer, loops, detector,
sled, settings and notices go to their reset values; the lines, the calibration store and the open transfer stay; a spindle that turns
brakes, or coasts under crank hold or mute, with no notice (R106); with CLAMP_END active the disc's state is kept, without the validity of
the address, the passes and the task (R26, R32, R76, R131), else cleared. The model's own fields stand as log entries 10, 30 and 33 give
them. -/
def Obligations.SoftResetRequest : Prop :=
  ∀ (s : State) (l : Lines) (high : Bool), s.settled → s.linkReady →
    let held : Bool := s.sup.crankHold || s.sup.faultPin
    let keeps : Bool := s.sup.clampEnd.level
    ∃ t, exec (.softReset []) s = .next t
      ∧ t.link = ⟨.write, requestRecord 0x14 [], some ⟨0x94, 0x00, []⟩, [], none, 0, .level, false, false, s.link.sent,
          [true, true, true, true]⟩
      ∧ t.seq = ⟨.idle, [], none, .none, 0, false, false, false, .none, none, none, 0⟩
      ∧ t.focus = State.reset.focus ∧ t.track = State.reset.track ∧ t.det = State.reset.det ∧ t.sled = State.reset.sled
      ∧ (∃ u, exec (.powerOnReset (some l) high) s = .next u ∧ t.fe = u.fe ∧ t.groups = u.groups)
      ∧ t.sup = { s.sup with
          debounce := 5, edgeSelect := .rising, shockSeen := s.sup.shockPin, faultLatch := s.sup.faultPin, mute := s.sup.faultPin
          power := .active, idleSetting := 0, idleTimer := none, monSelect := 0, calValid := t.sup.calValid }
      ∧ (t.sup.calValid = true ↔ (s.sup.calStore.toList.map (·.toNat)).sum % 65536 = 0)
      ∧ t.loader.ejectPending = false ∧ t.loader.jam = false ∧ t.loader.timer = 0 ∧ t.loader.autoLoad = true
      ∧ t.loader.reloadSetting = 0 ∧ t.loader.reload = (if t.loader.state = .presented then some ⟨0, 10000⟩ else none)
      ∧ t.loader.drive = (if t.loader.state = .releasing ∧ s.spindle.state = .stopped ∧ held = false then -1536 else 0)
      ∧ (t.loader.state = .clamped ↔ keeps = true)
      ∧ (t.loader.state = .presented ↔ keeps = false ∧ s.sup.ejectEnd.level = true ∧ s.sup.slot.level = true)
      ∧ (t.loader.state = .empty ↔ keeps = false ∧ s.sup.ejectEnd.level = true ∧ s.sup.slot.level = false)
      ∧ (t.loader.state = .releasing ↔ keeps = false ∧ s.sup.ejectEnd.level = false)
      ∧ t.spindle.run = false ∧ t.spindle.lockRun = 0 ∧ t.spindle.unlockRun = 0 ∧ t.spindle.target = t.ownTarget
      ∧ (s.spindle.state = .stopped → t.spindle.state = .stopped)
      ∧ (s.spindle.state ≠ .stopped → t.spindle.state = (if held then .coast else .braking) ∧ t.spindle.timer = 0
          ∧ t.spindle.isp = 0 ∧ t.spindle.drive = (if held then 0 else -1024))
      ∧ (keeps = true → t.angle = s.angle ∧ t.rev = s.rev
          ∧ t.seek = { s.seek.dropTask with valid := false, watch := 0, frame := if s.seek.frame = .idle then .idle else .unseen }
          ∧ ∀ i : Fin 32, t.defects.entries[i] = s.defects.entries[i].map (fun d => { d with pass := .none }))
      ∧ (keeps = false → t.angle = State.reset.angle ∧ t.rev = State.reset.rev ∧ (∀ i : Fin 32, t.defects.entries[i] = none)
          ∧ t.seek = { State.reset.seek with frame := if s.seek.frame = .idle then .idle else .unseen })
      ∧ (t.defects.armed = true ↔ covered t.defects.entries t.angle.bin t.seek.tpCur)
      ∧ t.signals = [] ∧ t.pending = s.pending ∧ t.freeCount = s.freeCount

/-! ## The servo sample -/

/-- A servo sample forms the offset-corrected, normalized errors and SUMn with the c in force (R1, R2, R11, R12), and touches neither the
offsets nor the group records; in SLEEP no sample is taken and nothing changes (R15). -/
def Obligations.SampleNormalizes : Prop :=
  ∀ (s : State) (fe te sum : Adc), s.settled →
    let corrected (raw : Adc) (off : Int) : Int := max (-2047) (min 2047 (raw.toInt - off))
    let normal (x : Int) : Int :=
      let m : Int := min 2047 (((x.natAbs * s.fe.c + 512) / 1024 : Nat) : Int)
      if x < 0 then -m else m
    (s.sup.power = .sleep → exec (.servoSample fe te sum) s = .next s)
    ∧ (s.sup.power ≠ .sleep → ∃ t, exec (.servoSample fe te sum) s = .next t
        ∧ t.fe.eF = normal (corrected fe s.fe.feOff) ∧ t.fe.eT = normal (corrected te s.fe.teOff)
        ∧ t.fe.sumN = min 4095 (sum.toNat * s.fe.c / 1024)
        ∧ t.fe.feOff = s.fe.feOff ∧ t.fe.teOff = s.fe.teOff ∧ t.groups.recs = s.groups.recs ∧ t.groups.base = s.groups.base)

/-- A sample not in hold with both loops LOCKED runs both compensators (R35, R36), counts the off-track test (R52) and clears the
focus-lost count (R54); no hold begins, no incident is raised, and every other block but the accumulators of the sample (SUM,
learning, sled, passes) stays. -/
def Obligations.LockedSampleCompensates : Prop :=
  ∀ (s : State) (fe te sum : Adc), s.settled → s.sup.power ≠ .sleep → s.focus.state = .locked → s.track.state = .locked →
    s.det.inHold = false → groupLaw s.groups → s.track.offCount + 1 < s.active[23] → s.sled.count < 63 →
    let g := s.active
    let sumN := min 4095 (sum.toNat * s.fe.c / 1024)
    let th := if s.defects.armed then min 4095 (dropThreshold g s.fe.level + g[19]) else dropThreshold g s.fe.level
    th ≤ sumN → g[24] ≤ sumN →
    let loop (x : Axis) (kp ki kd : Nat) (e ff : Int) : Axis :=
      let a := max (-8388608) (min 8388607 (x.a + ki * e))
      let uc := max (-2047) (min 2047 ((kp * e + a / 64 + kd * (e - x.ePrev)) / 256))
      ⟨a, e, x.h, uc, max (-2047) (min 2047 (uc + ff))⟩
    ∃ t, exec (.servoSample fe te sum) s = .next t
      ∧ t.focus = { s.focus with ax := loop s.focus.ax g[0] g[1] g[2] t.fe.eF s.rev[s.angle.bin].focFf, lost := 0 }
      ∧ t.track = { s.track with
          ax := loop s.track.ax g[4] g[5] g[6] t.fe.eT s.rev[s.angle.bin].trkFf
          offCount := if g[22] < t.fe.eT.natAbs ∨ 2047 ≤ t.track.ax.u.natAbs then s.track.offCount + 1 else 0 }
      ∧ t.sled = { s.sled with sum := s.sled.sum + t.track.ax.uc, count := s.sled.count + 1 }
      ∧ t.fe.c = s.fe.c ∧ t.fe.level = s.fe.level
      ∧ (s.fe.sumCount < 65535 → t.fe.sumAcc = s.fe.sumAcc + sum.toNat ∧ t.fe.sumCount = s.fe.sumCount + 1)
      ∧ (∀ b : Fin 64, b ≠ s.angle.bin → t.rev[b] = s.rev[b])
      ∧ t.rev[s.angle.bin].trkFf = s.rev[s.angle.bin].trkFf ∧ t.rev[s.angle.bin].focFf = s.rev[s.angle.bin].focFf
      ∧ (s.spindle.state = .locked → s.rev[s.angle.bin].focCount < 65535 →
          t.rev[s.angle.bin].focSum = s.rev[s.angle.bin].focSum + t.focus.ax.uc
            ∧ t.rev[s.angle.bin].focCount = s.rev[s.angle.bin].focCount + 1)
      ∧ (s.spindle.state ≠ .locked → t.rev = s.rev)
      ∧ t.angle = s.angle ∧ t.det = s.det ∧ t.groups = s.groups ∧ t.spindle = s.spindle ∧ t.seek = s.seek ∧ t.seq = s.seq
      ∧ t.loader = s.loader ∧ t.sup = s.sup ∧ t.link = s.link

/-- What a sample does while the loops are being closed. With both loops OFF nothing is driven and only the Front End works; its side and
crossing count follow R13's table, and no SUM is accumulated (R5, R35, R107). In SEARCH the ramp is driven and the sweep goes on, and a
change of sign of FEc with enough light is the capture, which lets an ENGAGE and a recovery go on to a pull-in (R41, R139, R151). With
focus LOCKED and no hold: PULLIN closes at a crossing (R43); SETTLING counts its run and enters LOCKED at 64, which lets an ENGAGE go on
(R45, R139) and ends a task stopped at the inner limit LIMIT (R128); a jump moves through its phases by the crossing count and closes at
2|n| (R47, R48), a move ends at its count with move done (R49), and a crossing restarts the stall count (R44, R51). The sample of
the last crossing is one of them. That a capture sets the sweep number, the sweep position and the previous FEc to their reset values is
the model's choice (log entry 31). -/
def Obligations.OpenLoopSample : Prop :=
  ∀ (s : State) (fe te sum : Adc), s.settled → s.sup.power ≠ .sleep →
    let g := s.active
    let x : Int := max (-2047) (min 2047 (te.toInt - s.fe.teOff))
    let y : Int := max (-2047) (min 2047 (fe.toInt - s.fe.feOff))
    let sumN := min 4095 (sum.toNat * s.fe.c / 1024)
    let crosses : Bool := (s.fe.side = .negative ∧ 128 ≤ x) ∨ (s.fe.side = .positive ∧ x ≤ -128)
    let crossings := if crosses then min 16777215 (s.fe.crossings + 1) else s.fe.crossings
    let out (a : Axis) (uc : Int) : Axis :=
      { a with uc := uc, u := max (-2047) (min 2047 (uc + s.rev[s.angle.bin].trkFf)) }
    let stands (t : State) : Prop := t.angle = s.angle ∧ t.groups = s.groups ∧ t.spindle = s.spindle ∧ t.loader = s.loader
      ∧ t.sup = s.sup ∧ t.fe.crossings = crossings ∧ t.focus.state = s.focus.state
    let waits (t : State) : Prop := t.seek = s.seek ∧ t.seq = s.seq ∧ t.link = s.link
    (s.focus.state = .off → s.track.state = .off → ∃ t, exec (.servoSample fe te sum) s = .next t
      ∧ t = { s with
          fe := t.fe
          focus := { s.focus with ax := { s.focus.ax with uc := 0, u := 0 } }
          track := { s.track with ax := { s.track.ax with uc := 0, u := 0 } }
          sled := { s.sled with sum := 0, count := 0, drive := 0 } }
      ∧ t.fe = { s.fe with eF := t.fe.eF, eT := t.fe.eT, sumN := t.fe.sumN, side := t.fe.side, crossings := crossings, crossingNow := false }
      ∧ t.fe.side = (if x ≤ -128 then .negative else if 128 ≤ x then .positive else s.fe.side))
    ∧ (s.focus.state = .search → s.track.state = .off → groupLaw s.groups → s.focus.pos ≤ 16383 →
        let pos : Int := s.focus.pos
        let ramp : Int := if s.focus.pos < 8192 then -1024 + pos / 4 else 1024 - (pos - 8192) / 4
        let captures : Bool := decide (2 * g[24] ≤ sumN) && s.focus.prevFec.any (fun q => decide (q < 0 ↔ 0 ≤ y))
        ∃ t, exec (.servoSample fe te sum) s = .next t
          ∧ (captures = false → s.focus.pos < 16383 ∨ s.focus.sweep < 3 → t = { s with
              fe := t.fe
              focus := { s.focus with
                ax := { s.focus.ax with uc := 0, u := ramp }
                pos := if s.focus.pos < 16383 then s.focus.pos + 1 else 0
                sweep := if s.focus.pos < 16383 then s.focus.sweep else s.focus.sweep + 1
                prevFec := some y }
              track := { s.track with ax := { s.track.ax with uc := 0, u := 0 } }
              sled := { s.sled with sum := 0, count := 0, drive := 0 } })
          ∧ (captures = true → t.focus = ⟨.locked, ⟨0, t.fe.eF, 0, 0, ramp⟩, 0, 0, 0, none⟩
              ∧ ((s.seq.state = .engaging ∧ s.seq.step = .engageFocus) ∨ (s.seq.state = .recovering ∧ s.seq.step = .recoverFocus) →
                  t.track.state = .pullin ∧ t.track.attempt = 1
                    ∧ t.seq = { s.seq with
                        step := if s.seq.state = .engaging then .engageTrack else .recoverLock
                        loopWait := if s.seq.state = .engaging then s.seq.loopWait else none })))
    ∧ (s.focus.state = .locked → s.det.inHold = false → groupLaw s.groups →
        (if s.defects.armed then min 4095 (dropThreshold g s.fe.level + g[19]) else dropThreshold g s.fe.level) ≤ sumN → g[24] ≤ sumN →
        (s.track.state = .pullin → s.track.timer + 1 < 1280 → ∃ t, exec (.servoSample fe te sum) s = .next t ∧ stands t ∧ waits t
          ∧ t.track =
            if crosses then
              { s.track with
                state := .settling, ax := { out s.track.ax 0 with a := 0, ePrev := t.fe.eT }, settleRun := 0, fromPullin := true
                timer := s.track.timer + 1 }
            else { s.track with ax := out s.track.ax 0, timer := s.track.timer + 1 })
        ∧ (s.track.state = .settling → s.track.timer + 1 < 1280 → ∃ t, exec (.servoSample fe te sum) s = .next t
          ∧ let run := if t.fe.eT.natAbs < 256 then s.track.settleRun + 1 else 0
            (run < 64 → stands t ∧ waits t ∧ t.track = { s.track with ax := t.track.ax, settleRun := run, timer := s.track.timer + 1 })
            ∧ (64 ≤ run → s.seq.state = .following → s.seek.task = none → s.seek.retry = false → s.seek.limitStop = false →
                stands t ∧ waits t ∧ t.track = { s.track with
                  state := .locked, ax := t.track.ax, offCount := 0, settleRun := run, timer := s.track.timer + 1, goal := .none
                  byPause := false })
            ∧ (64 ≤ run → s.seq.state = .engaging → s.seq.step = .engageTrack → s.seek.task = none → s.seek.retry = false →
                s.seek.limitStop = false → s.seek.valid = false →
                stands t ∧ t.track.state = .locked ∧ t.seq = { s.seq with step := .engageReady, addrTimer := some 0 })
            ∧ (∀ e, s.seq.queue = [e] → e.inProgress = true → s.seq.state = .seeking ∨ s.seq.state = .jumping → 64 ≤ run →
                s.track.goal = .jumpDone → s.track.byPause = false → s.seek.limitStop = true → s.seek.retry = false →
                s.seek.task ≠ none →
                t.seq.state = .following ∧ t.seek.task = none ∧ t.link = s.link.postAll (endNotices 7 [e])))
        ∧ (s.track.state = .jumping → s.track.phase = .kick ∨ s.track.phase = .brake ∨ s.track.phase = .coast → s.track.jumpLen ≠ 0 →
            s.track.stall + 1 < 1280 →
            let n := s.track.jumpLen.natAbs
            let phase : JumpPhase := if crossings < n then .kick else if crossings < 2 * n - 1 then .brake else .coast
            let kick : Int := if s.track.jumpLen < 0 then -g[32] else g[32]
            let uc : Int := if phase = .kick then kick else if phase = .brake then -kick else 0
            let stall := if crosses then 0 else s.track.stall + 1
            ∃ t, exec (.servoSample fe te sum) s = .next t ∧ stands t ∧ waits t
              ∧ (crossings < 2 * n → t.track = { s.track with phase := phase, ax := out s.track.ax uc, stall := stall })
              ∧ (2 * n ≤ crossings → t.track = { s.track with
                  state := .settling, phase := .none, ax := { out s.track.ax 0 with ePrev := t.fe.eT }, settleRun := 0, timer := 0
                  fromPullin := false, stall := 0 }))
        ∧ (s.track.state = .openSeek → s.track.stall + 1 < 1280 → ∃ t, exec (.servoSample fe te sum) s = .next t ∧ stands t
          ∧ t.seq = s.seq ∧ t.link = s.link
          ∧ (crosses = true ∧ s.track.moveCount ≤ crossings →
              t.track = { s.track with
                state := .pullin, ax := { out s.track.ax 0 with a := 0, h := 0 }, attempt := 1, timer := 0, offCount := 0
                phase := .none, stall := 0, goal := .trackLocked, byPause := false }
              ∧ t.sled = ⟨0, 0, none, 0⟩
              ∧ t.seek = { s.seek with leg := match s.seek.leg with | .move out count _ => .move out count true | l => l })
          ∧ (¬(crosses = true ∧ s.track.moveCount ≤ crossings) →
              let drive : Int := match s.sled.move with | some true => g[31] | some false => -g[31] | none => 0
              t.seek = s.seek
              ∧ t.track = { s.track with ax := out s.track.ax 0, stall := if crosses then 0 else s.track.stall + 1 }
              ∧ t.sled = ⟨0, 0, s.sled.move,
                  if s.sup.crankHold = true ∨ (s.sup.innerLimit.level = true ∧ drive < 0) then 0 else drive⟩)))

/-- A sample in hold. With both loops LOCKED a sample below the threshold th begins a hold (R58 to R60): the hold record starts, both loops
go to HOLD with h their previous controller output and drive h + ff (R37, R38). In a hold, a sample that does not bring the good run to
4 goes on (R61): the length and the depth follow, bins passed takes the boundaries since the beginning, a sample below the exit level
starts the good run again, and the drives are h + ff. In both, learning, SUM and the incident counts stand still (R5, R29, R52, R54), and
every pass under way over the current bin becomes HIT (R70). A length at or above the limit raises FOCUS_LOST on that sample: what follows
is what FOCUS_LOST does (R55, R62). -/
def Obligations.HoldBegins : Prop :=
  ∀ (s : State) (fe te sum : Adc), s.settled → s.sup.power ≠ .sleep → s.sled.count < 63 →
    let g := s.active
    let d := s.det
    let armed := if d.inHold then d.entryArmed else s.defects.armed
    let sumN := min 4095 (sum.toNat * s.fe.c / 1024)
    let th := if armed then min 4095 (dropThreshold g s.fe.level + g[19]) else dropThreshold g s.fe.level
    let good := if min 4095 (th + g[18]) ≤ sumN then d.goodRun + 1 else 0
    let record : Detector :=
      if d.inHold then
        { d with length := min 4095 (d.length + 1), depth := min d.depth sumN, binsPassed := min 15 d.boundaries, goodRun := good }
      else ⟨true, armed, 1, s.angle.bin, 0, sumN, 0, 0⟩
    let held (x : Axis) (ff : Int) : Axis :=
      let h := if d.inHold then x.h else x.uc
      { x with h := h, uc := h, u := max (-2047) (min 2047 (h + ff)) }
    let track := held s.track.ax s.rev[s.angle.bin].trkFf
    let u (eF eT : Int) : State := { s with
      fe := { s.fe with eF := eF, eT := eT, sumN := sumN, crossingNow := false }
      focus := { s.focus with state := .hold, ax := held s.focus.ax s.rev[s.angle.bin].focFf }
      track := { s.track with state := .hold, ax := track }
      det := record
      sled := { s.sled with sum := s.sled.sum + track.uc, count := s.sled.count + 1 }
      defects := ⟨s.defects.entries.map (fun x => x.map (fun x =>
        if binOf x.first x.span s.angle.bin ∧ (x.pass = .watching ∨ x.pass = .clean) then { x with pass := .hit } else x)),
        s.defects.armed⟩ }
    (d.inHold = false ∧ s.focus.state = .locked ∧ s.track.state = .locked ∧ sumN < th)
        ∨ (d.inHold = true ∧ s.focus.state = .hold ∧ s.track.state = .hold ∧ good < 4) →
      d.length ≤ 4095 →
      ∃ t, exec (.servoSample fe te sum) s = .next t
        ∧ (record.length < (if armed then g[21] else g[20]) → t = u t.fe.eF t.fe.eT)
        ∧ ((if armed then g[21] else g[20]) ≤ record.length → exec .focusLost (u t.fe.eF t.fe.eT) = .next t)

/-- The fourth sample running at or above the exit level ends a hold (R59, R61): both loops go back to LOCKED. An armed hold with the
address valid hits every entry whose bins it shares and whose range holds tp_cur: hits counts, the depth takes the minimum, the range
widens to tp_cur ± 16 (R63, R65, R67). An unarmed hold of 8 samples or more, in FOLLOWING or PAUSED with shock mode off and the address
valid, is learned (R63): merged into the LEARNED entry of lowest index that shares a bin with it, lies within 64 tracks and stays within 16
bins (R68); else a new entry in the lowest free index, or in that of the weakest LEARNED entry, which is evicted, or in none (R69). Any
other hold leaves the table. The armed flag is evaluated again after a merge, a new entry and a hit that changes an entry, and else kept (R66;
that a hit counts is log entry 36's). The sample is no sample in hold: both compensators run from their kept values (R35, R36), the
off-track count goes on from where the hold found it (R52, log entry 13), the focus-lost count starts again (R54), and SUM, learning and
the sled's sum take the sample with the loops LOCKED (R5, R28, R29, R107, log entry 11), entries 11 and 13 read by inference. -/
def Obligations.ArmedHoldEnds : Prop :=
  ∀ (s : State) (fe te sum : Adc), s.settled → s.sup.power ≠ .sleep → s.focus.state = .hold → s.track.state = .hold →
    s.det.inHold = true → s.det.goodRun = 3 → groupLaw s.groups → s.defectLaw →
    s.track.offCount + 1 < s.active[23] → s.sled.count < 63 →
    let g := s.active
    let tp := s.seek.tpCur
    let sumN := min 4095 (sum.toNat * s.fe.c / 1024)
    let armed := s.det.entryArmed
    let th := if armed then min 4095 (dropThreshold g s.fe.level + g[19]) else dropThreshold g s.fe.level
    min 4095 (th + g[18]) ≤ sumN → g[24] ≤ sumN →
    let span := s.det.binsPassed + 1
    let marked : Vector (Option Defect) 32 := s.defects.entries.map (fun d => d.map (fun d =>
      if binOf d.first d.span s.angle.bin ∧ d.pass = .watching then { d with pass := .clean } else d))
    let shares (d : Defect) : Prop := ∃ b : Fin 64, binOf d.first d.span b ∧ binOf s.det.startBin span b
    let hit (d : Defect) : Defect := { d with
      hits := min 255 (d.hits + 1)
      depth := some (match d.depth with | some x => min x s.det.depth | none => s.det.depth)
      inner := min d.inner (min 4194303 (tp - 16))
      outer := max d.outer (min 4194303 (tp + 16)) }
    let learns : Bool := armed = false ∧ 8 ≤ s.det.length ∧ s.groups.shockMode = false
      ∧ (s.seq.state = .following ∨ s.seq.state = .paused) ∧ s.seek.valid = true
    let bins (d : Defect) : Nat :=
      ((List.finRange 64).filter (fun b => decide (binOf d.first d.span b ∨ binOf s.det.startBin span b))).length
    let merges (d : Defect) : Prop :=
      d.origin = .learned ∧ shares d ∧ d.inner ≤ tp + 64 ∧ tp ≤ d.outer + 64 ∧ bins d ≤ 16
    let fresh : Defect := ⟨.learned, s.det.startBin, span, min 4194303 (tp - 16), min 4194303 (tp + 16), 2, some s.det.depth, .none⟩
    let alone (i : Fin 32) (e : Vector (Option Defect) 32) : Prop := ∀ j : Fin 32, j ≠ i → e[j] = marked[j]
    let full : Prop := ∀ j : Fin 32, marked[j].map Defect.origin = some .host
    let changed (e : Vector (Option Defect) 32) : Prop := (learns = true ∧ ¬ full) ∨ (learns = false ∧ e ≠ marked)
    let r := s.rev[s.angle.bin]
    let loop (x : Axis) (kp ki kd : Nat) (e ff : Int) : Axis :=
      let a := max (-8388608) (min 8388607 (x.a + ki * e))
      let uc := max (-2047) (min 2047 ((kp * e + a / 64 + kd * (e - x.ePrev)) / 256))
      ⟨a, e, x.h, uc, max (-2047) (min 2047 (uc + ff))⟩
    let adds (count : Nat) : Prop := s.spindle.state = .locked ∧ count < 65535
    let reads : Bool := s.seq.state = .following ∨ s.seq.state = .paused
    ∃ t, exec (.servoSample fe te sum) s = .next t
      ∧ t.det = { s.det with inHold := false, goodRun := 4 }
      ∧ t.focus = { s.focus with state := .locked, ax := loop s.focus.ax g[0] g[1] g[2] t.fe.eF r.focFf, lost := 0 }
      ∧ t.track = { s.track with
          state := .locked, ax := loop s.track.ax g[4] g[5] g[6] t.fe.eT r.trkFf
          offCount := if g[22] < t.fe.eT.natAbs ∨ 2047 ≤ t.track.ax.u.natAbs then s.track.offCount + 1 else 0 }
      ∧ t.sled = { s.sled with sum := s.sled.sum + t.track.ax.uc, count := s.sled.count + 1 }
      ∧ t.fe.c = s.fe.c ∧ t.fe.level = s.fe.level ∧ t.fe.sumN = sumN
      ∧ t.fe.sumAcc = (if s.fe.sumCount < 65535 then s.fe.sumAcc + sum.toNat else s.fe.sumAcc)
      ∧ t.fe.sumCount = (if s.fe.sumCount < 65535 then s.fe.sumCount + 1 else s.fe.sumCount)
      ∧ (∀ b : Fin 64, b ≠ s.angle.bin → t.rev[b] = s.rev[b])
      ∧ t.rev[s.angle.bin] = { r with
          trkSum := if adds r.trkCount ∧ reads = true then r.trkSum + t.track.ax.uc else r.trkSum
          trkCount := if adds r.trkCount ∧ reads = true then r.trkCount + 1 else r.trkCount
          focSum := if adds r.focCount then r.focSum + t.focus.ax.uc else r.focSum
          focCount := if adds r.focCount then r.focCount + 1 else r.focCount }
      ∧ (armed = true → s.seek.valid = true → ∀ i : Fin 32, t.defects.entries[i] = marked[i].map (fun d =>
          if shares d ∧ d.inner ≤ tp ∧ tp ≤ d.outer then hit d else d))
      ∧ (learns = false → armed = false ∨ s.seek.valid = false → t.defects.entries = marked)
      ∧ (learns = false → t.link = s.link)
      ∧ (learns = true →
          (∀ (i : Fin 32) (d : Defect), marked[i] = some d → merges d → (∀ j : Fin 32, j < i → ∀ y, marked[j] = some y → ¬ merges y) →
            alone i t.defects.entries ∧ t.link = s.link.post .defect [0, byte i.val]
            ∧ ∃ m, t.defects.entries[i] = some m ∧ m = { hit d with first := m.first, span := bins d, pass := .none }
                ∧ ∀ b : Fin 64, binOf m.first m.span b ↔ binOf d.first d.span b ∨ binOf s.det.startBin span b)
          ∧ ((∀ (j : Fin 32) (y : Defect), marked[j] = some y → ¬ merges y) →
              (∀ i : Fin 32, marked[i] = none → (∀ j : Fin 32, j < i → marked[j] ≠ none) →
                alone i t.defects.entries ∧ t.defects.entries[i] = some fresh ∧ t.link = s.link.post .defect [0, byte i.val])
              ∧ ((∀ j : Fin 32, marked[j] ≠ none) →
                  (∀ (i : Fin 32) (d : Defect), marked[i] = some d → d.origin = .learned →
                    (∀ (j : Fin 32) (y : Defect), marked[j] = some y → y.origin = .learned →
                      d.hits < y.hits ∨ (d.hits = y.hits ∧ i ≤ j)) →
                    alone i t.defects.entries ∧ t.defects.entries[i] = some fresh
                    ∧ t.link = (s.link.post .defect [1, byte i.val]).post .defect [0, byte i.val])
                  ∧ (full → t.defects.entries = marked ∧ t.link = s.link.post .defect [3, 255]))))
      ∧ (changed t.defects.entries → (t.defects.armed = true ↔ covered t.defects.entries s.angle.bin tp))
      ∧ (¬ changed t.defects.entries → t.defects.armed = s.defects.armed)
      ∧ t.angle = s.angle ∧ t.groups = s.groups ∧ t.spindle = s.spindle ∧ t.seek = s.seek ∧ t.seq = s.seq ∧ t.loader = s.loader
      ∧ t.sup = s.sup

/-! ## Events of the loops -/

/-- A lost focus, by its count or by a hold at its limit (R55, R62), in an engaged state that recovers from it: both loops OFF, the
sled drive 0 and the hold ended (R56, R58), the present procedure cancelled (R129), recovery entered with cause FOCUS_LOST at its first attempt, which
orders a search (R150, R151). -/
def Obligations.FocusLostRecovers : Prop :=
  ∀ s : State, s.settled → s.focus.state = .locked ∨ s.focus.state = .hold →
    s.seq.state = .engaging ∨ s.seq.state = .following ∨ ((s.seq.state = .seeking ∨ s.seq.state = .jumping ∨ s.seq.state = .paused
      ∨ s.seq.state = .suspended) ∧ s.current ≠ none) →
    ∃ t, exec .focusLost s = .next t ∧ (s.det.inHold = true → exec .holdLimit s = .next t)
      ∧ t = { s with
          focus := ⟨.search, ⟨0, 0, 0, 0, 0⟩, 0, 1, 0, none⟩
          track := trackOff
          det := { s.det with inHold := false }
          defects := ⟨t.defects.entries, s.defects.armed⟩
          groups := { s.groups with disturbed := s.groups.shockMode || s.groups.disturbed }
          spindle := { s.spindle with target :=
            if s.seq.state = .seeking then s.ownTarget else s.spindle.target }
          sled := { s.sled with drive := 0, move := if s.track.state = .openSeek then none else s.sled.move }
          seek := { s.seek with
            task := none, leg := .none, madeLeg := false, retry := false, limitStop := false, corrections := 0, waitTimer := 0
            remainder := 0 }
          seq := { s.seq with
            state := .recovering, cause := .focusLost, attempts := 1, step := .recoverFocus, addrTimer := none, loopWait := none
            recTimer := 0 }
          sup := { s.sup with idleTimer := none } }
      ∧ ∀ i : Fin 32, t.defects.entries[i] = s.defects.entries[i].map (fun d => if d.pass = .hit then d else { d with pass := .none })

/-- The limit of 1,280 samples. In PULLIN, and in SETTLING after it, an attempt fails: the next one begins (R45, R46), or after the third
the loop goes OFF, here with no task and no entry that TRACK_FAIL ends. In SETTLING after a jump, a move or an off-track, PULLIN
begins at attempt 1 and the report that was due stays due. In CLOSE the loop closes into SETTLING where it is (R50). The third failed
attempt is TRACK_FAIL: an ENGAGE, a task of a seek or jump and a PAUSE's own jump end TRACK_FAIL with a failure end (R124, R136, R140,
R142), the task in an address wait or with its leg's order waiting too (log entry 18); after HALT the part disengages (R145); in recovery it fails the attempt, and the next opens with a pull-in, or the third ends the
recovery FAILED (R151, R152). That in FOLLOWING with no task it changes the loop alone, and that in recovery the PAUSE's own jump fails the
attempt like any other, is the model's choice (log entries 41 and 48), and so is that the close takes e_t in hold
too (log entry 49). -/
def Obligations.SettleAndCloseTimeouts : Prop :=
  ∀ s : State, s.settled → queueLaw s.seq.queue →
    let again (n : Nat) : TrackLoop :=
      { s.track with state := .pullin, ax := { s.track.ax with a := 0, h := 0 }, attempt := n, timer := 0, offCount := 0, phase := .none }
    (s.track.state = .pullin ∨ (s.track.state = .settling ∧ s.track.fromPullin = true) →
      (s.track.attempt < 3 → exec .settleTimeout s = .next (s.setTrack (again (s.track.attempt + 1))))
      ∧ (3 ≤ s.track.attempt → s.seq.state = .following → s.track.byPause = false → s.seek.task = none →
          exec .settleTimeout s = .next (s.setTrack trackOff))
      ∧ (3 ≤ s.track.attempt → s.turning →
          s.seq.state = .engaging
            ∨ ((s.seq.state = .seeking ∨ s.seq.state = .jumping) ∧ s.current ≠ none ∧ s.seek.task ≠ none)
            ∨ (s.seq.state = .paused ∧ s.current ≠ none ∧ s.track.byPause = true) →
          exec .settleTimeout s = .next (s.disengaged false (allEnd 3 s.seq.queue)))
      ∧ (3 ≤ s.track.attempt → s.turning → s.current = none →
          s.seq.state = .seeking ∨ s.seq.state = .jumping ∨ s.seq.state = .paused ∨ s.seq.state = .suspended →
          exec .settleTimeout s = .next (s.disengaged false (allEnd 1 s.seq.queue)))
      ∧ (3 ≤ s.track.attempt → s.seq.state = .recovering →
          (s.seq.attempts < 3 → s.focus.state = .locked ∨ s.focus.state = .hold →
            exec .settleTimeout s = .next { s with
              track := { trackOff with state := .pullin, attempt := 1, goal := .trackLocked }
              seek := s.seek.dropTask
              seq := { s.seq with attempts := s.seq.attempts + 1, step := .recoverLock, loopWait := none } })
          ∧ (s.seq.attempts = 3 → s.turning → exec .settleTimeout s =
              .next (s.disengaged false (⟨.recovery, [byte s.seq.cause.code, 1, 3]⟩ :: allEnd 8 s.seq.queue)))))
    ∧ (s.track.state = .settling → s.track.fromPullin = false →
        exec .settleTimeout s =
          .next (s.setTrack { again 1 with goal := if s.track.goal = .jumpDone then .jumpDone else .trackLocked }))
    ∧ (s.track.state = .jumping → s.track.phase = .close →
        exec .closeTimeout s = .next (s.setTrack { s.track with
          state := .settling, phase := .none, ax := { s.track.ax with ePrev := s.fe.eT }, settleRun := 0, timer := 0
          fromPullin := false }))

/-- OFF_TRACK from the off-track count, which re-closes the loop through SETTLING (R53), and from a stalled jump or move, which goes to
PULLIN with the sled stopped (R51). Each is a shock trigger (R90): it enters shock mode, with the group switch and its notice, or goes on
in it (R91). And each starts recovery with cause OFF_TRACK, which waits up to 20 ms for LOCKED (R150, R151). That a stall sets h to 0 is the
model's choice (log entry 39). -/
def Obligations.OffTrackRecovers : Prop :=
  ∀ s : State, s.settled →
    s.seq.state = .engaging ∨ s.seq.state = .following ∨ s.seq.state = .seeking ∨ s.seq.state = .jumping ∨ s.seq.state = .paused
      ∨ s.seq.state = .suspended →
    s.focus.lost < (s.groups.recs[s.groups.shock])[25] →
    let r := s.groups.recs[s.groups.shock]
    let switched (track : TrackLoop) (sled : Sled) : State := { s with
      fe :=
        if s.groups.shockMode = true ∨ s.groups.shock = s.groups.base then s.fe else s.fe.underGroup r
      track := track, sled := sled
      groups := { s.groups with shockMode := true, clean := 0, disturbed := true }
      link := if s.groups.shockMode then s.link else s.link.post .shock [1, byte s.groups.shock.val]
      spindle := { s.spindle with target :=
        if s.seq.state = .seeking then s.ownTarget else s.spindle.target }
      seek := s.seek.dropTask
      seq := { s.seq with
        state := .recovering, cause := .offTrack, attempts := 1, step := .recoverLock, addrTimer := none, loopWait := some 0
        recTimer := 0 }
      sup := { s.sup with idleTimer := none } }
    (s.track.state = .locked ∨ s.track.state = .hold →
      exec .offTrack s = .next (switched { s.track with
        state := .settling, settleRun := 0, timer := 0, offCount := 0, fromPullin := false, goal := .none, byPause := false } s.sled))
    ∧ (s.track.state = .openSeek ∨ (s.track.state = .jumping ∧ (s.track.phase = .kick ∨ s.track.phase = .brake ∨ s.track.phase = .coast)) →
        exec .moveStall s = .next (switched
          { s.track with
            state := .pullin, ax := { s.track.ax with a := 0, h := 0 }, attempt := 1, timer := 0, offCount := 0, phase := .none
            goal := .trackLocked, byPause := false }
          (if s.track.state = .openSeek then { s.sled with drive := 0, move := none } else s.sled)))

/-- The sled computation with the tracking loop held (R107): the average of the sum over 64, its level test, its gain, the force of crank
hold and of INNER_LIMIT (R109, R110); the sum and count begin again and nothing else changes. -/
def Obligations.SledFollows : Prop :=
  ∀ s : State, s.settled → s.track.state = .locked ∨ s.track.state = .hold →
    let avg := s.sled.sum / 64
    let drive := if s.active[29] < avg.natAbs then max (-2047) (min 2047 (s.active[30] * avg / 16)) else 0
    exec .sledComputation s = .next (s.setSled { s.sled with
      sum := 0, count := 0
      drive := if s.sup.crankHold = true ∨ (s.sup.innerLimit.level = true ∧ drive < 0) then 0 else drive })

/-! ## Angle, spindle and groups -/

/-- An FG edge (R17 to R20): the interval is measured and kept unless the spindle is STOPPED or the edge is its first, the count moves on,
the bin moves to the first of the sector the count names, index events count revolutions (R24), and from the second counted edge on the
schedule runs from P. In BRAKING the edge restarts the state timer, and a measured P above 50,000 stops the spindle, with no edge counted
of the next spin-up (R18, R103). At an index event no change of group raises an incident here. The schedule stands by the edge's own
count where the same edge stops the spindle (log entry 44). The time since the last edge is an operand (log entry 9). -/
def Obligations.FgEdgeKeepsAngle : Prop :=
  ∀ (s : State) (us : Nat), s.settled → s.loader.ejectPending = false → s.angle.edge.val = s.angle.bin.val / 8 →
    (s.angle.edge = 7 → (s.groups.pending = none ∧ s.groups.shockMode = false) ∨ (s.countersClear ∧ groupLaw s.groups)) →
    let edge := s.angle.edge + 1
    let spin := if s.spindle.state = .stopped then s.angle.spinUp else min 2 (s.angle.spinUp + 1)
    let p := if s.spindle.state = .stopped ∨ s.angle.spinUp = 0 then s.angle.p else min 65535 us
    let turned (spinUp : Nat) : Angle :=
      ⟨edge, Fin.ofNat 64 (8 * edge.val), if edge = 0 then (s.angle.revs + 1) % 65536 else s.angle.revs, p, spinUp,
        s.angle.refValid || decide (spin = 2), if spin = 2 then some ⟨1, p / 8⟩ else none, 0⟩
    (s.spindle.state ≠ .braking → ∃ t, exec (.fgEdge us) s = .next t ∧ t.angle = turned spin)
    ∧ (s.spindle.state = .braking → s.seq.state = .idle ∨ s.seq.state = .standby ∨ (s.seq.state = .disengaging ∧ s.seq.queue = []) →
        let stops : Bool := 1 ≤ s.angle.spinUp ∧ 50000 < us
        ∃ t, exec (.fgEdge us) s = .next t ∧ t.angle = turned (if stops then 0 else spin)
          ∧ t.spindle =
            if stops then { s.spindle with state := .stopped, isp := 0, drive := 0, lockRun := 0, unlockRun := 0, timer := 0 }
            else { s.spindle with timer := 0 })

/-- A measured edge in KICK, LOCKING and LOCKED (R98 to R101), in FOLLOWING with no launch pending and no shock mode: the computation with
err = P − T, the lock test, the hold test. No other drive, loop, group, entry, line or setting changes; a change into or out of LOCKED
posts SPINDLE (R105), and with no window in the table nothing else is posted. -/
def Obligations.SpindleTakesEdge : Prop :=
  ∀ (s : State) (us : Nat), s.settled → s.seq.state = .following → s.groups.pending = none → s.groups.shockMode = false →
    1 ≤ s.angle.spinUp →
    let p := min 65535 us
    let x := s.spindle
    let err : Int := p - x.target
    let isp := max (-4194304) (min 4194303 (x.isp + s.active[28] * err))
    let drive := max (-2047) (min 2047 ((s.active[27] * err + isp / 16) / 256))
    let locking (timer : Nat) : Spindle :=
      if x.target / 32 < err.natAbs then { x with state := .locking, isp := isp, drive := drive, lockRun := 0, timer := timer }
      else if x.lockRun + 1 < 8 then { x with state := .locking, isp := isp, drive := drive, lockRun := x.lockRun + 1, timer := timer }
      else { x with state := .locked, isp := isp, drive := drive, lockRun := 8, unlockRun := 0, timer := timer }
    let next : Spindle :=
      match x.state with
      | .kick => if p ≤ 2 * x.target then locking 0 else x
      | .locking => locking x.timer
      | .locked =>
        if err.natAbs ≤ x.target / 16 then { x with isp := isp, drive := drive, unlockRun := 0 }
        else if x.unlockRun + 1 < 4 then { x with isp := isp, drive := drive, unlockRun := x.unlockRun + 1 }
        else { x with state := .locking, isp := isp, drive := drive, lockRun := 0, unlockRun := 4, timer := 0 }
      | _ => x
    x.state = .kick ∨ x.state = .locking ∨ x.state = .locked →
    ∃ t, exec (.fgEdge us) s = .next t ∧ t.spindle = next ∧ t.focus = s.focus ∧ t.track = s.track ∧ t.groups = s.groups
      ∧ t.sled = s.sled ∧ t.seek = s.seek ∧ t.seq = s.seq ∧ t.loader = s.loader ∧ t.sup = s.sup
      ∧ ((∀ i : Fin 32, s.defects.entries[i] = none) → t.link =
          if x.state ≠ next.state ∧ (x.state = .locked ∨ next.state = .locked) then s.link.post .spindle [byte next.state.code]
          else s.link)

/-- A timed boundary that brings no index event (R20, R23): the next bin; the coefficient of the bin that ends, from the mean of its SUM,
clamped and with its level, or frozen by a hold (R6, R7, R9, R10); the ended record closed by R30; a hold counts the boundary (R61). A
window whose last bin ends ages if its pass was CLEAN and tp_cur is in its range, and a LEARNED one that reaches 0 hits is removed with
a notice (R71); a window whose first bin begins starts a pass if focus is held (R70); the armed flag is evaluated for the beginning bin
(R66). Nothing else changes. -/
def Obligations.BoundaryClosesBin : Prop :=
  ∀ (s : State) (next spacing : Nat), s.settled → s.angle.schedule = some ⟨next, spacing⟩ → s.angle.bin ≠ 63 →
    let g := s.active
    let mean := s.fe.sumAcc / s.fe.sumCount
    let c := max g[9] (min g[10]
      (if s.fe.sumCount = 0 then s.fe.c else if mean = 0 then g[10] else (2048 * g[8] + mean) / (2 * mean)))
    let learned (ff : Int) (lambda : Nat) (sum : Int) (count : Nat) : Int :=
      if 16 ≤ count then max (-1023) (min 1023 (ff + (lambda * sum.tdiv count + 8) / 16)) else ff
    let r := s.rev[s.angle.bin]
    let tp := s.seek.tpCur
    let held : Bool := s.focus.state = .locked ∨ s.focus.state = .hold
    ∃ t, exec .timedBinBoundary s = .next t
      ∧ t = { s with
          fe := if s.det.inHold then { s.fe with sumAcc := 0, sumCount := 0 }
            else { s.fe with c := c, level := levelOf g c, sumAcc := 0, sumCount := 0 }
          angle := { s.angle with
            bin := s.angle.bin + 1, schedule := if next < 7 then some ⟨next + 1, spacing⟩ else none }
          rev := s.rev.set s.angle.bin
            ⟨learned r.trkFf g[7] r.trkSum r.trkCount, learned r.focFf g[3] r.focSum r.focCount, 0, 0, 0, 0⟩
          det := if s.det.inHold then { s.det with boundaries := min 15 (s.det.boundaries + 1) } else s.det
          defects := t.defects, link := t.link }
      ∧ (∀ i : Fin 32, t.defects.entries[i] = s.defects.entries[i].bind (fun d =>
          let ends : Bool := (d.first.val + d.span + 63) % 64 = s.angle.bin.val
          let ages : Bool := ends = true ∧ d.pass = .clean ∧ d.inner ≤ tp ∧ tp ≤ d.outer
          if ages = true ∧ d.origin = .learned ∧ d.hits ≤ 1 then none
          else
            let hits := if ages then d.hits - 1 else d.hits
            let pass := if d.first = s.angle.bin + 1 then (if held then .watching else .none) else if ends then .none else d.pass
            some { d with hits := hits, pass := pass }))
      ∧ (t.defects.armed = true ↔ covered t.defects.entries (s.angle.bin + 1) tp)
      ∧ ((∀ i : Fin 32, s.defects.entries[i] ≠ none → t.defects.entries[i] ≠ none) → t.link = s.link)
      ∧ (∀ i : Fin 32, s.defects.entries[i] ≠ none → t.defects.entries[i] = none →
          (∀ j : Fin 32, j ≠ i → s.defects.entries[j] ≠ none → t.defects.entries[j] ≠ none) →
          t.link = s.link.post .defect [2, byte i.val])

/-- An index event at an FG edge, in FOLLOWING or PAUSED with no window in the table and no incident counted (R87, R92, R93, R142): a
pending launch takes effect with its notice; in shock mode the clean count is judged, and reaching shock_revs ends shock mode with its
notice. Where both come together both are done, whichever is taken first, the SHOCK notice before the LAUNCH notice. Which comes first is
a free value (log entry 1). In PAUSED with the tracking loop held a jump of one track inward starts as well (R47, R142); with it in any
other state the revolution makes no jump. -/
def Obligations.IndexEventActsOnGroups : Prop :=
  ∀ (s : State) (us : Nat), s.settled → s.seq.state = .following ∨ s.seq.state = .paused → s.spindle.state ≠ .braking →
    s.angle.edge = 7 → s.angle.bin = 63 → s.countersClear → groupLaw s.groups → shockLaw s.groups →
    (∀ i : Fin 32, s.defects.entries[i] = none) → s.link.mask = 0 → s.link.notices.length ≤ 5 → s.fe.crossingNow = false →
    let clean := if s.groups.disturbed then s.groups.clean else s.groups.clean + 1
    let leaves : Bool := s.groups.shockMode = true ∧ s.groups.shockRevs ≤ clean
    let jumps : Bool := s.seq.state = .paused ∧ (s.track.state = .locked ∨ s.track.state = .hold)
    ∃ t, exec (.fgEdge us) s = .next t
      ∧ t.angle.bin = 0 ∧ t.angle.revs = (s.angle.revs + 1) % 65536
      ∧ t.groups = { s.groups with
          base := s.groups.pending.getD s.groups.base
          pending := none
          shockMode := s.groups.shockMode && !leaves
          clean := if s.groups.shockMode = true ∧ leaves = false then clean else 0
          disturbed := false }
      ∧ (∀ g, s.groups.pending = some g → (⟨.launch, [byte g.val]⟩ : Notice) ∈ t.link.notices)
      ∧ (leaves = true → s.groups.pending = none → (⟨.shock, [0, byte s.groups.base.val]⟩ : Notice) ∈ t.link.notices)
      ∧ (leaves = true → ∀ g, s.groups.pending = some g → (∀ x ∈ s.link.notices, x.kind ≠ .shock ∧ x.kind ≠ .launch) →
          ∃ (i j : Fin 8) (b : GroupId), i < j ∧ (b = g ∨ b = s.groups.base)
            ∧ t.link.notices[i.val]? = some ⟨.shock, [0, byte b.val]⟩ ∧ t.link.notices[j.val]? = some ⟨.launch, [byte g.val]⟩)
      ∧ t.fe.crossings = (if jumps then 0 else s.fe.crossings)
      ∧ t.track = (if jumps then { s.track with
            state := .jumping, phase := .kick, jumpLen := -1, stall := 0, offCount := 0, goal := .jumpDone, byPause := true }
          else s.track)
      ∧ t.focus = s.focus ∧ t.seq = s.seq ∧ t.seek = s.seek ∧ t.sled = s.sled ∧ t.loader = s.loader ∧ t.sup = s.sup

/-- The pending launch takes effect (R87, R88), and shock mode ends (R93), each with its notice; where the active group becomes another, c
is clamped into its range and L evaluated again (R9, R10, R81), and an incident counter that stands at or above its new limit raises its
incident at once: what follows is what that incident does to the machine under the new group (R39, R53, R55). Where both stand so, their
order is free (log entry 1). With nothing pending, or out of shock mode, nothing happens: that is the model's choice for commands of
events that cannot come about (log entry 5). -/
def Obligations.LaunchAndShockExit : Prop :=
  ∀ s : State, s.settled → groupLaw s.groups →
    (∀ g, s.groups.pending = some g →
      let r := s.groups.recs[g]
      let switches : Bool := s.groups.shockMode = false ∧ g ≠ s.groups.base
      let off : Bool := switches = true ∧ s.offReached r
      let lost : Bool := switches = true ∧ s.lostReached r
      let u : State := { s with
        fe := if switches then s.fe.underGroup r else s.fe
        groups := { s.groups with base := g, pending := none }
        link := s.link.post .launch [byte g.val] }
      (off = false → lost = false → exec .pendingLaunchEffect s = .next u)
      ∧ (off = true → lost = false → exec .pendingLaunchEffect s = exec .offTrack u)
      ∧ (off = false → lost = true → exec .pendingLaunchEffect s = exec .focusLost u))
    ∧ (s.groups.pending = none → exec .pendingLaunchEffect s = .next s)
    ∧ (s.groups.shockMode = true →
        let r := s.groups.recs[s.groups.base]
        let switches : Bool := s.groups.shock ≠ s.groups.base
        let off : Bool := switches = true ∧ s.offReached r
        let lost : Bool := switches = true ∧ s.lostReached r
        let u : State := { s with
          fe := if switches then s.fe.underGroup r else s.fe
          groups := { s.groups with shockMode := false, clean := 0, disturbed := false }
          link := s.link.post .shock [0, byte s.groups.base.val] }
        (off = false → lost = false → exec .shockModeExit s = .next u)
        ∧ (off = true → lost = false → exec .shockModeExit s = exec .offTrack u)
        ∧ (off = false → lost = true → exec .shockModeExit s = exec .focusLost u))
    ∧ (s.groups.shockMode = false → exec .shockModeExit s = .next s)

/-- A KICK or a LOCKING that times out (R99, R100, R102, R154): the spindle brakes with its run demand cleared. In an engaged state the
entry in progress ends SPIN_FAIL and the part disengages; a recovery ends FAILED first, and with no entry in progress outside recovery a
RECOVERY notice FAILED of cause SPIN_FAIL comes first. In IDLE, STANDBY and DISENGAGING the spindle alone changes. -/
def Obligations.SpinFailDisengages : Prop :=
  ∀ s : State, s.settled → queueLaw s.seq.queue →
    let alone : State := s.setSpindle { s.spindle with
      state := .braking, run := false, drive := -1024, lockRun := 0, unlockRun := 0, timer := 0 }
    let ended : State := s.disengaged false
      ((if s.seq.state = .recovering then [⟨.recovery, [byte s.seq.cause.code, 1, byte s.seq.attempts]⟩]
        else if s.current = none then [⟨.recovery, [4, 1, 0]⟩] else []) ++ allEnd 4 s.seq.queue)
    (s.seq.state = .idle ∨ s.seq.state = .standby ∨ s.seq.state = .disengaging →
      (s.spindle.state = .kick → exec .kickTimeout s = .next alone)
      ∧ (s.spindle.state = .locking → exec .lockingTimeout s = .next alone))
    ∧ (s.seq.state ≠ .idle → s.seq.state ≠ .standby → s.seq.state ≠ .disengaging →
        (s.spindle.state = .kick → exec .kickTimeout s = .next ended)
        ∧ (s.spindle.state = .locking → exec .lockingTimeout s = .next ended))

/-- The end of a braking in DISENGAGING (R103, R143, R144): STOPPED, the spin-up count cleared, and IDLE, or STANDBY for a standby order
with its POWER notice (R182); a DISENGAGE in progress ends DONE. A pending launch takes effect at the stop (R87), and a waiting eject
releases the disc at once, with the unclamp (R165, R166). -/
def Obligations.BrakingEndsInStop : Prop :=
  ∀ s : State, s.settled → s.spindle.state = .braking → s.seq.state = .disengaging → s.seq.laser = false → s.loader.state = .clamped →
    s.focus.state = .off → s.track.state = .off → s.sup.power = .active → s.seq.queue.all (·.inProgress) = true →
    s.seq.queue.length ≤ 1 →
    let stopped : Spindle := { s.spindle with state := .stopped, isp := 0, drive := 0, lockRun := 0, unlockRun := 0 }
    (s.loader.ejectPending = false → s.groups.pending = none → exec .brakingTimeout s = .next { s with
        angle := { s.angle with spinUp := 0 }
        spindle := stopped
        seq := { s.seq with
          state := if s.seq.toStandby then .standby else .idle
          queue := [], toStandby := false, step := .none, addrTimer := none, loopWait := none, recTimer := 0, cause := .none
          attempts := 0 }
        sup := { s.sup with idleTimer := none, power := if s.seq.toStandby then .standby else .active }
        link := s.link.postAll ((if s.seq.toStandby then [⟨.power, [1]⟩] else []) ++ endNotices 0 s.seq.queue) })
    ∧ (∀ g, s.groups.pending = some g → ∃ t, exec .brakingTimeout s = .next t
        ∧ t.spindle.state = .stopped ∧ t.groups = { s.groups with base := g, pending := none })
    ∧ (s.loader.ejectPending = true → s.sup.crankHold = false → s.sup.mute = false → ∃ t, exec .brakingTimeout s = .next t
        ∧ t.spindle.state = .stopped ∧ t.loader.ejectPending = false
        ∧ t.loader.state = (if !s.sup.ejectEnd.level then .releasing else if s.sup.slot.level then .presented else .empty)
        ∧ t.loader.drive = (if s.sup.ejectEnd.level then 0 else -1536)
        ∧ t.angle = State.reset.angle ∧ t.rev = State.reset.rev ∧ t.defects = State.reset.defects
        ∧ t.seek = { State.reset.seek with frame := s.seek.frame } ∧ t.seq.resume = none ∧ t.spindle.target = 20000)

/-- An ENGAGE that fails with the spindle turning, for its focus or for its address (R42, R136, R140): the entry ends FOCUS_FAIL or
NO_ADDRESS, the waiting entries ABANDONED, and the part disengages. -/
def Obligations.EngageFails : Prop :=
  ∀ s : State, s.settled → queueLaw s.seq.queue → s.seq.state = .engaging → s.turning →
    (s.focus.state = .search → exec .focusFail s = .next (s.disengaged false (allEnd 2 s.seq.queue)))
    ∧ (s.seq.step = .engageReady → s.seq.addrTimer ≠ none → s.seek.valid = false →
        exec .engageAddressTimeout s = .next (s.disengaged false (allEnd 5 s.seq.queue)))

/-! ## Addresses and seeks -/

/-- The address input (R112, R113): a frame of 32 bits whose flag bit is set and whose address is in range is a valid report; any other
frame is dropped; bits without the frame's end are kept. In FOLLOWING the report sets the resume address (R137). In an address wait of a
seek it is the fresh one: the check ends the seek DONE, or orders the next jump as one more correction, or after the fourth ends it
SEEK_MISS, or with INNER_LIMIT active ends an inward leg LIMIT (R122, R123, R125, R126). In that of a suspended JUMP's
return seek that is there, the JUMP is replayed at its full count (R149). In the address step of a recovery it ends the
recovery RESUMED, with no resume address at once, under crank hold too (log entry 22), and else by a return seek that is there already
(R151). The suspended entry is then replayed (R153): a SEEK by its own check, a JUMP of its full count, a PAUSE in PAUSED, an ENGAGE anew;
under crank hold a SEEK, JUMP or ENGAGE waits in SUSPENDED. In step 3 of an ENGAGE the report ends the ENGAGE DONE, from STANDBY by such a
return seek, or waits for the spindle (R139). How the bits come and how the frame ends are operands (log entry 9). -/
def Obligations.AddressReports : Prop :=
  ∀ (s : State) (bits : List Bool), s.settled → s.seek.frame ≠ .unseen →
    let all := (match s.seek.frame with | .taking old => old | _ => []) ++ bits
    let a := (all.drop 8).foldl (fun n b => 2 * n + flag b) 0
    let zones := s.seek.zones
    let taken : Seek := { s.seek with
      aCur := a, tpCur := s.seek.track a, valid := true, known := true, age := 0, watch := 0, frame := .idle }
    let interval (b : Nat) : Nat := (zoneAt zones (zoneOf zones b)).interval
    let follows (returned : Bool) (posts : List Notice) : State := { s with
      seek := if returned then taken.dropTask else taken
      seq := { s.seq with
        state := .following, queue := [], resume := some a, step := .none, addrTimer := none, loopWait := none, recTimer := 0
        cause := .none, attempts := 0 }
      spindle := { s.spindle with target := interval a }
      sup := { s.sup with idleTimer := none }
      link := s.link.postAll posts }
    let there (b : Nat) : Prop := s.seek.track b = s.seek.track a ∧ a ≤ b
    let away (b : Nat) : Int := (s.seek.track b : Int) - (s.seek.track a : Int)
    let jumping (n : Int) : TrackLoop := { s.track with
      state := .jumping, phase := .kick, jumpLen := n, stall := 0, offCount := 0, goal := .jumpDone, byPause := false }
    (all.length ≠ 32 ∨ all.head? = some false ∨ 4194303 < a →
        exec (.addressReport bits true) s = .next (s.setSeek { s.seek with frame := .idle }))
    ∧ exec (.addressReport bits false) s = .next (s.setSeek { s.seek with frame := .taking all })
    ∧ (all.length = 32 → all.head? = some true → a ≤ 4194303 →
        (s.seq.state = .following → s.seek.leg ≠ .wait → exec (.addressReport bits true) s = .next { s with
            seek := taken, seq := { s.seq with resume := some a }, spindle := { s.spindle with target := interval a } })
        ∧ (∀ e b, s.seq.queue = [e] → e.inProgress = true → e.motion.argument = some b → s.seq.state = .seeking →
            s.seek.task = some (.seek b) → s.seek.leg = .wait →
            (there b → exec (.addressReport bits true) s = .next (follows true (endNotices 0 [e])))
            ∧ (let d := away b
               (¬ there b → s.seek.madeLeg = true → 4 ≤ s.seek.corrections →
                  exec (.addressReport bits true) s = .next (follows true (endNotices 6 [e])))
               ∧ (s.seek.madeLeg = false ∨ s.seek.corrections < 4 →
                  (s.sup.innerLimit.level = true → d < 0 ∨ (d = 0 ∧ b < a) →
                    exec (.addressReport bits true) s = .next (follows true (endNotices 7 [e])))
                  ∧ (d ≠ 0 → d.natAbs ≤ s.active[26] → s.sup.innerLimit.level = false ∨ 0 < d →
                      s.track.state = .locked ∨ s.track.state = .hold → s.fe.crossingNow = false →
                      exec (.addressReport bits true) s = .next { s with
                        fe := { s.fe with crossings := 0 }
                        track := jumping d
                        seek := { taken with
                          leg := .jump d, madeLeg := true, retry := false, limitStop := false
                          corrections := if s.seek.madeLeg then s.seek.corrections + 1 else s.seek.corrections }
                        spindle := { s.spindle with target := interval b } }))))
        ∧ (∀ e, s.seq.queue = [e] → e.inProgress = true → ∀ n, e.motion.tracks = some n → ∀ b, s.seek.task = some (.seek b) →
            s.seq.state = .suspended → s.seek.leg = .wait → there b → n ≠ 0 → n.natAbs ≤ s.active[26] →
            s.sup.innerLimit.level = false ∨ 0 < n → s.track.state = .locked ∨ s.track.state = .hold → s.fe.crossingNow = false →
            exec (.addressReport bits true) s = .next { s with
              fe := { s.fe with crossings := 0 }
              track := jumping n
              seek := { taken.dropTask with task := some (.jump n), leg := .jump n, madeLeg := true }
              seq := { s.seq with
                state := .jumping, step := .none, addrTimer := none, loopWait := none, recTimer := 0, cause := .none, attempts := 0 }
              spindle := { s.spindle with target := interval a }
              sup := { s.sup with idleTimer := none } })
        ∧ (s.seq.state = .recovering → s.seq.step = .recoverAddress → s.seek.leg ≠ .wait →
            s.seq.resume = none ∨ (s.sup.crankHold = false ∧ ∃ b, s.seq.resume = some b ∧ there b) →
            let resumed : Notice := ⟨.recovery, [byte s.seq.cause.code, 0, byte s.seq.attempts]⟩
            let back : State := follows (s.seq.resume ≠ none) [resumed]
            (s.seq.queue = [] → exec (.addressReport bits true) s = .next back)
            ∧ (∀ e, s.seq.queue = [e] → e.inProgress = true →
                let goes (st : SeqState) (k : Seek) (target : Nat) : State := { back with
                  seek := k
                  seq := { back.seq with state := st, queue := [e], resume := s.seq.resume }
                  spindle := { s.spindle with target := target } }
                let jumps (st : SeqState) (task : Task) (n : Int) (target : Nat) : State :=
                  { goes st { taken.dropTask with task := some task, leg := .jump n, madeLeg := true } target with
                    fe := { s.fe with crossings := 0 }, track := jumping n }
                (e.motion = .pause → exec (.addressReport bits true) s = .next { back with
                    seq := { back.seq with state := .paused, queue := [e] }, sup := { s.sup with idleTimer := some 0 } })
                ∧ (s.sup.crankHold = true → e.motion ≠ .pause → e.motion ≠ .disengage →
                    exec (.addressReport bits true) s = .next (goes .suspended taken (interval a)))
                ∧ (s.sup.crankHold = false → s.track.state = .locked ∨ s.track.state = .hold → s.fe.crossingNow = false →
                    (∀ b, e.motion.argument = some b →
                      (there b → exec (.addressReport bits true) s = .next (follows true (resumed :: endNotices 0 [e])))
                      ∧ (away b ≠ 0 → (away b).natAbs ≤ s.active[26] → s.sup.innerLimit.level = false ∨ 0 < away b →
                          exec (.addressReport bits true) s = .next (jumps .seeking (.seek b) (away b) (interval b))))
                    ∧ (∀ n, e.motion.tracks = some n → n ≠ 0 → n.natAbs ≤ s.active[26] → s.sup.innerLimit.level = false ∨ 0 < n →
                        exec (.addressReport bits true) s = .next (jumps .jumping (.jump n) n (interval a)))
                    ∧ (e.motion = .engage → s.seq.fromStandby = false → s.focus.state = .locked ∨ s.focus.state = .hold →
                        s.spindle.state = .locked →
                        let r := s.active
                        let c := max r[9] (min r[10] 1024)
                        let u := follows (s.seq.resume ≠ none) (resumed :: endNotices 0 [e])
                        exec (.addressReport bits true) s = .next { u with
                          fe := { s.fe with c := c, level := levelOf r c, sumAcc := 0, sumCount := 0 }
                          seq := { u.seq with laser := true }
                          spindle := { u.spindle with run := true } }))))
        ∧ (∀ e, s.seq.queue = [e] → e.inProgress = true → s.seq.state = .engaging → s.seq.step = .engageReady → s.seek.leg ≠ .wait →
            s.track.state = .locked ∨ s.track.state = .hold →
            (s.spindle.state = .locked → s.seq.fromStandby = false ∨ s.seq.resume = none ∨ (∃ b, s.seq.resume = some b ∧ there b) →
              exec (.addressReport bits true) s = .next
                (follows (s.seq.fromStandby = true ∧ s.seq.resume ≠ none) (endNotices 0 [e])))
            ∧ (s.spindle.state ≠ .locked → exec (.addressReport bits true) s = .next { s with
                seek := taken, seq := { s.seq with addrTimer := none }, spindle := { s.spindle with target := interval a } })))

/-- An address wait that reaches 300 ms waits again as one more correction, or after the fourth ends the seek SEEK_MISS in FOLLOWING,
the return seek of a suspended JUMP too, which ends the JUMP so (R125, R149). A leg whose order was not taken is ordered again (R130), a jump in KICK and a move in its direction, the crossing count at 0
(R47, R49). -/
def Obligations.WaitsAndReorders : Prop :=
  ∀ s : State, s.settled → s.fe.crossingNow = false →
    (s.seek.leg = .wait → s.seek.corrections < 4 → exec .addressWaitTimeout s = .next (s.setSeek { s.seek with
        corrections := s.seek.corrections + 1, waitTimer := 0, retry := false, limitStop := false }))
    ∧ (∀ e, s.seq.queue = [e] → e.inProgress = true → s.seek.leg = .wait → 4 ≤ s.seek.corrections →
        s.seq.state = .seeking ∨ (s.seq.state = .suspended ∧ e.motion.tracks ≠ none) →
        exec .addressWaitTimeout s = .next { s with
          seek := { s.seek.dropTask with watch := 0 }
          spindle := { s.spindle with target := if s.seq.state = .seeking then s.ownTarget else s.spindle.target }
          seq := { s.seq with
            state := .following, queue := [], resume := if s.seek.valid then some s.seek.aCur else s.seq.resume, step := .none
            addrTimer := none, loopWait := none, recTimer := 0, cause := .none, attempts := 0 }
          sup := { s.sup with idleTimer := none }
          link := s.link.postAll (endNotices 6 [e]) })
    ∧ (∀ k, s.seek.leg = .jump k → k ≠ 0 → s.seek.retry = true → s.track.state = .locked ∨ s.track.state = .hold →
        exec .legReorder s = .next { s with
          fe := { s.fe with crossings := 0 }
          track := { s.track with
            state := .jumping, phase := .kick, jumpLen := k, stall := 0, offCount := 0, goal := .jumpDone, byPause := false }
          seek := { s.seek with retry := false } })
    ∧ (∀ out count landed, s.seek.leg = .move out count landed → s.seek.retry = true →
        s.track.state = .locked ∨ s.track.state = .hold →
        exec .legReorder s = .next { s with
          fe := { s.fe with crossings := 0 }
          track := { s.track with
            state := .openSeek, stall := 0, offCount := 0, moveCount := count, goal := .trackLocked, byPause := false }
          sled := { s.sled with move := some out }
          seek := { s.seek with retry := false } })

/-! ## The sequencer -/

/-- A SEEK at the head starts in FOLLOWING with a held track (R97, R121, R122, R127): the entry is in progress, T follows the target's
zone, and the check decides by the distance in tracks: DONE, one track back, a jump, or a move of 2(|d| − limit/2) crossings; without a
valid address the seek waits for one. A JUMP at the head starts its jump, or the move and the remainder a long one takes. With INNER_LIMIT
active an inward leg is not ordered, and the entry ends LIMIT (R123, R127). A PAUSE at the head starts in PAUSED, and ends DONE at once
where an entry waits behind it (R142); a DISENGAGE begins the disengage, the entry in progress (R144); an ENGAGE ends DONE at once
(R136). -/
def Obligations.EntryStartsSeek : Prop :=
  ∀ (s : State) (e : Entry) (rest : List Entry), s.settled → s.seq.state = .following → s.seq.queue = e :: rest →
    e.inProgress = false → s.sup.crankHold = false →
    s.track.state = .locked ∨ s.track.state = .hold → s.fe.crossingNow = false →
    let limit := s.active[26]
    let started (st : SeqState) (k : Seek) : State := { s with
      seq := { s.seq with
        state := st, queue := { e with inProgress := true } :: rest, step := .none, addrTimer := none, loopWait := none, recTimer := 0
        cause := .none, attempts := 0 }
      sup := { s.sup with idleTimer := none }
      seek := k }
    let jumps (u : State) (n : Int) : State := { u with
      fe := { s.fe with crossings := 0 }
      track := { s.track with
        state := .jumping, phase := .kick, jumpLen := n, stall := 0, offCount := 0, goal := .jumpDone, byPause := false } }
    let moves (u : State) (out : Bool) (count : Nat) : State := { u with
      fe := { s.fe with crossings := 0 }
      track := { s.track with
        state := .openSeek, stall := 0, offCount := 0, moveCount := count, goal := .trackLocked, byPause := false }
      sled := { s.sled with move := some out } }
    let fresh (task : Task) (leg : Leg) (made : Bool) (remainder : Int) : Seek := { s.seek with
      task := some task, leg := leg, madeLeg := made, retry := false, limitStop := false, corrections := 0, waitTimer := 0
      remainder := remainder }
    let passes (inward : Prop) : Prop := s.sup.innerLimit.level = false ∨ ¬ inward
    let ends (outcome : Nat) (target : Nat) : State := { s with
      seek := { s.seek.dropTask with watch := 0 }
      spindle := { s.spindle with target := target }
      seq := { s.seq with
        queue := [], resume := if s.seek.valid then some s.seek.aCur else s.seq.resume, step := .none, addrTimer := none
        loopWait := none, recTimer := 0, cause := .none, attempts := 0 }
      sup := { s.sup with idleTimer := none }
      link := s.link.postAll (endNotices outcome [e]) }
    let pauses (before : List Notice) (x : Entry) : State := { s with
      seq := { s.seq with
        state := .paused, queue := [{ x with inProgress := true }], resume := if s.seek.valid then some s.seek.aCur else s.seq.resume
        step := .none, addrTimer := none, loopWait := none, recTimer := 0, cause := .none, attempts := 0 }
      sup := { s.sup with idleTimer := some 0 }
      link := s.link.postAll before }
    (∀ a, e.motion.argument = some a →
      let d : Int := (s.seek.track a : Int) - (s.seek.track s.seek.aCur : Int)
      let zoned (u : State) : State :=
        { u with spindle := { s.spindle with target := (zoneAt s.seek.zones (zoneOf s.seek.zones a)).interval } }
      (s.seek.valid = false → exec .entryStart s = .next (zoned (started .seeking (fresh (.seek a) .wait false 0))))
      ∧ (s.seek.valid = true → d = 0 → a < s.seek.aCur → s.sup.innerLimit.level = false →
          exec .entryStart s = .next (jumps (zoned (started .seeking (fresh (.seek a) (.jump (-1)) true 0))) (-1)))
      ∧ (s.seek.valid = true → d ≠ 0 → d.natAbs ≤ limit → passes (d < 0) →
          exec .entryStart s = .next (jumps (zoned (started .seeking (fresh (.seek a) (.jump d) true 0))) d))
      ∧ (s.seek.valid = true → limit < d.natAbs → passes (d < 0) →
          let count := 2 * (d.natAbs - limit / 2)
          exec .entryStart s = .next
            (moves (zoned (started .seeking (fresh (.seek a) (.move (decide (0 < d)) count false) true 0))) (decide (0 < d)) count))
      ∧ (s.seek.valid = true → d = 0 → s.seek.aCur ≤ a → rest = [] → exec .entryStart s = .next (ends 0 s.ownTarget))
      ∧ (s.seek.valid = true → d < 0 ∨ (d = 0 ∧ a < s.seek.aCur) → s.sup.innerLimit.level = true → rest = [] →
          exec .entryStart s = .next (ends 7 s.ownTarget)))
    ∧ (e.motion = .pause →
        (rest = [] → exec .entryStart s = .next (pauses [] e))
        ∧ (∀ x, rest = [x] → x.motion = .pause → x.inProgress = false →
            exec .entryStart s = .next ((pauses (endNotices 0 [e]) x).setSeek s.seek)))
    ∧ (e.motion = .disengage → s.turning →
        let u := s.disengaged false []
        exec .entryStart s = .next (u.setSeq { u.seq with queue := { e with inProgress := true } :: rest }))
    ∧ (e.motion = .engage → rest = [] →
        exec .entryStart s = .next ((s.setSeq { s.seq with queue := [] }).setLink (s.link.postAll (endNotices 0 [e]))))
    ∧ (∀ n, e.motion.tracks = some n → n ≠ 0 →
        (n < 0 → s.sup.innerLimit.level = true → rest = [] → exec .entryStart s = .next (ends 7 s.spindle.target))
        ∧ (n.natAbs ≤ limit → passes (n < 0) → exec .entryStart s = .next (jumps (started .jumping (fresh (.jump n) (.jump n) true 0)) n))
        ∧ (limit < n.natAbs → passes (n < 0) →
            let count := 2 * (n.natAbs - limit / 2)
            exec .entryStart s = .next (moves
              (started .jumping (fresh (.jump n) (.move (decide (0 < n)) count false) true
                (if n < 0 then -((limit / 2 : Nat) : Int) else (limit / 2 : Nat))))
              (decide (0 < n)) count)))

/-- An entry starts in IDLE or STANDBY (R8, R96 to R99, R136, R138, R139): an ENGAGE with the disc clamped and no eject pending sets c, lights
the laser, starts the spindle and waits for it; from STANDBY it keeps the resume address, notes its origin and makes the power mode ACTIVE
(R137, R181). An ENGAGE without a disc, a SEEK, a JUMP and a PAUSE end ABANDONED at once, and a DISENGAGE ends DONE. The test of the disc
in STANDBY is log entry 26's. -/
def Obligations.EntryStartsInIdle : Prop :=
  ∀ (s : State) (e : Entry), s.settled → s.seq.state = .idle ∨ s.seq.state = .standby → s.seq.queue = [e] → e.inProgress = false → s.sup.crankHold = false →
    let r := s.active
    let ready : Bool := s.loader.state = .clamped ∧ s.loader.ejectPending = false
    let standby : Bool := s.seq.state = .standby
    (e.motion = .engage → ready = true → s.sup.mute = false → s.spindle.state = .stopped → s.focus.state = .off →
      exec .entryStart s = .next { s with
        fe := { s.fe with
          c := max r[9] (min r[10] 1024), level := levelOf r (max r[9] (min r[10] 1024)), sumAcc := 0, sumCount := 0 }
        spindle := { s.spindle with
          state := .kick, run := true, drive := 2047, lockRun := 0, unlockRun := 0, timer := 0, target := s.ownTarget }
        seq := { s.seq with
          state := .engaging, queue := [{ e with inProgress := true }], resume := if standby then s.seq.resume else none, laser := true
          fromStandby := standby, step := .engageFocus, addrTimer := none, loopWait := none, recTimer := 0, cause := .none, attempts := 0 }
        sup := { s.sup with idleTimer := none, power := if standby then .active else s.sup.power }
        link := if standby = true ∧ s.sup.power ≠ .active then s.link.post .power [0] else s.link })
    ∧ ((e.motion = .engage ∧ ready = false) ∨ e.motion = .pause ∨ e.motion.argument ≠ none ∨ e.motion.tracks ≠ none →
        exec .entryStart s = .next ((s.setSeq { s.seq with queue := [] }).setLink (s.link.postAll (endNotices 1 [e]))))
    ∧ (e.motion = .disengage →
        exec .entryStart s = .next ((s.setSeq { s.seq with queue := [] }).setLink (s.link.postAll (endNotices 0 [e]))))

/-- The timers of recovery (R151, R152) and of a part that reads (R114, R185). The 20 ms wait ends in a pull-in order, unless PULLIN
stands already. The address step's 300 ms fail the attempt: the next begins, or the third ends the recovery FAILED and the part
disengages. 300 ms without a valid report in FOLLOWING or PAUSED make the address not valid and start recovery with cause ADDRESS_LOST,
with the tracking loop held at its address step (R150). With nothing waiting the idle timer ends the PAUSE in progress DONE and gives the
standby order; in PAUSED left without an entry by HALT it gives the order alone, as is read by inference (log entry 40). While an entry
waits, with the setting 255 and outside PAUSED it does not expire, and the row's command then changes nothing, by the model's choice (log
entry 5). -/
def Obligations.RecoveryAndIdleTimers : Prop :=
  ∀ s : State, s.settled → queueLaw s.seq.queue →
    (s.seq.state = .recovering → s.seq.loopWait ≠ none →
      (s.track.state = .pullin → exec .recoveryLoopWaitTimeout s = .next (s.setSeq { s.seq with loopWait := none }))
      ∧ (s.track.state ≠ .pullin → s.focus.state = .locked ∨ s.focus.state = .hold →
          exec .recoveryLoopWaitTimeout s = .next { s with
            track := { s.track with
              state := .pullin, ax := { s.track.ax with a := 0, h := 0 }, attempt := 1, timer := 0, offCount := 0, phase := .none
              goal := .trackLocked, byPause := false }
            sled := if s.track.state = .openSeek then { s.sled with drive := 0, move := none } else s.sled
            seq := { s.seq with loopWait := none } }))
    ∧ (s.seq.state = .recovering → s.seq.step = .recoverAddress → s.track.state = .locked ∨ s.track.state = .hold →
        (s.seq.attempts < 3 → s.seq.cause = .addressLost ∨ s.seq.cause = .offTrack →
          exec .recoveryAddressTimeout s = .next ((s.setSeek s.seek.dropTask).setSeq
            { s.seq with attempts := s.seq.attempts + 1, recTimer := 0, loopWait := none }))
        ∧ (s.seq.attempts = 3 → s.turning →
            exec .recoveryAddressTimeout s =
              .next (s.disengaged false (⟨.recovery, [byte s.seq.cause.code, 1, 3]⟩ :: allEnd 8 s.seq.queue))))
    ∧ (s.seq.state = .following ∨ s.seq.state = .paused → s.track.state = .locked ∨ s.track.state = .hold →
        exec .addressLost s = .next { s with
          seek := { s.seek.dropTask with valid := false, watch := 0 }
          seq := { s.seq with
            state := .recovering, cause := .addressLost, attempts := 1, step := .recoverAddress, addrTimer := none, loopWait := none
            recTimer := 0 }
          sup := { s.sup with idleTimer := none } })
    ∧ (s.seq.state = .paused → s.seq.queue.all (·.inProgress) = true → s.sup.idleSetting ≠ 255 → s.turning →
        exec .idleTimerExpiry s = .next (s.disengaged true (allEnd 0 s.seq.queue)))
    ∧ (s.seq.state ≠ .paused ∨ (∃ e ∈ s.seq.queue, e.inProgress = false) ∨ s.sup.idleSetting = 255 →
        exec .idleTimerExpiry s = .next s)

/-! ## The lines -/

/-- The debounce (R157): a sample at the level clears the run, one against it counts, and at the debounce setting the level changes with
the run at 0; a sample that completes the run does what the change does. No other line moves. -/
def Obligations.LinesDebounce : Prop :=
  ∀ (s : State) (line other : DebLine) (raw : Bool), s.settled →
    let d := s.sup.line line
    (raw = d.level → exec (.senseLineSample line raw) s = .next (s.setSup (s.sup.setLine line ⟨d.level, 0⟩)))
    ∧ (raw ≠ d.level → d.run + 1 < s.sup.debounce →
        exec (.senseLineSample line raw) s = .next (s.setSup (s.sup.setLine line ⟨d.level, d.run + 1⟩)))
    ∧ ∃ t, exec (.debouncedLineChange line) s = .next t
        ∧ t.sup.line line = ⟨!d.level, 0⟩ ∧ (other ≠ line → t.sup.line other = s.sup.line other)
        ∧ (raw ≠ d.level → s.sup.debounce ≤ d.run + 1 → exec (.senseLineSample line raw) s = .next t)

/-- What a changed level does (R109, R128, R161, R164, R167, R168, R170): CLAMP_END clamps a disc being pulled; EJECT_END ends a release;
SLOT announces or pulls a disc into an EMPTY loader, or empties a PRESENTED one; a level that no loader state waits for does nothing
more. INNER_LIMIT, in any state of the part, stops an inward sled, and an inward leg that has been ordered and has not reported: a jump or
a move in progress closes, to end LIMIT at its jump done; a leg whose order has not been taken is marked alone, and a
PAUSE jump behind which it waits closes (log entry 19); in an outward leg, an
address wait, a pull-in after move done, or with no task, the sled alone stops; its release does nothing. -/
def Obligations.LineChangesAct : Prop :=
  ∀ s : State, s.settled →
    let lined (line : DebLine) : State := s.setSup (s.sup.setLine line ⟨!(s.sup.line line).level, 0⟩)
    let loads (line : DebLine) (x : Loader) (ns : List Notice) : State := ((lined line).setLoader x).setLink (s.link.postAll ns)
    let stopped : State := (lined .innerLimit).setSled { s.sled with drive := max 0 s.sled.drive }
    let limited : State := stopped.setSeek { s.seek with limitStop := true }
    let close : TrackLoop := { s.track with
      state := .jumping, phase := .close, goal := .jumpDone, timer := if s.fe.crossings = 0 then 0 else s.track.stall }
    (s.spindle.state = .stopped → s.seq.laser = false → s.sup.crankHold = false → s.sup.mute = false → s.sup.power = .active →
      (s.loader.state = .pulling → s.sup.clampEnd.level = false → exec (.debouncedLineChange .clampEnd) s = .next
        (loads .clampEnd { s.loader with state := .clamped, ejectPending := false, jam := false, drive := 0 } [⟨.loader, [2, 0]⟩]))
      ∧ (s.loader.state = .releasing → s.sup.ejectEnd.level = false → s.sup.slot.level = true →
          exec (.debouncedLineChange .ejectEnd) s = .next (loads .ejectEnd
            { s.loader with
              state := .presented, drive := 0
              reload := if s.loader.reloadSetting = 255 ∨ s.loader.jam = true then none
                else some ⟨0, if s.loader.reloadSetting = 0 then 10000 else s.loader.reloadSetting * 1000⟩ }
            [⟨.loader, [4, byte (flag s.loader.jam)]⟩]))
      ∧ (s.loader.state = .empty → s.sup.slot.level = false → s.loader.autoLoad = false →
          exec (.debouncedLineChange .slot) s = .next (loads .slot s.loader [⟨.discAtSlot, []⟩]))
      ∧ (s.loader.state = .empty → s.sup.slot.level = false → s.loader.autoLoad = true → s.sup.clampEnd.level = false →
          exec (.debouncedLineChange .slot) s = .next (loads .slot
            { s.loader with state := .pulling, ejectPending := false, jam := false, timer := 0, reload := none, drive := 1536 }
            [⟨.loader, [1, 0]⟩]))
      ∧ (s.loader.state = .presented → s.sup.slot.level = true → exec (.debouncedLineChange .slot) s = .next (loads .slot
            { s.loader with state := .empty, jam := false, reload := none, drive := 0 } [⟨.loader, [0, 0]⟩])))
    ∧ (s.loader.state ≠ .pulling ∨ s.sup.clampEnd.level = true → exec (.debouncedLineChange .clampEnd) s = .next (lined .clampEnd))
    ∧ (s.loader.state ≠ .releasing ∨ s.sup.ejectEnd.level = true → exec (.debouncedLineChange .ejectEnd) s = .next (lined .ejectEnd))
    ∧ ((s.loader.state ≠ .empty ∧ s.loader.state ≠ .presented) ∨ (s.loader.state = .empty ∧ s.sup.slot.level = true)
          ∨ (s.loader.state = .presented ∧ s.sup.slot.level = false) → exec (.debouncedLineChange .slot) s = .next (lined .slot))
    ∧ (s.sup.innerLimit.level = true → exec (.debouncedLineChange .innerLimit) s = .next (lined .innerLimit))
    ∧ (s.sup.innerLimit.level = false →
        s.seek.task = none ∨ s.seek.leg = .none ∨ s.seek.leg = .wait ∨ (∃ n, s.seek.leg = .jump n ∧ 0 ≤ n)
          ∨ (∃ out count landed, s.seek.leg = .move out count landed ∧ (out = true ∨ landed = true)) →
        exec (.debouncedLineChange .innerLimit) s = .next stopped)
    ∧ (s.sup.innerLimit.level = false → s.seek.task ≠ none →
        (∃ n, s.seek.leg = .jump n ∧ n < 0) ∨ (∃ count, s.seek.leg = .move false count false) →
        (s.track.state = .jumping → s.track.phase = .kick ∨ s.track.phase = .brake ∨ s.track.phase = .coast →
          exec (.debouncedLineChange .innerLimit) s = .next (limited.setTrack close))
        ∧ (s.track.state = .openSeek → exec (.debouncedLineChange .innerLimit) s = .next
            ((limited.setSled { s.sled with drive := 0, move := none }).setTrack close))
        ∧ (s.track.state ≠ .jumping → s.track.state ≠ .openSeek → exec (.debouncedLineChange .innerLimit) s = .next limited))

/-- Crank hold (R104, R110, R149, R159, R176). Its start, in any state of the part, lets a spindle that turns or brakes coast, stops the
sled and the loader, and posts SUPPLY; SEEKING, JUMPING and ENGAGING become SUSPENDED, and the task of a seek, a jump, a recovery or a
return seek is cancelled, a jump or move of it stopped. Its end kicks a coasting spindle whose run demand stands. A suspended SEEK starts
again as a new task; a suspended JUMP first returns to the resume address, and is replayed at its full count when it is there, or at once
with no such address; a suspended ENGAGE starts again, with its steps passing where they are done; a recovery that waits with its return
seek begins it; a part left SUSPENDED by HALT waits on; and any other state that no head waits in goes on as it is. The place of the SUPPLY
notice after the other blocks' is the model's choice (log entry 29), and so is read by inference that a suspended ENGAGE stops nothing
unless its return seek runs (log entry 15) and that its first step passes with focus held (log entry 14). -/
def Obligations.CrankHoldStartsAndEnds : Prop :=
  ∀ s : State, s.settled →
    let entered (st : SeqState) : Sequencer := { s.seq with
      state := st, step := .none, addrTimer := none, loopWait := none, recTimer := 0, cause := .none, attempts := 0 }
    let coasts : Bool := s.turning ∨ s.spindle.state = .braking
    let suspends : Bool := s.seq.state = .seeking ∨ s.seq.state = .jumping ∨ s.seq.state = .engaging
    let works : Bool := s.seek.task ≠ none
    let cancels : Bool := s.seq.state = .engaging ∨ ((s.seq.state = .seeking ∨ s.seq.state = .jumping) ∧ s.current ≠ none)
      ∨ ((s.seq.state = .recovering ∨ s.seq.state = .suspended) ∧ works = true)
    let stops : Bool := cancels = true ∧ works = true
    let closes : Bool := stops = true ∧ (s.track.state = .openSeek
      ∨ (s.track.state = .jumping ∧ (s.track.phase = .kick ∨ s.track.phase = .brake ∨ s.track.phase = .coast)))
    let ends (seq : Sequencer) (seek : Seek) (target : Nat) : State := { s with
      spindle := { s.spindle with
        state := .kick, run := true, drive := 2047, lockRun := 0, unlockRun := 0, timer := 0, target := target }
      seq := seq, seek := seek
      sup := { s.sup with supplyLow := ⟨false, 0⟩, crankHold := false }
      link := s.link.post .supply [0] }
    let stirred (u : State) : State := { u with sup := { u.sup with idleTimer := none } }
    let interval (a : Nat) : Nat := (zoneAt s.seek.zones (zoneOf s.seek.zones a)).interval
    let there (b : Nat) : Prop := s.seek.track b = s.seek.track s.seek.aCur ∧ s.seek.aCur ≤ b
    let wait (a : Nat) : Seek := { s.seek.dropTask with task := some (.seek a), leg := .wait }
    let held (x : TrackState) : Prop := x = .locked ∨ x = .hold
    let jumps (n : Int) : State := { stirred (ends (entered .jumping)
        { s.seek.dropTask with task := some (.jump n), leg := .jump n, madeLeg := true } s.ownTarget) with
      fe := { s.fe with crossings := 0 }
      track := { s.track with
        state := .jumping, phase := .kick, jumpLen := n, stall := 0, offCount := 0, goal := .jumpDone, byPause := false } }
    (s.sup.supplyLow.level = false → exec (.debouncedLineChange .supplyLow) s = .next { s with
        spindle := { s.spindle with
          state := if coasts then .coast else s.spindle.state
          drive := if coasts then 0 else s.spindle.drive
          lockRun := if coasts then 0 else s.spindle.lockRun
          unlockRun := if coasts then 0 else s.spindle.unlockRun
          target := if s.seq.state = .seeking then s.ownTarget else s.spindle.target }
        sled := { s.sled with drive := 0, move := if closes = true ∧ s.track.state = .openSeek then none else s.sled.move }
        track := if closes then { s.track with
            state := .jumping, phase := .close, goal := .jumpDone, timer := if s.fe.crossings = 0 then 0 else s.track.stall }
          else s.track
        seq := if suspends then entered .suspended else s.seq
        seek := if cancels then s.seek.dropTask else s.seek
        loader := { s.loader with drive := 0 }
        sup := { s.sup with
          supplyLow := ⟨true, 0⟩, crankHold := true, idleTimer := if suspends then none else s.sup.idleTimer }
        link := s.link.postAll ((if s.spindle.state = .locked then [⟨.spindle, [4]⟩] else []) ++ [⟨.supply, [1]⟩]) })
    ∧ (s.sup.supplyLow.level = true → s.sup.mute = false → s.spindle.state = .coast → s.spindle.run = true →
        s.loader.state = .clamped →
        let change := exec (.debouncedLineChange .supplyLow) s
        (s.seq.state = .following ∨ s.seq.state = .paused ∨ s.seq.state = .disengaging
              ∨ (s.seq.state = .recovering ∧ s.seq.step ≠ .recoverReturn) →
            s.seq.state ≠ .following ∨ s.seq.queue = [] → change = .next (ends s.seq s.seek s.spindle.target))
        ∧ (s.seq.state = .suspended → s.current = none → change = .next (ends s.seq s.seek s.ownTarget))
        ∧ (∀ b, s.seq.resume = some b → s.seq.state = .recovering → s.seq.step = .recoverReturn → s.seek.valid = false →
            change = .next (ends s.seq (wait b) s.spindle.target))
        ∧ (∀ e, s.seq.queue = [e] → e.inProgress = true → s.seq.state = .suspended →
            (∀ a, e.motion.argument = some a → s.seek.valid = false →
              change = .next (stirred (ends (entered .seeking) (wait a) (interval a))))
            ∧ (∀ n, e.motion.tracks = some n →
                (∀ b, s.seq.resume = some b → s.seek.valid = false →
                  change = .next (ends { s.seq with step := .jumpReturn } (wait b) s.ownTarget))
                ∧ (s.seq.resume = none ∨ (s.seek.valid = true ∧ ∃ b, s.seq.resume = some b ∧ there b) → n ≠ 0 →
                    n.natAbs ≤ s.active[26] → s.sup.innerLimit.level = false ∨ 0 < n → held s.track.state →
                    s.fe.crossingNow = false → change = .next (jumps n)))
            ∧ (e.motion = .engage →
                let c := max s.active[9] (min s.active[10] 1024)
                let engages (step : SeqStep) (timer : Option Nat) : State :=
                  { stirred (ends { entered .engaging with laser := true, step := step, addrTimer := timer } s.seek s.ownTarget) with
                    fe := { s.fe with c := c, level := levelOf s.active c, sumAcc := 0, sumCount := 0 } }
                (s.focus.state = .off ∨ s.focus.state = .search → change = .next (engages .engageFocus none))
                ∧ (s.focus.state = .locked ∨ s.focus.state = .hold →
                    (held s.track.state → change = .next (engages .engageReady (if s.seek.valid then none else some 0)))
                    ∧ (s.track.state = .off → change = .next { engages .engageTrack none with
                        track := { s.track with
                          state := .pullin, ax := { s.track.ax with a := 0, h := 0 }, attempt := 1, timer := 0, offCount := 0
                          phase := .none, goal := .trackLocked, byPause := false } })))))

/-- A level on SHOCK (R90, R91, R174): in SLEEP only the pin moves. Else the level is taken as seen, and a change that the edge select
counts is a shock trigger in an engaged state other than DISENGAGING: it enters shock mode, or begins the clean count again. An entry to
shock mode under whose limits an incident counter stands raises that incident at once (R39, R53, R55, R81); where both stand so, their
order is free (log entry 1). In SLEEP the level is kept as the model's pin (log entry 28). -/
def Obligations.ShockLineTriggers : Prop :=
  ∀ (s : State) (high : Bool), s.settled → groupLaw s.groups →
    let seen : State := s.setSup { s.sup with shockPin := high, shockSeen := high }
    let counts : Prop := s.sup.shockSeen ≠ high ∧ (s.sup.edgeSelect = .both ∨ (s.sup.edgeSelect = .rising ∧ high = true)
      ∨ (s.sup.edgeSelect = .falling ∧ high = false)) ∧ s.seq.state ≠ .idle ∧ s.seq.state ≠ .standby ∧ s.seq.state ≠ .disengaging
    let r := s.groups.recs[s.groups.shock]
    let switches : Bool := s.groups.shock ≠ s.groups.base
    let off : Bool := switches = true ∧ s.offReached r
    let lost : Bool := switches = true ∧ s.lostReached r
    let entered : State := { seen with
      fe := if switches then s.fe.underGroup r else s.fe
      groups := { s.groups with shockMode := true, clean := 0, disturbed := true }
      link := s.link.post .shock [1, byte s.groups.shock.val] }
    (s.sup.power = .sleep → exec (.shockEdge high) s = .next (s.setSup { s.sup with shockPin := high }))
    ∧ (s.sup.power ≠ .sleep → ¬ counts → exec (.shockEdge high) s = .next seen)
    ∧ (s.sup.power ≠ .sleep → counts → s.groups.shockMode = true →
        exec (.shockEdge high) s = .next (seen.setGroups { s.groups with clean := 0, disturbed := true }))
    ∧ (s.sup.power ≠ .sleep → counts → s.groups.shockMode = false →
        (off = false → lost = false → exec (.shockEdge high) s = .next entered)
        ∧ (off = true → lost = false → exec (.shockEdge high) s = exec .offTrack entered)
        ∧ (off = false → lost = true → exec (.shockEdge high) s = exec .focusLost entered))

/-- DRIVER_FAULT (R147, R155, R177, R178, R180): the asserting edge latches the fault, mutes the drives, lets the spindle coast, ends
every entry ABANDONED and opens the loops to IDLE at once; the drop ends the mute, and the coasting spindle brakes or kicks by its run
demand. The latch stays. A line that already stands so changes nothing. That a line that already stands so changes nothing is the model's
choice (log entry 5), and so is the place of the FAULT notice after what the same edge posts (log entry 29). -/
def Obligations.DriverFaultMutes : Prop :=
  ∀ s : State, s.settled → queueLaw s.seq.queue →
    (s.sup.faultPin = true → exec .driverFaultAssert s = .next s)
    ∧ (s.sup.faultPin = false → exec .driverFaultDrop s = .next s)
    ∧ (s.sup.faultPin = false → s.turning → s.seq.state ≠ .idle → s.seq.state ≠ .standby →
        let u := s.disengaged false []
        exec .driverFaultAssert s = .next { u with
          spindle := { u.spindle with state := .coast, drive := 0, timer := s.spindle.timer }
          seq := { u.seq with state := .idle }
          loader := { s.loader with drive := 0 }
          sup := { s.sup with faultPin := true, faultLatch := true, mute := true, idleTimer := none }
          link := s.link.postAll ((if s.spindle.state = .locked then [⟨.spindle, [4]⟩] else []) ++ s.abandons
            ++ (if s.groups.shockMode then [⟨.shock, [0, byte s.groups.base.val]⟩] else []) ++ [⟨.fault, [1, 1]⟩]) })
    ∧ (s.sup.faultPin = true → s.sup.crankHold = false → s.spindle.state = .coast → s.loader.state ≠ .empty →
        s.seq.state ≠ .engaging → exec .driverFaultDrop s = .next { s with
          spindle := if s.spindle.run then
              { s.spindle with state := .kick, drive := 2047, lockRun := 0, unlockRun := 0, timer := 0 }
            else { s.spindle with state := .braking, drive := -1024, lockRun := 0, unlockRun := 0, timer := 0 }
          sup := { s.sup with faultPin := false, mute := false }
          link := s.link.post .fault [byte (flag s.sup.faultLatch), 0] })

/-! ## The loader -/

/-- The loader's own events with the motor permit (R164 to R168, R170): the waiting release of a clamped disc, with the unclamp that clears
what every block holds of the disc; a load that times out goes over to RELEASING with the jam flag; a release that times out is JAMMED;
the reload timer pulls the disc in again. -/
def Obligations.LoaderEventsMove : Prop :=
  ∀ s : State, s.signals = [] → s.held = false → s.spindle.state = .stopped → s.seq.laser = false → s.sup.crankHold = false → s.sup.mute = false →
    s.sup.clampEnd.level = false → s.sup.ejectEnd.level = false → s.sup.power ≠ .sleep →
    let moved (x : Loader) (ns : List Notice) : State := (s.setLoader x).setLink (s.link.postAll ns)
    (s.loader.state = .clamped → s.loader.ejectPending = true → exec .ejectRelease s = .next
      { moved { s.loader with state := .releasing, ejectPending := false, timer := 0, drive := -1536 }
          [⟨.loader, [3, byte (flag s.loader.jam)]⟩] with
        angle := State.reset.angle, rev := State.reset.rev, defects := State.reset.defects
        seek := { State.reset.seek with frame := s.seek.frame }
        seq := { s.seq with resume := none }
        spindle := { s.spindle with target := 20000 } })
    ∧ (s.loader.state = .pulling → exec .loadTimeout s = .next (moved
        { s.loader with state := .releasing, ejectPending := false, jam := true, timer := 0, drive := -1536 } [⟨.loader, [3, 1]⟩]))
    ∧ (s.loader.state = .releasing → exec .releaseTimeout s = .next (moved
        { s.loader with state := .jammed, jam := true, timer := 5000, drive := 0 } [⟨.loader, [5, 1]⟩]))
    ∧ (s.loader.state = .presented → s.loader.reload ≠ none → exec .reloadTimerExpiry s = .next (moved
        { s.loader with state := .pulling, ejectPending := false, jam := false, timer := 0, reload := none, drive := 1536 }
        [⟨.loader, [1, 0]⟩]))

/-- LOAD (R162): EMPTY pulls a disc that stands at the slot, or answers NO_DISC; PRESENTED and JAMMED pull; PULLING and CLAMPED answer OK,
CLAMPED with an eject pending and RELEASING BUSY. EJECT (R163, R146): in IDLE a clamped disc is released at once, and a disc being pulled
or jammed goes over to RELEASING; in EMPTY, PRESENTED and RELEASING it does nothing; in an engaged state the part disengages first, the
eject pending. In SLEEP both wake the part to ACTIVE first, with the POWER notice (R174, R184). That the eject order comes before the
loader's own effect is read by inference (log entry 27). -/
def Obligations.LoadAndEjectRequests : Prop :=
  ∀ s : State, s.settled → s.linkReady → s.sup.power = .active ∨ s.sup.power = .sleep → s.sup.mute = false →
    let w : State := s.awake
    let answers (st : Nat) : State := w.setLink (w.link.answered 0x1B [] st [])
    let permit : Bool := s.spindle.state = .stopped ∧ s.seq.laser = false ∧ s.sup.crankHold = false
    let pulls : State := (w.setLoader { s.loader with
        state := .pulling, ejectPending := false, jam := false, timer := 0, reload := none, drive := if permit then 1536 else 0 }).setLink
      ((w.link.post .loader [1, 0]).answered 0x1B [] 0x00 [])
    (s.loader.state = .empty → s.sup.slot.level = false → exec (.load []) s = .next (answers 0x23))
    ∧ (s.loader.state = .pulling ∨ (s.loader.state = .clamped ∧ s.loader.ejectPending = false) → exec (.load []) s = .next (answers 0x00))
    ∧ (s.loader.state = .releasing ∨ (s.loader.state = .clamped ∧ s.loader.ejectPending = true) → exec (.load []) s = .next (answers 0x20))
    ∧ ((s.loader.state = .empty ∧ s.sup.slot.level = true) ∨ s.loader.state = .presented ∨ s.loader.state = .jammed →
        s.sup.clampEnd.level = false → exec (.load []) s = .next pulls)
    ∧ (s.loader.state = .empty ∨ s.loader.state = .presented ∨ s.loader.state = .releasing → s.seq.state = .idle → s.seq.queue = [] →
        exec (.eject []) s = .next (w.setLink (w.link.answered 0x1C [] 0x00 [])))
    ∧ (s.loader.state = .pulling ∨ s.loader.state = .jammed → s.seq.state = .idle → s.seq.queue = [] → s.sup.ejectEnd.level = false →
        exec (.eject []) s = .next ((w.setLoader
            { s.loader with state := .releasing, ejectPending := false, timer := 0, drive := if permit then -1536 else 0 }).setLink
          ((w.link.post .loader [3, byte (flag s.loader.jam)]).answered 0x1C [] 0x00 [])))
    ∧ (s.loader.state = .clamped → permit = true → s.seq.state = .idle → s.seq.queue = [] → s.sup.ejectEnd.level = false →
        exec (.eject []) s = .next { w with
          loader := { s.loader with state := .releasing, ejectPending := false, timer := 0, drive := -1536 }
          angle := State.reset.angle, rev := State.reset.rev, defects := State.reset.defects
          seek := { State.reset.seek with frame := s.seek.frame }
          seq := { s.seq with resume := none }
          spindle := { s.spindle with target := 20000 }
          link := (w.link.answered 0x1C [] 0x00 []).post .loader [3, byte (flag s.loader.jam)] })
    ∧ (s.loader.state = .clamped → s.turning → s.seq.state ≠ .idle → s.seq.state ≠ .standby → s.seq.state ≠ .disengaging →
        queueLaw s.seq.queue →
        let u := w.disengaged false s.abandons
        exec (.eject []) s = .next { u with
          loader := { s.loader with ejectPending := true }, link := u.link.answered 0x1C [] 0x00 [] })

/-! ## The link -/

/-- A read transfer at the own address (R194, R195, R205), after another one left open too: the reply, else the oldest notice, else the
empty record is copied and goes out, each byte in order, then 0xFF; a record whose check byte was clocked out is removed, and one that was
not stays. The transfer ends, or stays open with its record in flight; one that goes on clocks out what follows, and a notice whose
payload was replaced meanwhile stays in the queue when its copy has been read out. At another address nothing is sent and nothing
acknowledged (R190). The bytes put out and the acknowledge stand in the model's own `Link.sent` and `Link.acks` (log entry 32), and that a
transfer goes on by a command without a START is the model's (log entry 35). -/
def Obligations.ReadsOut : Prop :=
  ∀ (s : State) (a : BitVec 7) (n : Nat) (stop : Bool), s.settled →
    let own : BitVec 7 := if s.sup.addrHigh then 0x2D else 0x2C
    let framed (r : OutRecord) : List Byte :=
      let body := r.kind :: r.status :: BitVec.ofNat 8 r.payload.length :: r.payload
      body ++ [0 - body.foldl (fun x y => x + y) 0]
    let clocked (bytes : List Byte) : List Byte := bytes.take n ++ List.replicate (n - bytes.length) 0xFF
    let opens (r : OutRecord) (source : FlightSource) : Link :=
      let out : Bool := (framed r).length ≤ n
      { s.link with
        rx := if stop then .idle else .read, sent := clocked (framed r), acks := [true]
        reply := if out = true ∧ source = .reply then none else s.link.reply
        notices := if out = true ∧ source = .notice then s.link.notices.tail else s.link.notices
        flight := if stop then none else some ⟨r, if out then .spent else source, false, n⟩ }
    (s.link.rx = .read ∨ (s.link.rx = .idle ∧ s.link.flight = none) →
      (a ≠ own → exec (.readTransfer (some a) n stop) s = .next (s.setLink
          { s.link with rx := .idle, sent := [], acks := [false], flight := none }))
      ∧ (∀ r, s.link.reply = some r → exec (.readTransfer (some own) n stop) s = .next (s.setLink (opens r .reply)))
      ∧ (∀ x, s.link.notices.head? = some x → s.link.reply = none →
          exec (.readTransfer (some own) n stop) s = .next (s.setLink (opens ⟨BitVec.ofNat 8 x.kind.code, 0x00, x.payload⟩ .notice)))
      ∧ (s.link.reply = none → s.link.notices = [] →
          exec (.readTransfer (some own) n stop) s = .next (s.setLink (opens ⟨0x00, 0x00, []⟩ .spent))))
    ∧ (∀ f, s.link.flight = some f → s.link.rx = .read →
        let bytes := framed f.copy
        let out : Bool := f.clocked < bytes.length ∧ bytes.length ≤ f.clocked + n
        exec (.readTransfer none n stop) s = .next (s.setLink { s.link with
          rx := if stop then .idle else .read
          sent := s.link.sent ++ clocked (bytes.drop f.clocked)
          reply := if out = true ∧ f.source = .reply then none else s.link.reply
          notices := if out = true ∧ f.source = .notice ∧ f.changed = false then s.link.notices.tail else s.link.notices
          flight := if stop then none
            else some { f with clocked := f.clocked + n, source := if out then .spent else f.source } }))

/-- A write transfer (R190 to R193): to another address, or with the reply slot occupied, the address is not acknowledged and nothing is
taken; with no byte nothing happens; an L above 24 is answered LENGTH when the transfer ends and a record cut short SHORT, each in the reply
of the received kind; a complete record, here IDENT, is taken at its last byte and its reply stands after the transfer. Each byte stored
is acknowledged; an L above 24 and every byte after it, and every byte after a complete record, are not (R191). A write transfer that
stands open ends with what its buffer holds: an incomplete record SHORT, an L above 24 LENGTH, a record already taken and no byte at all
nothing. The operands of a transfer are the model's (log entry 35), and so is the record of the acknowledges (log entry 32). -/
def Obligations.WriteTransfers : Prop :=
  ∀ (s : State) (a : BitVec 7) (k l : Byte) (p : List Byte), s.settled →
    let own : BitVec 7 := if s.sup.addrHigh then 0x2D else 0x2C
    let answers (st : Byte) (acks : List Bool) : State := s.setLink { s.link with
      rx := .idle, buffer := [], reply := some ⟨if k.toNat < 128 then k + 128 else k, st, []⟩, pulse := decide (s.link.attnMode = .pulse)
      acks := acks }
    let taken (n : Nat) : List Bool := List.replicate n true
    let refused (n : Nat) : List Bool := List.replicate n false
    (s.link.rx = .idle →
      (a ≠ own ∨ s.link.reply ≠ none → exec (.writeTransferEnd (some a) p) s = .next (s.setLink { s.link with acks := [false] }))
      ∧ (s.link.reply = none →
          exec (.writeTransferEnd (some own) []) s = .next (s.setLink { s.link with buffer := [], acks := taken 1 })
          ∧ exec (.writeTransferEnd (some own) [k]) s = .next (answers 0x13 (taken 2))
          ∧ (l.toNat ≤ 24 → p.length < 1 + l.toNat →
              exec (.writeTransferEnd (some own) (k :: l :: p)) s = .next (answers 0x13 (taken (3 + p.length))))
          ∧ (24 < l.toNat →
              exec (.writeTransferEnd (some own) (k :: l :: p)) s = .next (answers 0x11 (taken 2 ++ refused (1 + p.length))))
          ∧ exec (.writeTransferEnd (some own) (requestRecord 0x03 [] ++ p)) s = .next (s.setLink
              { s.link.answered 0x03 [] 0x00
                  [0x0A, 0x50, 0x01, if s.sup.calValid then 0x00 else 0x01, if s.sup.addrHigh then 0x2D else 0x2C] with
                rx := .idle, buffer := [], acks := taken 4 ++ refused p.length })))
    ∧ (s.link.rx = .write →
        (s.link.buffer = [] ∨ (l.toNat = p.length ∧ p.length ≤ 24 ∧ ∃ c, s.link.buffer = k :: l :: (p ++ [c])) →
          exec (.writeTransferEnd none []) s = .next (s.setLink { s.link with rx := .idle, buffer := [] }))
        ∧ (s.link.buffer = [k] ∨ (s.link.buffer = k :: l :: p ∧ l.toNat ≤ 24 ∧ p.length < 1 + l.toNat) →
            exec (.writeTransferEnd none []) s = .next (answers 0x13 s.link.acks))
        ∧ (s.link.buffer = k :: l :: p → 24 < l.toNat → exec (.writeTransferEnd none []) s = .next (answers 0x11 s.link.acks)))

/-- A complete record that is not taken (R190, R193): a bad check byte is answered CHECK, else a kind outside 0x01..0x1C UNKNOWN, else a
payload length the kind does not allow LENGTH, in this order; with the reply slot occupied the address is not acknowledged and nothing
is taken. The acknowledges stand in the model's own `Link.acks` (log entry 32). -/
def Obligations.BadRecordsAreAnswered : Prop :=
  ∀ (s : State) (k c : Byte) (p : List Byte), s.settled → s.link.rx = .idle → p.length ≤ 24 →
    let record := k :: BitVec.ofNat 8 p.length :: (p ++ [c])
    let sum := record.foldl (fun x y => x + y) 0
    let answers (st : Byte) : State := s.setLink { s.link with
      rx := .write, buffer := record, reply := some ⟨if k.toNat < 128 then k + 128 else k, st, []⟩
      pulse := decide (s.link.attnMode = .pulse), acks := List.replicate (p.length + 4) true }
    (s.link.reply ≠ none → exec (.unknownRequest record) s = .next (s.setLink { s.link with acks := [false] }))
    ∧ (s.link.reply = none → sum ≠ 0 → exec (.unknownRequest record) s = .next (answers 0x12))
    ∧ (s.link.reply = none → sum = 0 → k.toNat = 0 ∨ 0x1C < k.toNat → exec (.unknownRequest record) s = .next (answers 0x10))
    ∧ (s.link.reply = none → sum = 0 → 1 ≤ k.toNat → k.toNat ≤ 0x1C → lengthAllowed k.toNat p = false →
        exec (.unknownRequest record) s = .next (answers 0x11))

/-- A notice posted (R195, R196, R199): masked it is dropped; of a state kind with an unread record of its kind it takes that record's
place, and a read of that very record under way is marked (R195); with room it is appended; in a full queue it is lost and the overflow
flag set. A notice posted or updated begins a pulse in PULSE
mode, and ATTN_PULSE_END ends it. -/
def Obligations.NoticesArePosted : Prop :=
  ∀ (s : State) (k : NoticeKind) (p : List Byte), s.settled →
    let l := s.link
    let has : Bool := l.notices.any (fun x => decide (x.kind = k))
    exec .attnPulseEnd s = .next (s.setLink { l with pulse := false })
    ∧ (l.mask.getLsbD (k.code - 0x40) = true → l.post k p = l)
    ∧ (l.mask.getLsbD (k.code - 0x40) = false → k.isState = true → has = true → l.post k p = { l with
        notices := l.notices.map (fun x => if x.kind = k then ⟨k, p⟩ else x)
        flight := l.flight.map (fun f =>
          if f.source = .notice ∧ l.notices.head?.map (·.kind) = some k then { f with changed := true } else f)
        pulse := decide (l.attnMode = .pulse) })
    ∧ (l.mask.getLsbD (k.code - 0x40) = false → k.isState = false ∨ has = false →
        (l.notices.length < 8 → l.post k p = { l with notices := l.notices ++ [⟨k, p⟩], pulse := decide (l.attnMode = .pulse) })
        ∧ (8 ≤ l.notices.length → l.post k p = { l with overflow := true }))

/-! ## Power and motion requests -/

/-- POWER (R15, R174, R181 to R184): the mode in force is answered OK; ACTIVE wakes from SLEEP with SHOCK as it stands; STANDBY in IDLE
enters STANDBY, out of SLEEP too, in an engaged part it disengages first, and a moving loader is BUSY; SLEEP stops the converters, and is BUSY while
anything runs; a mode above 2 is RANGE. The mode in force before the test of BUSY, and STANDBY out of SLEEP in one change, are read from
the rules by inference (log entries 23 and 24). -/
def Obligations.PowerRequests : Prop :=
  ∀ (s : State) (m : Byte), s.settled → s.linkReady → queueLaw s.seq.queue →
    let moving : Bool := s.loader.state = .pulling ∨ s.loader.state = .releasing ∨ (s.loader.state = .clamped ∧ s.loader.ejectPending = true)
    let answers (m : Byte) (st : Nat) : State := s.setLink (s.link.answered 0x13 [m] st [])
    (s.sup.power = .active → exec (.powerActive [0]) s = .next (answers 0 0x00))
    ∧ (s.sup.power = .sleep → exec (.powerActive [0]) s = .next
        ((s.setSup { s.sup with power := .active, shockSeen := s.sup.shockPin }).setLink
          ((s.link.post .power [0]).answered 0x13 [0] 0x00 [])))
    ∧ (s.sup.power = .standby → exec (.powerActive [0]) s = .next
        ((s.setSup { s.sup with power := .active }).setLink ((s.link.post .power [0]).answered 0x13 [0] 0x00 [])))
    ∧ (s.sup.power = .standby → exec (.powerStandby [1]) s = .next (answers 1 0x00))
    ∧ (s.sup.power ≠ .standby → moving = true → exec (.powerStandby [1]) s = .next (answers 1 0x20))
    ∧ (s.sup.power = .active → moving = false → s.seq.state = .idle → s.seq.queue = [] → exec (.powerStandby [1]) s = .next { s with
        seq := { s.seq with
          state := .standby, step := .none, addrTimer := none, loopWait := none, recTimer := 0, cause := .none, attempts := 0 }
        sup := { s.sup with power := .standby, idleTimer := none }
        link := (s.link.post .power [1]).answered 0x13 [1] 0x00 [] })
    ∧ (s.sup.power = .sleep → moving = false → s.seq.queue = [] → s.seq.state = .idle ∨ s.seq.state = .standby →
        exec (.powerStandby [1]) s = .next { s with
          seq :=
            if s.seq.state = .standby then s.seq
            else { s.seq with
              state := .standby, step := .none, addrTimer := none, loopWait := none, recTimer := 0, cause := .none, attempts := 0 }
          sup := { s.sup with
            power := .standby, shockSeen := s.sup.shockPin
            idleTimer := if s.seq.state = .standby then s.sup.idleTimer else none }
          link := (s.link.post .power [1]).answered 0x13 [1] 0x00 [] })
    ∧ (s.sup.power = .active → moving = false → s.turning → s.seq.state ≠ .idle → s.seq.state ≠ .standby → s.seq.state ≠ .disengaging →
        let u := s.disengaged true s.abandons
        exec (.powerStandby [1]) s = .next (u.setLink (u.link.answered 0x13 [1] 0x00 [])))
    ∧ (s.sup.power = .sleep → exec (.powerSleep [2]) s = .next (answers 2 0x00))
    ∧ (s.sup.power ≠ .sleep → (s.seq.state ≠ .idle ∧ s.seq.state ≠ .standby) ∨ s.seq.queue ≠ [] ∨ s.spindle.state ≠ .stopped
          ∨ moving = true → exec (.powerSleep [2]) s = .next (answers 2 0x20))
    ∧ (s.sup.power ≠ .sleep → s.seq.state = .idle ∨ s.seq.state = .standby → s.seq.queue = [] → s.spindle.state = .stopped →
        moving = false → exec (.powerSleep [2]) s = .next { s with
          fe := { s.fe with sumAcc := 0, sumCount := 0, side := .unknown }
          sup := { s.sup with power := .sleep }
          link := (s.link.post .power [2]).answered 0x13 [2] 0x00 [] })
    ∧ (2 < m.toNat → exec (.powerActive [m]) s = .next (answers m 0x28))

/-- A motion request (R133 to R135), in SLEEP after the wake to ACTIVE with its POWER notice (R174, R184): refused FAULT with the latch set, NO_DISC for an ENGAGE without a disc, NOT_ENGAGED in a
disengaged part with no ENGAGE queued; a SEEK onto a waiting SEEK and a JUMP onto a waiting JUMP merge; a full queue refuses QUEUE_FULL;
else it is queued, and answered before anything it starts. In IDLE, STANDBY and FOLLOWING the head is then tested as ENTRY_START
tests it, in PAUSED the PAUSE in progress ends DONE and the head is tested in FOLLOWING (R136, R142), and in any other state, and in PAUSED
left without an entry by HALT, it waits. The reply echoes the tag and counts the entries right after the append (log entry 42), and an
argument out of range is clamped and so answered. -/
def Obligations.MotionRequests : Prop :=
  ∀ (s : State) (m : Motion) (tag : Byte), s.settled → s.linkReady → m.fits → queueLaw s.seq.queue →
    let kind := m.requestKind
    let p := m.requestPayload tag
    let queue := s.seq.queue
    let w : State := s.awake
    let disc : Bool := s.loader.state = .clamped ∧ s.loader.ejectPending = false
    let engaged : Bool := (s.seq.state ≠ .idle ∧ s.seq.state ≠ .standby) ∨ queue.any (fun e => e.motion = .engage)
    let clampJump (n : Int) : Int := max (-32767) (min 32767 n)
    let m' : Motion := match m with | .seek t => .seek (min t s.seek.lastBlock) | .jump n => .jump (clampJump n) | x => x
    let refused (st : Nat) : State := w.setLink (w.link.answered kind p st [tag])
    (s.sup.faultLatch = true → exec (m.command tag) s = .next (refused 0x24))
    ∧ (s.sup.faultLatch = false → m = .engage → disc = false → exec (m.command tag) s = .next (refused 0x23))
    ∧ (s.sup.faultLatch = false → m ≠ .engage → m ≠ .disengage → engaged = false → exec (m.command tag) s = .next (refused 0x22))
    ∧ (s.sup.faultLatch = false → (m = .engage ∧ disc = true) ∨ m = .disengage ∨ (m ≠ .engage ∧ engaged = true) →
        (∀ old, queue.getLast? = some old → old.inProgress = false →
          (m.argument ≠ none → old.motion.argument ≠ none → exec (m.command tag) s = .next
            ((w.setSeq { s.seq with queue := queue.dropLast ++ [⟨m', tag, false⟩] }).setLink
              (w.link.answered kind p (if m' = m then 0x02 else 0x03) [tag, 1, old.tag, byte queue.length])))
          ∧ (∀ n, m.tracks = some n → ∀ k, old.motion.tracks = some k →
              exec (m.command tag) s = .next
                ((w.setSeq { s.seq with queue := queue.dropLast ++ [⟨.jump (clampJump (k + clampJump n)), tag, false⟩] }).setLink
                  (w.link.answered kind p
                    (if clampJump n = n ∧ clampJump (k + clampJump n) = k + clampJump n then 0x02 else 0x03)
                    [tag, 1, old.tag, byte queue.length]))))
        ∧ ((∀ old, queue.getLast? = some old → old.inProgress = true
              ∨ ((m.argument = none ∨ old.motion.argument = none) ∧ (m.tracks = none ∨ old.motion.tracks = none))) →
            (queue.length = 4 → exec (m.command tag) s = .next (refused 0x21))
            ∧ (queue.length < 4 →
                let queued : State := (w.setSeq { s.seq with queue := queue ++ [⟨m', tag, false⟩] }).setLink
                  (w.link.answered kind p (if m' = m then 0x01 else 0x03) [tag, 0, 0, byte (queue.length + 1)])
                (s.seq.state = .engaging ∨ s.seq.state = .seeking ∨ s.seq.state = .jumping ∨ s.seq.state = .recovering
                    ∨ s.seq.state = .suspended ∨ s.seq.state = .disengaging ∨ (s.seq.state = .paused ∧ s.current = none) →
                  exec (m.command tag) s = .next queued)
                ∧ (s.seq.state = .idle ∨ s.seq.state = .standby ∨ s.seq.state = .following →
                    exec (m.command tag) s = exec .entryStart queued)
                ∧ (∀ e rest, queue = e :: rest → e.inProgress = true → s.seq.state = .paused →
                    exec (m.command tag) s = exec .entryStart { queued with
                      seq := { s.seq with
                        state := .following, queue := rest ++ [⟨m', tag, false⟩]
                        resume := if s.seek.valid then some s.seek.aCur else s.seq.resume, step := .none, addrTimer := none
                        loopWait := none, recTimer := 0, cause := .none, attempts := 0 }
                      sup := { w.sup with idleTimer := none }
                      link := queued.link.postAll (endNotices 0 [e]) }))))

/-- HALT (R145): with no entry in progress in IDLE, STANDBY, FOLLOWING and DISENGAGING it flushes the waiting entries. A seek, jump or
PAUSE, suspended ones too, ends ABANDONED with all that waits: with the track held the part goes on in FOLLOWING; with the tracking loop
OFF it disengages; else a jump or move in progress is stopped and the part keeps its state with no entry until the loop holds or
fails. An ENGAGE in progress, in ENGAGING or SUSPENDED, disengages. A recovery ends ABANDONED, and goes on in FOLLOWING with both loops
held, else disengages. That a tracking loop already OFF disengages at once is read by inference (log entry 17). -/
def Obligations.HaltRequest : Prop :=
  ∀ s : State, s.settled → s.linkReady → queueLaw s.seq.queue →
    let focusHeld : Bool := s.focus.state = .locked ∨ s.focus.state = .hold
    let trackHeld : Bool := s.track.state = .locked ∨ s.track.state = .hold
    let procedure : Bool :=
      s.seq.state = .seeking ∨ s.seq.state = .jumping ∨ s.seq.state = .paused ∨ s.seq.state = .suspended
    let engage : Bool := s.current.map (·.motion) = some .engage
    let moving : Bool := s.track.state = .openSeek
      ∨ (s.track.state = .jumping ∧ (s.track.phase = .kick ∨ s.track.phase = .brake ∨ s.track.phase = .coast))
    let followed (posts : List Notice) : State := { s with
      seek := { s.seek.dropTask with watch := if s.seq.state = .paused then s.seek.watch else 0 }
      spindle := { s.spindle with target := if s.seq.state = .seeking then s.ownTarget else s.spindle.target }
      seq := { s.seq with
        state := .following, queue := [], resume := if s.seek.valid then some s.seek.aCur else s.seq.resume, step := .none
        addrTimer := none, loopWait := none, recTimer := 0, cause := .none, attempts := 0 }
      sup := { s.sup with idleTimer := none }
      link := (s.link.postAll posts).answered 0x1A [] 0x00 [] }
    let gone (posts : List Notice) : State :=
      let u := s.disengaged false posts
      u.setLink (u.link.answered 0x1A [] 0x00 [])
    (s.seq.state = .idle ∨ s.seq.state = .standby ∨ s.seq.state = .following ∨ s.seq.state = .disengaging →
      exec (.halt []) s = .next ((s.setSeq { s.seq with queue := s.seq.queue.filter (·.inProgress) }).setLink
        ((s.link.postAll (endNotices 1 (s.seq.queue.filter (fun e => !e.inProgress)))).answered 0x1A [] 0x00 [])))
    ∧ (procedure = true → engage = false →
        (trackHeld = true → exec (.halt []) s = .next (followed (allEnd 1 s.seq.queue)))
        ∧ (s.turning → s.track.state = .off → exec (.halt []) s = .next (gone (allEnd 1 s.seq.queue)))
        ∧ (trackHeld = false → s.track.state ≠ .off → exec (.halt []) s = .next { s with
            seek := s.seek.dropTask
            seq := { s.seq with queue := [], step := .none }
            sled := if s.track.state = .openSeek then { s.sled with drive := 0, move := none } else s.sled
            track :=
              if moving then { s.track with
                state := .jumping, phase := .close, goal := .jumpDone, timer := if s.fe.crossings = 0 then 0 else s.track.stall }
              else s.track
            link := (s.link.postAll (allEnd 1 s.seq.queue)).answered 0x1A [] 0x00 [] }))
    ∧ (s.turning → (s.seq.state = .engaging ∨ procedure = true) → engage = true →
        exec (.halt []) s = .next (gone (allEnd 1 s.seq.queue)))
    ∧ (s.seq.state = .recovering →
        (focusHeld = true → trackHeld = true → exec (.halt []) s = .next (followed s.abandons))
        ∧ (s.turning → focusHeld = false ∨ trackHeld = false → exec (.halt []) s = .next (gone s.abandons)))

/-! ## What every command and every tick keeps -/

/-- No command touches the waiting commands, a reset as little as any other: a step consumes exactly the one at the front. The queue of
waiting commands and its keeping through the resets are the model's own (log entry 30). -/
def Obligations.CommandsLeaveTheQueue : Prop :=
  ∀ (c : Instr) (s t : State), exec c s = .next t → t.pending = s.pending

/-- The Motion Queue's law and the Notice Queue's law are kept (R132, R133, R196). -/
def Obligations.StepKeepsQueues : Prop :=
  ∀ s t : State, queueLaw s.seq.queue → noticeLaw s.link.notices → step s = .next t →
    queueLaw t.seq.queue ∧ noticeLaw t.link.notices

/-- The Zone Table law is kept, and the list of first tracks follows the table (R117). -/
def Obligations.StepKeepsZoneTable : Prop :=
  ∀ s t : State, zoneLaw s.seek → step s = .next t → zoneLaw t.seek

/-- The group records stay in range and consistent, the clean count below shock_revs, and c within the active group's range with its
level (R9, R10, R77, R78, R80, R91). -/
def Obligations.StepKeepsGroups : Prop :=
  ∀ s t : State, groupLaw s.groups → shockLaw s.groups → s.coefficientLaw → step s = .next t →
    groupLaw t.groups ∧ shockLaw t.groups ∧ t.coefficientLaw

/-- The Revolution Table and the Defect Window Table keep their ranges (R30, R65, R72). -/
def Obligations.StepKeepsDiscTables : Prop :=
  ∀ s t : State, s.feedforwardLaw → s.defectLaw → step s = .next t → t.feedforwardLaw ∧ t.defectLaw

/-- Every drive stays in ±2047, the loader motor runs only under its permit, the laser is lit only in an engaged state that is not
disengaging, and mute is active exactly while DRIVER_FAULT is asserted (R35, R95, R110, R138, R159, R165, R178, R181). So the pins: under
mute every drive pin is 0 and LASER_EN off; LASER_EN on means CLAMPED, ACTIVE and engaged; ATTN stands for a reply or a notice, or in PULSE
mode for the pulse (R199); MON shows what its select chooses (R189). The settings of the lines stay in their ranges (R175). A step leaves nothing to be handed on; that at most 64 hand-ons
follow one another before the rest would be dropped is the model's bound (log entry 6). -/
def Obligations.StepKeepsOutputsSafe : Prop :=
  ∀ s t : State, groupLaw s.groups → s.driveLaw → s.loaderLaw → s.laserLaw → s.muteLaw → s.atRest → step s = .next t →
    t.driveLaw ∧ t.loaderLaw ∧ t.laserLaw ∧ t.muteLaw ∧ t.atRest ∧ (s.settingLaw → t.settingLaw)
    ∧ (inDrive t.focDrv ∧ inDrive t.trkDrv ∧ inDrive t.sledDrv ∧ inDrive t.spinDrv ∧ inDrive t.loadDrv)
    ∧ (t.sup.faultPin = true →
        t.focDrv = 0 ∧ t.trkDrv = 0 ∧ t.sledDrv = 0 ∧ t.spinDrv = 0 ∧ t.loadDrv = 0 ∧ t.laserEn = false)
    ∧ (t.sup.faultPin = false → t.held = false → t.focDrv = t.focus.ax.u ∧ t.trkDrv = t.track.ax.u ∧ t.sledDrv = t.sled.drive
        ∧ t.spinDrv = t.spindle.drive ∧ t.loadDrv = t.loader.drive ∧ t.laserEn = t.seq.laser)
    ∧ (t.laserEn = true → t.sup.faultPin = false ∧ t.loader.state = .clamped ∧ t.sup.power = .active
        ∧ t.seq.state.engaged = true ∧ t.seq.state ≠ .disengaging ∧ t.loadDrv = 0)
    ∧ (t.held = false →
        (t.attn = true ↔
          if t.link.attnMode = .pulse then t.link.pulse = true else t.link.reply ≠ none ∨ t.link.notices ≠ [])
        ∧ (t.mon = true ↔
            (t.sup.monSelect = 1 ∧ t.angle.bin = 0) ∨ (t.sup.monSelect = 2 ∧ t.det.inHold = true)
              ∨ (t.sup.monSelect = 3 ∧ t.groups.shockMode = true) ∨ (t.sup.monSelect = 4 ∧ t.seek.valid = true)
              ∨ (t.sup.monSelect = 5 ∧ 0 < t.track.offCount) ∨ (t.sup.monSelect = 6 ∧ t.attn = true)
              ∨ (t.sup.monSelect = 7 ∧ t.sup.faultPin = true)))
end

