-- ==== Sys2Proof/Laws/Arith.lean ====
section
/-! SUPPORT. The arithmetic of 00_scope and the fixed tables: what a saturated value can be, and what a changed table holds. -/

namespace Sys2Proof.Machine

theorem sat_bounds {lo hi : Int} (h : lo ≤ hi) (x : Int) : lo ≤ sat lo hi x ∧ sat lo hi x ≤ hi := by
  simp only [sat]; omega

theorem sat_of_mem {lo hi x : Int} (h₁ : lo ≤ x) (h₂ : x ≤ hi) : sat lo hi x = x := by simp only [sat]; omega

theorem satDrive_inDrive (x : Int) : inDrive (satDrive x) := sat_bounds (by omega) x

theorem satNat_bounds {lo hi : Nat} (h : lo ≤ hi) (x : Nat) : lo ≤ satNat lo hi x ∧ satNat lo hi x ≤ hi := by
  simp only [satNat]; omega

theorem countUp_le (limit x : Nat) : countUp limit x ≤ limit := Nat.min_le_left _ _

/-- An element of a mapped table. -/
@[simp] theorem mapTable_getElem {α β : Type} {n : Nat} (f : α → β) (v : Vector α n) (i : Nat) (h : i < n) :
    (mapTable f v)[i] = f v[i] := by
  simp [mapTable]

theorem mapTable_eq_map {α β : Type} {n : Nat} (f : α → β) (v : Vector α n) : mapTable f v = v.map f := by
  ext i h; simp

/-- The first element that meets the test, if one does: everything `firstIndex` can answer. -/
theorem firstIndex_cases {α : Type} (test : α → Bool) (l : List α) (i : Nat) :
    (firstIndex test l i = none ∧ ∀ x ∈ l, test x = false)
      ∨ ∃ k, firstIndex test l i = some (i + k) ∧ ∃ h : k < l.length, test l[k] = true
          ∧ ∀ j, ∀ hj : j < k, test (l[j]'(by omega)) = false := by
  induction l generalizing i with
  | nil => simp [firstIndex]
  | cons a as ih =>
    simp only [firstIndex]
    by_cases ha : test a = true
    · refine .inr ⟨0, by simp [ha], by simp, by simpa using ha, by simp⟩
    · simp only [Bool.not_eq_true] at ha
      rcases ih (i + 1) with ⟨h, hall⟩ | ⟨k, hk, hlen, ht, hmin⟩
      · left; simp only [ha, h, List.mem_cons, forall_eq_or_imp, true_and]; exact ⟨rfl, hall⟩
      · refine .inr ⟨k + 1, by simp [ha, hk]; omega, by simpa using hlen, by simpa using ht, fun j hj => ?_⟩
        cases j with
        | zero => simpa using ha
        | succ j => simpa using hmin j (by omega)

/-- The clamp of a group field keeps it in its range (R79, R83). -/
theorem clampField_bounds (n : Fin 33) (v : Nat) :
    (fieldRanges[n]).1 ≤ clampField n v ∧ clampField n v ≤ (fieldRanges[n]).2 := by
  have h : (fieldRanges[n]).1 ≤ (fieldRanges[n]).2 := by revert n; decide
  have he : fieldRanges[n.val]? = some fieldRanges[n] := by simp
  simp only [clampField, he]
  omega

end Sys2Proof.Machine
end

