-- ==== Sys2Proof/Laws/State.lean ====
section
/-! SUPPORT. One lemma per field per update of State: a block's update gives that block its new value and leaves every other field. -/

namespace Sys2Proof.Machine

section
variable (s : State) (x : FrontEnd)
@[simp] theorem setFe_fe : (s.setFe x).fe = x := rfl
@[simp] theorem setFe_angle : (s.setFe x).angle = s.angle := rfl
@[simp] theorem setFe_rev : (s.setFe x).rev = s.rev := rfl
@[simp] theorem setFe_focus : (s.setFe x).focus = s.focus := rfl
@[simp] theorem setFe_track : (s.setFe x).track = s.track := rfl
@[simp] theorem setFe_det : (s.setFe x).det = s.det := rfl
@[simp] theorem setFe_defects : (s.setFe x).defects = s.defects := rfl
@[simp] theorem setFe_groups : (s.setFe x).groups = s.groups := rfl
@[simp] theorem setFe_spindle : (s.setFe x).spindle = s.spindle := rfl
@[simp] theorem setFe_sled : (s.setFe x).sled = s.sled := rfl
@[simp] theorem setFe_seek : (s.setFe x).seek = s.seek := rfl
@[simp] theorem setFe_seq : (s.setFe x).seq = s.seq := rfl
@[simp] theorem setFe_loader : (s.setFe x).loader = s.loader := rfl
@[simp] theorem setFe_sup : (s.setFe x).sup = s.sup := rfl
@[simp] theorem setFe_link : (s.setFe x).link = s.link := rfl
@[simp] theorem setFe_held : (s.setFe x).held = s.held := rfl
@[simp] theorem setFe_signals : (s.setFe x).signals = s.signals := rfl
@[simp] theorem setFe_freeCount : (s.setFe x).freeCount = s.freeCount := rfl
@[simp] theorem setFe_pending : (s.setFe x).pending = s.pending := rfl
@[simp] theorem setFe_setFe (y : FrontEnd) : (s.setFe x).setFe y = s.setFe y := rfl
end

section
variable (s : State) (x : Angle)
@[simp] theorem setAngle_fe : (s.setAngle x).fe = s.fe := rfl
@[simp] theorem setAngle_angle : (s.setAngle x).angle = x := rfl
@[simp] theorem setAngle_rev : (s.setAngle x).rev = s.rev := rfl
@[simp] theorem setAngle_focus : (s.setAngle x).focus = s.focus := rfl
@[simp] theorem setAngle_track : (s.setAngle x).track = s.track := rfl
@[simp] theorem setAngle_det : (s.setAngle x).det = s.det := rfl
@[simp] theorem setAngle_defects : (s.setAngle x).defects = s.defects := rfl
@[simp] theorem setAngle_groups : (s.setAngle x).groups = s.groups := rfl
@[simp] theorem setAngle_spindle : (s.setAngle x).spindle = s.spindle := rfl
@[simp] theorem setAngle_sled : (s.setAngle x).sled = s.sled := rfl
@[simp] theorem setAngle_seek : (s.setAngle x).seek = s.seek := rfl
@[simp] theorem setAngle_seq : (s.setAngle x).seq = s.seq := rfl
@[simp] theorem setAngle_loader : (s.setAngle x).loader = s.loader := rfl
@[simp] theorem setAngle_sup : (s.setAngle x).sup = s.sup := rfl
@[simp] theorem setAngle_link : (s.setAngle x).link = s.link := rfl
@[simp] theorem setAngle_held : (s.setAngle x).held = s.held := rfl
@[simp] theorem setAngle_signals : (s.setAngle x).signals = s.signals := rfl
@[simp] theorem setAngle_freeCount : (s.setAngle x).freeCount = s.freeCount := rfl
@[simp] theorem setAngle_pending : (s.setAngle x).pending = s.pending := rfl
@[simp] theorem setAngle_setAngle (y : Angle) : (s.setAngle x).setAngle y = s.setAngle y := rfl
end

section
variable (s : State) (x : Vector RevRecord 64)
@[simp] theorem setRev_fe : (s.setRev x).fe = s.fe := rfl
@[simp] theorem setRev_angle : (s.setRev x).angle = s.angle := rfl
@[simp] theorem setRev_rev : (s.setRev x).rev = x := rfl
@[simp] theorem setRev_focus : (s.setRev x).focus = s.focus := rfl
@[simp] theorem setRev_track : (s.setRev x).track = s.track := rfl
@[simp] theorem setRev_det : (s.setRev x).det = s.det := rfl
@[simp] theorem setRev_defects : (s.setRev x).defects = s.defects := rfl
@[simp] theorem setRev_groups : (s.setRev x).groups = s.groups := rfl
@[simp] theorem setRev_spindle : (s.setRev x).spindle = s.spindle := rfl
@[simp] theorem setRev_sled : (s.setRev x).sled = s.sled := rfl
@[simp] theorem setRev_seek : (s.setRev x).seek = s.seek := rfl
@[simp] theorem setRev_seq : (s.setRev x).seq = s.seq := rfl
@[simp] theorem setRev_loader : (s.setRev x).loader = s.loader := rfl
@[simp] theorem setRev_sup : (s.setRev x).sup = s.sup := rfl
@[simp] theorem setRev_link : (s.setRev x).link = s.link := rfl
@[simp] theorem setRev_held : (s.setRev x).held = s.held := rfl
@[simp] theorem setRev_signals : (s.setRev x).signals = s.signals := rfl
@[simp] theorem setRev_freeCount : (s.setRev x).freeCount = s.freeCount := rfl
@[simp] theorem setRev_pending : (s.setRev x).pending = s.pending := rfl
@[simp] theorem setRev_setRev (y : Vector RevRecord 64) : (s.setRev x).setRev y = s.setRev y := rfl
end

section
variable (s : State) (x : FocusLoop)
@[simp] theorem setFocus_fe : (s.setFocus x).fe = s.fe := rfl
@[simp] theorem setFocus_angle : (s.setFocus x).angle = s.angle := rfl
@[simp] theorem setFocus_rev : (s.setFocus x).rev = s.rev := rfl
@[simp] theorem setFocus_focus : (s.setFocus x).focus = x := rfl
@[simp] theorem setFocus_track : (s.setFocus x).track = s.track := rfl
@[simp] theorem setFocus_det : (s.setFocus x).det = s.det := rfl
@[simp] theorem setFocus_defects : (s.setFocus x).defects = s.defects := rfl
@[simp] theorem setFocus_groups : (s.setFocus x).groups = s.groups := rfl
@[simp] theorem setFocus_spindle : (s.setFocus x).spindle = s.spindle := rfl
@[simp] theorem setFocus_sled : (s.setFocus x).sled = s.sled := rfl
@[simp] theorem setFocus_seek : (s.setFocus x).seek = s.seek := rfl
@[simp] theorem setFocus_seq : (s.setFocus x).seq = s.seq := rfl
@[simp] theorem setFocus_loader : (s.setFocus x).loader = s.loader := rfl
@[simp] theorem setFocus_sup : (s.setFocus x).sup = s.sup := rfl
@[simp] theorem setFocus_link : (s.setFocus x).link = s.link := rfl
@[simp] theorem setFocus_held : (s.setFocus x).held = s.held := rfl
@[simp] theorem setFocus_signals : (s.setFocus x).signals = s.signals := rfl
@[simp] theorem setFocus_freeCount : (s.setFocus x).freeCount = s.freeCount := rfl
@[simp] theorem setFocus_pending : (s.setFocus x).pending = s.pending := rfl
@[simp] theorem setFocus_setFocus (y : FocusLoop) : (s.setFocus x).setFocus y = s.setFocus y := rfl
end

section
variable (s : State) (x : TrackLoop)
@[simp] theorem setTrack_fe : (s.setTrack x).fe = s.fe := rfl
@[simp] theorem setTrack_angle : (s.setTrack x).angle = s.angle := rfl
@[simp] theorem setTrack_rev : (s.setTrack x).rev = s.rev := rfl
@[simp] theorem setTrack_focus : (s.setTrack x).focus = s.focus := rfl
@[simp] theorem setTrack_track : (s.setTrack x).track = x := rfl
@[simp] theorem setTrack_det : (s.setTrack x).det = s.det := rfl
@[simp] theorem setTrack_defects : (s.setTrack x).defects = s.defects := rfl
@[simp] theorem setTrack_groups : (s.setTrack x).groups = s.groups := rfl
@[simp] theorem setTrack_spindle : (s.setTrack x).spindle = s.spindle := rfl
@[simp] theorem setTrack_sled : (s.setTrack x).sled = s.sled := rfl
@[simp] theorem setTrack_seek : (s.setTrack x).seek = s.seek := rfl
@[simp] theorem setTrack_seq : (s.setTrack x).seq = s.seq := rfl
@[simp] theorem setTrack_loader : (s.setTrack x).loader = s.loader := rfl
@[simp] theorem setTrack_sup : (s.setTrack x).sup = s.sup := rfl
@[simp] theorem setTrack_link : (s.setTrack x).link = s.link := rfl
@[simp] theorem setTrack_held : (s.setTrack x).held = s.held := rfl
@[simp] theorem setTrack_signals : (s.setTrack x).signals = s.signals := rfl
@[simp] theorem setTrack_freeCount : (s.setTrack x).freeCount = s.freeCount := rfl
@[simp] theorem setTrack_pending : (s.setTrack x).pending = s.pending := rfl
@[simp] theorem setTrack_setTrack (y : TrackLoop) : (s.setTrack x).setTrack y = s.setTrack y := rfl
end

section
variable (s : State) (x : Detector)
@[simp] theorem setDet_fe : (s.setDet x).fe = s.fe := rfl
@[simp] theorem setDet_angle : (s.setDet x).angle = s.angle := rfl
@[simp] theorem setDet_rev : (s.setDet x).rev = s.rev := rfl
@[simp] theorem setDet_focus : (s.setDet x).focus = s.focus := rfl
@[simp] theorem setDet_track : (s.setDet x).track = s.track := rfl
@[simp] theorem setDet_det : (s.setDet x).det = x := rfl
@[simp] theorem setDet_defects : (s.setDet x).defects = s.defects := rfl
@[simp] theorem setDet_groups : (s.setDet x).groups = s.groups := rfl
@[simp] theorem setDet_spindle : (s.setDet x).spindle = s.spindle := rfl
@[simp] theorem setDet_sled : (s.setDet x).sled = s.sled := rfl
@[simp] theorem setDet_seek : (s.setDet x).seek = s.seek := rfl
@[simp] theorem setDet_seq : (s.setDet x).seq = s.seq := rfl
@[simp] theorem setDet_loader : (s.setDet x).loader = s.loader := rfl
@[simp] theorem setDet_sup : (s.setDet x).sup = s.sup := rfl
@[simp] theorem setDet_link : (s.setDet x).link = s.link := rfl
@[simp] theorem setDet_held : (s.setDet x).held = s.held := rfl
@[simp] theorem setDet_signals : (s.setDet x).signals = s.signals := rfl
@[simp] theorem setDet_freeCount : (s.setDet x).freeCount = s.freeCount := rfl
@[simp] theorem setDet_pending : (s.setDet x).pending = s.pending := rfl
@[simp] theorem setDet_setDet (y : Detector) : (s.setDet x).setDet y = s.setDet y := rfl
end

section
variable (s : State) (x : DefectTable)
@[simp] theorem setDefects_fe : (s.setDefects x).fe = s.fe := rfl
@[simp] theorem setDefects_angle : (s.setDefects x).angle = s.angle := rfl
@[simp] theorem setDefects_rev : (s.setDefects x).rev = s.rev := rfl
@[simp] theorem setDefects_focus : (s.setDefects x).focus = s.focus := rfl
@[simp] theorem setDefects_track : (s.setDefects x).track = s.track := rfl
@[simp] theorem setDefects_det : (s.setDefects x).det = s.det := rfl
@[simp] theorem setDefects_defects : (s.setDefects x).defects = x := rfl
@[simp] theorem setDefects_groups : (s.setDefects x).groups = s.groups := rfl
@[simp] theorem setDefects_spindle : (s.setDefects x).spindle = s.spindle := rfl
@[simp] theorem setDefects_sled : (s.setDefects x).sled = s.sled := rfl
@[simp] theorem setDefects_seek : (s.setDefects x).seek = s.seek := rfl
@[simp] theorem setDefects_seq : (s.setDefects x).seq = s.seq := rfl
@[simp] theorem setDefects_loader : (s.setDefects x).loader = s.loader := rfl
@[simp] theorem setDefects_sup : (s.setDefects x).sup = s.sup := rfl
@[simp] theorem setDefects_link : (s.setDefects x).link = s.link := rfl
@[simp] theorem setDefects_held : (s.setDefects x).held = s.held := rfl
@[simp] theorem setDefects_signals : (s.setDefects x).signals = s.signals := rfl
@[simp] theorem setDefects_freeCount : (s.setDefects x).freeCount = s.freeCount := rfl
@[simp] theorem setDefects_pending : (s.setDefects x).pending = s.pending := rfl
@[simp] theorem setDefects_setDefects (y : DefectTable) : (s.setDefects x).setDefects y = s.setDefects y := rfl
end

section
variable (s : State) (x : Groups)
@[simp] theorem setGroups_fe : (s.setGroups x).fe = s.fe := rfl
@[simp] theorem setGroups_angle : (s.setGroups x).angle = s.angle := rfl
@[simp] theorem setGroups_rev : (s.setGroups x).rev = s.rev := rfl
@[simp] theorem setGroups_focus : (s.setGroups x).focus = s.focus := rfl
@[simp] theorem setGroups_track : (s.setGroups x).track = s.track := rfl
@[simp] theorem setGroups_det : (s.setGroups x).det = s.det := rfl
@[simp] theorem setGroups_defects : (s.setGroups x).defects = s.defects := rfl
@[simp] theorem setGroups_groups : (s.setGroups x).groups = x := rfl
@[simp] theorem setGroups_spindle : (s.setGroups x).spindle = s.spindle := rfl
@[simp] theorem setGroups_sled : (s.setGroups x).sled = s.sled := rfl
@[simp] theorem setGroups_seek : (s.setGroups x).seek = s.seek := rfl
@[simp] theorem setGroups_seq : (s.setGroups x).seq = s.seq := rfl
@[simp] theorem setGroups_loader : (s.setGroups x).loader = s.loader := rfl
@[simp] theorem setGroups_sup : (s.setGroups x).sup = s.sup := rfl
@[simp] theorem setGroups_link : (s.setGroups x).link = s.link := rfl
@[simp] theorem setGroups_held : (s.setGroups x).held = s.held := rfl
@[simp] theorem setGroups_signals : (s.setGroups x).signals = s.signals := rfl
@[simp] theorem setGroups_freeCount : (s.setGroups x).freeCount = s.freeCount := rfl
@[simp] theorem setGroups_pending : (s.setGroups x).pending = s.pending := rfl
@[simp] theorem setGroups_setGroups (y : Groups) : (s.setGroups x).setGroups y = s.setGroups y := rfl
end

section
variable (s : State) (x : Spindle)
@[simp] theorem setSpindle_fe : (s.setSpindle x).fe = s.fe := rfl
@[simp] theorem setSpindle_angle : (s.setSpindle x).angle = s.angle := rfl
@[simp] theorem setSpindle_rev : (s.setSpindle x).rev = s.rev := rfl
@[simp] theorem setSpindle_focus : (s.setSpindle x).focus = s.focus := rfl
@[simp] theorem setSpindle_track : (s.setSpindle x).track = s.track := rfl
@[simp] theorem setSpindle_det : (s.setSpindle x).det = s.det := rfl
@[simp] theorem setSpindle_defects : (s.setSpindle x).defects = s.defects := rfl
@[simp] theorem setSpindle_groups : (s.setSpindle x).groups = s.groups := rfl
@[simp] theorem setSpindle_spindle : (s.setSpindle x).spindle = x := rfl
@[simp] theorem setSpindle_sled : (s.setSpindle x).sled = s.sled := rfl
@[simp] theorem setSpindle_seek : (s.setSpindle x).seek = s.seek := rfl
@[simp] theorem setSpindle_seq : (s.setSpindle x).seq = s.seq := rfl
@[simp] theorem setSpindle_loader : (s.setSpindle x).loader = s.loader := rfl
@[simp] theorem setSpindle_sup : (s.setSpindle x).sup = s.sup := rfl
@[simp] theorem setSpindle_link : (s.setSpindle x).link = s.link := rfl
@[simp] theorem setSpindle_held : (s.setSpindle x).held = s.held := rfl
@[simp] theorem setSpindle_signals : (s.setSpindle x).signals = s.signals := rfl
@[simp] theorem setSpindle_freeCount : (s.setSpindle x).freeCount = s.freeCount := rfl
@[simp] theorem setSpindle_pending : (s.setSpindle x).pending = s.pending := rfl
@[simp] theorem setSpindle_setSpindle (y : Spindle) : (s.setSpindle x).setSpindle y = s.setSpindle y := rfl
end

section
variable (s : State) (x : Sled)
@[simp] theorem setSled_fe : (s.setSled x).fe = s.fe := rfl
@[simp] theorem setSled_angle : (s.setSled x).angle = s.angle := rfl
@[simp] theorem setSled_rev : (s.setSled x).rev = s.rev := rfl
@[simp] theorem setSled_focus : (s.setSled x).focus = s.focus := rfl
@[simp] theorem setSled_track : (s.setSled x).track = s.track := rfl
@[simp] theorem setSled_det : (s.setSled x).det = s.det := rfl
@[simp] theorem setSled_defects : (s.setSled x).defects = s.defects := rfl
@[simp] theorem setSled_groups : (s.setSled x).groups = s.groups := rfl
@[simp] theorem setSled_spindle : (s.setSled x).spindle = s.spindle := rfl
@[simp] theorem setSled_sled : (s.setSled x).sled = x := rfl
@[simp] theorem setSled_seek : (s.setSled x).seek = s.seek := rfl
@[simp] theorem setSled_seq : (s.setSled x).seq = s.seq := rfl
@[simp] theorem setSled_loader : (s.setSled x).loader = s.loader := rfl
@[simp] theorem setSled_sup : (s.setSled x).sup = s.sup := rfl
@[simp] theorem setSled_link : (s.setSled x).link = s.link := rfl
@[simp] theorem setSled_held : (s.setSled x).held = s.held := rfl
@[simp] theorem setSled_signals : (s.setSled x).signals = s.signals := rfl
@[simp] theorem setSled_freeCount : (s.setSled x).freeCount = s.freeCount := rfl
@[simp] theorem setSled_pending : (s.setSled x).pending = s.pending := rfl
@[simp] theorem setSled_setSled (y : Sled) : (s.setSled x).setSled y = s.setSled y := rfl
end

section
variable (s : State) (x : Seek)
@[simp] theorem setSeek_fe : (s.setSeek x).fe = s.fe := rfl
@[simp] theorem setSeek_angle : (s.setSeek x).angle = s.angle := rfl
@[simp] theorem setSeek_rev : (s.setSeek x).rev = s.rev := rfl
@[simp] theorem setSeek_focus : (s.setSeek x).focus = s.focus := rfl
@[simp] theorem setSeek_track : (s.setSeek x).track = s.track := rfl
@[simp] theorem setSeek_det : (s.setSeek x).det = s.det := rfl
@[simp] theorem setSeek_defects : (s.setSeek x).defects = s.defects := rfl
@[simp] theorem setSeek_groups : (s.setSeek x).groups = s.groups := rfl
@[simp] theorem setSeek_spindle : (s.setSeek x).spindle = s.spindle := rfl
@[simp] theorem setSeek_sled : (s.setSeek x).sled = s.sled := rfl
@[simp] theorem setSeek_seek : (s.setSeek x).seek = x := rfl
@[simp] theorem setSeek_seq : (s.setSeek x).seq = s.seq := rfl
@[simp] theorem setSeek_loader : (s.setSeek x).loader = s.loader := rfl
@[simp] theorem setSeek_sup : (s.setSeek x).sup = s.sup := rfl
@[simp] theorem setSeek_link : (s.setSeek x).link = s.link := rfl
@[simp] theorem setSeek_held : (s.setSeek x).held = s.held := rfl
@[simp] theorem setSeek_signals : (s.setSeek x).signals = s.signals := rfl
@[simp] theorem setSeek_freeCount : (s.setSeek x).freeCount = s.freeCount := rfl
@[simp] theorem setSeek_pending : (s.setSeek x).pending = s.pending := rfl
@[simp] theorem setSeek_setSeek (y : Seek) : (s.setSeek x).setSeek y = s.setSeek y := rfl
end

section
variable (s : State) (x : Sequencer)
@[simp] theorem setSeq_fe : (s.setSeq x).fe = s.fe := rfl
@[simp] theorem setSeq_angle : (s.setSeq x).angle = s.angle := rfl
@[simp] theorem setSeq_rev : (s.setSeq x).rev = s.rev := rfl
@[simp] theorem setSeq_focus : (s.setSeq x).focus = s.focus := rfl
@[simp] theorem setSeq_track : (s.setSeq x).track = s.track := rfl
@[simp] theorem setSeq_det : (s.setSeq x).det = s.det := rfl
@[simp] theorem setSeq_defects : (s.setSeq x).defects = s.defects := rfl
@[simp] theorem setSeq_groups : (s.setSeq x).groups = s.groups := rfl
@[simp] theorem setSeq_spindle : (s.setSeq x).spindle = s.spindle := rfl
@[simp] theorem setSeq_sled : (s.setSeq x).sled = s.sled := rfl
@[simp] theorem setSeq_seek : (s.setSeq x).seek = s.seek := rfl
@[simp] theorem setSeq_seq : (s.setSeq x).seq = x := rfl
@[simp] theorem setSeq_loader : (s.setSeq x).loader = s.loader := rfl
@[simp] theorem setSeq_sup : (s.setSeq x).sup = s.sup := rfl
@[simp] theorem setSeq_link : (s.setSeq x).link = s.link := rfl
@[simp] theorem setSeq_held : (s.setSeq x).held = s.held := rfl
@[simp] theorem setSeq_signals : (s.setSeq x).signals = s.signals := rfl
@[simp] theorem setSeq_freeCount : (s.setSeq x).freeCount = s.freeCount := rfl
@[simp] theorem setSeq_pending : (s.setSeq x).pending = s.pending := rfl
@[simp] theorem setSeq_setSeq (y : Sequencer) : (s.setSeq x).setSeq y = s.setSeq y := rfl
end

section
variable (s : State) (x : Loader)
@[simp] theorem setLoader_fe : (s.setLoader x).fe = s.fe := rfl
@[simp] theorem setLoader_angle : (s.setLoader x).angle = s.angle := rfl
@[simp] theorem setLoader_rev : (s.setLoader x).rev = s.rev := rfl
@[simp] theorem setLoader_focus : (s.setLoader x).focus = s.focus := rfl
@[simp] theorem setLoader_track : (s.setLoader x).track = s.track := rfl
@[simp] theorem setLoader_det : (s.setLoader x).det = s.det := rfl
@[simp] theorem setLoader_defects : (s.setLoader x).defects = s.defects := rfl
@[simp] theorem setLoader_groups : (s.setLoader x).groups = s.groups := rfl
@[simp] theorem setLoader_spindle : (s.setLoader x).spindle = s.spindle := rfl
@[simp] theorem setLoader_sled : (s.setLoader x).sled = s.sled := rfl
@[simp] theorem setLoader_seek : (s.setLoader x).seek = s.seek := rfl
@[simp] theorem setLoader_seq : (s.setLoader x).seq = s.seq := rfl
@[simp] theorem setLoader_loader : (s.setLoader x).loader = x := rfl
@[simp] theorem setLoader_sup : (s.setLoader x).sup = s.sup := rfl
@[simp] theorem setLoader_link : (s.setLoader x).link = s.link := rfl
@[simp] theorem setLoader_held : (s.setLoader x).held = s.held := rfl
@[simp] theorem setLoader_signals : (s.setLoader x).signals = s.signals := rfl
@[simp] theorem setLoader_freeCount : (s.setLoader x).freeCount = s.freeCount := rfl
@[simp] theorem setLoader_pending : (s.setLoader x).pending = s.pending := rfl
@[simp] theorem setLoader_setLoader (y : Loader) : (s.setLoader x).setLoader y = s.setLoader y := rfl
end

section
variable (s : State) (x : Supervisor)
@[simp] theorem setSup_fe : (s.setSup x).fe = s.fe := rfl
@[simp] theorem setSup_angle : (s.setSup x).angle = s.angle := rfl
@[simp] theorem setSup_rev : (s.setSup x).rev = s.rev := rfl
@[simp] theorem setSup_focus : (s.setSup x).focus = s.focus := rfl
@[simp] theorem setSup_track : (s.setSup x).track = s.track := rfl
@[simp] theorem setSup_det : (s.setSup x).det = s.det := rfl
@[simp] theorem setSup_defects : (s.setSup x).defects = s.defects := rfl
@[simp] theorem setSup_groups : (s.setSup x).groups = s.groups := rfl
@[simp] theorem setSup_spindle : (s.setSup x).spindle = s.spindle := rfl
@[simp] theorem setSup_sled : (s.setSup x).sled = s.sled := rfl
@[simp] theorem setSup_seek : (s.setSup x).seek = s.seek := rfl
@[simp] theorem setSup_seq : (s.setSup x).seq = s.seq := rfl
@[simp] theorem setSup_loader : (s.setSup x).loader = s.loader := rfl
@[simp] theorem setSup_sup : (s.setSup x).sup = x := rfl
@[simp] theorem setSup_link : (s.setSup x).link = s.link := rfl
@[simp] theorem setSup_held : (s.setSup x).held = s.held := rfl
@[simp] theorem setSup_signals : (s.setSup x).signals = s.signals := rfl
@[simp] theorem setSup_freeCount : (s.setSup x).freeCount = s.freeCount := rfl
@[simp] theorem setSup_pending : (s.setSup x).pending = s.pending := rfl
@[simp] theorem setSup_setSup (y : Supervisor) : (s.setSup x).setSup y = s.setSup y := rfl
end

section
variable (s : State) (x : Link)
@[simp] theorem setLink_fe : (s.setLink x).fe = s.fe := rfl
@[simp] theorem setLink_angle : (s.setLink x).angle = s.angle := rfl
@[simp] theorem setLink_rev : (s.setLink x).rev = s.rev := rfl
@[simp] theorem setLink_focus : (s.setLink x).focus = s.focus := rfl
@[simp] theorem setLink_track : (s.setLink x).track = s.track := rfl
@[simp] theorem setLink_det : (s.setLink x).det = s.det := rfl
@[simp] theorem setLink_defects : (s.setLink x).defects = s.defects := rfl
@[simp] theorem setLink_groups : (s.setLink x).groups = s.groups := rfl
@[simp] theorem setLink_spindle : (s.setLink x).spindle = s.spindle := rfl
@[simp] theorem setLink_sled : (s.setLink x).sled = s.sled := rfl
@[simp] theorem setLink_seek : (s.setLink x).seek = s.seek := rfl
@[simp] theorem setLink_seq : (s.setLink x).seq = s.seq := rfl
@[simp] theorem setLink_loader : (s.setLink x).loader = s.loader := rfl
@[simp] theorem setLink_sup : (s.setLink x).sup = s.sup := rfl
@[simp] theorem setLink_link : (s.setLink x).link = x := rfl
@[simp] theorem setLink_held : (s.setLink x).held = s.held := rfl
@[simp] theorem setLink_signals : (s.setLink x).signals = s.signals := rfl
@[simp] theorem setLink_freeCount : (s.setLink x).freeCount = s.freeCount := rfl
@[simp] theorem setLink_pending : (s.setLink x).pending = s.pending := rfl
@[simp] theorem setLink_setLink (y : Link) : (s.setLink x).setLink y = s.setLink y := rfl
end

section
variable (s : State) (x : List Signal)
@[simp] theorem setSignals_fe : (s.setSignals x).fe = s.fe := rfl
@[simp] theorem setSignals_angle : (s.setSignals x).angle = s.angle := rfl
@[simp] theorem setSignals_rev : (s.setSignals x).rev = s.rev := rfl
@[simp] theorem setSignals_focus : (s.setSignals x).focus = s.focus := rfl
@[simp] theorem setSignals_track : (s.setSignals x).track = s.track := rfl
@[simp] theorem setSignals_det : (s.setSignals x).det = s.det := rfl
@[simp] theorem setSignals_defects : (s.setSignals x).defects = s.defects := rfl
@[simp] theorem setSignals_groups : (s.setSignals x).groups = s.groups := rfl
@[simp] theorem setSignals_spindle : (s.setSignals x).spindle = s.spindle := rfl
@[simp] theorem setSignals_sled : (s.setSignals x).sled = s.sled := rfl
@[simp] theorem setSignals_seek : (s.setSignals x).seek = s.seek := rfl
@[simp] theorem setSignals_seq : (s.setSignals x).seq = s.seq := rfl
@[simp] theorem setSignals_loader : (s.setSignals x).loader = s.loader := rfl
@[simp] theorem setSignals_sup : (s.setSignals x).sup = s.sup := rfl
@[simp] theorem setSignals_link : (s.setSignals x).link = s.link := rfl
@[simp] theorem setSignals_held : (s.setSignals x).held = s.held := rfl
@[simp] theorem setSignals_signals : (s.setSignals x).signals = x := rfl
@[simp] theorem setSignals_freeCount : (s.setSignals x).freeCount = s.freeCount := rfl
@[simp] theorem setSignals_pending : (s.setSignals x).pending = s.pending := rfl
@[simp] theorem setSignals_setSignals (y : List Signal) : (s.setSignals x).setSignals y = s.setSignals y := rfl
end

section
variable (s : State) (x : Nat)
@[simp] theorem setFreeCount_fe : (s.setFreeCount x).fe = s.fe := rfl
@[simp] theorem setFreeCount_angle : (s.setFreeCount x).angle = s.angle := rfl
@[simp] theorem setFreeCount_rev : (s.setFreeCount x).rev = s.rev := rfl
@[simp] theorem setFreeCount_focus : (s.setFreeCount x).focus = s.focus := rfl
@[simp] theorem setFreeCount_track : (s.setFreeCount x).track = s.track := rfl
@[simp] theorem setFreeCount_det : (s.setFreeCount x).det = s.det := rfl
@[simp] theorem setFreeCount_defects : (s.setFreeCount x).defects = s.defects := rfl
@[simp] theorem setFreeCount_groups : (s.setFreeCount x).groups = s.groups := rfl
@[simp] theorem setFreeCount_spindle : (s.setFreeCount x).spindle = s.spindle := rfl
@[simp] theorem setFreeCount_sled : (s.setFreeCount x).sled = s.sled := rfl
@[simp] theorem setFreeCount_seek : (s.setFreeCount x).seek = s.seek := rfl
@[simp] theorem setFreeCount_seq : (s.setFreeCount x).seq = s.seq := rfl
@[simp] theorem setFreeCount_loader : (s.setFreeCount x).loader = s.loader := rfl
@[simp] theorem setFreeCount_sup : (s.setFreeCount x).sup = s.sup := rfl
@[simp] theorem setFreeCount_link : (s.setFreeCount x).link = s.link := rfl
@[simp] theorem setFreeCount_held : (s.setFreeCount x).held = s.held := rfl
@[simp] theorem setFreeCount_signals : (s.setFreeCount x).signals = s.signals := rfl
@[simp] theorem setFreeCount_freeCount : (s.setFreeCount x).freeCount = x := rfl
@[simp] theorem setFreeCount_pending : (s.setFreeCount x).pending = s.pending := rfl
@[simp] theorem setFreeCount_setFreeCount (y : Nat) : (s.setFreeCount x).setFreeCount y = s.setFreeCount y := rfl
end

section
variable (s : State) (x : Bool)
@[simp] theorem setHeld_fe : (s.setHeld x).fe = s.fe := rfl
@[simp] theorem setHeld_angle : (s.setHeld x).angle = s.angle := rfl
@[simp] theorem setHeld_rev : (s.setHeld x).rev = s.rev := rfl
@[simp] theorem setHeld_focus : (s.setHeld x).focus = s.focus := rfl
@[simp] theorem setHeld_track : (s.setHeld x).track = s.track := rfl
@[simp] theorem setHeld_det : (s.setHeld x).det = s.det := rfl
@[simp] theorem setHeld_defects : (s.setHeld x).defects = s.defects := rfl
@[simp] theorem setHeld_groups : (s.setHeld x).groups = s.groups := rfl
@[simp] theorem setHeld_spindle : (s.setHeld x).spindle = s.spindle := rfl
@[simp] theorem setHeld_sled : (s.setHeld x).sled = s.sled := rfl
@[simp] theorem setHeld_seek : (s.setHeld x).seek = s.seek := rfl
@[simp] theorem setHeld_seq : (s.setHeld x).seq = s.seq := rfl
@[simp] theorem setHeld_loader : (s.setHeld x).loader = s.loader := rfl
@[simp] theorem setHeld_sup : (s.setHeld x).sup = s.sup := rfl
@[simp] theorem setHeld_link : (s.setHeld x).link = s.link := rfl
@[simp] theorem setHeld_held : (s.setHeld x).held = x := rfl
@[simp] theorem setHeld_signals : (s.setHeld x).signals = s.signals := rfl
@[simp] theorem setHeld_freeCount : (s.setHeld x).freeCount = s.freeCount := rfl
@[simp] theorem setHeld_pending : (s.setHeld x).pending = s.pending := rfl
@[simp] theorem setHeld_setHeld (y : Bool) : (s.setHeld x).setHeld y = s.setHeld y := rfl
end

section
variable (s : State) (x : List Instr)
@[simp] theorem setPending_fe : (s.setPending x).fe = s.fe := rfl
@[simp] theorem setPending_angle : (s.setPending x).angle = s.angle := rfl
@[simp] theorem setPending_rev : (s.setPending x).rev = s.rev := rfl
@[simp] theorem setPending_focus : (s.setPending x).focus = s.focus := rfl
@[simp] theorem setPending_track : (s.setPending x).track = s.track := rfl
@[simp] theorem setPending_det : (s.setPending x).det = s.det := rfl
@[simp] theorem setPending_defects : (s.setPending x).defects = s.defects := rfl
@[simp] theorem setPending_groups : (s.setPending x).groups = s.groups := rfl
@[simp] theorem setPending_spindle : (s.setPending x).spindle = s.spindle := rfl
@[simp] theorem setPending_sled : (s.setPending x).sled = s.sled := rfl
@[simp] theorem setPending_seek : (s.setPending x).seek = s.seek := rfl
@[simp] theorem setPending_seq : (s.setPending x).seq = s.seq := rfl
@[simp] theorem setPending_loader : (s.setPending x).loader = s.loader := rfl
@[simp] theorem setPending_sup : (s.setPending x).sup = s.sup := rfl
@[simp] theorem setPending_link : (s.setPending x).link = s.link := rfl
@[simp] theorem setPending_held : (s.setPending x).held = s.held := rfl
@[simp] theorem setPending_signals : (s.setPending x).signals = s.signals := rfl
@[simp] theorem setPending_freeCount : (s.setPending x).freeCount = s.freeCount := rfl
@[simp] theorem setPending_pending : (s.setPending x).pending = x := rfl
@[simp] theorem setPending_setPending (y : List Instr) : (s.setPending x).setPending y = s.setPending y := rfl
end

end Sys2Proof.Machine
end

