-- ==== Sys2Proof/Laws/Settle.lean ====
section
/-! SUPPORT. What the end of a step does: it leaves nothing handed on, and on a settled machine it changes nothing. -/

namespace Sys2Proof.Machine

theorem drain_of_quiet (n : Nat) {s : State} (h : s.signals = []) : drain n s = s := by
  cases n with
  | zero => cases s; simp_all [drain, State.setSignals]
  | succ n => simp [drain, h]

theorem drain_signals (n : Nat) (s : State) : (drain n s).signals = [] := by
  induction n generalizing s with
  | zero => simp [drain]
  | succ n ih =>
    simp only [drain]
    split
    · assumption
    · exact ih _

/-- One signal taken. -/
theorem drain_cons (n : Nat) {s : State} {x : Signal} {rest : List Signal} (h : s.signals = x :: rest) :
    drain (n + 1) s = drain n (handle x (s.setSignals rest)) := by
  simp [drain, h]

theorem settle_of_quiet {s : State} (h : s.signals = []) : settle s = loaderTest s := by
  simp [settle, drain_of_quiet 64 h]

theorem ejectRelease_of_not_due {s : State}
    (h : ¬(s.loader.state = .clamped ∧ s.loader.ejectPending = true ∧ s.motorPermit = true)) : ejectRelease s = s := by
  simp only [ejectRelease, Bool.and_eq_true, decide_eq_true_eq, and_assoc, if_neg h]

/-- A machine at rest is left as it stands. -/
theorem loaderTest_of_atRest {s : State} (h : s.atRest) : loaderTest s = s := by
  obtain ⟨_, hd, hr⟩ := h
  simp only [loaderTest, ejectRelease_of_not_due hr, ← hd, State.setLoader]

theorem settle_of_atRest {s : State} (h : s.atRest) : settle s = s := by
  rw [settle_of_quiet h.1, loaderTest_of_atRest h]

/-- A part held in reset takes no command (R187). -/
theorem done_of_held (f : State → State) {s : State} (h : s.held = true) : done f s = .next s := by simp [done, h]

/-- In a part that is not held, the outcome is what the command does and what follows from it. -/
theorem done_of_running (f : State → State) {s : State} (h : s.held = false) : done f s = .next (settle (f s)) := by
  simp [done, h]

theorem done_of_atRest (f : State → State) {s : State} (h : s.held = false) (hf : (f s).atRest) : done f s = .next (f s) := by
  rw [done_of_running f h, settle_of_atRest hf]

/-- A step on an empty queue of a running part takes the parts of a millisecond one by one, each with what follows from it. -/
theorem step_of_empty {s : State} (hq : s.pending = []) (h : s.held = false) :
    step s = .next (tickParts.foldl (fun s part => settle (part s)) s) := by
  simp [step, hq, tick, h]

/-- In a part held in reset no time passes (R187). -/
theorem step_of_empty_held {s : State} (hq : s.pending = []) (h : s.held = true) : step s = .next s := by
  simp [step, hq, tick, h]

end Sys2Proof.Machine
end

