-- ==== Sys2Proof/Laws/Link.lean ====
section
/-! SUPPORT. What a request's record does on a link ready for a write: it is taken whole, with a right check, at its last byte (R190,
R191, R193, R205). -/

namespace Sys2Proof.Machine

/-! ## The check byte -/

theorem foldl_add (bytes : List Byte) (x : Byte) : bytes.foldl (· + ·) x = x + bytes.foldl (· + ·) 0 := by
  induction bytes generalizing x with
  | nil => simp
  | cons b bs ih => simp only [List.foldl_cons]; rw [ih (x + b), ih (0 + b)]; simp [BitVec.add_assoc]

theorem byteSum_checked (body : List Byte) : byteSum (body ++ [checkByte body]) = 0 := by
  simp only [byteSum, List.foldl_append, List.foldl_cons, List.foldl_nil, checkByte]
  generalize List.foldl (· + ·) 0 body = x
  simp

theorem byteSum_requestRecord (kind : Nat) (payload : List Byte) : byteSum (requestRecord kind payload) = 0 :=
  byteSum_checked _

theorem byte_toNat {n : Nat} (h : n < 256) : (byte n).toNat = n := by simp [byte, Nat.mod_eq_of_lt h]

theorem requestRecord_eq (kind : Nat) (payload : List Byte) :
    requestRecord kind payload =
      byte kind :: byte payload.length :: (payload ++ [checkByte (byte kind :: byte payload.length :: payload)]) := by
  simp [requestRecord]

/-! ## The bytes of a record -/

theorem bufferOversize_two {k l : Byte} {x : List Byte} (hl : l.toNat ≤ 24) : bufferOversize (k :: l :: x) = false := by
  simp [bufferOversize, hl]

theorem bufferComplete_two {k l : Byte} {x : List Byte} (hl : l.toNat ≤ 24) :
    bufferComplete (k :: l :: x) = decide (x.length = l.toNat + 1) := by
  simp [bufferComplete, hl]; omega

/-- The bytes that fill a record up are stored and acknowledged, and the record is taken at the last of them (R191). -/
theorem takeBytes_fill {k l : Byte} (hl : l.toNat ≤ 24) (rest : List Byte) (x : List Byte) (s : State)
    (hrx : s.link.rx = .write) (hb : s.link.buffer = k :: l :: x) (hlen : x.length + rest.length = l.toNat + 1)
    (hr : rest ≠ []) :
    takeBytes rest s
      = takeRecord (k :: l :: (x ++ rest)) (s.setLink { s.link with
          buffer := k :: l :: (x ++ rest), acks := s.link.acks ++ List.replicate rest.length true }) := by
  induction rest generalizing x s with
  | nil => exact absurd rfl hr
  | cons b bs ih =>
    have hx : ¬ x.length = l.toNat + 1 := by simp at hlen; omega
    simp only [takeBytes, takeByte, hrx, hb, bufferComplete_two hl, bufferOversize_two hl, hx]
    cases bs with
    | nil =>
      have : x.length + 1 = l.toNat + 1 := by simpa using hlen
      simp [bufferComplete_two hl, bufferOversize_two hl, this, takeBytes]
    | cons c cs =>
      have : ¬ (x ++ [b]).length = l.toNat + 1 := by simp at hlen ⊢; omega
      simp only [List.cons_append, bufferComplete_two hl, bufferOversize_two hl, this]
      simp only [decide_false, Bool.or_self, Bool.not_false, ↓reduceIte, Bool.false_eq_true]
      rw [ih (x ++ [b]) _ (by simp) (by simp) (by simp at hlen ⊢; omega) (by simp)]
      simp [List.replicate_succ]

/-- A complete record written to the own address on a ready link is acknowledged whole and taken at its last byte, the transfer still
open (R190, R191). -/
theorem writeRecord_ready {s : State} (h : s.linkReady) {k l : Byte} {rest : List Byte} (hl : l.toNat ≤ 24)
    (hlen : rest.length = l.toNat + 1) :
    writeRecord (k :: l :: rest) s
      = takeRecord (k :: l :: rest) (s.setLink { s.link with
          rx := .write, buffer := k :: l :: rest, acks := List.replicate (rest.length + 3) true }) := by
  obtain ⟨hrx, hr⟩ := h
  have hstart : startWrite s.targetAddress s = s.setLink { s.link with rx := .write, buffer := [], acks := [true] } := by
    simp [startWrite, Link.startWrite, Link.endTransfer, hrx, hr]
  have hne : rest ≠ [] := by intro h0; simp [h0] at hlen
  have h0 : bufferComplete [] = false ∧ bufferOversize [] = false := ⟨rfl, rfl⟩
  have h1 : bufferComplete [k] = false ∧ bufferOversize [k] = false := ⟨rfl, rfl⟩
  have h2 : bufferComplete [k, l] = false := by simp [bufferComplete_two hl]
  have h3 : bufferOversize [k, l] = false := bufferOversize_two hl
  rw [writeRecord, hstart]
  simp only [takeBytes, takeByte, setLink_link, setLink_setLink, h0, h1, h2, h3, List.nil_append, List.cons_append,
    Bool.or_self, Bool.not_false, Bool.false_eq_true, ↓reduceIte]
  rw [takeBytes_fill hl rest [] _ rfl rfl (by simpa using hlen) hne]
  simp [List.replicate_succ]

/-- A request whose length is allowed for its kind is handed to the block that owns the kind (R193). -/
theorem request_ready {s : State} (h : s.linkReady) {kind : Nat} {payload : List Byte} (hk : 1 ≤ kind ∧ kind ≤ 0x1C)
    (hlen : payload.length ≤ 24) (hal : lengthAllowed kind payload = true) :
    request kind payload s
      = handOver kind payload (s.setLink { s.link with
          rx := .write, buffer := requestRecord kind payload, acks := List.replicate (payload.length + 4) true }) := by
  have hkb : (byte kind).toNat = kind := byte_toNat (by omega)
  have hlb : (byte payload.length).toNat = payload.length := byte_toNat (by omega)
  rw [request, requestRecord_eq, writeRecord_ready h (by omega) (by simp [hlb]), ← requestRecord_eq]
  have hb0 : byteAt (requestRecord kind payload) 0 = kind := by simp [byteAt, requestRecord_eq, hkb]
  have hb1 : ((requestRecord kind payload).drop 2).take (byteAt (requestRecord kind payload) 1) = payload := by
    simp [byteAt, requestRecord_eq, hlb]
  simp only [takeRecord, hb0, hb1, byteSum_requestRecord, hal]
  simp; omega

/-- The reply of a taken request stands in the reply slot (R193, R199). -/
theorem reply_answered (s : State) (kind : Nat) (payload : List Byte) (st : Status) (out : List Byte) (hk : kind < 128) :
    reply kind st out (s.setLink { s.link with
        rx := .write, buffer := requestRecord kind payload, acks := List.replicate (payload.length + 4) true })
      = s.setLink (s.link.answered kind payload st.code out) := by
  have hkb : (byte kind).toNat = kind := byte_toNat (by omega)
  have : replyKind (byte kind) = BitVec.ofNat 8 (kind + 128) := by
    simp only [replyKind, hkb, hk, if_true]
    rw [BitVec.ofNat_add]; rfl
  simp only [reply, Link.place, Link.startPulse, Link.answered, this, setLink_link, setLink_setLink]
  rfl

/-- A write to the own address while the reply slot is occupied is not acknowledged: the transfer under way is closed and nothing is
taken (R190). -/
theorem writeRecord_occupied {s : State} (h : s.link.reply ≠ none) (bytes : List Byte) :
    writeRecord bytes s = s.setLink { s.link.endTransfer with acks := [false] } := by
  have hr : ∀ l : Link, l.reply ≠ none → l.endTransfer.reply ≠ none := by
    intro l hl
    unfold Link.endTransfer
    split
    · exact hl
    · exact hl
    · simp only
      split
      · simp [Link.place, Link.startPulse]
      · exact hl
  have hw : s.link.endTransfer.rx ≠ .write := by
    unfold Link.endTransfer
    split
    · simp_all
    · simp
    · simp only
      split <;> simp [Link.place, Link.startPulse]
  have hs : s.link.endTransfer.reply.isNone = false := by
    cases hx : s.link.endTransfer.reply with
    | none => exact absurd hx (hr _ h)
    | some _ => rfl
  have key : ∀ (bs : List Byte), takeBytes bs (s.setLink { s.link.endTransfer with acks := [false] })
      = s.setLink { s.link.endTransfer with acks := [false] } := by
    intro bs
    induction bs with
    | nil => rfl
    | cons b bs ih => simp [takeBytes, takeByte, hw, ih]
  rw [writeRecord, startWrite]
  simp only [Link.startWrite, hs, Bool.and_false, Bool.false_eq_true, if_false]
  exact key bytes

end Sys2Proof.Machine
end

