-- ==== Sys2Proof/Laws/Ops.lean ====
section
/-! SUPPORT. The shared operations: what each can do, said once. Posting and replying touch the link alone, handing on touches the
signals alone, and a group change is the new settings with the group switch where the active group becomes another. -/

namespace Sys2Proof.Machine

/-! ## Handing on and the free order -/

@[simp] theorem emit_eq (x : Signal) (s : State) : emit x s = s.setSignals (s.signals ++ [x]) := rfl
@[simp] theorem emitNow_eq (x : Signal) (s : State) : emitNow x s = s.setSignals (x :: s.signals) := rfl
@[simp] theorem takeOrder_snd (s : State) : (takeOrder s).2 = s.setFreeCount (s.freeCount + 1) := rfl

/-! ## Posting and replying (R193, R196) -/

theorem post_eq (k : NoticeKind) (p : List Byte) (s : State) : post k p s = s.setLink (s.link.post k p) := rfl
theorem reply_eq (kind : Nat) (st : Status) (p : List Byte) (s : State) :
    reply kind st p s = s.setLink (s.link.place ⟨replyKind (byte kind), byte st.code, p⟩) := rfl

section
variable (k : NoticeKind) (p : List Byte) (s : State)
@[simp] theorem post_fe : (post k p s).fe = s.fe := rfl
@[simp] theorem post_angle : (post k p s).angle = s.angle := rfl
@[simp] theorem post_rev : (post k p s).rev = s.rev := rfl
@[simp] theorem post_focus : (post k p s).focus = s.focus := rfl
@[simp] theorem post_track : (post k p s).track = s.track := rfl
@[simp] theorem post_det : (post k p s).det = s.det := rfl
@[simp] theorem post_defects : (post k p s).defects = s.defects := rfl
@[simp] theorem post_groups : (post k p s).groups = s.groups := rfl
@[simp] theorem post_spindle : (post k p s).spindle = s.spindle := rfl
@[simp] theorem post_sled : (post k p s).sled = s.sled := rfl
@[simp] theorem post_seek : (post k p s).seek = s.seek := rfl
@[simp] theorem post_seq : (post k p s).seq = s.seq := rfl
@[simp] theorem post_loader : (post k p s).loader = s.loader := rfl
@[simp] theorem post_sup : (post k p s).sup = s.sup := rfl
@[simp] theorem post_link : (post k p s).link = s.link.post k p := rfl
@[simp] theorem post_held : (post k p s).held = s.held := rfl
@[simp] theorem post_signals : (post k p s).signals = s.signals := rfl
@[simp] theorem post_freeCount : (post k p s).freeCount = s.freeCount := rfl
@[simp] theorem post_pending : (post k p s).pending = s.pending := rfl
end

section
variable (kind : Nat) (st : Status) (p : List Byte) (s : State)
@[simp] theorem reply_fe : (reply kind st p s).fe = s.fe := rfl
@[simp] theorem reply_angle : (reply kind st p s).angle = s.angle := rfl
@[simp] theorem reply_rev : (reply kind st p s).rev = s.rev := rfl
@[simp] theorem reply_focus : (reply kind st p s).focus = s.focus := rfl
@[simp] theorem reply_track : (reply kind st p s).track = s.track := rfl
@[simp] theorem reply_det : (reply kind st p s).det = s.det := rfl
@[simp] theorem reply_defects : (reply kind st p s).defects = s.defects := rfl
@[simp] theorem reply_groups : (reply kind st p s).groups = s.groups := rfl
@[simp] theorem reply_spindle : (reply kind st p s).spindle = s.spindle := rfl
@[simp] theorem reply_sled : (reply kind st p s).sled = s.sled := rfl
@[simp] theorem reply_seek : (reply kind st p s).seek = s.seek := rfl
@[simp] theorem reply_seq : (reply kind st p s).seq = s.seq := rfl
@[simp] theorem reply_loader : (reply kind st p s).loader = s.loader := rfl
@[simp] theorem reply_sup : (reply kind st p s).sup = s.sup := rfl
@[simp] theorem reply_held : (reply kind st p s).held = s.held := rfl
@[simp] theorem reply_signals : (reply kind st p s).signals = s.signals := rfl
@[simp] theorem reply_freeCount : (reply kind st p s).freeCount = s.freeCount := rfl
@[simp] theorem reply_pending : (reply kind st p s).pending = s.pending := rfl
end

/-- A refused SHOCK CONFIG is answered with the six settings or with no payload, and else changes nothing (R89, R207, log entry 20). -/
theorem refuseShockConfig_eq (st : Status) (s : State) :
    refuseShockConfig st s = reply 0x07 st (shockPayload s.groups) s ∨ refuseShockConfig st s = reply 0x07 st [] s := by
  unfold refuseShockConfig
  split
  · exact .inl rfl
  · exact .inr rfl

/-- A posting never touches the reply, the transfer under way, the mask or the ATTN mode. -/
theorem Link.post_frame (k : NoticeKind) (p : List Byte) (l : Link) :
    (l.post k p).reply = l.reply ∧ (l.post k p).rx = l.rx ∧ (l.post k p).buffer = l.buffer ∧ (l.post k p).mask = l.mask
      ∧ (l.post k p).attnMode = l.attnMode ∧ (l.post k p).sent = l.sent
      ∧ (l.post k p).acks = l.acks := by
  unfold Link.post
  split
  · simp
  · split
    · simp only [Link.startPulse, Link.markFlight]
      split
      · split <;> simp
      · simp
    · split <;> simp [Link.startPulse]

/-- A posting appends at most one notice, and replaces payloads only. -/
theorem Link.post_kinds (k : NoticeKind) (p : List Byte) (l : Link) :
    (l.post k p).notices.map (·.kind) = l.notices.map (·.kind)
      ∨ (l.notices.length < 8 ∧ (k.isState = true → ∀ n ∈ l.notices, n.kind ≠ k)
          ∧ (l.post k p).notices.map (·.kind) = l.notices.map (·.kind) ++ [k]) := by
  have hrep : (replaceNotice k p l.notices).map (·.kind) = l.notices.map (·.kind) := by
    simp only [replaceNotice, List.map_map]
    apply List.map_congr_left
    intro n _
    simp only [Function.comp]
    split <;> rfl
  unfold Link.post
  split
  · exact .inl rfl
  · split
    · left
      simp only [Link.startPulse, Link.markFlight]
      split
      · split <;> simpa using hrep
      · simpa using hrep
    · rename_i hn
      split
      · rename_i hl
        refine .inr ⟨hl, fun hk n hm he => hn ?_, by simp [Link.startPulse]⟩
        simp only [Bool.and_eq_true, List.any_eq_true, decide_eq_true_eq]
        exact ⟨hk, n, hm, he⟩
      · exact .inl rfl

/-! ## Groups (R80, R81) -/

/-- A change of the Group Store's settings that keeps the active group. -/
theorem regroup_same {g : Groups} {s : State} (h : activeId g = activeId s.groups) : regroup g s = s.setGroups g := by
  simp [regroup, h]

/-- A change of the active group is the group switch. -/
theorem regroup_switch {g : Groups} {s : State} (h : activeId g ≠ activeId s.groups) :
    regroup g s = groupSwitch (s.setGroups g) := by
  simp [regroup, h]

/-- With no incident counted, and lawful records, the counters raise nothing (R39). -/
theorem raiseDue_of_clear {s : State} (h : s.countersClear) (h23 : 1 ≤ s.active[23]) (h25 : 1 ≤ s.active[25]) :
    raiseDue s = s := by
  obtain ⟨h1, h2⟩ := h
  have a : s.offTrackDue = false := by simp [State.offTrackDue, h1]; omega
  have b : s.focusLostDue = false := by simp [State.focusLostDue, h2]; omega
  simp [raiseDue, a, b]

/-- A group switch with no incident counted changes the Front End's coefficient and level alone (R9, R10, R81). -/
theorem groupSwitch_of_clear {s : State} (h : s.countersClear) (h23 : 1 ≤ s.active[23]) (h25 : 1 ≤ s.active[25]) :
    groupSwitch s = s.setFe (s.fe.underGroup s.active) := by
  rw [groupSwitch, raiseDue_of_clear (s := s.setFe (s.fe.switchGroup s.active)) h h23 h25]
  rfl

/-! ## Power (R181) -/

theorem setPower_same {m : Power} {s : State} (h : s.sup.power = m) : setPower m s = s := by simp [setPower, h]

theorem wakeTo_awake {m : Power} {s : State} (h : s.sup.power ≠ .sleep) : wakeTo m s = s := by simp [wakeTo, h]

end Sys2Proof.Machine
end

