-- ==== Sys2Proof/Laws/Sequencer.lean ====
section
/-! SUPPORT. How entries end: each end as one change of the queue and a list of notices posted in order (R132, R136, R155). -/

namespace Sys2Proof.Machine

theorem postAll_append (l : Link) (a b : List Notice) : l.postAll (a ++ b) = (l.postAll a).postAll b := by
  simp [Link.postAll, List.foldl_append]

theorem postAll_cons (l : Link) (n : Notice) (ns : List Notice) : l.postAll (n :: ns) = (l.post n.kind n.payload).postAll ns := rfl

@[simp] theorem postAll_nil (l : Link) : l.postAll [] = l := rfl

/-- Ends ABANDONED are notices alone. -/
theorem postAbandoned_eq (es : List Entry) (s : State) : postAbandoned es s = s.setLink (s.link.postAll (endNotices 1 es)) := by
  induction es generalizing s with
  | nil => simp [postAbandoned, endNotices, Link.postAll]; rfl
  | cons e es ih =>
    rw [postAbandoned, ih]
    simp [postDone, post_eq, endNotices, postAll_cons, EndOutcome.code]

/-- The flush (R132). -/
theorem flush_eq (s : State) :
    flush s = (s.setSeq { s.seq with queue := s.seq.queue.filter (·.inProgress) }).setLink
      (s.link.postAll (endNotices 1 (s.seq.queue.filter (fun e => !e.inProgress)))) := by
  simp [flush, postAbandoned_eq]

/-- The end of the entry in progress, and nothing where none is. -/
theorem endEntry_eq (o : EndOutcome) {s : State} (h : queueLaw s.seq.queue) :
    endEntry o s = (s.setSeq { s.seq with queue := s.seq.queue.filter (fun e => !e.inProgress) }).setLink
      (s.link.postAll (endNotices o.code (s.seq.queue.filter (·.inProgress)))) := by
  obtain ⟨_, hw⟩ := h
  unfold endEntry
  cases hq : s.seq.queue with
  | nil =>
    have : ({ s.seq with queue := [] } : Sequencer) = s.seq := by rw [← hq]
    simp [endNotices, this]
    cases s; rfl
  | cons e rest =>
    rw [hq] at hw
    have hf : rest.filter (fun e => !e.inProgress) = rest := by
      rw [List.filter_eq_self]; intro x hx; simp [hw x hx]
    have hg : rest.filter (·.inProgress) = [] := by
      rw [List.filter_eq_nil_iff]; intro x hx; simp [hw x hx]
    by_cases hp : e.inProgress = true
    · simp [hp, hf, hg, postDone, post_eq, endNotices, Link.postAll]
    · simp only [Bool.not_eq_true] at hp
      simp only [hp, hf, hg, List.filter_cons, Bool.not_false, if_true, Bool.false_eq_true, if_false, endNotices, List.map_nil,
        postAll_nil]
      rw [← hq]
      cases s; rfl

/-- Every entry ends: the one in progress with its outcome, the waiting ones ABANDONED (R132, R136). -/
theorem flush_endEntry_eq (o : EndOutcome) {s : State} (h : queueLaw s.seq.queue) :
    flush (endEntry o s) = (s.setSeq { s.seq with queue := [] }).setLink (s.link.postAll (allEnd o.code s.seq.queue)) := by
  rw [endEntry_eq o h, flush_eq]
  have h1 : ((s.seq.queue.filter (fun e => !e.inProgress)).filter (·.inProgress)) = [] := by
    rw [List.filter_eq_nil_iff]; intro x hx; have := List.of_mem_filter hx; simpa using this
  have h2 : ((s.seq.queue.filter (fun e => !e.inProgress)).filter (fun e => !e.inProgress))
      = s.seq.queue.filter (fun e => !e.inProgress) := by
    rw [List.filter_filter]; simp
  simp only [setLink_seq, setSeq_seq, h1, h2, setLink_link, allEnd, postAll_append]
  rfl

/-- The idle timer does not expire while an entry waits (R185). -/
theorem idleExpiry_of_waiting {s : State} (h : s.waitsBehind = true) : idleExpiry s = s := by simp [idleExpiry, h]

/-- Nor does it count then (R142, R185). -/
theorem tickIdle_of_waiting {s : State} (h : s.waitsBehind = true) : tickIdle s = s := by
  unfold tickIdle
  split
  · rfl
  · simp [h]

/-- Its expiry with nothing waiting, in PAUSED and with a length set: the PAUSE ends DONE, then the standby order (R185). -/
theorem idleExpiry_of_paused {s : State} (hp : s.seq.state = .paused) (hw : s.waitsBehind = false) (hl : s.sup.idleSetting ≠ 255) :
    idleExpiry s = standbyOrder (endEntry .done s) := by
  simp [idleExpiry, hp, hw, hl]

end Sys2Proof.Machine
end

