-- ==== Sys2Proof/WellFormed.lean ====
section
/-! DEFINITION. Which commands a sender can form. A check refuses what the bus or the row cannot carry; the machine is total
and has an answer for an ill-formed command too. -/

namespace Sys2Proof

/-- A request record carries at most 24 payload bytes (R191, R205). -/
def payloadFits (payload : List Byte) : Bool := payload.length ≤ 24

/-- The payload's byte `i` is the code `code`: it tells apart two rows that share one request kind (R205). -/
def payloadCode (payload : List Byte) (i code : Nat) : Bool := (payload[i]?.getD 0).toNat = code

/-- The bytes are a complete record: kind, L, L payload bytes and the check byte, with L at most 24 (R191). -/
def recordComplete (record : List Byte) : Bool :=
  let l := (record[1]?.getD 0).toNat
  record.length = 3 + l && l ≤ 24

/-- The commands a sender can form. -/
def Instr.wellFormed : Instr → Bool
  | .servoSample _ _ _ => true
  | .holdLimit => true
  | .focusFail => true
  | .settleTimeout => true
  | .closeTimeout => true
  | .moveStall => true
  | .offTrack => true
  | .focusLost => true
  | .sledComputation => true
  | .fgEdge _ => true
  | .timedBinBoundary => true
  | .pendingLaunchEffect => true
  | .shockModeExit => true
  | .kickTimeout => true
  | .lockingTimeout => true
  | .brakingTimeout => true
  | .addressReport _ _ => true
  | .addressLost => true
  | .addressWaitTimeout => true
  | .legReorder => true
  | .entryStart => true
  | .engageAddressTimeout => true
  | .recoveryLoopWaitTimeout => true
  | .recoveryAddressTimeout => true
  | .idleTimerExpiry => true
  | .senseLineSample _ _ => true
  | .debouncedLineChange _ => true
  | .ejectRelease => true
  | .loadTimeout => true
  | .releaseTimeout => true
  | .reloadTimerExpiry => true
  | .shockEdge _ => true
  | .driverFaultAssert => true
  | .driverFaultDrop => true
  | .powerOnReset _ _ => true
  | .writeTransferEnd _ _ => true
  | .readTransfer _ _ _ => true
  | .unknownRequest record => recordComplete record
  | .attnPulseEnd => true
  | .status p => payloadFits p
  | .position p => payloadFits p
  | .ident p => payloadFits p
  | .paramGet p => payloadFits p
  | .paramSet p => payloadFits p
  | .launchNow p => payloadFits p && payloadCode p 1 0
  | .launchIndex p => payloadFits p && payloadCode p 1 1
  | .shockConfig p => payloadFits p
  | .zoneSet p => payloadFits p
  | .zoneLimit p => payloadFits p
  | .tableRead p => payloadFits p
  | .tableClear p => payloadFits p
  | .defectRead p => payloadFits p
  | .defectAdd p => payloadFits p
  | .defectClear p => payloadFits p
  | .offset p => payloadFits p
  | .noticeMask p => payloadFits p
  | .lineConfig p => payloadFits p
  | .clearFault p => payloadFits p
  | .powerActive p => payloadFits p && payloadCode p 0 0
  | .powerStandby p => payloadFits p && payloadCode p 0 1
  | .powerSleep p => payloadFits p && payloadCode p 0 2
  | .softReset p => payloadFits p
  | .engage p => payloadFits p
  | .seek p => payloadFits p
  | .jump p => payloadFits p
  | .pause p => payloadFits p
  | .disengage p => payloadFits p
  | .halt p => payloadFits p
  | .load p => payloadFits p
  | .eject p => payloadFits p

end Sys2Proof
end

