-- ==== Sys2Proof/Tests/Slice0.lean ====
section
/-! SUPPORT. Tests on single commands, whose expected values are the manual's own worked numbers or hand arithmetic from its rules, and for
every statement with hypotheses a state that meets them, one for each clause. -/

namespace Sys2Proof.Tests

open Sys2Proof Sys2Proof.Machine

/-! ## Helpers -/

/-- One component of the next state. -/
def after {α : Type} (r : Result) (f : State → α) : Option α :=
  match r with
  | .next t => some (f t)
  | .fault _ => none
  | .refused _ => none

/-- A disc clamped and read in FOLLOWING at block 40,000 of the reset Zone Table: tp = 40,000 · 256 / 3,200 = 3,200. -/
def reading : State := { State.reset with
  loader := { state := .clamped }
  sup := { clampEnd := { level := true }, ejectEnd := {} }
  seq := { state := .following, laser := true, resume := some 40000 }
  spindle := { state := .locked, run := true }
  focus := { state := .locked }
  track := { state := .locked }
  angle := { spinUp := 2, refValid := true, p := 20000, schedule := some ⟨1, 2500⟩ }
  seek := { aCur := 40000, tpCur := 3200, known := true, valid := true, age := 0 } }

def inState (st : SeqState) (q : List Entry) (s : State) : State := { s with seq := { s.seq with state := st, queue := q } }
def spindleIn (st : SpindleState) (s : State) : State := { s with spindle := { s.spindle with state := st } }
def trackIn (st : TrackState) (s : State) : State := { s with track := { s.track with state := st } }
def focusIn (st : FocusState) (s : State) : State := { s with focus := { s.focus with state := st } }

/-- The part with no disc read: IDLE, spindle stopped, laser off. -/
def resting (st : LoaderState) : State := { State.reset with
  loader := { state := st, drive := match st with | .pulling => 1536 | .releasing => -1536 | _ => 0 }
  sup := { ejectEnd := {} } }

def seekEntry (t : Nat) (p : Bool) : Entry := ⟨.seek t, 7, p⟩
def window : Defect := ⟨.learned, 10, 3, 3000, 3400, 1, none, .clean⟩

/-! ## Well-formedness: each check refuses -/

theorem test_payload_of_25_bytes_is_ill_formed : (Instr.status (List.replicate 25 0)).wellFormed = false := by decide
theorem test_launch_now_with_timing_index_is_ill_formed : (Instr.launchNow [1, 1]).wellFormed = false := by decide
theorem test_launch_index_with_timing_now_is_ill_formed : (Instr.launchIndex [1, 0]).wellFormed = false := by decide
theorem test_power_active_with_mode_sleep_is_ill_formed : (Instr.powerActive [2]).wellFormed = false := by decide
theorem test_power_standby_with_mode_active_is_ill_formed : (Instr.powerStandby [0]).wellFormed = false := by decide
theorem test_power_sleep_with_mode_standby_is_ill_formed : (Instr.powerSleep [1]).wellFormed = false := by decide
theorem test_cut_record_is_ill_formed : (Instr.unknownRequest [0x30, 2, 0]).wellFormed = false := by decide
theorem test_record_with_length_25_is_ill_formed : (Instr.unknownRequest (0x30 :: 25 :: List.replicate 26 0)).wellFormed = false := by
  decide
theorem test_complete_record_is_well_formed : (Instr.unknownRequest [0x30, 1, 0, 0xCF]).wellFormed = true := by decide

/-! ## The table gives no bits -/

theorem test_no_word_spells_a_command : decodeTableWord 8 0x01 = none := by decide
theorem test_fetch_word_changes_nothing : (State.reset.withFetchWord 8 1).pending = [] := by decide

/-! ## Arithmetic, by hand from the rules -/

/-- R11: 97 · 1,311 = 127,167; + 512 = 127,679; / 1,024 = 124. The sign is put back. -/
theorem test_normalize_rounds_the_magnitude : normalize 1311 (-97) = -124 := by decide
/-- R6: mean 1,600 with sum_ref 2,048: (2,048 · 2,048 + 1,600) / 3,200 = 1,311. -/
theorem test_bin_coefficient : binCoefficient g0Defaults 160000 100 = 1311 := by decide
/-- R10: 1,311 lies above cb1 = 1,280 and not above cb2 = 1,792. -/
theorem test_level_of_1311 : levelOf g0Defaults 1311 = 1 := by decide
/-- R36 from rest with the G0 focus gains and e = 100: A = 400; (48 · 100 + 6 + 192 · 100) / 256 = 93. -/
theorem test_compensator : (({} : Axis).compensate 48 4 192 100 0).u = 93 := by decide
/-- R30 with λ = 2, sum −1,000 over 30 samples: trunc(−33.3) = −33; floor((−66 + 8) / 16) = −4. -/
theorem test_learning : learn 10 2 (-1000) 30 = 6 := by decide
/-- R117 in the reset Zone Table: 180,000 · 256 / 3,200 = 14,400. -/
theorem test_track_of_block : State.reset.seek.track 180000 = 14400 := by decide
/-- R205: the check byte brings the sum of the record to 0: 0x03 + 0x00 + 0xFD. -/
theorem test_ident_record : requestRecord 0x03 [] = [0x03, 0x00, 0xFD] := by decide

/-! ## Single commands -/

theorem test_ident_after_reset :
    after (exec (.ident []) State.reset) (·.link.reply) = some (some ⟨0x83, 0, [0x0A, 0x50, 0x01, 0x01, 0x2C]⟩) := by decide
theorem test_seek_in_idle_is_not_engaged :
    after (exec (.seek [9, 0, 1, 0]) State.reset) (·.link.reply) = some (some ⟨0x96, 0x22, [9]⟩) := by decide
theorem test_engage_without_disc :
    after (exec (.engage [9]) State.reset) (·.link.reply) = some (some ⟨0x95, 0x23, [9]⟩) := by decide
theorem test_fifth_debounce_sample_changes_the_level :
    after (exec (.senseLineSample .slot true) { State.reset with sup := { slot := ⟨false, 4⟩ } }) (·.sup.slot)
      = some ⟨true, 0⟩ := by decide
theorem test_fault_edge_mutes :
    after (exec .driverFaultAssert State.reset) (fun t => (t.sup.mute, t.sup.faultLatch, t.link.notices))
      = some (true, true, [⟨.fault, [1, 1]⟩]) := by decide
theorem test_held_part_drives_nothing :
    after (exec (.powerOnReset none false) { reading with sled := { drive := 900 }, link := { notices := [⟨.power, [0]⟩] } })
        (fun t => (t.sledDrv, t.laserEn, t.attn, t.held)) = some (0, false, false, true) := by decide
/-- R44: the crossing that completes a move is one that restarts the stall count. -/
theorem test_last_crossing_restarts_the_stall_count :
    after (exec (.servoSample 0 128 0x7FF) { reading with
        fe := { side := .negative, crossings := 5 }, track := { state := .openSeek, moveCount := 6, stall := 700 } })
      (fun t => (t.track.state, t.track.stall)) = some (.pullin, 0) := by decide
/-- R191: a length byte of 25 and the bytes after it are not acknowledged; the address and the kind are. -/
theorem test_length_25_is_not_acknowledged :
    after (exec (.writeTransferEnd (some 0x2C) [0x01, 25, 7]) State.reset) (fun t => (t.link.acks, t.link.reply))
      = some ([true, true, false, false], some ⟨0x81, 0x11, []⟩) := by decide
/-- R89: a write in shock mode is refused BUSY and writes nothing; its payload is a free value (log entry 20). -/
theorem test_busy_shock_config_writes_nothing :
    after (exec (.shockConfig [3, 5]) { reading with groups := { shockMode := true } })
      (fun t => (t.link.reply.map (·.status), t.groups.shock, t.groups.shockRevs)) = some (some 0x20, 1, 8) := by decide
/-- R185: in PAUSED left without an entry the idle timer counts, and it stands while an entry waits. -/
theorem test_idle_timer_counts_only_while_nothing_waits :
    let left (q : List Entry) : State := { inState .paused q reading with sup := { reading.sup with idleTimer := some 7 } }
    (tickIdle (left [])).sup.idleTimer = some 8 ∧ (tickIdle (left [⟨.seek 5, 1, false⟩])).sup.idleTimer = some 7 := by decide
theorem test_slot_pulls_the_disc_in :
    after (exec (.debouncedLineChange .slot) (resting .empty)) (fun t => (t.loader.state, t.loader.drive))
      = some (.pulling, 1536) := by decide
theorem test_kick_timeout_in_idle_brakes :
    after (exec .kickTimeout (spindleIn .kick State.reset)) (fun t => (t.spindle.state, t.spindle.drive))
      = some (.braking, -1024) := by decide
theorem test_crossing_after_side_negative :
    after (exec (.servoSample 0 128 0) { State.reset with fe := { side := .negative } }) (fun t => (t.fe.side, t.fe.crossings))
      = some (.positive, 1) := by decide

/-! ## Witnesses: a state and operands that meet the hypotheses of each statement, clause by clause -/

theorem meets_StepTakesTheFront :
    ({ State.reset with pending := [.attnPulseEnd, .offTrack] } : State).pending = .attnPulseEnd :: [.offTrack] := by decide

/-- The part after reset, with no timer running; the part reading, with the boundary's and the watch timer running below their ends; and
each timer one millisecond before its end. -/
theorem meets_EmptyQueuePassesAMillisecond :
    let ok (s : State) : Bool := s.pending = [] ∧ s.settled ∧ s.sup.idleSetting ≤ 255
    let ends (k : Timer) (s : State) : Bool :=
      ok s ∧ s.runs k = true ∧ s.expires k = true
        ∧ ∀ j ∈ Timer.order.takeWhile (· ≠ k), s.runs j = true → s.below j = true
    let still : State := { reading with angle := {} }
    let recovering (x : Sequencer) : State := { still with seq := { x with state := .recovering } }
    (ok State.reset = true ∧ ∀ j ∈ Timer.order, State.reset.runs j = false)
      ∧ (ok reading = true ∧ reading.runs .boundary = true ∧ reading.runs .watch = true
          ∧ ∀ j ∈ Timer.order, reading.runs j = true → reading.below j = true)
      ∧ ends .boundary { reading with angle := { reading.angle with sinceEdge := 2000 } } = true
      ∧ ends .spindle { still with spindle := { state := .kick, timer := 1499 } } = true
      ∧ ends .spindle { still with spindle := { state := .locking, timer := 2999 } } = true
      ∧ ends .spindle { still with spindle := { state := .braking, timer := 99 } } = true
      ∧ ends .wait { still with seek := { leg := .wait, waitTimer := 299 } } = true
      ∧ ends .engage { still with seq := { state := .engaging, addrTimer := some 999 } } = true
      ∧ ends .loopWait (recovering { loopWait := some 19 }) = true
      ∧ ends .recovery (recovering { step := .recoverAddress, recTimer := 299 }) = true
      ∧ ends .watch { still with seek := { still.seek with watch := 299 } } = true
      ∧ ends .idle { inState .paused [] still with sup := { still.sup with idleSetting := 1, idleTimer := some 59999 } } = true
      ∧ ends .loader { resting .pulling with loader := { (resting .pulling).loader with timer := 4999 } } = true
      ∧ ends .loader { resting .releasing with loader := { (resting .releasing).loader with timer := 4999 } } = true
      ∧ ends .reload { resting .presented with loader := { state := .presented, reload := some ⟨9999, 10000⟩ } } = true := by decide

/-- The hypotheses of every request statement, in the part at rest and in the part reading. -/
theorem meets_request_hypotheses :
    State.reset.settled ∧ State.reset.linkReady ∧ reading.settled ∧ reading.linkReady ∧ reading.countersClear
      ∧ groupLaw reading.groups ∧ queueLaw reading.seq.queue ∧ zoneLaw reading.seek := by decide

theorem meets_IdentIsAnswered : reading.settled ∧ reading.linkReady := by decide

/-- STATUS and POSITION: no SEEK in the queue, and a waiting SEEK behind one in progress. -/
theorem meets_StatusAndPositionAreSnapshots :
    reading.settled ∧ reading.linkReady ∧ (∀ e ∈ reading.seq.queue, ∀ t, e.motion ≠ .seek t)
      ∧ (inState .seeking [seekEntry 5 true, seekEntry 6 false] reading).seq.queue = [seekEntry 5 true] ++ seekEntry 6 false :: []
      ∧ (seekEntry 6 false).motion = .seek 6 := by
  refine ⟨by decide, by decide, ?_, by decide, by decide⟩
  intro e he; simp [reading] at he

/-- PARAM SET: pairs of group 2 in field 0; a pair of another group; the active group; a record that fails (c_min above c_max). -/
theorem meets_ParamRequests :
    reading.settled ∧ reading.linkReady
      ∧ paramPairs 8 [0x80, 0, 50] = some [(2, 0, 50)] ∧ paramPairs 8 [0x80, 0, 50, 0xC0, 0, 50] = some [(2, 0, 50), (3, 0, 50)]
      ∧ (Fin.ofNat 4 0 : GroupId) = activeId reading.groups ∧ (Fin.ofNat 4 2 : GroupId) ≠ activeId reading.groups
      ∧ firstFailure (reading.groups.recs[2].setIfInBounds 0 50) = none
      ∧ paramPairs 8 [0x89, 0x1F, 0xFF, 0x8A, 0x01, 0x00] = some [(2, 9, 8191), (2, 10, 256)]
      ∧ firstFailure ((reading.groups.recs[2].setIfInBounds 9 8191).setIfInBounds 10 256) = some 10 := by decide

/-- LAUNCH: group 4 and timing 2 refused; group 2 with the spindle turning and stopped; and a launch of group 2 under which the off-track
count, or the focus-lost count, stands at its limit at once, turning and stopped. -/
theorem meets_LaunchRequests :
    let ok (s : State) : Bool := s.settled ∧ s.linkReady ∧ groupLaw s.groups
    let off (s : State) : State := { s with track := { s.track with offCount := 4095 } }
    let lost (s : State) : State := { s with focus := { s.focus with lost := 4095 } }
    let still := spindleIn .stopped reading
    let r (s : State) := s.groups.recs[(2 : Fin 4)]
    3 < (4 : Byte).toNat ∧ 1 < (2 : Byte).toNat ∧ (Fin.ofNat 4 (2 : Byte).toNat : GroupId) ≠ reading.groups.base
      ∧ (ok reading = true ∧ ¬ reading.offReached (r reading) ∧ ¬ reading.lostReached (r reading))
      ∧ (ok still = true ∧ still.spindle.state = .stopped ∧ ¬ still.offReached (r still) ∧ ¬ still.lostReached (r still))
      ∧ (ok (off reading) = true ∧ (off reading).offReached (r reading) ∧ ¬ (off reading).lostReached (r reading))
      ∧ (ok (off still) = true ∧ (off still).offReached (r still) ∧ ¬ (off still).lostReached (r still))
      ∧ (ok (lost reading) = true ∧ ¬ (lost reading).offReached (r reading) ∧ (lost reading).lostReached (r reading))
      ∧ (ok (lost still) = true ∧ ¬ (lost still).offReached (r still) ∧ (lost still).lostReached (r still)) := by decide

theorem meets_ShockConfigRequests :
    let shocked : State := { reading with groups := { shockMode := true } }
    3 < (4 : Byte).toNat ∧ (3 : Byte).toNat ≤ 3 ∧ shocked.settled ∧ shocked.linkReady ∧ shocked.groups.shockMode = true
      ∧ reading.groups.shockMode = false := by decide

/-- ZONE SET on the reset table: zone 0 read; zone 1 not there to read; zone 2 above the count; a second zone at block 0 refused and at
120,000 written; and on the full table, zone 16. -/
theorem meets_ZoneSetRequests :
    let x := State.reset.seek
    zoneLaw x ∧ x.zones[(0 : Byte).toNat]? = some ⟨0, 3200, 20000⟩ ∧ x.zones.length ≤ (1 : Byte).toNat
      ∧ x.zones.length < (2 : Byte).toNat ∧ (16 : Byte).toNat = 16
      ∧ ((1 : Byte).toNat ≤ x.zones.length ∧ (1 : Byte).toNat < 16
          ∧ (1 ≤ (1 : Byte).toNat ∧ (x.zones[(1 : Byte).toNat - 1]?).map (·.first) = some 0))
      ∧ ¬((1 : Byte).toNat = 0 ∧ 120000 ≠ 0) ∧ x.zones[(1 : Byte).toNat + 1]? = none ∧ ¬ x.lastBlock < 120000 := by decide

theorem meets_ZoneLimitRequests :
    let x : Seek := { zones := [⟨0, 3200, 20000⟩, ⟨1000, 3200, 20000⟩], firstTracks := [0, 80] }
    zoneLaw x ∧ ((⟨1000, 3200, 20000⟩ : Zone) ∈ x.zones.take 2 ∧ 999 < 1000) ∧ (∀ y ∈ x.zones.take 1, y.first ≤ 999) := by decide

theorem meets_TableClearRequest : reading.settled ∧ reading.linkReady := by decide

theorem meets_TableAndDefectReads : reading.settled ∧ reading.linkReady ∧ (0xFF : Byte).toNat = 255 := by decide

/-- DEFECT ADD: inner above outer; a free index 0; a table of HOST entries; a table of windows, the first the weakest. DEFECT CLEAR with
selectors 3 and 2. -/
theorem meets_DefectWrites :
    let full (d : Defect) : Vector (Option Defect) 32 := Vector.replicate 32 (some d)
    (5 : Nat) < 6 ∧ State.reset.defects.entries[(0 : Fin 32)] = none
      ∧ (∀ j : Fin 32, (full { window with origin := .host })[j] = some { window with origin := .host })
      ∧ (∀ j : Fin 32, (full window)[j] ≠ none) ∧ (full window)[(0 : Fin 32)] = some window ∧ window.origin = .learned
      ∧ (∀ j : Fin 32, (full window)[j] = some window ∧ (window.hits = window.hits ∧ (0 : Fin 32) ≤ j))
      ∧ 2 < (3 : Byte).toNat ∧ (2 : Byte).toNat ≤ 2 := by decide

theorem meets_OffsetAndMaskRequests :
    reading.settled ∧ reading.linkReady ∧ (-32768 : Int) ≤ -600 ∧ (-600 : Int) < 32768 := by decide

/-- LINE CONFIG: each setting out of range, and PULSE, BOTH, debounce 16, auto-load on, MON 7. -/
theorem meets_LineConfigRequests :
    1 < (2 : Byte).toNat ∧ 2 < (3 : Byte).toNat ∧ 7 < (8 : Byte).toNat
      ∧ (1 : Byte).toNat = AttnMode.pulse.code ∧ (2 : Byte).toNat = EdgeSelect.both.code ∧ (1 : Byte).toNat = flag true
      ∧ (7 : Byte).toNat ≤ 7 := by decide

theorem meets_ClearFaultRequest :
    let latched : State := { State.reset with sup := { faultLatch := true } }
    latched.settled ∧ latched.linkReady ∧ latched.sup.faultLatch = true ∧ State.reset.sup.faultLatch = false := by decide

/-- A part held in reset, and a command that is neither its end nor the address input. -/
theorem meets_PowerOnLeaves :
    let held : State := { reading with held := true }
    held.held = true ∧ held.pending = [] ∧ (∀ x h, Instr.offTrack ≠ .powerOnReset x h) ∧ (∀ b e, Instr.offTrack ≠ .addressReport b e) := by
  refine ⟨by decide, by decide, ?_, ?_⟩ <;> intro _ _ h <;> cases h

theorem meets_SoftResetRequest : reading.settled ∧ reading.linkReady ∧ (resting .empty).settled ∧ (resting .empty).linkReady := by
  decide

theorem meets_SampleNormalizes :
    let asleep : State := { State.reset with sup := { power := .sleep } }
    asleep.settled ∧ asleep.sup.power = .sleep ∧ reading.settled ∧ reading.sup.power ≠ .sleep := by decide

/-- SUM 2,048 with c = 1,024 gives SUMn 2,048, above D_0 = 1,536 and fl_level = 512. -/
theorem meets_LockedSampleCompensates :
    let s := reading
    s.settled ∧ s.sup.power ≠ .sleep ∧ s.focus.state = .locked ∧ s.track.state = .locked ∧ s.det.inHold = false
      ∧ groupLaw s.groups ∧ s.track.offCount + 1 < s.active[23] ∧ s.sled.count < 63
      ∧ (if s.defects.armed then min 4095 (dropThreshold s.active s.fe.level + s.active[19]) else dropThreshold s.active s.fe.level)
          ≤ min 4095 ((0x7FF : Adc).toNat * s.fe.c / 1024)
      ∧ s.active[24] ≤ min 4095 ((0x7FF : Adc).toNat * s.fe.c / 1024) := by decide

/-- Both loops OFF; SEARCH at the start, at the end of its first sweep, and with a change of sign before it; and with focus LOCKED and SUM
2,047 each procedure: PULLIN, SETTLING below and at its 64th sample (in FOLLOWING, in an ENGAGE, and for a leg stopped at the inner limit),
a jump of 3 tracks before its first and its last crossing, a move before its last. A TE of 128 crosses from the negative side. -/
theorem meets_OpenLoopSample :
    let ok (s : State) : Bool := s.settled ∧ s.sup.power ≠ .sleep
    let search (x : FocusLoop) : State := { inState .engaging [⟨.engage, 1, true⟩] reading with
      focus := { x with state := .search }, track := {}, seq := { reading.seq with state := .engaging, step := .engageFocus } }
    let run (t : TrackLoop) (s : State) : State := { s with track := t, fe := { side := .negative, crossings := 5 } }
    let lit (s : State) : Bool := ok s ∧ s.focus.state = .locked ∧ s.det.inHold = false ∧ groupLaw s.groups
      ∧ (if s.defects.armed then min 4095 (dropThreshold s.active s.fe.level + s.active[19]) else dropThreshold s.active s.fe.level)
          ≤ min 4095 ((0x7FF : Adc).toNat * s.fe.c / 1024)
      ∧ s.active[24] ≤ min 4095 ((0x7FF : Adc).toNat * s.fe.c / 1024) ∧ s.track.timer + 1 < 1280 ∧ s.track.stall + 1 < 1280
    let limited : State := { inState .seeking [seekEntry 5 true] reading with
      seek := { reading.seek with task := some (.seek 5), leg := .jump (-3), limitStop := true } }
    let engaging : State := { inState .engaging [⟨.engage, 1, true⟩] reading with
      seq := { reading.seq with state := .engaging, step := .engageTrack }, seek := {} }
    ok State.reset = true ∧ State.reset.focus.state = .off ∧ State.reset.track.state = .off
      ∧ ok (search { sweep := 1 }) = true ∧ ok (search { sweep := 1, pos := 16383 }) = true
      ∧ ok (search { sweep := 1, pos := 9, prevFec := some (-5) }) = true ∧ groupLaw (search {}).groups
      ∧ 2 * reading.active[24] ≤ min 4095 ((0x7FF : Adc).toNat * reading.fe.c / 1024)
      ∧ lit (run { state := .pullin, attempt := 1 } reading) = true
      ∧ lit (run { state := .settling, settleRun := 9 } reading) = true
      ∧ lit (run { state := .settling, settleRun := 63, goal := .trackLocked } reading) = true
      ∧ reading.seek.task = none ∧ reading.seek.retry = false ∧ reading.seek.limitStop = false
      ∧ limited.seek.retry = false ∧ limited.seek.task ≠ none ∧ limited.seq.queue = [seekEntry 5 true]
      ∧ lit (run { state := .settling, settleRun := 63, goal := .trackLocked } engaging) = true ∧ engaging.seek.valid = false
      ∧ lit (run { state := .settling, settleRun := 63, goal := .jumpDone } limited) = true ∧ limited.seek.limitStop = true
      ∧ lit (run { state := .jumping, phase := .coast, jumpLen := 3 } reading) = true
      ∧ lit { run { state := .jumping, phase := .kick, jumpLen := 3 } reading with fe := {} } = true
      ∧ lit (run { state := .openSeek, moveCount := 6 } reading) = true
      ∧ lit (run { state := .openSeek, moveCount := 40 } reading) = true := by decide

/-- SUM 100 lies below D_0: a hold begins, unarmed and armed, and goes on; SUM 2,047 makes a good run of 3; and with the length at 127 the
hold reaches the limit of the group, unarmed and armed. -/
theorem meets_HoldBegins :
    let common (s : State) : Bool := s.settled ∧ s.sup.power ≠ .sleep ∧ s.sled.count < 63 ∧ s.det.length ≤ 4095
    let sumN (sum : Adc) (s : State) : Nat := min 4095 (sum.toNat * s.fe.c / 1024)
    let th (armed : Bool) (s : State) : Nat :=
      if armed then min 4095 (dropThreshold s.active s.fe.level + s.active[19]) else dropThreshold s.active s.fe.level
    let limit (armed : Bool) (s : State) : Nat := if armed then s.active[21] else s.active[20]
    let begins (s : State) : Bool :=
      common s ∧ s.focus.state = .locked ∧ s.track.state = .locked ∧ s.det.inHold = false ∧ sumN 100 s < th s.defects.armed s
        ∧ 1 < limit s.defects.armed s
    let held (armed : Bool) (n good : Nat) : State :=
      focusIn .hold (trackIn .hold { reading with det := ⟨true, armed, n, 9, 1, 300, good, 1⟩ })
    let goes (sum : Adc) (s : State) : Bool :=
      common s ∧ s.focus.state = .hold ∧ s.track.state = .hold ∧ s.det.inHold = true
        ∧ (if min 4095 (th s.det.entryArmed s + s.active[18]) ≤ sumN sum s then s.det.goodRun + 1 else 0) < 4
    let last (armed : Bool) : Nat := limit armed reading - 1
    begins reading = true ∧ begins { reading with defects := { armed := true } } = true
      ∧ (goes 100 (held false 20 3) = true ∧ goes 0x7FF (held false 20 2) = true ∧ 20 + 1 < limit false reading)
      ∧ (goes 100 (held false (last false) 0) = true ∧ limit false reading ≤ min 4095 (last false + 1))
      ∧ (goes 100 (held true (last true) 0) = true ∧ limit true reading ≤ min 4095 (last true + 1)) := by decide

/-- The exit level is 1,536 + 256 + 128 = 1,920 armed and 1,664 unarmed. A hold over bins 9 and 10 under tp 3,200: armed over `window`;
unarmed over `window`, which it merges with; over an empty table; over a table full of far windows; over one full of HOST entries; and
one too short to learn. -/
theorem meets_ArmedHoldEnds :
    let held (armed : Bool) (n : Nat) (entries : Vector (Option Defect) 32) : State :=
      focusIn .hold (trackIn .hold { reading with det := ⟨true, armed, n, 9, 1, 300, 3, 1⟩, defects := { entries := entries } })
    let full (d : Defect) : Vector (Option Defect) 32 := Vector.replicate 32 (some d)
    let far : Defect := { window with first := 40, pass := .none }
    let ok (s : State) : Bool :=
      s.settled ∧ s.sup.power ≠ .sleep ∧ s.focus.state = .hold ∧ s.track.state = .hold ∧ s.det.inHold = true ∧ s.det.goodRun = 3
        ∧ groupLaw s.groups ∧ s.det.binsPassed ≤ 15 ∧ s.track.offCount + 1 < s.active[23] ∧ s.sled.count < 63 ∧ s.seek.valid = true
        ∧ min 4095 ((if s.det.entryArmed then min 4095 (dropThreshold s.active s.fe.level + s.active[19])
            else dropThreshold s.active s.fe.level) + s.active[18]) ≤ min 4095 ((0x7FF : Adc).toNat * s.fe.c / 1024)
        ∧ s.active[24] ≤ min 4095 ((0x7FF : Adc).toNat * s.fe.c / 1024)
    let one := (full far).set 3 (some window)
    let shared (d : Defect) : Bool := binOf d.first d.span 10 ∧ binOf 9 2 10
    let bins (d : Defect) : Nat := ((List.finRange 64).filter (fun b => decide (binOf d.first d.span b ∨ binOf 9 2 b))).length
    ok (held true 20 one) = true ∧ ok (held false 20 one) = true ∧ ok (held false 20 (Vector.replicate 32 none)) = true
      ∧ ok (held false 20 (full far)) = true ∧ ok (held false 20 (full { far with origin := .host })) = true
      ∧ ok (held false 7 one) = true ∧ shared window = true ∧ bins window = 4 ∧ window.inner ≤ 3200 ∧ 3200 ≤ window.outer
      ∧ (∀ b : Fin 64, ¬(binOf far.first far.span b ∧ binOf 9 2 b)) ∧ reading.groups.shockMode = false
      ∧ (1 ≤ window.span ∧ window.span ≤ 16 ∧ window.inner ≤ window.outer ∧ 1 ≤ window.hits) := by decide

/-- A table of one window meets the table's law. -/
theorem meets_defectLaw :
    ({ reading with defects := { entries := Vector.replicate 32 (some window) } } : State).defectLaw := by
  refine ⟨by decide, fun i d h => ?_⟩
  have hi : ∀ j : Fin 32, (Vector.replicate 32 (some window))[j] = some window := by decide
  have hd : d = window := by simpa [hi i] using h.symm
  subst hd; decide

theorem meets_FocusLostRecovers :
    let held : State := focusIn .hold { reading with det := { inHold := true } }
    let seeking := inState .seeking [seekEntry 5 true] reading
    reading.settled ∧ reading.focus.state = .locked ∧ reading.seq.state = .following
      ∧ held.settled ∧ held.focus.state = .hold ∧ held.det.inHold = true ∧ held.seq.state = .following
      ∧ seeking.settled ∧ seeking.focus.state = .locked ∧ seeking.seq.state = .seeking ∧ seeking.current ≠ none := by decide

theorem meets_SettleAndCloseTimeouts :
    let pull (n : Nat) : State := { reading with track := { state := .pullin, attempt := n } }
    let settling (b : Bool) : State := { reading with track := { state := .settling, fromPullin := b, attempt := 1 } }
    let closing : State := { reading with track := { state := .jumping, phase := .close } }
    ((pull 2).settled ∧ (pull 2).track.state = .pullin ∧ (pull 2).track.attempt < 3)
      ∧ ((settling true).settled ∧ (settling true).track.fromPullin = true ∧ (settling true).track.attempt < 3)
      ∧ ((pull 3).settled ∧ 3 ≤ (pull 3).track.attempt ∧ (pull 3).seq.state = .following ∧ (pull 3).track.byPause = false
          ∧ (pull 3).seek.task = none)
      ∧ ((settling false).settled ∧ (settling false).track.state = .settling ∧ (settling false).track.fromPullin = false)
      ∧ (closing.settled ∧ closing.track.state = .jumping ∧ closing.track.phase = .close) := by decide

/-- The third failed attempt in an ENGAGE, a seek, a PAUSE's own jump, after HALT in a seek, and in the second and third attempt of a
recovery. -/
theorem meets_third_attempts :
    let third (st : SeqState) (q : List Entry) : State := { inState st q reading with track := { state := .pullin, attempt := 3 } }
    let ok (s : State) : Bool := s.settled ∧ queueLaw s.seq.queue ∧ s.track.state = .pullin ∧ 3 ≤ s.track.attempt ∧ s.turning
    let seeking : State := { third .seeking [seekEntry 5 true] with seek := { reading.seek with task := some (.seek 5), leg := .wait } }
    let pause : State := { third .paused [⟨.pause, 1, true⟩] with track := { state := .pullin, attempt := 3, byPause := true } }
    let recovering (n : Nat) : State := { third .recovering [] with seq := { state := .recovering, cause := .offTrack, attempts := n } }
    ok (third .engaging [⟨.engage, 1, true⟩]) = true
      ∧ ok seeking = true ∧ seeking.current ≠ none ∧ seeking.seek.task ≠ none
      ∧ ok pause = true ∧ pause.current ≠ none ∧ pause.track.byPause = true
      ∧ ok (third .seeking []) = true ∧ (third .seeking []).current = none
      ∧ ok (recovering 2) = true ∧ (recovering 2).focus.state = .locked ∧ ok (recovering 3) = true := by decide

theorem meets_OffTrackRecovers :
    let moving := trackIn .openSeek (inState .seeking [seekEntry 5 true] reading)
    let kicking : State := { inState .jumping [⟨.jump 3, 1, true⟩] reading with track := { state := .jumping, phase := .kick } }
    let ok (s : State) : Bool := s.settled ∧ s.focus.lost < (s.groups.recs[s.groups.shock])[25]
    (ok reading = true ∧ reading.seq.state = .following ∧ reading.track.state = .locked)
      ∧ (ok moving = true ∧ moving.seq.state = .seeking ∧ moving.track.state = .openSeek)
      ∧ (ok kicking = true ∧ kicking.seq.state = .jumping ∧ kicking.track.state = .jumping ∧ kicking.track.phase = .kick) := by decide

theorem meets_SledFollows : reading.settled ∧ reading.track.state = .locked := by decide

/-- An edge inside a turn; in BRAKING above 50,000; and one that brings an index event, with nothing to act on and with a launch. -/
theorem meets_FgEdgeKeepsAngle :
    let ok (s : State) : Bool :=
      s.settled ∧ s.loader.ejectPending = false ∧ s.angle.edge.val = s.angle.bin.val / 8
        ∧ (s.angle.edge = 7 →
            (s.groups.pending = none ∧ s.groups.shockMode = false) ∨ (s.countersClear ∧ groupLaw s.groups))
    let braking : State := { spindleIn .braking reading with seq := { state := .disengaging } }
    let last (g : Groups) : State := { reading with angle := { reading.angle with edge := 7, bin := 60 }, groups := g }
    ok reading = true ∧ reading.spindle.state ≠ .braking
      ∧ ok braking = true ∧ braking.spindle.state = .braking ∧ braking.seq.queue = [] ∧ 1 ≤ braking.angle.spinUp
      ∧ 50000 < 50001 ∧ ok (last {}) = true ∧ ok (last { pending := some 2 }) = true := by decide

/-- LOCKED as R100 leaves it, and one bad edge from its end; KICK; LOCKING one good edge from its end, and as R101 enters it. -/
theorem meets_SpindleTakesEdge :
    let ok (s : State) : Bool :=
      s.settled ∧ s.seq.state = .following ∧ s.groups.pending = none ∧ s.groups.shockMode = false ∧ 1 ≤ s.angle.spinUp
    let runs (st : SpindleState) (lock unlock : Nat) : State :=
      { reading with spindle := { state := st, run := true, lockRun := lock, unlockRun := unlock } }
    ok (runs .locked 8 0) = true ∧ ok (runs .locked 8 3) = true ∧ ok (runs .kick 0 0) = true ∧ ok (runs .locking 7 0) = true
      ∧ ok (runs .locking 0 4) = true := by decide

theorem meets_BoundaryClosesBin :
    reading.settled ∧ reading.angle.schedule = some ⟨1, 2500⟩ ∧ reading.angle.bin ≠ 63 := by decide

/-- With a launch pending, in shock mode at its last clean turn, and with both; and so in PAUSED, with the tracking loop held and not. -/
theorem meets_IndexEventActsOnGroups :
    let at63 (g : Groups) : State := { reading with angle := { reading.angle with edge := 7, bin := 63 }, groups := g }
    let ok (s : State) : Bool :=
      s.settled ∧ (s.seq.state = .following ∨ s.seq.state = .paused) ∧ s.spindle.state ≠ .braking ∧ s.angle.edge = 7 ∧ s.angle.bin = 63
        ∧ s.countersClear ∧ shockLaw s.groups ∧ (∀ i : Fin 32, s.defects.entries[i] = none) ∧ s.link.mask = 0
        ∧ s.link.notices.length ≤ 5 ∧ s.fe.crossingNow = false
    let paused (g : Groups) : State := inState .paused [⟨.pause, 1, true⟩] (at63 g)
    ok (at63 { pending := some 2 }) = true ∧ ok (at63 { shockMode := true, clean := 7 }) = true
      ∧ ok (at63 { shockMode := true, clean := 7, pending := some 2 }) = true
      ∧ ok (paused {}) = true ∧ ok (paused { shockMode := true, clean := 7, pending := some 2 }) = true
      ∧ ok (trackIn .pullin (paused {})) = true ∧ groupLaw ({} : Groups) := by decide

/-- A launch of group 2 pending, and shock mode on, with no incident due and with the off-track or the focus-lost count at its limit under
the group that becomes the active one; and neither. -/
theorem meets_LaunchAndShockExit :
    let ok (s : State) : Bool := s.settled ∧ groupLaw s.groups
    let pend : State := { reading with groups := { pending := some 2 } }
    let shocked : State := { reading with groups := { shockMode := true } }
    let off (s : State) : State := { s with track := { s.track with offCount := 4095 } }
    let lost (s : State) : State := { s with focus := { s.focus with lost := 4095 } }
    let r := reading.groups.recs[(2 : Fin 4)]
    let b := reading.groups.recs[(0 : Fin 4)]
    pend.groups.pending = some 2 ∧ pend.groups.shockMode = false ∧ pend.groups.base ≠ 2 ∧ shocked.groups.shockMode = true
      ∧ shocked.groups.pending = none ∧ shocked.groups.shock ≠ shocked.groups.base
      ∧ (ok pend = true ∧ ¬ pend.offReached r ∧ ¬ pend.lostReached r)
      ∧ (ok (off pend) = true ∧ (off pend).offReached r ∧ ¬ (off pend).lostReached r)
      ∧ (ok (lost pend) = true ∧ ¬ (lost pend).offReached r ∧ (lost pend).lostReached r)
      ∧ (ok shocked = true ∧ ¬ shocked.offReached b ∧ ¬ shocked.lostReached b)
      ∧ (ok (off shocked) = true ∧ (off shocked).offReached b ∧ ¬ (off shocked).lostReached b)
      ∧ (ok (lost shocked) = true ∧ ¬ (lost shocked).offReached b ∧ (lost shocked).lostReached b) := by decide

theorem meets_SpinFailDisengages :
    let idle (st : SpindleState) := spindleIn st State.reset
    let engaging (st : SpindleState) := spindleIn st (inState .engaging [⟨.engage, 1, true⟩] reading)
    let ok (s : State) : Bool := s.settled ∧ queueLaw s.seq.queue
    ok (idle .kick) = true ∧ (idle .kick).seq.state = .idle ∧ (idle .kick).spindle.state = .kick ∧ ok (idle .locking) = true
      ∧ ok (engaging .kick) = true ∧ ok (engaging .locking) = true ∧ (engaging .kick).seq.state ≠ .idle
      ∧ (engaging .kick).seq.state ≠ .standby ∧ (engaging .kick).seq.state ≠ .disengaging
      ∧ (engaging .kick).seq.state ≠ .recovering := by decide

theorem meets_BrakingEndsInStop :
    let braking (g : Groups) (eject : Bool) : State := { reading with
      seq := { state := .disengaging, queue := [⟨.disengage, 1, true⟩] }, spindle := { state := .braking, drive := -1024 }
      focus := {}, track := {}, groups := g, loader := { state := .clamped, ejectPending := eject } }
    let ok (s : State) : Bool :=
      s.settled ∧ s.spindle.state = .braking ∧ s.seq.state = .disengaging ∧ s.seq.laser = false ∧ s.loader.state = .clamped
        ∧ s.focus.state = .off ∧ s.track.state = .off ∧ s.sup.power = .active ∧ s.seq.queue.all (·.inProgress) = true
        ∧ s.seq.queue.length ≤ 1
    ok (braking {} false) = true ∧ ok (braking { pending := some 2 } false) = true ∧ ok (braking {} true) = true
      ∧ (braking {} true).sup.crankHold = false ∧ (braking {} true).sup.mute = false := by decide

theorem meets_EngageFails :
    let s := spindleIn .locking (inState .engaging [⟨.engage, 1, true⟩] reading)
    let searching := focusIn .search s
    let waiting : State := { s with seq := { s.seq with step := .engageReady, addrTimer := some 1000 }, seek := {} }
    (searching.settled ∧ queueLaw searching.seq.queue ∧ searching.seq.state = .engaging ∧ searching.turning
        ∧ searching.focus.state = .search)
      ∧ (waiting.settled ∧ waiting.turning ∧ waiting.seq.step = .engageReady ∧ waiting.seq.addrTimer ≠ none
          ∧ waiting.seek.valid = false) := by decide

/-- A valid frame of block 40,000, a frame with the flag bit clear, an address above the range, a frame of 31 bits. -/
theorem meets_AddressReports :
    let bits (flags a : Nat) : List Bool := (List.range 32).map (fun i => decide ((flags * 16777216 + a) / 2 ^ (31 - i) % 2 = 1))
    let value (b : List Bool) : Nat := (b.drop 8).foldl (fun n b => 2 * n + flag b) 0
    reading.settled ∧ reading.seq.state = .following ∧ reading.seek.leg ≠ .wait ∧ reading.seek.frame ≠ .unseen
      ∧ (bits 128 40000).length = 32 ∧ (bits 128 40000).head? = some true ∧ value (bits 128 40000) = 40000
      ∧ (bits 0 40000).head? = some false ∧ 4194303 < value (bits 128 4194304)
      ∧ ((bits 128 40000).take 31).length ≠ 32 := by decide

/-- The block 40,000 on track 3,200 as the fresh report of a seek to it, of one to block 40,100 on track 3,208 at its first and fourth
correction, and of one inward with INNER_LIMIT active; and in step 3 of an ENGAGE, the spindle locked and not. -/
theorem meets_address_waits :
    let seeks (b n : Nat) : State := { inState .seeking [seekEntry b true] reading with
      seek := { reading.seek with task := some (.seek b), leg := .wait, madeLeg := true, corrections := n } }
    let engages (st : SpindleState) (r : Option Nat) : State := { spindleIn st reading with
      seq := { state := .engaging, queue := [⟨.engage, 1, true⟩], step := .engageReady, fromStandby := r.isSome, resume := r } }
    let inner (s : State) : State := { s with sup := { s.sup with innerLimit := ⟨true, 0⟩ } }
    let ok (s : State) : Bool := s.settled ∧ s.seek.frame ≠ .unseen
    ok (seeks 40000 0) = true ∧ ok (seeks 40100 0) = true ∧ ok (seeks 40100 4) = true ∧ (seeks 40100 4).seek.madeLeg = true
      ∧ (8 : Int).natAbs ≤ reading.active[26] ∧ ok (inner (seeks 39000 0)) = true ∧ reading.seek.track 39000 < 3200
      ∧ reading.seek.track 40100 = 3208 ∧ reading.seek.track 40000 = 3200 ∧ reading.sup.innerLimit.level = false
      ∧ reading.track.state = .locked ∧ reading.fe.crossingNow = false
      ∧ ok (engages .locked none) = true ∧ ok (engages .locked (some 40000)) = true ∧ ok (engages .locking none) = true := by decide

/-- The same block in the address step of a recovery: without a resume address, under crank hold too, and with it; with nothing suspended,
and with each kind of entry suspended; and at the end of a suspended JUMP's return seek. -/
theorem meets_replays :
    let recovers (r : Option Nat) (q : List Entry) : State := { reading with
      seq := { state := .recovering, queue := q, laser := true, cause := .addressLost, attempts := 1, step := .recoverAddress
               resume := r } }
    let held (s : State) : State := { s with
      sup := { s.sup with supplyLow := ⟨true, 0⟩, crankHold := true }, spindle := { state := .coast, run := true } }
    let ok (s : State) : Bool := s.settled ∧ s.seek.frame ≠ .unseen ∧ s.seek.leg ≠ .wait
    let entry (m : Motion) : Entry := ⟨m, 1, true⟩
    ok (recovers none []) = true ∧ ok (recovers (some 40000) []) = true ∧ ok (held (recovers none [])) = true
      ∧ (∀ m ∈ [Motion.engage, .pause, .seek 40000, .seek 40100, .jump 3], ok (recovers (some 40000) [entry m]) = true)
      ∧ ok (held (recovers none [entry (.seek 40100)])) = true ∧ (held reading).sup.crankHold = true
      ∧ (recovers none []).seq.fromStandby = false ∧ reading.focus.state = .locked ∧ reading.spindle.state = .locked
      ∧ (3 : Int).natAbs ≤ reading.active[26] ∧ (3 : Int) ≠ 0 ∧ (entry .pause).inProgress = true
      ∧ (let s : State := { inState .suspended [entry (.jump 3)] reading with
            seek := { reading.seek with task := some (.seek 40000), leg := .wait } }
         s.settled ∧ s.seek.frame ≠ .unseen ∧ s.seek.leg = .wait) := by decide

theorem meets_WaitsAndReorders :
    let waits (n : Nat) : State := { inState .seeking [seekEntry 5 true] reading with
      seek := { reading.seek with leg := .wait, corrections := n, task := some (.seek 5) } }
    let retries (l : Leg) : State := { inState .seeking [seekEntry 5 true] reading with
      seek := { reading.seek with leg := l, retry := true, task := some (.seek 5) } }
    ((waits 3).settled ∧ (waits 3).fe.crossingNow = false ∧ (waits 3).seek.leg = .wait ∧ (waits 3).seek.corrections < 4)
      ∧ ((waits 4).settled ∧ (waits 4).seq.queue = [seekEntry 5 true] ∧ 4 ≤ (waits 4).seek.corrections
          ∧ (waits 4).seq.state = .seeking ∧ (inState .suspended [⟨.jump 3, 1, true⟩] (waits 4)).settled)
      ∧ ((retries (.jump (-3))).settled ∧ (retries (.jump (-3))).seek.retry = true ∧ (retries (.jump (-3))).track.state = .locked)
      ∧ ((retries (.move true 9 false)).settled ∧ (retries (.move true 9 false)).seek.leg = .move true 9 false) := by decide

/-- From block 40,000 on track 3,200: block 40,100 lies on track 3,208, within jump_max = 48; block 80,000 on track 6,400; block 39,999 on
track 3,199; block 40,001 on the same track, before and behind. INNER_LIMIT active before an inward SEEK and an inward JUMP; and a PAUSE
alone and with one behind it, a DISENGAGE and an ENGAGE. -/
theorem meets_EntryStartsSeek :
    let starts (m : Motion) (k : Seek) : State := { inState .following [⟨m, 7, false⟩] reading with seek := k }
    let inner (s : State) : State := { s with sup := { s.sup with innerLimit := ⟨true, 0⟩ } }
    let ok (s : State) : Bool :=
      s.settled ∧ s.seq.state = .following ∧ s.sup.crankHold = false ∧ s.track.state = .locked ∧ s.fe.crossingNow = false
    let x := reading.seek
    ok (starts (.seek 40100) x) = true ∧ reading.active[26] = 48 ∧ x.track 40000 = 3200 ∧ x.track 40100 = 3208
      ∧ x.track 80000 = 6400 ∧ x.track 40001 = 3200 ∧ ok (starts (.seek 40000) { x with aCur := 40001 }) = true
      ∧ ok (starts (.seek 40100) { x with valid := false }) = true ∧ ok (starts (.jump 3) x) = true
      ∧ ok (starts (.jump (-300)) x) = true ∧ (3 : Int).natAbs ≤ 48 ∧ 48 < (-300 : Int).natAbs
      ∧ reading.sup.innerLimit.level = false ∧ ok (inner (starts (.seek 39999) x)) = true ∧ x.track 39999 < 3200
      ∧ ok (inner (starts (.jump (-3)) x)) = true ∧ ok (starts .pause x) = true
      ∧ ok (inState .following [⟨.pause, 1, false⟩, ⟨.pause, 2, false⟩] reading) = true
      ∧ ok (starts .disengage x) = true ∧ reading.turning ∧ ok (starts .engage x) = true := by decide

theorem meets_EntryStartsInIdle :
    let idle (m : Motion) (l : LoaderState) : State := inState .idle [⟨m, 7, false⟩] (resting l)
    let standby (m : Motion) (l : LoaderState) : State :=
      let s := inState .standby [⟨m, 7, false⟩] (resting l)
      { s with sup := { s.sup with power := .standby }, seq := { s.seq with resume := some 40000 } }
    let ok (s : State) : Bool := s.settled ∧ (s.seq.state = .idle ∨ s.seq.state = .standby) ∧ s.sup.crankHold = false
    let starts (s : State) : Bool :=
      ok s ∧ s.loader.state = .clamped ∧ s.loader.ejectPending = false ∧ s.sup.mute = false ∧ s.spindle.state = .stopped
        ∧ s.focus.state = .off
    starts (idle .engage .clamped) = true ∧ starts (standby .engage .clamped) = true
      ∧ ok (idle .engage .empty) = true ∧ ok (standby .engage .empty) = true
      ∧ ∀ m ∈ [Motion.seek 5, .jump 5, .pause, .disengage], ok (idle m .clamped) = true ∧ ok (standby m .clamped) = true := by decide

theorem meets_RecoveryAndIdleTimers :
    let recovering (step : SeqStep) (n : Nat) (w : Option Nat) : State := { reading with
      seq := { reading.seq with state := .recovering, cause := .addressLost, attempts := n, step := step, loopWait := w } }
    let paused := inState .paused [⟨.pause, 1, true⟩] reading
    let ok (s : State) : Bool := s.settled ∧ queueLaw s.seq.queue ∧ s.turning
    (ok (trackIn .pullin (recovering .recoverLock 1 (some 20))) = true ∧ ok (trackIn .settling (recovering .recoverLock 1 (some 20))) = true
        ∧ (trackIn .settling (recovering .recoverLock 1 (some 20))).focus.state = .locked)
      ∧ (ok (recovering .recoverAddress 2 none) = true ∧ ok (recovering .recoverAddress 3 none) = true
          ∧ (recovering .recoverAddress 3 none).track.state = .locked)
      ∧ (ok reading = true ∧ reading.seq.state = .following ∧ reading.track.state = .locked)
      ∧ (∀ q ∈ [paused, inState .paused [] reading], ok q = true ∧ q.seq.state = .paused ∧ q.seq.queue.all (·.inProgress) = true
          ∧ q.sup.idleSetting ≠ 255)
      ∧ (let left := inState .paused [⟨.seek 5, 1, false⟩] reading
         ok left = true ∧ ∃ e ∈ left.seq.queue, e.inProgress = false)
      ∧ (let never : State := { paused with sup := { paused.sup with idleSetting := 255 } }
         ok never = true ∧ never.sup.idleSetting = 255) := by decide

theorem meets_LinesDebounce :
    let run (n : Nat) : State := { State.reset with sup := { slot := ⟨false, n⟩ } }
    (run 0).settled ∧ false = ((run 0).sup.line .slot).level ∧ true ≠ ((run 3).sup.line .slot).level
      ∧ ((run 3).sup.line .slot).run + 1 < (run 3).sup.debounce ∧ (run 4).sup.debounce ≤ ((run 4).sup.line .slot).run + 1
      ∧ DebLine.clampEnd ≠ .slot := by decide

theorem meets_LineChangesAct :
    let ok (s : State) : Bool :=
      s.settled ∧ s.spindle.state = .stopped ∧ s.seq.laser = false ∧ s.sup.crankHold = false ∧ s.sup.mute = false
        ∧ s.sup.power = .active
    let slotted (st : LoaderState) : State := { resting st with sup := { (resting st).sup with slot := ⟨true, 0⟩ } }
    let hand : State := { resting .empty with loader := { autoLoad := false } }
    ok (resting .pulling) = true ∧ (resting .pulling).sup.clampEnd.level = false
      ∧ ok (slotted .releasing) = true ∧ (slotted .releasing).sup.ejectEnd.level = false
      ∧ ok hand = true ∧ ok (resting .empty) = true ∧ (resting .empty).loader.autoLoad = true ∧ ok (slotted .presented) = true
      ∧ reading.settled ∧ reading.loader.state ≠ .pulling ∧ reading.loader.state ≠ .releasing ∧ reading.loader.state ≠ .empty
      ∧ reading.loader.state ≠ .presented := by decide

/-- INNER_LIMIT in the part that seeks inward: a jump in KICK, a move, an order not yet taken; the line's release; and an outward leg. -/
theorem meets_inner_limit :
    let inward (l : Leg) (t : TrackLoop) (r : Bool) : State := { inState .seeking [seekEntry 5 true] reading with
      seek := { reading.seek with task := some (.seek 5), leg := l, retry := r }, track := t }
    let ok (s : State) : Bool := s.settled ∧ s.sup.innerLimit.level = false ∧ s.seek.task ≠ none
    let inner : State := { reading with sup := { reading.sup with innerLimit := ⟨true, 0⟩ } }
    ok (inward (.jump (-3)) { state := .jumping, phase := .kick, jumpLen := -3 } false) = true
      ∧ ok (inward (.move false 40 false) { state := .openSeek, moveCount := 40 } false) = true
      ∧ ok (inward (.jump (-3)) { state := .settling } true) = true
      ∧ ok (inward (.jump 3) { state := .jumping, phase := .kick, jumpLen := 3 } false) = true
      ∧ ok (inward (.move false 40 true) { state := .pullin, attempt := 1 } false) = true
      ∧ inner.settled ∧ inner.sup.innerLimit.level = true ∧ reading.settled ∧ reading.seek.task = none := by decide

/-- The start in each state it works in: a move and a jump of a seek, an ENGAGE, a recovery and a suspended JUMP with their return seeks,
and FOLLOWING. The end: FOLLOWING; SUSPENDED left by HALT, with a SEEK, with a JUMP whose return is to be made, is made, or has nowhere to
go, and with an ENGAGE before its search, with focus held, and with both loops held; and a recovery before its return seek. -/
theorem meets_CrankHoldStartsAndEnds :
    let begins (s : State) : Bool := s.settled ∧ s.sup.supplyLow.level = false
    let tasked (b : Nat) (s : State) : State := { s with seek := { s.seek with task := some (.seek b), leg := .wait } }
    let moving := trackIn .openSeek (tasked 5 (inState .seeking [seekEntry 5 true] reading))
    let kicking : State := { inState .jumping [⟨.jump 3, 1, true⟩] reading with
      track := { state := .jumping, phase := .kick }, seek := { reading.seek with task := some (.jump 3), leg := .jump 3 } }
    let held (s : State) : State := { s with
      sup := { s.sup with supplyLow := ⟨true, 0⟩, crankHold := true }, spindle := { state := .coast, run := true } }
    let ok (s : State) : Bool :=
      s.settled ∧ s.sup.supplyLow.level = true ∧ s.sup.mute = false ∧ s.spindle.state = .coast ∧ s.spindle.run = true
        ∧ s.loader.state = .clamped
    let suspended (m : Motion) (r : Option Nat) (k : Seek) : State := held { reading with
      seq := { state := .suspended, queue := [⟨m, 1, true⟩], laser := true, resume := r }, seek := k }
    let lost : Seek := { reading.seek with valid := false }
    let recovering : State := held { reading with
      seq := { state := .recovering, laser := true, cause := .offTrack, attempts := 1, step := .recoverReturn, resume := some 5 }, seek := lost }
    (begins reading = true ∧ begins moving = true ∧ moving.current ≠ none ∧ begins kicking = true
        ∧ begins (inState .engaging [⟨.engage, 1, true⟩] reading) = true ∧ begins (tasked 5 (inState .recovering [] reading)) = true
        ∧ begins (tasked 5 (inState .suspended [⟨.jump 3, 1, true⟩] reading)) = true)
      ∧ (ok (held reading) = true ∧ (held reading).seq.queue = [])
      ∧ (ok (held (inState .suspended [] reading)) = true ∧ (held (inState .suspended [] reading)).current = none)
      ∧ ok (suspended (.seek 5) none lost) = true
      ∧ ok (suspended (.jump 3) (some 5) lost) = true ∧ ok (suspended (.jump 3) (some 40000) reading.seek) = true
      ∧ ok (suspended (.jump 3) none lost) = true ∧ (3 : Int).natAbs ≤ reading.active[26] ∧ reading.track.state = .locked
      ∧ ok (focusIn .off (trackIn .off (suspended .engage none lost))) = true
      ∧ ok (trackIn .off (suspended .engage none lost)) = true ∧ ok (suspended .engage none reading.seek) = true
      ∧ ok recovering = true := by decide

theorem meets_ShockLineTriggers :
    let ok (s : State) : Bool := s.settled ∧ groupLaw s.groups
    let asleep : State := { State.reset with sup := { power := .sleep } }
    let shocked : State := { reading with groups := { shockMode := true } }
    let off : State := { reading with track := { reading.track with offCount := 4095 } }
    let lost : State := { reading with focus := { reading.focus with lost := 4095 } }
    let r := reading.groups.recs[reading.groups.shock]
    ok asleep = true ∧ asleep.sup.power = .sleep ∧ ok reading = true ∧ reading.sup.shockSeen ≠ true
      ∧ reading.sup.edgeSelect = .rising ∧ reading.groups.shockMode = false ∧ reading.groups.shock ≠ reading.groups.base
      ∧ ok shocked = true ∧ shocked.groups.shockMode = true ∧ reading.sup.shockSeen = false
      ∧ (¬ reading.offReached r ∧ ¬ reading.lostReached r)
      ∧ (ok off = true ∧ off.offReached r ∧ ¬ off.lostReached r) ∧ (ok lost = true ∧ ¬ lost.offReached r ∧ lost.lostReached r) := by
  decide

theorem meets_DriverFaultMutes :
    let faulty : State := { resting .clamped with
      sup := { faultPin := true, faultLatch := true, mute := true }, spindle := { state := .coast, run := true } }
    (reading.settled ∧ queueLaw reading.seq.queue ∧ reading.sup.faultPin = false ∧ reading.turning ∧ reading.seq.state ≠ .idle)
      ∧ (faulty.settled ∧ faulty.sup.faultPin = true ∧ faulty.sup.crankHold = false ∧ faulty.spindle.state = .coast
          ∧ faulty.loader.state ≠ .empty ∧ faulty.seq.state ≠ .engaging) := by decide

theorem meets_LoaderEventsMove :
    let ok (s : State) : Bool :=
      s.signals = [] ∧ s.held = false ∧ s.spindle.state = .stopped ∧ s.seq.laser = false ∧ s.sup.crankHold = false ∧ s.sup.mute = false
        ∧ s.sup.clampEnd.level = false ∧ s.sup.ejectEnd.level = false ∧ s.sup.power ≠ .sleep
    let eject : State := { resting .clamped with loader := { state := .clamped, ejectPending := true } }
    let timed : State := { resting .presented with loader := { state := .presented, reload := some ⟨10000, 10000⟩ } }
    ok eject = true ∧ ok (resting .pulling) = true ∧ ok (resting .releasing) = true ∧ ok timed = true := by decide

theorem meets_LoadAndEjectRequests :
    let ok (s : State) : Bool := s.settled ∧ s.linkReady ∧ (s.sup.power = .active ∨ s.sup.power = .sleep) ∧ s.sup.mute = false
    let asleep (s : State) : State := { s with sup := { s.sup with power := .sleep } }
    let pending : State := { reading with loader := { state := .clamped, ejectPending := true } }
    ok (resting .empty) = true ∧ ok (resting .pulling) = true ∧ ok (resting .releasing) = true ∧ ok (resting .presented) = true
      ∧ ok (resting .jammed) = true ∧ ok (resting .clamped) = true ∧ ok pending = true
      ∧ ok reading = true ∧ reading.turning ∧ queueLaw reading.seq.queue ∧ (resting .clamped).sup.ejectEnd.level = false
      ∧ (resting .pulling).sup.ejectEnd.level = false ∧ (resting .jammed).sup.ejectEnd.level = false
      ∧ (resting .jammed).seq.state = .idle ∧ (resting .jammed).seq.queue = []
      ∧ ok (asleep (resting .empty)) = true ∧ ok (asleep (resting .clamped)) = true ∧ ok (asleep (resting .jammed)) = true := by decide

/-- Another address; a reply, a notice and nothing to read, with the port idle and after a transfer left open; and a transfer that goes on,
with the notice in flight as it was and changed, one byte before its end. -/
theorem meets_ReadsOut :
    let linked (l : Link) : State := { State.reset with link := l }
    let starts (s : State) : Bool := s.settled ∧ (s.link.rx = .read ∨ (s.link.rx = .idle ∧ s.link.flight = none))
    let flying (changed : Bool) : Link :=
      { rx := .read, notices := [⟨.power, [1]⟩], flight := some ⟨⟨0x47, 0, [1]⟩, .notice, changed, 4⟩ }
    (0x2D : BitVec 7) ≠ 0x2C ∧ starts State.reset = true ∧ starts (linked { reply := some ⟨0x83, 0, [1]⟩ }) = true
      ∧ starts (linked { notices := [⟨.power, [0]⟩] }) = true ∧ starts (linked (flying false)) = true
      ∧ (flying true).flight = some ⟨⟨0x47, 0, [1]⟩, .notice, true, 4⟩ ∧ (linked (flying true)).settled := by decide

/-- R195: a notice replaced while its copy is in flight stays in the queue when the copy's check byte has gone out. -/
theorem test_changed_notice_stays :
    let read (changed : Bool) : Option (List Notice) :=
      after (exec (.readTransfer none 1 true) { State.reset with
        link := { rx := .read, notices := [⟨.power, [1]⟩], flight := some ⟨⟨0x47, 0, [1]⟩, .notice, changed, 4⟩ } })
        (·.link.notices)
    read true = some [⟨.power, [1]⟩] ∧ read false = some [] := by decide

theorem meets_WriteTransfers :
    let opened (b : List Byte) : State := { State.reset with link := { rx := .write, buffer := b } }
    State.reset.settled ∧ State.reset.link.rx = .idle ∧ State.reset.link.reply = none ∧ (0x2D : BitVec 7) ≠ 0x2C
      ∧ (24 : Byte).toNat ≤ 24 ∧ 24 < (25 : Byte).toNat
      ∧ (opened []).settled ∧ (opened []).link.rx = .write ∧ (opened []).link.buffer = []
      ∧ (opened [3]).link.buffer = [3] ∧ (opened [3, 1]).link.buffer = 3 :: 1 :: [] ∧ ([] : List Byte).length < 1 + (1 : Byte).toNat
      ∧ (opened [3, 25]).link.buffer = 3 :: 25 :: [] ∧ (opened [3, 0, 0xFD]).link.buffer = 3 :: 0 :: ([] ++ [0xFD]) := by decide

/-- 0x1D, 0x00 with the check byte 0xE3: an unknown kind with a right check; 0x01 with one payload byte: a length not allowed. -/
theorem meets_BadRecordsAreAnswered :
    ([0x1D, 0x00, 0xE3] : List Byte).foldl (fun x y => x + y) 0 = 0 ∧ 0x1C < (0x1D : Byte).toNat
      ∧ ([0x01, 0x01, 0x05, 0xF9] : List Byte).foldl (fun x y => x + y) 0 = 0 ∧ lengthAllowed 0x01 [5] = false
      ∧ ([0x01, 0x00, 0x00] : List Byte).foldl (fun x y => x + y) 0 ≠ 0
      ∧ State.reset.link.reply = none := by decide

theorem meets_NoticesArePosted :
    let l : Link := { notices := [⟨.power, [0]⟩] }
    let full : Link := { notices := List.replicate 8 ⟨.motionDone, [0, 0, 0]⟩ }
    State.reset.settled ∧ ({ mask := 0x80 } : Link).mask.getLsbD (NoticeKind.power.code - 0x40) = true
      ∧ l.mask.getLsbD (NoticeKind.power.code - 0x40) = false ∧ NoticeKind.power.isState = true
      ∧ l.notices.any (fun x => decide (x.kind = .power)) = true ∧ NoticeKind.motionDone.isState = false
      ∧ l.notices.length < 8 ∧ 8 ≤ full.notices.length := by decide

theorem meets_PowerRequests :
    let mode (p : Power) (st : SeqState) : State := { resting .clamped with sup := { power := p }, seq := { state := st } }
    let ok (s : State) : Bool := s.settled ∧ s.linkReady ∧ queueLaw s.seq.queue
    ok (mode .active .idle) = true ∧ ok (mode .standby .standby) = true ∧ ok (mode .sleep .idle) = true ∧ ok (mode .sleep .standby) = true
      ∧ ok (resting .pulling) = true ∧ ok reading = true ∧ reading.turning ∧ (mode .active .idle).spindle.state = .stopped
      ∧ 2 < (3 : Byte).toNat := by decide

theorem meets_MotionRequests :
    let ok (s : State) : Bool := s.settled ∧ s.linkReady ∧ queueLaw s.seq.queue
    let asleep : State := { resting .clamped with sup := { (resting .clamped).sup with power := .sleep } }
    let latched : State := { State.reset with sup := { faultLatch := true } }
    let busy (q : List Entry) := inState .seeking (seekEntry 5 true :: q) reading
    let four := busy [⟨.pause, 1, false⟩, ⟨.pause, 2, false⟩, ⟨.pause, 3, false⟩]
    ok latched = true ∧ ok State.reset = true ∧ ok asleep = true ∧ ok (busy []) = true ∧ ok (busy [seekEntry 6 false]) = true
      ∧ ok (busy [⟨.jump 3, 1, false⟩]) = true ∧ ok four = true ∧ four.seq.queue.length = 4 ∧ (busy []).seq.queue.length < 4
      ∧ (∀ st ∈ [SeqState.idle, .standby], ok (inState st [] (resting .clamped)) = true) ∧ ok reading = true
      ∧ ok (inState .paused [⟨.pause, 1, true⟩] reading) = true ∧ ok (inState .paused [] reading) = true
      ∧ (inState .paused [] reading).current = none
      ∧ (busy [seekEntry 6 false]).seq.queue.getLast? = some (seekEntry 6 false)
      ∧ (busy [⟨.jump 3, 1, false⟩]).seq.queue.getLast? = some ⟨.jump 3, 1, false⟩ ∧ (5 : Nat) < 16777216 := by decide

theorem meets_HaltRequest :
    let ok (s : State) : Bool := s.settled ∧ s.linkReady ∧ queueLaw s.seq.queue ∧ s.turning
    let seeking := inState .seeking [seekEntry 5 true] reading
    let paused := inState .paused [⟨.pause, 1, true⟩] reading
    let suspended (m : Motion) := inState .suspended [⟨m, 1, true⟩] reading
    let engaging := inState .engaging [⟨.engage, 1, true⟩] reading
    let recovering := inState .recovering [] reading
    ok reading = true ∧ ok seeking = true ∧ seeking.track.state = .locked ∧ seeking.current.map (·.motion) ≠ some .engage
      ∧ ok paused = true ∧ ok (suspended (.seek 5)) = true ∧ ok (trackIn .off seeking) = true ∧ ok (trackIn .openSeek seeking) = true
      ∧ ok (trackIn .pullin paused) = true
      ∧ ok engaging = true ∧ engaging.current.map (·.motion) = some .engage
      ∧ ok (suspended .engage) = true ∧ (suspended .engage).current.map (·.motion) = some .engage
      ∧ ok recovering = true ∧ recovering.focus.state = .locked ∧ recovering.track.state = .locked
      ∧ ok (focusIn .search (trackIn .off recovering)) = true ∧ ok (trackIn .settling recovering) = true := by decide

theorem meets_CommandsLeaveTheQueue : after (exec .attnPulseEnd State.reset) (·.pending) = some [] := by decide

/-- One state for the statements about every step: it meets the laws, and its step answers a next state. -/
def stepping : State := { reading with pending := [.attnPulseEnd] }

theorem meets_step_answers : after (step stepping) (·.pending) = some [] := by decide
theorem meets_StepKeepsQueues : queueLaw stepping.seq.queue ∧ noticeLaw stepping.link.notices := by decide
theorem meets_StepKeepsZoneTable : zoneLaw stepping.seek := by decide
theorem meets_StepKeepsGroups : groupLaw stepping.groups ∧ shockLaw stepping.groups ∧ stepping.coefficientLaw := by decide
theorem meets_StepKeepsOutputsSafe :
    groupLaw stepping.groups ∧ stepping.driveLaw ∧ stepping.loaderLaw ∧ stepping.laserLaw ∧ stepping.muteLaw ∧ stepping.atRest
      ∧ stepping.settingLaw := by decide

theorem meets_StepKeepsDiscTables : stepping.feedforwardLaw ∧ stepping.defectLaw := by
  refine ⟨by decide, by decide, fun i d h => ?_⟩
  have : ∀ j : Fin 32, stepping.defects.entries[j] = none := by decide
  simp [this i] at h

end Sys2Proof.Tests
end

