-- ==== Sys2Proof/Proofs/TableClear.lean ====
section
/-! SUPPORT. TABLE CLEAR (R33): what clearing the feedforward does to each record of the Revolution Table, what it leaves of the
rest of the machine, and the request that carries it. -/

namespace Sys2Proof.Machine

/-! ## A machine at rest -/

/-- Whether a machine is at rest is a matter of its sequence of signals and of its loader: neither the Revolution Table nor the link
has a part in it. -/
theorem atRest_setRev_setLink {s : State} (h : s.atRest) (v : Vector RevRecord 64) (l : Link) :
    ((s.setRev v).setLink l).atRest := h

/-! ## The clearing of the table -/

/-- Only the Revolution Table changes. -/
theorem clearFeedforward_frame (s : State) : clearFeedforward s = s.setRev (clearFeedforward s).rev := rfl

/-- The link has no part in it. -/
theorem clearFeedforward_setLink (s : State) (l : Link) :
    clearFeedforward (s.setLink l) = (clearFeedforward s).setLink l := rfl

@[simp] theorem clearFeedforward_link (s : State) : (clearFeedforward s).link = s.link := rfl

/-- The current bin's record is wholly 0; every other record loses its feedforward values and keeps its accumulators. -/
theorem clearFeedforward_rev_getElem (s : State) (b : Fin 64) :
    (clearFeedforward s).rev[b] =
      if b = s.angle.bin then ⟨0, 0, 0, 0, 0, 0⟩ else { s.rev[b] with trkFf := 0, focFf := 0 } := by
  by_cases hb : b = s.angle.bin
  · subst hb
    simp [clearFeedforward]
  · have hne : s.angle.bin.val ≠ b.val := fun h => hb (Fin.ext h.symm)
    simp [clearFeedforward, hb, hne]

/-! ## The request -/

/-- The request on a ready link clears the table and is answered OK. -/
theorem request_tableClear {s : State} (h : s.linkReady) :
    request 0x0B [] s = (clearFeedforward s).setLink (s.link.answered 0x0B [] 0x00 []) := by
  rw [request_ready h (by decide) (by decide) (by decide)]
  rw [handOver, takeTableClear, clearFeedforward_setLink, ← clearFeedforward_link s]
  exact reply_answered (clearFeedforward s) 0x0B [] .ok [] (by decide)

/-- In a settled machine nothing follows from the request. -/
theorem exec_tableClear {s : State} (hs : s.settled) (h : s.linkReady) :
    exec (.tableClear []) s = .next ((clearFeedforward s).setLink (s.link.answered 0x0B [] 0x00 [])) := by
  obtain ⟨hrest, hheld⟩ := hs
  have hclear := request_tableClear h
  calc exec (.tableClear []) s
      = done (request 0x0B []) s := rfl
    _ = .next (request 0x0B [] s) := done_of_atRest _ hheld (by
        rw [hclear, clearFeedforward_frame]; exact atRest_setRev_setLink hrest _ _)
    _ = _ := by rw [hclear]

/-- Settles O10: the request is the clearing of the table with its reply, and the clearing is said record by record. -/
theorem tableClearRequest : Obligations.TableClearRequest := by
  unfold Obligations.TableClearRequest
  intro s hs h
  exact ⟨_, exec_tableClear hs h, rfl, clearFeedforward_rev_getElem s⟩

end Sys2Proof.Machine
end

