-- ==== Sys2Proof/Proofs/Disengage.lean ====
section
/-! SUPPORT. The disengage, order by order (R143): what opening the loops, ending shock mode and entering DISENGAGING each leave, and
what they leave together where the spindle brakes already. -/

namespace Sys2Proof.Machine

/-! ## Opening the loops (R56, R70) -/

/-- Only a pass that has hit is kept where focus is left. -/
theorem onFocusLeft_eq (p : Pass) : p.onFocusLeft = if p = .hit then .hit else .none := by
  cases p <;> rfl

theorem focusLeft_eq (t : DefectTable) :
    t.focusLeft = { t with
      entries := t.entries.map (fun d => d.map (fun d => if d.pass = .hit then d else { d with pass := .none })) } := by
  have hpass : (fun d : Defect => { d with pass := d.pass.onFocusLeft })
      = fun d => if d.pass = .hit then d else { d with pass := .none } := by
    funext d
    by_cases h : d.pass = .hit
    · rw [if_pos h, onFocusLeft_eq, if_pos h, ← h]
    · rw [if_neg h, onFocusLeft_eq, if_neg h]
  simp only [DefectTable.focusLeft, DefectTable.update, mapTable_eq_map, hpass]

/-- Both loops OFF, the hold and the passes under way dropped, a sled move ended. -/
def State.loopsOpened (s : State) : State :=
  { s with
    focus := focusOff
    track := trackOff
    det := { s.det with inHold := false }
    defects :=
      if s.focus.state = .locked ∨ s.focus.state = .hold then
        { s.defects with
          entries := s.defects.entries.map (fun d => d.map (fun d => if d.pass = .hit then d else { d with pass := .none })) }
      else s.defects
    sled := if s.track.state = .openSeek then { s.sled with drive := 0, move := none } else s.sled }

theorem openFocus_eq (s : State) : openFocus s = s.loopsOpened := by
  have hheld : (s.focusHeld = true) = (s.focus.state = .locked ∨ s.focus.state = .hold) := by simp [State.focusHeld]
  simp only [openFocus, openTrack, focusToOff, hheld, focusLeft_eq]
  rfl

/-! ## The end of shock mode (R93) -/

/-- With neither loop held no counter raises an incident (R53, R55). -/
theorem raiseDue_of_open {s : State} (hf : s.focusHeld = false) (ht : s.trackHeld = false) : raiseDue s = s := by
  simp [raiseDue, State.offTrackDue, State.focusLostDue, hf, ht]

/-- With both loops open a group switch moves the Front End's coefficient and level alone (R9, R10, R81). -/
theorem groupSwitch_of_open {s : State} (hf : s.focusHeld = false) (ht : s.trackHeld = false) :
    groupSwitch s = s.setFe (s.fe.underGroup s.active) := by
  rw [groupSwitch, raiseDue_of_open (s := s.setFe (s.fe.switchGroup s.active)) hf ht]
  rfl

/-- The Group Store with shock mode over. -/
def Groups.unshocked (g : Groups) : Groups := { g with shockMode := false, clean := 0, disturbed := false }

/-- Out of shock mode the base group is the active one: a switch where the shock group is another. -/
theorem regroup_unshocked {s : State} (hm : s.groups.shockMode = true) (hf : s.focusHeld = false) (ht : s.trackHeld = false) :
    regroup s.groups.unshocked s = (s.setGroups s.groups.unshocked).setFe
      (if s.groups.shock ≠ s.groups.base then s.fe.underGroup s.groups.recs[s.groups.base] else s.fe) := by
  by_cases hg : s.groups.shock = s.groups.base
  · rw [regroup_same (by simp [Groups.unshocked, activeId, hm, hg]), if_neg (not_not_intro hg)]
    rfl
  · rw [regroup_switch (by simp [Groups.unshocked, activeId, hm, Ne.symm hg]),
      groupSwitch_of_open (s := s.setGroups s.groups.unshocked) hf ht, if_pos hg]
    rfl

/-- Shock mode over, with the SHOCK notice and what the switch of groups makes of the Front End. -/
def State.shockEnded (s : State) : State :=
  { s with
    fe :=
      if s.groups.shockMode = true ∧ s.groups.shock ≠ s.groups.base then s.fe.underGroup s.groups.recs[s.groups.base] else s.fe
    groups := if s.groups.shockMode then s.groups.unshocked else s.groups
    link := s.link.postAll (if s.groups.shockMode then [⟨.shock, [0, byte s.groups.base.val]⟩] else []) }

theorem endShock_of_open {s : State} (hf : s.focusHeld = false) (ht : s.trackHeld = false) : endShock s = s.shockEnded := by
  by_cases hm : s.groups.shockMode = true
  · calc endShock s
        = post .shock [0, byte (regroup s.groups.unshocked s).groups.base.val] (regroup s.groups.unshocked s) := by
          rw [endShock, if_pos hm]
          rfl
      _ = s.shockEnded := by
          rw [regroup_unshocked hm hf ht]
          simp only [State.shockEnded, hm, if_true, true_and]
          rfl
  · simp only [endShock, State.shockEnded, hm, false_and, if_false, Bool.false_eq_true, postAll_nil]

/-! ## The entry to DISENGAGING (R97, R143, R185) -/

/-- The sequencer in DISENGAGING, without the steps, timers and incident record of the state left; out of SEEKING the target is that of
the own address again. -/
def State.enteredDisengaging (s : State) : State :=
  { s with
    spindle := { s.spindle with target := if s.seq.state = .seeking then s.ownTarget else s.spindle.target }
    seq := { s.seq with
      state := .disengaging, step := .none, addrTimer := none, loopWait := none, recTimer := 0, cause := .none, attempts := 0 }
    sup := { s.sup with idleTimer := none } }

theorem setSeqState_disengaging (s : State) : setSeqState .disengaging s = s.enteredDisengaging := by
  by_cases hs : s.seq.state = .seeking
  · simp only [setSeqState, State.enteredDisengaging, hs, if_true]
    rfl
  · simp only [setSeqState, State.enteredDisengaging, hs, if_false]
    rfl

/-! ## The disengage with the spindle in BRAKING (R143) -/

/-- The spindle as an entry to BRAKING with the run demand cleared leaves it (R96, R102, R103). -/
def Spindle.braked (x : Spindle) : Spindle :=
  { x with state := .braking, run := false, drive := -1024, lockRun := 0, unlockRun := 0, timer := 0 }

/-- A spindle that brakes already takes no further change from a brake order (R96). -/
theorem brakeOrder_of_braked {s : State} (h : s.spindle = s.spindle.braked) : brakeOrder s = s := by
  have hstate : s.spindle.state = .braking := by rw [h]; rfl
  have hrun : { s.spindle with run := false } = s.spindle := by rw [h]; rfl
  calc brakeOrder s
      = s.setSpindle { s.spindle with run := false } := by simp only [brakeOrder, setSpindle_spindle, hstate]
    _ = s := by rw [hrun]; rfl

/-- The laser demand cleared. -/
def State.unlit (s : State) : State := s.setSeq { s.seq with laser := false }

/-- The address no longer valid. -/
def State.unread (s : State) : State := s.setSeek { s.seek with valid := false }

/-- Where a disengage ends: in STANDBY for a standby order, else in IDLE. -/
def State.bound (s : State) (standby : Bool) : State := s.setSeq { s.seq with toStandby := standby }

theorem disengageSteps_of_braked {s : State} (h : s.spindle = s.spindle.braked) :
    disengageSteps s = (cancelTask s).loopsOpened.unlit.shockEnded.unread := by
  calc disengageSteps s
      = (endShock (brakeOrder (openFocus (cancelTask s)).unlit)).unread := rfl
    _ = (endShock (brakeOrder (cancelTask s).loopsOpened.unlit)).unread := by rw [openFocus_eq]
    _ = (endShock (cancelTask s).loopsOpened.unlit).unread :=
        congrArg (fun u => (endShock u).unread) (brakeOrder_of_braked (s := (cancelTask s).loopsOpened.unlit) h)
    _ = (cancelTask s).loopsOpened.unlit.shockEnded.unread := by rw [endShock_of_open rfl rfl]

theorem disengage_eq_of_braked (standby : Bool) {s : State} (h : s.spindle = s.spindle.braked) :
    disengage standby s = (((cancelTask s).loopsOpened.unlit.shockEnded.unread).bound standby).enteredDisengaging := by
  have hturns : (cancelTask s).loopsOpened.unlit.shockEnded.unread.spindle.state ≠ .stopped := by
    show s.spindle.state ≠ .stopped
    rw [h]
    exact SpindleState.noConfusion
  rw [disengage, disengageSteps_of_braked h]
  exact (if_neg hturns).trans (setSeqState_disengaging _)

/-- Notices posted before a disengage are the first of those it posts. -/
theorem disengaged_postAll (s : State) (standby : Bool) (first ends : List Notice) :
    (s.setLink (s.link.postAll first)).disengaged standby ends = s.disengaged standby (first ++ ends) := by
  simp only [State.disengaged, setLink_link, List.append_assoc, postAll_append]
  rfl

/-- A disengage of a spindle that brakes and was not LOCKED before, with nothing left in the queue. -/
theorem disengage_of_braked (standby : Bool) {s : State} (hl : s.spindle.state ≠ .locked) :
    disengage standby ((s.setSpindle s.spindle.braked).setSeq { s.seq with queue := [] })
      = (s.disengaged standby []).setSignals (s.signals.filter (fun x => !x.isOutcome)) := by
  rw [disengage_eq_of_braked standby rfl]
  simp only [State.disengaged, if_neg hl, List.nil_append, State.enteredDisengaging, State.bound, State.unread,
    State.shockEnded, Groups.unshocked, State.unlit, State.loopsOpened, cancelTask, State.setSeq, State.setSeek,
    State.setSignals, State.setSpindle, Spindle.braked, Seek.dropTask, State.ownTarget]
  rfl

end Sys2Proof.Machine
end

