-- ==== Sys2Proof/Proofs/SpinFail.lean ====
section
/-! SUPPORT. The timeouts of KICK and LOCKING (R99, R100, R102): the spindle's part, the sequencer's answer to SPIN_FAIL (R154), and the
end of the step. -/

namespace Sys2Proof.Machine

/-! ## A spindle that is not STOPPED gives no motor permit (R159) -/

theorem motorPermit_of_not_stopped {s : State} (h : s.spindle.state ≠ .stopped) : s.motorPermit = false := by
  simp [State.motorPermit, h]

theorem atRest_iff_of_not_stopped {s : State} (h : s.spindle.state ≠ .stopped) :
    s.atRest ↔ s.signals = [] ∧ s.loader.drive = 0 := by
  simp [State.atRest, State.loaderDemand, motorPermit_of_not_stopped h]

/-- While the spindle turns the motor permit is not given, so what is at rest stays so whatever befalls the other blocks. -/
theorem atRest_of_not_stopped {s t : State} (hs : s.spindle.state ≠ .stopped) (ht : t.spindle.state ≠ .stopped)
    (hrest : s.atRest) (hsig : t.signals = []) (hload : t.loader = s.loader) : t.atRest := by
  rw [atRest_iff_of_not_stopped ht, hload]
  exact ⟨hsig, ((atRest_iff_of_not_stopped hs).mp hrest).2⟩

/-! ## The spindle's part (R102) -/

/-- KICK or LOCKING: the states that a timeout ends in SPIN_FAIL. -/
abbrev State.spinningUp (s : State) : Prop := s.spindle.state = .kick ∨ s.spindle.state = .locking

theorem spinningUp_ne {s : State} (h : s.spinningUp) :
    s.spindle.state ≠ .stopped ∧ s.spindle.state ≠ .locked ∧ s.spindle.state ≠ .braking := by
  rcases h with h | h <;> simp [h]

/-- The spindle brakes with its run demand cleared, and hands SPIN_FAIL and its own change on to the sequencer. -/
theorem spinFails_eq {s : State} (h : s.spinningUp) :
    spinFails s = (s.setSpindle s.spindle.braked).setSignals (s.signals ++ [.spinFail, .spindleMoved]) := by
  obtain ⟨_, _, hne⟩ := spinningUp_ne h
  have hquiet : spindleReports s.spindle.state .braking = false := by rcases h with h | h <;> simp [spindleReports, h]
  simp only [spinFails, enterBraking, setSpindleState, emit_eq, setSignals_spindle, setSpindle_spindle, hquiet,
    Bool.false_eq_true, if_false, if_neg hne]
  simp only [setSignals_signals, setSpindle_signals, List.append_assoc]
  rfl

/-! ## The sequencer's answer (R154) -/

/-- What R154 reports before the entry ends: a recovery's FAILED, or a FAILED of cause SPIN_FAIL where nothing was in progress. -/
def State.spinFailReport (s : State) : List Notice :=
  if s.seq.state = .recovering then [⟨.recovery, [byte s.seq.cause.code, 1, byte s.seq.attempts]⟩]
  else if s.current = none then [⟨.recovery, [4, 1, 0]⟩] else []

theorem engageAdvance_of_not_engaging {s : State} (h : s.seq.state ≠ .engaging) : engageAdvance s = s := by
  simp [engageAdvance, h]

theorem seqSpinFail_of_disengaged {s : State} (h : s.seq.state = .idle ∨ s.seq.state = .standby ∨ s.seq.state = .disengaging) :
    seqSpinFail s = s := by
  rcases h with h | h | h <;> simp [seqSpinFail, SeqState.engaged, h]

theorem seqSpinFail_of_engaged {s : State} (hi : s.seq.state ≠ .idle) (hs : s.seq.state ≠ .standby)
    (hd : s.seq.state ≠ .disengaging) :
    seqSpinFail s = failureEnd .spinFail (s.setLink (s.link.postAll s.spinFailReport)) := by
  have hengaged : (s.seq.state.engaged && !(s.seq.state = .disengaging)) = true := by simp [SeqState.engaged, hi, hs, hd]
  rw [seqSpinFail, if_pos hengaged]
  refine congrArg (failureEnd .spinFail) ?_
  by_cases hr : s.seq.state = .recovering
  · simp only [State.spinFailReport, if_pos hr]
    rfl
  · by_cases hc : s.current = none
    · simp only [State.spinFailReport, if_neg hr, hc, Option.isNone_none, if_true]
      rfl
    · simp only [State.spinFailReport, if_neg hr, if_neg hc, Option.isNone_iff_eq_none, postAll_nil]
      rfl

/-- A failure end of a spindle that brakes and was not LOCKED before (R136, R143). -/
theorem failureEnd_of_braked (o : EndOutcome) {s : State} (hq : queueLaw s.seq.queue) (hl : s.spindle.state ≠ .locked) :
    failureEnd o (s.setSpindle s.spindle.braked)
      = (s.disengaged false (allEnd o.code s.seq.queue)).setSignals (s.signals.filter (fun x => !x.isOutcome)) := by
  rw [failureEnd, flush_endEntry_eq o (s := s.setSpindle s.spindle.braked) hq]
  have h := disengage_of_braked false (s := s.setLink (s.link.postAll (allEnd o.code s.seq.queue))) hl
  rw [disengaged_postAll, List.append_nil] at h
  exact h

/-! ## The end of the step -/

/-- The step takes SPIN_FAIL, then the spindle's own change, which is nothing to a sequencer that is not ENGAGING. -/
theorem settle_spinFails {s t : State} (h : s.spinningUp) (hs : s.signals = [])
    (hfail : seqSpinFail ((s.setSpindle s.spindle.braked).setSignals [.spindleMoved]) = t.setSignals [.spindleMoved])
    (hrest : t.atRest) (hstate : t.seq.state ≠ .engaging) : settle (spinFails s) = t := by
  have hdrain : drain 64 (spinFails s) = t := by
    rw [spinFails_eq h, hs, drain_cons 63 rfl]
    calc drain 63 (seqSpinFail ((s.setSpindle s.spindle.braked).setSignals [.spindleMoved]))
        = drain 62 (engageAdvance (t.setSignals [])) := by rw [hfail, drain_cons 62 rfl]; rfl
      _ = drain 62 (t.setSignals []) := by rw [engageAdvance_of_not_engaging (s := t.setSignals []) hstate]
      _ = t.setSignals [] := drain_of_quiet 62 rfl
      _ = t := by rw [← hrest.1]; rfl
  rw [settle, hdrain, loaderTest_of_atRest hrest]

/-- In a disengaged state the spindle alone changes. -/
theorem settle_spinFails_of_disengaged {s : State} (h : s.spinningUp) (hrest : s.atRest)
    (hstate : s.seq.state = .idle ∨ s.seq.state = .standby ∨ s.seq.state = .disengaging) :
    settle (spinFails s) = s.setSpindle s.spindle.braked := by
  obtain ⟨hturns, _, _⟩ := spinningUp_ne h
  have hne : s.seq.state ≠ .engaging := by rcases hstate with h | h | h <;> simp [h]
  exact settle_spinFails h hrest.1 (seqSpinFail_of_disengaged hstate)
    (atRest_of_not_stopped hturns SpindleState.noConfusion hrest hrest.1 rfl) hne

/-- In an engaged state the report comes first, then the ends, then the disengage. -/
theorem settle_spinFails_of_engaged {s : State} (h : s.spinningUp) (hrest : s.atRest) (hq : queueLaw s.seq.queue)
    (hi : s.seq.state ≠ .idle) (hs : s.seq.state ≠ .standby) (hd : s.seq.state ≠ .disengaging) :
    settle (spinFails s) = s.disengaged false (s.spinFailReport ++ allEnd 4 s.seq.queue) := by
  obtain ⟨hturns, hl, _⟩ := spinningUp_ne h
  have hfail : seqSpinFail ((s.setSpindle s.spindle.braked).setSignals [.spindleMoved])
      = (s.disengaged false (s.spinFailReport ++ allEnd 4 s.seq.queue)).setSignals [.spindleMoved] := by
    calc seqSpinFail ((s.setSpindle s.spindle.braked).setSignals [.spindleMoved])
        = failureEnd .spinFail
            (((s.setSignals [.spindleMoved]).setLink (s.link.postAll s.spinFailReport)).setSpindle s.spindle.braked) :=
          seqSpinFail_of_engaged hi hs hd
      _ = (((s.setSignals [.spindleMoved]).setLink (s.link.postAll s.spinFailReport)).disengaged false
            (allEnd 4 s.seq.queue)).setSignals [.spindleMoved] :=
          failureEnd_of_braked .spinFail (s := (s.setSignals [.spindleMoved]).setLink (s.link.postAll s.spinFailReport)) hq hl
      _ = _ := congrArg (·.setSignals [.spindleMoved]) (disengaged_postAll (s.setSignals [.spindleMoved]) false _ _)
  exact settle_spinFails h hrest.1 hfail (atRest_of_not_stopped hturns SpindleState.noConfusion hrest hrest.1 rfl)
    SeqState.noConfusion

theorem exec_kickTimeout {s : State} (hs : s.held = false) (h : s.spindle.state = .kick) :
    exec .kickTimeout s = .next (settle (spinFails s)) := by
  calc exec .kickTimeout s
      = done kickTimeout s := rfl
    _ = .next (settle (kickTimeout s)) := done_of_running _ hs
    _ = _ := by rw [kickTimeout, if_pos h]

theorem exec_lockingTimeout {s : State} (hs : s.held = false) (h : s.spindle.state = .locking) :
    exec .lockingTimeout s = .next (settle (spinFails s)) := by
  calc exec .lockingTimeout s
      = done lockingTimeout s := rfl
    _ = .next (settle (lockingTimeout s)) := done_of_running _ hs
    _ = _ := by rw [lockingTimeout, if_pos h]

/-- Settles O33: either timeout is the failed spin-up, which the sequencer answers by its state. -/
theorem spinFailDisengages : Obligations.SpinFailDisengages := by
  unfold Obligations.SpinFailDisengages
  intro s hs hq
  obtain ⟨hrest, hheld⟩ := hs
  refine ⟨fun hstate => ⟨fun hk => ?_, fun hl => ?_⟩, fun hi hst hd => ⟨fun hk => ?_, fun hl => ?_⟩⟩
  · rw [exec_kickTimeout hheld hk, settle_spinFails_of_disengaged (.inl hk) hrest hstate]
    rfl
  · rw [exec_lockingTimeout hheld hl, settle_spinFails_of_disengaged (.inr hl) hrest hstate]
    rfl
  · rw [exec_kickTimeout hheld hk, settle_spinFails_of_engaged (.inl hk) hrest hq hi hst hd]
    rfl
  · rw [exec_lockingTimeout hheld hl, settle_spinFails_of_engaged (.inr hl) hrest hq hi hst hd]
    rfl

end Sys2Proof.Machine
end

