-- ==== Sys2Proof/Proofs/Queries.lean ====
section
/-! SUPPORT. The questions of the host (R201 to R203): a question that a settled part answers changes the link alone, and the bytes of
its reply are those of R207. -/

namespace Sys2Proof.Machine

/-! ## A question changes the link alone -/

/-- The link has no part in whether a machine is at rest. -/
theorem atRest_setLink {s : State} (h : s.atRest) (l : Link) : (s.setLink l).atRest := atRest_setRev_setLink h s.rev l

/-- In a settled machine nothing follows from a command that changes the link alone. -/
theorem done_of_setLink {f : State → State} {s : State} {l : Link} (hs : s.settled) (hf : f s = s.setLink l) :
    done f s = .next (s.setLink l) := by
  obtain ⟨hrest, hheld⟩ := hs
  rw [done_of_atRest f hheld (by rw [hf]; exact atRest_setLink hrest l), hf]

/-! ## Flag bytes -/

/-- A byte of eight flags, bit 7 first. -/
theorem bitsByte_eight (b7 b6 b5 b4 b3 b2 b1 b0 : Bool) :
    bitsByte [b7, b6, b5, b4, b3, b2, b1, b0]
      = byte (128 * flag b7 + 64 * flag b6 + 32 * flag b5 + 16 * flag b4 + 8 * flag b3 + 4 * flag b2 + 2 * flag b1 + flag b0) := by
  simp only [bitsByte, bitsNat, List.foldl_cons, List.foldl_nil]
  congr 1
  omega

/-! ## IDENT (R203) -/

/-- The part number 2640 is 0x0A50, the design revision is 1. -/
theorem identPayload_eq (s : State) :
    identPayload s = [0x0A, 0x50, 0x01, if s.sup.calValid then 0x00 else 0x01, if s.sup.addrHigh then 0x2D else 0x2C] := by
  have hcal : flagByte (!s.sup.calValid) = if s.sup.calValid then 0x00 else 0x01 := by cases s.sup.calValid <;> rfl
  have haddr : s.targetAddress.setWidth 8 = if s.sup.addrHigh then (0x2D : Byte) else 0x2C := by
    simp only [State.targetAddress]
    cases s.sup.addrHigh <;> rfl
  rw [identPayload, hcal, haddr]
  rfl

theorem request_ident {s : State} (h : s.linkReady) :
    request 0x03 [] s = s.setLink (s.link.answered 0x03 [] 0x00 (identPayload s)) := by
  rw [request_ready h (by decide) (by decide) (by decide)]
  exact reply_answered s 0x03 [] .ok (identPayload s) (by decide)

/-- Settles O3: IDENT changes the link alone, and its payload reads neither the link nor the power mode. -/
theorem identIsAnswered : Obligations.IdentIsAnswered := by
  unfold Obligations.IdentIsAnswered
  intro s hs h
  have hident := request_ident h
  rw [identPayload_eq] at hident
  exact done_of_setLink hs hident

/-! ## STATUS (R197, R201) -/

theorem activeId_val (g : Groups) : (activeId g).val = if g.shockMode then g.shock.val else g.base.val :=
  apply_ite Fin.val _ _ _

/-- STATUS is answered with its snapshot, the overflow flag as it stood before it is cleared. -/
theorem request_status {s : State} (h : s.linkReady) :
    request 0x01 [] s = s.setLink { s.link.answered 0x01 [] 0x00 (statusPayload s) with overflow := false } := by
  rw [request_ready h (by decide) (by decide) (by decide)]
  exact congrArg (fun t : State => t.setLink { t.link with overflow := false })
    (reply_answered s 0x01 [] .ok (statusPayload s) (by decide))

/-! ## POSITION (R202) -/

theorem target_eq_some_iff {e : Entry} {t : Nat} : e.target = some t ↔ e.motion = .seek t := by
  cases h : e.motion <;> simp [Entry.target, h]

theorem target_eq_none_iff {e : Entry} : e.target = none ↔ ∀ t, e.motion ≠ .seek t := by
  simp only [Option.eq_none_iff_forall_ne_some, ne_eq, target_eq_some_iff]

/-- Entries without a SEEK give no destination. -/
theorem filterMap_target_of_no_seek {queue : List Entry} (h : ∀ e ∈ queue, ∀ t, e.motion ≠ .seek t) :
    queue.filterMap Entry.target = [] :=
  List.filterMap_eq_nil_iff.mpr fun e he => target_eq_none_iff.mpr (h e he)

theorem destination_of_no_seek {queue : List Entry} (h : ∀ e ∈ queue, ∀ t, e.motion ≠ .seek t) : destination queue = none := by
  rw [destination, filterMap_target_of_no_seek h, List.getLast?_nil]

/-- The last SEEK of the queue is the newest. -/
theorem destination_of_last_seek {before after : List Entry} {e : Entry} {t : Nat} (he : e.motion = .seek t)
    (hafter : ∀ x ∈ after, ∀ y, x.motion ≠ .seek y) : destination (before ++ e :: after) = some t := by
  rw [destination, List.filterMap_append, List.filterMap_cons_some (target_eq_some_iff.mpr he),
    filterMap_target_of_no_seek hafter, List.getLast?_concat]

/-- The flag byte of POSITION holds the address flag and the mark of a destination. -/
theorem positionPayload_eq (s : State) :
    positionPayload s = be3 s.seek.aCur ++ be3 s.seek.tpCur
      ++ [byte (128 * flag s.seek.valid + 64 * flag (destination s.seq.queue).isSome), byte s.angle.bin.val]
      ++ be2 s.angle.revs ++ be3 ((destination s.seq.queue).getD 0) := by
  rw [positionPayload, bitsByte_eight]
  rfl

theorem request_position {s : State} (h : s.linkReady) :
    request 0x02 [] s = s.setLink (s.link.answered 0x02 [] 0x00 (positionPayload s)) := by
  rw [request_ready h (by decide) (by decide) (by decide)]
  exact reply_answered s 0x02 [] .ok (positionPayload s) (by decide)

theorem exec_position {s : State} (hs : s.settled) (h : s.linkReady) :
    exec (.position []) s = .next (s.setLink (s.link.answered 0x02 [] 0x00 (positionPayload s))) :=
  done_of_setLink hs (request_position h)

/-- Settles O4: STATUS byte by byte, and POSITION by whether the queue holds a SEEK. -/
theorem statusAndPositionAreSnapshots : Obligations.StatusAndPositionAreSnapshots := by
  unfold Obligations.StatusAndPositionAreSnapshots
  intro s hs h
  refine ⟨?_, fun hnone => ?_, fun before after e t hqueue he hafter => ?_⟩
  · have hstatus := request_status h
    simp only [statusPayload, statusFlags, loaderFlags, bitsByte_eight, DefectTable.count, activeId_val] at hstatus
    exact done_of_setLink hs hstatus
  · rw [exec_position hs h, positionPayload_eq, destination_of_no_seek hnone]
    rfl
  · rw [exec_position hs h, positionPayload_eq, hqueue, destination_of_last_seek he hafter]
    rfl

end Sys2Proof.Machine
end

