-- ==== Sys2Proof/Proofs/Notices.lean ====
section
/-! SUPPORT. The posting of a notice (R195, R196, R199): one equation for each of its four ways, and the end of a pulse of ATTN. -/

namespace Sys2Proof.Machine

/-! ## The mark on the record in flight (R195) -/

/-- The record in flight is marked where it was copied from the oldest notice and that notice is of the kind. -/
theorem Link.markFlight_eq (k : NoticeKind) (l : Link) :
    l.markFlight k = { l with flight := l.flight.map (fun f =>
      if f.source = .notice ∧ l.notices.head?.map (·.kind) = some k then { f with changed := true } else f) } := by
  obtain ⟨_, _, _, notices, flight, _, _, _, _, _, _⟩ := l
  cases flight with
  | none => rfl
  | some f =>
    cases notices with
    | nil => simp [Link.markFlight]
    | cons n ns =>
      by_cases hmark : f.source = .notice ∧ n.kind = k
      · simp [Link.markFlight, hmark]
      · simp [Link.markFlight, hmark]

/-! ## The payload replaced in place (R196) -/

theorem replaceNotice_eq (k : NoticeKind) (p : List Byte) (ns : List Notice) :
    replaceNotice k p ns = ns.map (fun x => if x.kind = k then ⟨k, p⟩ else x) :=
  List.map_congr_left fun n _ => by
    split
    next h => rw [h]
    next => rfl

/-- A replaced payload leaves the kind of the oldest notice. -/
theorem head_kind_replaceNotice (k : NoticeKind) (p : List Byte) (ns : List Notice) :
    (replaceNotice k p ns).head?.map (·.kind) = ns.head?.map (·.kind) := by
  cases ns with
  | nil => rfl
  | cons n ns =>
    simp only [replaceNotice, List.map_cons, List.head?_cons, Option.map_some]
    split <;> rfl

/-! ## The four ways of a posting (R196) -/

section Posting

variable {k : NoticeKind} {p : List Byte} {l : Link}

theorem Link.post_masked (hm : l.masked k = true) : l.post k p = l := by rw [Link.post, if_pos hm]

/-- An unmasked kind with no record to update goes to the end of the queue, or is lost. -/
theorem Link.post_new (hm : l.masked k = false) (hnew : (k.isState && l.notices.any (fun n => n.kind = k)) = false) :
    l.post k p = if l.notices.length < 8 then Link.startPulse { l with notices := l.notices ++ [⟨k, p⟩] }
      else { l with overflow := true } := by
  rw [Link.post, if_neg (Bool.eq_false_iff.mp hm), if_neg (Bool.eq_false_iff.mp hnew)]

/-- An unread record of a state kind takes the new payload in its place, and a read of that record is marked. -/
theorem Link.post_update (hm : l.masked k = false) (hstate : k.isState = true)
    (has : l.notices.any (fun n => n.kind = k) = true) :
    l.post k p = { l with
      notices := l.notices.map (fun x => if x.kind = k then ⟨k, p⟩ else x)
      flight := l.flight.map (fun f =>
        if f.source = .notice ∧ l.notices.head?.map (·.kind) = some k then { f with changed := true } else f)
      pulse := decide (l.attnMode = .pulse) } := by
  rw [Link.post, if_neg (Bool.eq_false_iff.mp hm), if_pos (by rw [hstate, has]; rfl), Link.markFlight_eq]
  simp only [head_kind_replaceNotice]
  rw [replaceNotice_eq]
  rfl

end Posting

/-! ## The end of a pulse (R199), and the obligation -/

/-- ATTN_PULSE_END ends the pulse and nothing else. -/
theorem exec_attnPulseEnd {s : State} (hs : s.settled) :
    exec .attnPulseEnd s = .next (s.setLink { s.link with pulse := false }) :=
  done_of_setLink (f := pulseEnd) hs rfl

/-- Settles O51: the ways of a posting, one by one. -/
theorem noticesArePosted : Obligations.NoticesArePosted := by
  unfold Obligations.NoticesArePosted
  intro s k p hs l has
  refine ⟨exec_attnPulseEnd hs, Link.post_masked, Link.post_update, fun hm hnew => ?_⟩
  have hpost := Link.post_new (p := p) hm (Bool.and_eq_false_iff.mpr hnew)
  exact ⟨fun hroom => hpost.trans (if_pos hroom), fun hfull => hpost.trans (if_neg (Nat.not_lt.mpr hfull))⟩

end Sys2Proof.Machine
end

