-- ==== Sys2Proof/Proofs/Keeping.lean ====
section
/-! SUPPORT. What every change of the machine keeps. `Keeps o a s` says that `s` has every law that `a` has; it is kept by each update of
one block whose new value keeps that block's own laws, and so by whatever is made of such updates. -/

namespace Sys2Proof.Machine

/-! ## The laws in the middle of a step -/

/-- The feedforward law inside a boundary: the record of the bin that has just ended may stand open until it is closed (R30). -/
def State.tableLaw (s : State) (ended : Option (Fin 64)) : Prop :=
  ∀ b : Fin 64,
    -1023 ≤ s.rev[b].trkFf ∧ s.rev[b].trkFf ≤ 1023 ∧ -1023 ≤ s.rev[b].focFf ∧ s.rev[b].focFf ≤ 1023
      ∧ (b ≠ s.angle.bin → ended ≠ some b →
          s.rev[b].trkSum = 0 ∧ s.rev[b].trkCount = 0 ∧ s.rev[b].focSum = 0 ∧ s.rev[b].focCount = 0)

theorem tableLaw_none_iff (s : State) : s.tableLaw none ↔ s.feedforwardLaw := by
  simp [State.tableLaw, State.feedforwardLaw]

/-- The law of one entry of the Defect Window Table (R65). -/
abbrev Defect.lawful (d : Defect) : Prop :=
  1 ≤ d.span ∧ d.span ≤ 16 ∧ d.inner ≤ d.outer ∧ (d.origin = .learned → 1 ≤ d.hits)

/-- Every entry of a Defect Window Table is lawful. -/
abbrev entriesLaw (entries : Vector (Option Defect) 32) : Prop := ∀ i : Fin 32, ∀ d, entries[i] = some d → d.lawful

/-- The states in which the laser may be lit: engaged and not DISENGAGING (R138). -/
def SeqState.live (st : SeqState) : Bool := st.engaged && !(st = .disengaging)

theorem live_iff (st : SeqState) : st.live = true ↔ st.engaged = true ∧ st ≠ .disengaging := by
  simp [SeqState.live]

/-- `s` has every law of `a`; the bin `o`, if one is named, may stand open in its Revolution Table. -/
structure Keeps (o : Option (Fin 64)) (a s : State) : Prop where
  pending : s.pending = a.pending
  queue : queueLaw a.seq.queue → queueLaw s.seq.queue
  notices : noticeLaw a.link.notices → noticeLaw s.link.notices
  zones : zoneLaw a.seek → zoneLaw s.seek
  groups : groupLaw a.groups → groupLaw s.groups
  shock : shockLaw a.groups → shockLaw s.groups
  coefficient : groupLaw a.groups → a.coefficientLaw → s.coefficientLaw
  table : a.tableLaw none → s.tableLaw o
  defects : a.defectLaw → s.defectLaw
  drives : groupLaw a.groups → a.driveLaw → s.driveLaw
  laser : a.laserLaw → s.laserLaw
  mute : a.muteLaw → s.muteLaw
  settings : a.settingLaw → s.settingLaw

theorem Keeps.refl (s : State) : Keeps none s s :=
  ⟨rfl, id, id, id, id, id, fun _ => id, id, id, fun _ => id, id, id, id⟩

theorem Keeps.trans {o : Option (Fin 64)} {a b c : State} (h : Keeps none a b) (k : Keeps o b c) : Keeps o a c where
  pending := k.pending.trans h.pending
  queue := k.queue ∘ h.queue
  notices := k.notices ∘ h.notices
  zones := k.zones ∘ h.zones
  groups := k.groups ∘ h.groups
  shock := k.shock ∘ h.shock
  coefficient hg := k.coefficient (h.groups hg) ∘ h.coefficient hg
  table := k.table ∘ h.table
  defects := k.defects ∘ h.defects
  drives hg := k.drives (h.groups hg) ∘ h.drives hg
  laser := k.laser ∘ h.laser
  mute := k.mute ∘ h.mute
  settings := k.settings ∘ h.settings

/-! ## One update of one block -/

section
variable {o : Option (Fin 64)} {a s : State}

protected theorem Keeps.setSignals (h : Keeps o a s) (x : List Signal) : Keeps o a (s.setSignals x) := { h with }

protected theorem Keeps.setFreeCount (h : Keeps o a s) (x : Nat) : Keeps o a (s.setFreeCount x) := { h with }

protected theorem Keeps.setHeld (h : Keeps o a s) (x : Bool) : Keeps o a (s.setHeld x) := { h with }

/-- The Front End may take any value with a lawful coefficient and level. -/
protected theorem Keeps.setC (h : Keeps o a s) {x : FrontEnd}
    (g : recordLaw s.active → s.coefficientLaw → (s.setFe x).coefficientLaw) : Keeps o a (s.setFe x) :=
  { h with coefficient := fun hg hc => g ((h.groups hg).1 _) (h.coefficient hg hc) }

protected theorem Keeps.setFe (h : Keeps o a s) {x : FrontEnd} (hc : x.c = s.fe.c)
    (hl : x.level = s.fe.level) :
    Keeps o a (s.setFe x) :=
  h.setC fun _ hs => by
    simp only [State.coefficientLaw, State.active, setFe_fe, setFe_groups, hc, hl] at hs ⊢
    exact hs

protected theorem Keeps.setAngle (h : Keeps o a s) {x : Angle} (hb : x.bin = s.angle.bin) : Keeps o a (s.setAngle x) :=
  { h with
    table := fun ha => by
      have := h.table ha
      simp only [State.tableLaw, setAngle_rev, setAngle_angle, hb] at this ⊢
      exact this }

protected theorem Keeps.setFocus (h : Keeps o a s) {x : FocusLoop}
    (g : inDrive s.focus.ax.u → s.focus.pos ≤ 16383 → inDrive x.ax.u ∧ x.pos ≤ 16383) : Keeps o a (s.setFocus x) :=
  { h with
    drives := fun hg ha => by
      obtain ⟨hf, ht, hsl, hsp, hl, hp⟩ := h.drives hg ha
      exact ⟨(g hf hp).1, ht, hsl, hsp, hl, (g hf hp).2⟩ }

protected theorem Keeps.setTrack (h : Keeps o a s) {x : TrackLoop} (g : inDrive s.track.ax.u → inDrive x.ax.u) :
    Keeps o a (s.setTrack x) :=
  { h with
    drives := fun hg ha => by
      obtain ⟨hf, ht, hsl, hsp, hl, hp⟩ := h.drives hg ha
      exact ⟨hf, g ht, hsl, hsp, hl, hp⟩ }

protected theorem Keeps.setSled (h : Keeps o a s) {x : Sled}
    (g : groupLaw s.groups → inDrive s.sled.drive → inDrive x.drive) : Keeps o a (s.setSled x) :=
  { h with
    drives := fun hg ha => by
      obtain ⟨hf, ht, hsl, hsp, hl, hp⟩ := h.drives hg ha
      exact ⟨hf, ht, g (h.groups hg) hsl, hsp, hl, hp⟩ }

protected theorem Keeps.setSpindle (h : Keeps o a s) {x : Spindle} (g : inDrive s.spindle.drive → inDrive x.drive) :
    Keeps o a (s.setSpindle x) :=
  { h with
    drives := fun hg ha => by
      obtain ⟨hf, ht, hsl, hsp, hl, hp⟩ := h.drives hg ha
      exact ⟨hf, ht, hsl, g hsp, hl, hp⟩ }

protected theorem Keeps.setDet (h : Keeps o a s) {x : Detector} (g : s.det.binsPassed ≤ 15 → x.binsPassed ≤ 15) :
    Keeps o a (s.setDet x) :=
  { h with defects := fun ha => ⟨g (h.defects ha).1, (h.defects ha).2⟩ }

protected theorem Keeps.setDefects (h : Keeps o a s) {x : DefectTable}
    (g : s.det.binsPassed ≤ 15 → entriesLaw s.defects.entries → entriesLaw x.entries) : Keeps o a (s.setDefects x) :=
  { h with defects := fun ha => ⟨(h.defects ha).1, g (h.defects ha).1 (h.defects ha).2⟩ }

/-- The Group Store may take any lawful value under which the active group's record is the same. -/
protected theorem Keeps.setGroups (h : Keeps o a s) {x : Groups} (hg : groupLaw s.groups → groupLaw x)
    (hs : shockLaw s.groups → shockLaw x) (hr : x.recs[activeId x] = s.groups.recs[activeId s.groups]) :
    Keeps o a (s.setGroups x) :=
  { h with
    groups := hg ∘ h.groups
    shock := hs ∘ h.shock
    coefficient := fun ha hc => by
      have := h.coefficient ha hc
      simp only [State.coefficientLaw, State.active, setGroups_groups, setGroups_fe, hr] at this ⊢
      exact this
    drives := fun ha => h.drives ha }

protected theorem Keeps.setSeek (h : Keeps o a s) {x : Seek} (g : zoneLaw s.seek → zoneLaw x) :
    Keeps o a (s.setSeek x) :=
  { h with zones := g ∘ h.zones }

protected theorem Keeps.setSeq (h : Keeps o a s) {x : Sequencer} (hq : queueLaw s.seq.queue → queueLaw x.queue)
    (hl : s.laserLaw → (s.setSeq x).laserLaw) : Keeps o a (s.setSeq x) :=
  { h with queue := hq ∘ h.queue, laser := hl ∘ h.laser }

protected theorem Keeps.setLoader (h : Keeps o a s) {x : Loader} (hl : s.laserLaw → (s.setLoader x).laserLaw)
    (hd : inDrive s.loader.drive → inDrive x.drive)
    (hr : s.loader.reloadSetting ≤ 255 → x.reloadSetting ≤ 255) :
    Keeps o a (s.setLoader x) :=
  { h with
    drives := fun hg ha => by
      obtain ⟨hf, ht, hsl, hsp, hl, hp⟩ := h.drives hg ha
      exact ⟨hf, ht, hsl, hsp, hd hl, hp⟩
    laser := hl ∘ h.laser
    settings := fun ha => by
      obtain ⟨h1, h2, h3, h4, h5⟩ := h.settings ha
      exact ⟨h1, h2, h3, h4, hr h5⟩ }

protected theorem Keeps.setSup (h : Keeps o a s) {x : Supervisor} (hl : s.laserLaw → (s.setSup x).laserLaw)
    (hm : s.muteLaw → x.mute = x.faultPin) (hs : s.settingLaw → (s.setSup x).settingLaw) : Keeps o a (s.setSup x) :=
  { h with laser := hl ∘ h.laser, mute := hm ∘ h.mute, settings := hs ∘ h.settings }

protected theorem Keeps.setLink (h : Keeps o a s) {x : Link} (g : noticeLaw s.link.notices → noticeLaw x.notices) :
    Keeps o a (s.setLink x) :=
  { h with notices := g ∘ h.notices }

/-! ## Handing on, posting, replying -/

protected theorem Keeps.emit (h : Keeps o a s) (x : Signal) : Keeps o a (emit x s) := h.setSignals _

protected theorem Keeps.emitNow (h : Keeps o a s) (x : Signal) : Keeps o a (emitNow x s) := h.setSignals _

protected theorem Keeps.takeOrder (h : Keeps o a s) : Keeps o a (takeOrder s).2 := h.setFreeCount _

/-- A posting appends to a queue with room, and never a second notice of a state kind (R196). -/
theorem noticeLaw_post (k : NoticeKind) (p : List Byte) {l : Link} (h : noticeLaw l.notices) :
    noticeLaw (l.post k p).notices := by
  obtain ⟨hlen, hnodup⟩ := h
  have hkinds (ns : List Notice) : (ns.filter (fun n => n.kind.isState)).map (·.kind)
      = (ns.map (·.kind)).filter NoticeKind.isState := by
    rw [List.filter_map]; rfl
  rw [hkinds] at hnodup
  rcases Link.post_kinds k p l with heq | ⟨hroom, hnew, heq⟩
  · refine ⟨?_, by rw [hkinds, heq]; exact hnodup⟩
    have := congrArg List.length heq
    simpa using this.trans_le (by simpa using hlen)
  · refine ⟨?_, ?_⟩
    · have := congrArg List.length heq
      simp at this
      omega
    · rw [hkinds, heq, List.filter_append]
      by_cases hk : k.isState = true
      · rw [List.filter_cons_of_pos hk, List.filter_nil, List.nodup_append]
        refine ⟨hnodup, by simp, fun x hx y hy hxy => ?_⟩
        obtain ⟨n, hn, rfl⟩ := List.mem_map.mp (List.mem_filter.mp hx).1
        exact hnew hk n hn (hxy.trans (List.mem_singleton.mp hy))
      · rw [List.filter_cons_of_neg hk, List.filter_nil, List.append_nil]
        exact hnodup

protected theorem Keeps.post (h : Keeps o a s) (k : NoticeKind) (p : List Byte) : Keeps o a (post k p s) :=
  h.setLink (noticeLaw_post k p)

protected theorem Keeps.reply (h : Keeps o a s) (kind : Nat) (st : Status) (p : List Byte) : Keeps o a (reply kind st p s) := h.setLink id

end

end Sys2Proof.Machine
end

