-- ==== Sys2Proof/Proofs/KeepingTables.lean ====
section
/-! SUPPORT. What the Defect Window Table, the Front End, the loops, the Group Store and the spindle keep (R4 to R106). -/

namespace Sys2Proof.Machine

/-! ## The entries of the Defect Window Table (R65 to R71) -/

/-- A change of every entry that keeps each lawful. -/
theorem entriesLaw_mapTable {es : Vector (Option Defect) 32} (f : Option Defect → Option Defect)
    (hf : ∀ d x, f d = some x → ∃ y, d = some y ∧ (y.lawful → x.lawful)) (h : entriesLaw es) :
    entriesLaw (mapTable f es) := by
  intro i x hx
  rw [Fin.getElem_fin, mapTable_getElem] at hx
  obtain ⟨y, hy, hyx⟩ := hf _ _ hx
  exact hyx (h i y hy)

theorem entriesLaw_update {t : DefectTable} (f : Defect → Defect) (hf : ∀ d : Defect, d.lawful → (f d).lawful)
    (h : entriesLaw t.entries) : entriesLaw (t.update f).entries := by
  refine entriesLaw_mapTable _ (fun d x hx => ?_) h
  obtain ⟨y, rfl, rfl⟩ := Option.map_eq_some_iff.mp hx
  exact ⟨y, rfl, hf y⟩

theorem entriesLaw_put {t : DefectTable} {j : Nat} {d : Option Defect} (hd : ∀ x, d = some x → x.lawful)
    (h : entriesLaw t.entries) : entriesLaw (t.put j d).entries := by
  intro i x hx
  simp only [DefectTable.put, Fin.getElem_fin, Vector.getElem_setIfInBounds] at hx
  split at hx
  · exact hd x hx
  · exact h i x hx

theorem lowTrack_le_highTrack (tp : Nat) : lowTrack tp ≤ highTrack tp := by
  simp only [lowTrack, highTrack]; omega

theorem Defect.widen_lawful {d : Defect} (tp : Nat) (h : d.lawful) : (d.widen tp).lawful := by
  obtain ⟨h1, h2, h3, h4⟩ := h
  exact ⟨h1, h2, (Nat.min_le_left _ _).trans (h3.trans (Nat.le_max_left _ _)), h4⟩

theorem Defect.hit_lawful {d : Defect} (depth tp : Nat) (h : d.lawful) : (d.hit depth tp).lawful := by
  obtain ⟨h1, h2, h3, h4⟩ := Defect.widen_lawful tp h
  exact ⟨h1, h2, h3, fun ho => by have := h4 ho; simp only [Defect.hit, countUp]; omega⟩

/-- A merge is made only where the union stays within 16 bins (R68). -/
theorem Defect.merge_lawful {d : Defect} {r : Region} {tp : Nat} (hm : d.merges r tp = true) (h : d.lawful) :
    (d.merge r tp).lawful := by
  obtain ⟨_, _, h3, h4⟩ := Defect.hit_lawful r.depth tp h
  simp only [Defect.merges, Bool.and_eq_true, decide_eq_true_eq] at hm
  refine ⟨?_, hm.2, h3, h4⟩
  simp only [Defect.merge, unionSpan]
  have := h.1
  split <;> simp only <;> omega

theorem Region.entry_lawful {r : Region} (tp : Nat) (h1 : 1 ≤ r.span) (h2 : r.span ≤ 16) : (r.entry tp).lawful :=
  ⟨h1, h2, lowTrack_le_highTrack tp, fun _ => by simp [Region.entry]⟩

/-- Aging removes a LEARNED entry rather than leave it without hits (R71). -/
theorem Defect.age_lawful {d x : Defect} {tp : Nat} (h : d.lawful) (hx : d.age tp = some x) : x.lawful := by
  obtain ⟨h1, h2, h3, h4⟩ := h
  unfold Defect.age at hx
  split at hx
  · dsimp only at hx
    split at hx
    · cases hx
    · rename_i hgone
      cases hx
      refine ⟨h1, h2, h3, fun ho => ?_⟩
      simp only [Bool.and_eq_true, decide_eq_true_eq, not_and] at hgone
      exact Nat.one_le_iff_ne_zero.mpr (hgone ho)
  · cases hx
    exact ⟨h1, h2, h3, h4⟩

section
variable {o : Option (Fin 64)} {a s : State}

protected theorem Keeps.rearm (h : Keeps o a s) : Keeps o a (rearm s) := h.setDefects fun _ => id

protected theorem Keeps.rearmIfChanged (h : Keeps o a s) (old : State) : Keeps o a (rearmIfChanged old s) := by
  unfold rearmIfChanged
  split
  · exact h
  · exact h.rearm

protected theorem Keeps.postDefect (h : Keeps o a s) (r : DefectReason) (i : Nat) : Keeps o a (postDefect r i s) := h.post _ _

protected theorem Keeps.update (h : Keeps o a s) {f : Defect → Defect} (hf : ∀ d : Defect, d.lawful → (f d).lawful) :
    Keeps o a (s.setDefects (s.defects.update f)) :=
  h.setDefects fun _ => entriesLaw_update f hf

protected theorem Keeps.hitEntries (h : Keeps o a s) (r : Region) : Keeps o a (hitEntries r s) :=
  h.update fun d hd => by
    split
    · exact Defect.hit_lawful _ _ hd
    · exact hd

protected theorem Keeps.putLearned (h : Keeps o a s) (i : Nat) {d : Option Defect}
    (hd : s.det.binsPassed ≤ 15 → entriesLaw s.defects.entries → ∀ x, d = some x → x.lawful) : Keeps o a (putLearned i d s) :=
  (h.setDefects fun hb he => entriesLaw_put (hd hb he) he).rearm.postDefect _ _

/-- A region whose bins the detector has counted gives a lawful entry (R61, R69). -/
protected theorem Keeps.createEntry (h : Keeps o a s) {r : Region} (hr : r.span = s.det.binsPassed + 1) :
    Keeps o a (createEntry r s) := by
  have hd : s.det.binsPassed ≤ 15 → ∀ x, some (r.entry s.seek.tpCur) = some x → x.lawful := by
    rintro hb x ⟨⟩
    exact Region.entry_lawful _ (by omega) (by omega)
  unfold createEntry
  split
  · exact h.putLearned _ fun hb _ => hd hb
  · split
    · exact (h.postDefect _ _).putLearned _ fun hb _ => hd hb
    · exact h.postDefect _ _

protected theorem Keeps.learnRegion (h : Keeps o a s) {r : Region} (hr : r.span = s.det.binsPassed + 1) :
    Keeps o a (learnRegion r s) := by
  unfold learnRegion
  dsimp only
  split
  · rename_i i hi
    refine h.putLearned _ fun _ he x hx => ?_
    rcases firstIndex_cases (fun d : Option Defect => match d with | some x => x.merges r s.seek.tpCur | none => false)
      s.defects.entries.toList 0 with ⟨hnone, _⟩ | ⟨k, hk, hlen, ht, _⟩
    · exact absurd (hi.symm.trans hnone) (by simp)
    · have hik : i = k := by simpa using Option.some.inj (hi.symm.trans hk)
      subst hik
      have hlt : i < 32 := by simpa using hlen
      simp only [DefectTable.entry, hlt, Vector.getElem?_eq_getElem, Option.getD_some, Option.map_eq_some_iff] at hx
      obtain ⟨d, hd, rfl⟩ := hx
      simp only [Vector.getElem_toList, hd] at ht
      exact Defect.merge_lawful ht (he ⟨i, hlt⟩ d hd)
  · exact h.createEntry hr

protected theorem Keeps.takeRegion (h : Keeps o a s) {r : Region} (hr : r.span = s.det.binsPassed + 1) :
    Keeps o a (takeRegion r s) := by
  unfold takeRegion
  split
  · split
    · exact (h.hitEntries r).rearmIfChanged s
    · exact h
  · split
    · exact h.learnRegion hr
    · exact h

protected theorem Keeps.postExpired (h : Keeps o a s) (gone : List Nat) :
    Keeps o a (gone.foldl (fun s i => postDefect .expired i s) s) := by
  induction gone generalizing s with
  | nil => exact h
  | cons i gone ih => exact ih (h.postDefect _ _)

theorem ageEntry_lawful (ending : Fin 64) (tp : Nat) (d : Option Defect) (x : Defect) (hx : ageEntry ending tp d = some x) :
    ∃ y, d = some y ∧ (y.lawful → x.lawful) := by
  cases d with
  | none => cases hx
  | some y =>
    refine ⟨y, rfl, fun hy => ?_⟩
    simp only [ageEntry] at hx
    split at hx
    · exact Defect.age_lawful hy hx
    · cases hx; exact hy

theorem Defect.begin_lawful {d : Defect} (b : Fin 64) (held : Bool) (h : d.lawful) : (d.begin b held).lawful := by
  unfold Defect.begin
  split
  · exact h
  · exact h

protected theorem Keeps.defectBoundary (h : Keeps o a s) (ending beginning : Fin 64) :
    Keeps o a (defectBoundary ending beginning s) := by
  have hbegin (d : Defect) : d.lawful → (d.begin beginning s.focusHeld).lawful := Defect.begin_lawful _ _
  unfold defectBoundary
  exact Keeps.postExpired (h.setDefects fun _ he => entriesLaw_mapTable _ (fun d x hx => by
    obtain ⟨y, rfl, rfl⟩ := Option.map_eq_some_iff.mp hx
    exact ⟨y, rfl, hbegin y⟩) (entriesLaw_mapTable _ (ageEntry_lawful ending s.seek.tpCur) he)) _

/-! ## The Front End (R8, R9, R14) -/

/-- A coefficient set under a lawful record lies in its range, with its level (R9, R10). -/
theorem setC_lawful {s : State} {x : FrontEnd} {c : Nat} (hr : recordLaw s.active)
    (hx : x.c = (s.fe.setC s.active c).c) (hl : x.level = (s.fe.setC s.active c).level) : (s.setFe x).coefficientLaw := by
  have hb := satNat_bounds (lo := s.active[9]) (hi := s.active[10]) hr.2.1 c
  simp only [State.coefficientLaw, State.active, setFe_fe, setFe_groups, hx, hl]
  exact ⟨hb.1, hb.2, rfl⟩

protected theorem Keeps.engageFe (h : Keeps o a s) : Keeps o a (s.setFe (s.fe.engage s.active)) :=
  h.setC fun hr _ => setC_lawful (c := 1024) hr rfl rfl

protected theorem Keeps.closeFrontEnd (h : Keeps o a s) : Keeps o a (closeFrontEnd s) := by
  unfold closeFrontEnd FrontEnd.closeBin
  split
  · exact h.setFe rfl rfl
  · exact h.setC fun hr _ => setC_lawful hr rfl rfl

protected theorem Keeps.restartCrossings (h : Keeps o a s) : Keeps o a (restartCrossings s) := by
  unfold restartCrossings
  split
  · exact h.takeOrder.setFe rfl rfl
  · exact h.setFe rfl rfl

/-! ## The loops (R40 to R56) -/

theorem inDrive_zero : inDrive 0 := by simp [inDrive]

protected theorem Keeps.openTrack (h : Keeps o a s) : Keeps o a (openTrack s) :=
  (h.setTrack fun _ => inDrive_zero).setSled fun _ hd => by
    split
    · exact inDrive_zero
    · exact hd

protected theorem Keeps.focusLeft (h : Keeps o a s) (held : Bool) :
    Keeps o a (s.setDefects (if held then s.defects.focusLeft else s.defects)) :=
  h.setDefects fun _ he => by
    split
    · exact entriesLaw_update _ (fun _ => id) he
    · exact he

protected theorem Keeps.focusToOff (h : Keeps o a s) : Keeps o a (focusToOff s) :=
  Keeps.focusLeft ((h.setFocus (by exact fun _ _ => ⟨inDrive_zero, Nat.zero_le _⟩)).setDet (by exact id)) s.focusHeld

protected theorem Keeps.openFocus (h : Keeps o a s) : Keeps o a (openFocus s) := h.focusToOff.openTrack

protected theorem Keeps.searchOrder (h : Keeps o a s) : Keeps o a (searchOrder s) := by
  unfold searchOrder
  split
  · exact h.setFocus fun hu _ => ⟨hu, Nat.zero_le _⟩
  · exact h

protected theorem Keeps.endMove (h : Keeps o a s) : Keeps o a (s.setSled s.sled.endMove) := h.setSled fun _ _ => inDrive_zero

protected theorem Keeps.leaveMove (h : Keeps o a s) : Keeps o a (leaveMove s) := by
  unfold leaveMove
  split
  · exact h.endMove
  · exact h

protected theorem Keeps.pullInOrder (h : Keeps o a s) : Keeps o a (pullInOrder s) := by
  unfold pullInOrder
  split
  · exact h.leaveMove.setTrack id
  · exact h.openTrack.emitNow _

protected theorem Keeps.jumpOrder (h : Keeps o a s) (n : Int) (b : Bool) : Keeps o a (jumpOrder n b s).2 := by
  unfold jumpOrder
  split
  · split
    · exact h.setTrack id
    · exact Keeps.restartCrossings (h.setTrack (by exact id))
  · exact h

protected theorem Keeps.moveOrder (h : Keeps o a s) (outward : Bool) (n : Nat) : Keeps o a (moveOrder outward n s).2 := by
  unfold moveOrder
  split
  · exact Keeps.restartCrossings (Keeps.setSled (h.setTrack (by exact id)) fun _ => id)
  · exact h

protected theorem Keeps.stopOrder (h : Keeps o a s) : Keeps o a (stopOrder s) := by
  unfold stopOrder
  split
  · exact h.endMove.setTrack id
  · exact h.setTrack id
  · exact h.setTrack id
  · exact h.setTrack id
  · exact h

protected theorem Keeps.enterLocked (h : Keeps o a s) : Keeps o a (enterLocked s) := by
  unfold enterLocked
  cases s.track.goal with
  | none => exact Keeps.emit (h.setTrack (by exact id)) _
  | trackLocked => exact Keeps.emit (Keeps.emit (h.setTrack (by exact id)) _) _
  | jumpDone => exact Keeps.emit (Keeps.emit (h.setTrack (by exact id)) _) _

protected theorem Keeps.attemptFails (h : Keeps o a s) : Keeps o a (attemptFails s) := by
  unfold attemptFails
  split
  · exact h.openTrack.emit _
  · exact h.setTrack id

protected theorem Keeps.settleTimeout (h : Keeps o a s) : Keeps o a (settleTimeout s) := by
  unfold settleTimeout
  split
  · exact h.attemptFails
  · split
    · exact h.attemptFails
    · exact h.setTrack id
  · exact h

protected theorem Keeps.closeTimeout (h : Keeps o a s) : Keeps o a (closeTimeout s) := by
  unfold closeTimeout
  split
  · exact h.setTrack id
  · exact h

protected theorem Keeps.moveStall (h : Keeps o a s) : Keeps o a (moveStall s) := by
  unfold moveStall
  split
  · exact Keeps.emit (h.leaveMove.setTrack (by exact id)) _
  · exact h

protected theorem Keeps.raiseOffTrack (h : Keeps o a s) : Keeps o a (raiseOffTrack s) := by
  unfold raiseOffTrack
  split
  · exact Keeps.emit (h.setTrack (by exact id)) _
  · exact h

protected theorem Keeps.raiseFocusLost (h : Keeps o a s) : Keeps o a (raiseFocusLost s) := by
  unfold raiseFocusLost
  split
  · exact (h.openFocus.setSled fun _ _ => inDrive_zero).emit _
  · exact h

protected theorem Keeps.loseFocus (h : Keeps o a s) : Keeps o a (loseFocus s) := by
  unfold loseFocus
  split
  · exact h.emit _
  · exact h.raiseFocusLost

protected theorem Keeps.raiseDue (h : Keeps o a s) : Keeps o a (raiseDue s) := by
  unfold raiseDue
  split
  · dsimp only
    split
    · exact h.takeOrder.raiseOffTrack.loseFocus
    · exact h.takeOrder.raiseFocusLost
  · split
    · exact h.raiseOffTrack
    · split
      · exact h.loseFocus
      · exact h

/-! ## The Group Store (R80 to R93) -/

/-- The Group Store with the group switch it brings: c and L follow the record that is now the active one (R80, R81). -/
protected theorem Keeps.regroup (h : Keeps o a s) {g : Groups} (hg : groupLaw s.groups → groupLaw g)
    (hs : shockLaw s.groups → shockLaw g) (hr : g.recs = s.groups.recs) : Keeps o a (regroup g s) := by
  by_cases hid : activeId g = activeId s.groups
  · rw [regroup_same hid]
    exact h.setGroups hg hs (by simp only [hid, hr])
  · rw [regroup_switch hid]
    refine Keeps.raiseDue (s := (s.setGroups g).setFe ((s.setGroups g).fe.switchGroup (s.setGroups g).active)) ?_
    exact { h with
      groups := hg ∘ h.groups
      shock := hs ∘ h.shock
      coefficient := fun ha _ => setC_lawful (c := s.fe.c) ((hg (h.groups ha)).1 _) rfl rfl
      drives := fun ha => h.drives ha }

protected theorem Keeps.setPendingLaunch (h : Keeps o a s) (p : Option GroupId) :
    Keeps o a (s.setGroups { s.groups with pending := p }) := h.setGroups id id rfl

protected theorem Keeps.launchGroup (h : Keeps o a s) (g : GroupId) : Keeps o a (launchGroup g s) :=
  h.regroup id id rfl

protected theorem Keeps.takePending (h : Keeps o a s) : Keeps o a (takePending s) := by
  unfold takePending takePendingThen
  split
  · exact h
  · exact ((h.setPendingLaunch none).launchGroup _).post _ _

protected theorem Keeps.shockTrigger (h : Keeps o a s) : Keeps o a (shockTrigger s) := by
  unfold shockTrigger
  split
  · split
    · rename_i hm
      refine h.setGroups id (fun hl => ?_) rfl
      simp only [shockLaw, hm, if_true] at hl ⊢
      omega
    · exact (h.regroup (g := { s.groups with shockMode := true, clean := 0, disturbed := true }) id
        (fun hl => ⟨hl.1, by simpa using Nat.lt_of_lt_of_le Nat.zero_lt_one hl.1⟩) rfl).post _ _
  · exact h

protected theorem Keeps.endShock (h : Keeps o a s) : Keeps o a (endShock s) := by
  unfold endShock
  split
  · exact (h.regroup (g := { s.groups with shockMode := false, clean := 0, disturbed := false }) id
      (fun hl => ⟨hl.1, by simp⟩) rfl).post _ _
  · exact h

protected theorem Keeps.disturb (h : Keeps o a s) : Keeps o a (disturb s) := by
  unfold disturb
  split
  · rename_i hm
    refine h.setGroups id (fun hl => ?_) rfl
    simp only [shockLaw, hm, if_true] at hl ⊢
    exact hl
  · exact h

protected theorem Keeps.countRevolution (h : Keeps o a s) : Keeps o a (countRevolution s) := by
  unfold countRevolution
  split
  · rename_i hm
    split
    · exact h.endShock
    · rename_i he
      refine h.setGroups id (fun hl => ?_) rfl
      simp only [Groups.exitDue, hm, Bool.true_and, decide_eq_true_eq, not_le] at he
      simp only [shockLaw, hm, if_true] at hl ⊢
      exact ⟨hl.1, he⟩
  · exact h

protected theorem Keeps.groupIndex (h : Keeps o a s) : Keeps o a (groupIndex s) := by
  unfold groupIndex
  split
  · dsimp only
    split
    · unfold takePendingThen
      split
      · exact h.takeOrder.countRevolution
      · exact ((h.takeOrder.setPendingLaunch none).launchGroup _).countRevolution.post _ _
    · exact h.takeOrder.countRevolution.takePending
  · exact h.takePending.countRevolution

/-! ## The spindle (R95 to R105) -/

protected theorem Keeps.evalTarget (h : Keeps o a s) : Keeps o a (evalTarget s) := h.setSpindle id

protected theorem Keeps.setSpindleState (h : Keeps o a s) {x : Spindle} (g : inDrive s.spindle.drive → inDrive x.drive) :
    Keeps o a (setSpindleState x s) := by
  have hx := h.setSpindle g
  unfold setSpindleState
  dsimp only
  split
  · split
    · exact hx.post _ _
    · exact hx
  · split
    · exact (hx.post _ _).emit _
    · exact hx.emit _

protected theorem Keeps.enterKick (h : Keeps o a s) : Keeps o a (enterKick s) := h.setSpindleState fun _ => by simp [inDrive]

protected theorem Keeps.enterCoast (h : Keeps o a s) : Keeps o a (enterCoast s) := h.setSpindleState fun _ => inDrive_zero

protected theorem Keeps.enterBraking (h : Keeps o a s) : Keeps o a (enterBraking s) := h.setSpindleState fun _ => by simp [inDrive]

protected theorem Keeps.stopSignals (h : Keeps o a s) : Keeps o a (stopSignals s).2 := by
  unfold stopSignals
  split
  · exact h
  · exact h.takeOrder
  · exact h.takeOrder
  · exact h.takeOrder.takeOrder

protected theorem Keeps.enterStopped (h : Keeps o a s) : Keeps o a (enterStopped s) :=
  Keeps.setSignals (Keeps.stopSignals ((h.setSpindleState (by exact fun _ => inDrive_zero)).setAngle (by exact rfl))) _

protected theorem Keeps.startOrder (h : Keeps o a s) : Keeps o a (startOrder s) := by
  have hrun := (h.setSpindle (x := { s.spindle with run := true }) id).evalTarget
  unfold startOrder
  dsimp only
  split
  · split
    · exact hrun.enterCoast
    · exact hrun.enterKick
  · split
    · exact hrun
    · exact hrun.enterKick
  all_goals exact hrun

protected theorem Keeps.brakeOrder (h : Keeps o a s) : Keeps o a (brakeOrder s) := by
  have hrun := h.setSpindle (x := { s.spindle with run := false }) id
  unfold brakeOrder
  dsimp only
  split
  · exact hrun.enterBraking
  · exact hrun.enterBraking
  · exact hrun.enterBraking
  all_goals exact hrun

protected theorem Keeps.spindleHold (h : Keeps o a s) : Keeps o a (spindleHold s) := by
  unfold spindleHold
  split
  · exact h.enterCoast
  · exact h.enterCoast
  · exact h.enterCoast
  · exact h.enterCoast
  all_goals exact h

protected theorem Keeps.spindleRelease (h : Keeps o a s) : Keeps o a (spindleRelease s) := by
  unfold spindleRelease
  split
  · exact h
  · split
    · split
      · exact h.enterKick
      · exact h.enterBraking
    · exact h

protected theorem Keeps.spindleCompute (h : Keeps o a s) (p : Nat) : Keeps o a (spindleCompute p s) :=
  h.setSpindle fun _ => satDrive_inDrive _

protected theorem Keeps.lockingEdge (h : Keeps o a s) (p : Nat) : Keeps o a (lockingEdge p s) := by
  have hc := h.spindleCompute p
  unfold lockingEdge
  dsimp only
  split
  · split
    · exact hc.setSpindleState id
    · exact hc.setSpindle id
  · exact hc.setSpindle id

protected theorem Keeps.lockedEdge (h : Keeps o a s) (p : Nat) : Keeps o a (lockedEdge p s) := by
  have hc := h.spindleCompute p
  unfold lockedEdge
  dsimp only
  split
  · split
    · exact hc.setSpindleState id
    · exact hc.setSpindle id
  · exact hc.setSpindle id

protected theorem Keeps.spindleEdge (h : Keeps o a s) (p : Option Nat) : Keeps o a (spindleEdge p s) := by
  unfold spindleEdge
  split
  · unfold kickEdge
    split
    · exact (h.setSpindleState (x := { s.spindle with state := .locking, timer := 0 }) id).lockingEdge _
    · exact h
  · exact h.lockingEdge _
  · exact h.lockedEdge _
  · have ht := h.setSpindle (x := { s.spindle with timer := 0 }) id
    unfold brakingEdge
    dsimp only
    split
    · split
      · exact ht.enterStopped
      · exact ht
    · exact ht
  all_goals exact h

protected theorem Keeps.spinFails (h : Keeps o a s) : Keeps o a (spinFails s) :=
  Keeps.enterBraking (Keeps.emit (h.setSpindle (by exact id)) _)

protected theorem Keeps.kickTimeout (h : Keeps o a s) : Keeps o a (kickTimeout s) := by
  unfold kickTimeout
  split
  · exact h.spinFails
  · exact h

protected theorem Keeps.lockingTimeout (h : Keeps o a s) : Keeps o a (lockingTimeout s) := by
  unfold lockingTimeout
  split
  · exact h.spinFails
  · exact h

protected theorem Keeps.brakingTimeout (h : Keeps o a s) : Keeps o a (brakingTimeout s) := by
  unfold brakingTimeout
  split
  · exact h.enterStopped
  · exact h

end

end Sys2Proof.Machine
end

