-- ==== Sys2Proof/Proofs/KeepingMotion.lean ====
section
/-! SUPPORT. What the Angle Tracker, the Seek Engine, the sequencer and the loader keep (R17 to R34, R112 to R172). Where a block takes a
state that the laser law speaks of, its lemma asks for the state it comes from. -/

namespace Sys2Proof.Machine

section
variable {o : Option (Fin 64)} {a s : State}

/-! ## Boundaries and edges (R17 to R31) -/

theorem learn_bounds {ff : Int} (lambda : Nat) (sum : Int) (count : Nat) (h1 : -1023 ≤ ff) (h2 : ff ≤ 1023) :
    -1023 ≤ learn ff lambda sum count ∧ learn ff lambda sum count ≤ 1023 := by
  unfold learn
  split
  · exact sat_bounds (by omega) _
  · exact ⟨h1, h2⟩

/-- The record of a bin written: every other bin keeps its own. -/
theorem setBin_rev_getElem (b c : Fin 64) (r : RevRecord) (s : State) :
    (setBin b r s).rev[c] = if c = b then r else s.rev[c] := by
  simp only [setBin, setRev_rev, Fin.getElem_fin, Vector.getElem_set]
  by_cases h : c = b
  · simp [h]
  · simp [h, Fin.val_inj, Ne.symm h]

/-- The record of a bin that has ended is closed (R30). -/
protected theorem Keeps.closeRevolution {b : Fin 64} (h : Keeps (some b) a s) : Keeps none a (closeRevolution b s) :=
  { h with
    table := fun ha c => by
      obtain ⟨h1, h2, h3, h4, h5⟩ := h.table ha c
      unfold closeRevolution
      rw [setBin_rev_getElem]
      by_cases hc : c = b
      · subst hc
        rw [if_pos rfl]
        have ht := learn_bounds s.active[7] s.rev[c].trkSum s.rev[c].trkCount h1 h2
        have hf := learn_bounds s.active[3] s.rev[c].focSum s.rev[c].focCount h3 h4
        exact ⟨ht.1, ht.2, hf.1, hf.2, fun _ _ => ⟨rfl, rfl, rfl, rfl⟩⟩
      · rw [if_neg hc]
        exact ⟨h1, h2, h3, h4, fun hb _ => h5 hb fun he => hc (Option.some.inj he).symm⟩ }

/-- The bin that ends stands open until its record is closed (R23). -/
protected theorem Keeps.advanceBin (h : Keeps none a s) : Keeps (some s.angle.bin) a (advanceBin s) := by
  have hmove : Keeps (some s.angle.bin) a (s.setAngle { s.angle with bin := s.angle.bin + 1 }) :=
    { h with
      table := fun ha c => by
        obtain ⟨h1, h2, h3, h4, h5⟩ := h.table ha c
        exact ⟨h1, h2, h3, h4, fun _ hc => h5 (fun he => hc (congrArg some he.symm)) nofun⟩ }
  unfold advanceBin
  dsimp only
  split
  · exact hmove.setDet id
  · exact hmove

protected theorem Keeps.pauseJump (h : Keeps o a s) : Keeps o a (pauseJump s) := by
  unfold pauseJump
  split
  · exact h.jumpOrder _ _
  · exact h

protected theorem Keeps.when (h : Keeps o a s) (now : Bool) {f : State → State}
    (hf : ∀ {u : State}, Keeps o a u → Keeps o a (f u)) : Keeps o a (when now f s) := by
  unfold when
  split
  · exact hf h
  · exact h

/-- The two places at which a block's act may be taken: it is taken at one of them. -/
theorem Keeps.whenClosed {b : Fin 64} (h : Keeps (some b) a s) (now : Bool) {f : State → State}
    (hf : ∀ {o : Option (Fin 64)} {u : State}, Keeps o a u → Keeps o a (f u)) :
    Keeps none a (when (!now) (closeRevolution b) (f (when now (closeRevolution b) s))) := by
  cases now with
  | true => exact hf h.closeRevolution
  | false => exact (hf h).closeRevolution

protected theorem Keeps.indexBoundary {b : Fin 64} (h : Keeps (some b) a s) : Keeps none a (indexBoundary b s) := by
  have hrev := h.setAngle (x := { s.angle with revs := (s.angle.revs + 1) % 65536 }) rfl
  unfold indexBoundary
  dsimp only
  split
  · refine Keeps.when (Keeps.when (Keeps.whenClosed
      (f := fun u => when _ closeFrontEnd (groupIndex (when _ pauseJump (when _ (defectBoundary b 0) u))))
      (hrev.takeOrder.takeOrder.takeOrder.takeOrder.when _ Keeps.closeFrontEnd) _ fun hu => ?_) _
      fun hu => hu.defectBoundary _ _) _ Keeps.pauseJump
    exact (((hu.when _ fun hu => hu.defectBoundary _ _).when _ Keeps.pauseJump).groupIndex).when _ Keeps.closeFrontEnd
  · exact (hrev.closeFrontEnd.closeRevolution.defectBoundary _ _).pauseJump.groupIndex

protected theorem Keeps.boundary (h : Keeps none a s) : Keeps none a (boundary s) := by
  unfold boundary
  dsimp only
  split
  · exact h.advanceBin.indexBoundary
  · exact h.advanceBin.closeFrontEnd.closeRevolution.defectBoundary _ _

protected theorem Keeps.boundaries (h : Keeps none a s) (n : Nat) : Keeps none a (boundaries n s) := by
  induction n generalizing s with
  | zero => exact h
  | succ n ih => exact ih h.boundary

protected theorem Keeps.edgeCount (h : Keeps o a s) (t : Nat) : Keeps o a (edgeCount t s) := by
  unfold edgeCount edgeInterval
  split
  · exact h.setAngle rfl
  · exact ((h.setAngle (by exact rfl)).setAngle rfl)

protected theorem Keeps.edgeBoundaries (h : Keeps none a s) (timed : Bool) : Keeps none a (edgeBoundaries timed s) := by
  unfold edgeBoundaries edgeSchedule
  split
  · exact (h.boundaries _).setAngle (by exact rfl)
  · exact (h.boundaries _).setAngle (by exact rfl)

protected theorem Keeps.timedBoundary (h : Keeps none a s) : Keeps none a (timedBoundary s) := by
  unfold timedBoundary
  split
  · exact h
  · exact Keeps.boundary (h.setAngle (by exact rfl))

/-- Feedforward values of 0 are lawful, and so are accumulators of 0 (R33). -/
protected theorem Keeps.clearFeedforward (h : Keeps o a s) : Keeps o a (clearFeedforward s) :=
  { h with
    table := fun ha c => by
      obtain ⟨_, _, _, _, h5⟩ := h.table ha c
      rw [clearFeedforward_rev_getElem]
      split
      · simp
      · exact ⟨by simp, by simp, by simp, by simp, h5⟩ }

/-! ## The Seek Engine (R121 to R130) -/

protected theorem Keeps.cancelTask (h : Keeps o a s) : Keeps o a (cancelTask s) := (h.setSeek (by exact id)).setSignals _

protected theorem Keeps.endTask (h : Keeps o a s) (e : EndOutcome) : Keeps o a (endTask e s) := (h.setSeek (by exact id)).emitNow _

protected theorem Keeps.beginWait (h : Keeps o a s) : Keeps o a (beginWait s) := h.setSeek id

protected theorem Keeps.orderLeg (h : Keeps o a s) : Keeps o a (orderLeg s) := by
  unfold orderLeg
  split
  · exact (h.jumpOrder _ _).setSeek (by exact id)
  · exact (h.moveOrder _ _).setSeek (by exact id)
  all_goals exact h

protected theorem Keeps.orderTested (h : Keeps o a s) (leg : Leg) : Keeps o a (orderTested leg s) := by
  unfold orderTested
  split
  · exact h.endTask _
  · exact Keeps.orderLeg (h.setSeek (by exact id))

protected theorem Keeps.countCorrection (h : Keeps o a s) {next : State → State}
    (hn : ∀ {u : State}, Keeps o a u → Keeps o a (next u)) : Keeps o a (countCorrection next s) := by
  unfold countCorrection
  split
  · exact h.endTask _
  · exact hn (h.setSeek (by exact id))

protected theorem Keeps.seekCheck (h : Keeps o a s) (target address : Nat) : Keeps o a (seekCheck target address s) := by
  unfold seekCheck seekLeg
  dsimp only
  split
  · exact h.endTask _
  · split
    · exact h.countCorrection fun hu => hu.orderTested _
    · exact h.orderTested _

protected theorem Keeps.startSeek (h : Keeps o a s) (target : Nat) : Keeps o a (startSeek target s) := by
  have ht := h.setSeek (x := { s.seek.dropTask with task := some (.seek target) }) id
  unfold startSeek
  dsimp only
  split
  · exact ht.seekCheck _ _
  · exact ht.beginWait

protected theorem Keeps.payRemainder (h : Keeps o a s) : Keeps o a (payRemainder s) := by
  unfold payRemainder
  split
  · exact h.endTask _
  · exact h.orderTested _

protected theorem Keeps.startJump (h : Keeps o a s) (n : Int) : Keeps o a (startJump n s) := by
  have ht := h.setSeek (x := { s.seek.dropTask with task := some (.jump n) }) id
  unfold startJump
  dsimp only
  split
  · exact ht.endTask _
  · split
    · exact ht.orderTested _
    · exact Keeps.orderTested (ht.setSeek (by exact id)) _

protected theorem Keeps.seekJumpDone (h : Keeps o a s) : Keeps o a (seekJumpDone s) := by
  unfold seekJumpDone
  split
  · exact h
  · split
    · exact h.endTask _
    · split
      · exact h.beginWait
      · exact Keeps.payRemainder (h.setSeek (by exact id))
      · exact h

protected theorem Keeps.seekMoveDone (h : Keeps o a s) : Keeps o a (seekMoveDone s) := by
  unfold seekMoveDone
  split
  · exact h.setSeek id
  all_goals exact h

protected theorem Keeps.seekTrackLocked (h : Keeps o a s) : Keeps o a (seekTrackLocked s) := by
  unfold seekTrackLocked
  split
  · exact h.beginWait
  · exact h.payRemainder
  · exact h

protected theorem Keeps.seekReorder (h : Keeps o a s) : Keeps o a (seekReorder s) := by
  unfold seekReorder
  split
  · exact h.orderLeg
  · exact h

protected theorem Keeps.seekTrackFail (h : Keeps o a s) : Keeps o a (seekTrackFail s) := by
  unfold seekTrackFail
  split
  · exact h.endTask _
  · exact h

protected theorem Keeps.seekInnerLimit (h : Keeps o a s) : Keeps o a (seekInnerLimit s) := by
  unfold seekInnerLimit
  extract_lets running
  split
  · exact Keeps.stopOrder (h.setSeek (by exact id))
  · exact h

protected theorem Keeps.addressWaitTimeout (h : Keeps o a s) : Keeps o a (addressWaitTimeout s) := by
  unfold addressWaitTimeout
  split
  · exact h.countCorrection Keeps.beginWait
  · exact h

protected theorem Keeps.addressLost (h : Keeps o a s) : Keeps o a (addressLost s) := by
  unfold addressLost
  split
  · exact Keeps.emit (h.setSeek (by exact id)) _
  · exact h

protected theorem Keeps.seekFresh (h : Keeps o a s) (address : Nat) : Keeps o a (seekFresh address s) := by
  unfold seekFresh
  split
  · exact h.seekCheck _ _
  all_goals exact h

/-! ## Power and sequencer states (R137, R181) -/

/-- The laser law with the sequencer in another state. -/
theorem laserLaw_enter_iff (s : State) (st : SeqState) (k : Seek) :
    (s.setSeq (s.seq.enter st k)).laserLaw ↔
      (s.seq.laser = true → st.live = true) ∧ (st.engaged = true → s.sup.power = .active)
        ∧ (st.live = true → s.loader.state = .clamped ∧ s.loader.ejectPending = false)
        ∧ (s.sup.power = .standby → st = .standby) ∧ (s.sup.power = .sleep → st.engaged = false ∧ s.seq.queue = []) := by
  simp only [State.laserLaw, live_iff, setSeq_seq, setSeq_sup, setSeq_loader, Sequencer.enter, and_imp]

/-- The laser law, its third part said of the live states. -/
theorem laserLaw_iff (s : State) :
    s.laserLaw ↔
      (s.seq.laser = true → s.seq.state.live = true) ∧ (s.seq.state.engaged = true → s.sup.power = .active)
        ∧ (s.seq.state.live = true → s.loader.state = .clamped ∧ s.loader.ejectPending = false)
        ∧ (s.sup.power = .standby → s.seq.state = .standby)
        ∧ (s.sup.power = .sleep → s.seq.state.engaged = false ∧ s.seq.queue = []) := by
  simp only [State.laserLaw, live_iff, and_imp]

theorem engaged_of_live {st : SeqState} (h : st.live = true) : st.engaged = true := ((live_iff st).mp h).1

/-- ACTIVE may be entered from any mode. -/
protected theorem Keeps.setPowerActive (h : Keeps o a s) : Keeps o a (setPower .active s) := by
  unfold setPower
  split
  · exact h
  · refine Keeps.post (h.setSup (fun hl => ?_) (by exact id) (by exact id)) _ _
    obtain ⟨h1, _, h3, _, _⟩ := hl
    exact ⟨h1, fun _ => rfl, h3, nofun, nofun⟩

/-- STANDBY is entered in the sequencer's STANDBY (R182). -/
protected theorem Keeps.setPowerStandby (h : Keeps o a s) (hs : s.seq.state = .standby) : Keeps o a (setPower .standby s) := by
  unfold setPower
  split
  · exact h
  · refine Keeps.post (h.setSup (fun hl => ?_) (by exact id) (by exact id)) _ _
    obtain ⟨h1, _, h3, _, _⟩ := hl
    refine ⟨h1, fun he => ?_, h3, fun _ => hs, nofun⟩
    simp only [setSup_seq, hs] at he
    cases he

@[simp] theorem evalTarget_seq (s : State) : (evalTarget s).seq = s.seq := rfl

/-- The neighbours that follow a change of the sequencer's state keep their laws with it. -/
protected theorem Keeps.setSeqState (h : Keeps o a s) (st : SeqState)
    (hl : s.laserLaw → (s.setSeq (s.seq.enter st s.seek)).laserLaw) : Keeps o a (setSeqState st s) := by
  have h1 := h.setSeq (x := s.seq.enter st s.seek) id hl
  have h2 (c : Bool) : Keeps o a (if c then (s.setSeq (s.seq.enter st s.seek)).setSeek
      { (s.setSeq (s.seq.enter st s.seek)).seek with watch := 0 } else s.setSeq (s.seq.enter st s.seek)) := by
    split
    · exact h1.setSeek id
    · exact h1
  have h3 {u : State} (c : Prop) [Decidable c] (hu : Keeps o a u) : Keeps o a (if c then evalTarget u else u) := by
    split
    · exact hu.evalTarget
    · exact hu
  unfold setSeqState
  dsimp only
  split
  · rename_i hst
    refine (h3 _ ((h2 _).setSup (by exact id) (by exact id) (by exact id))).setPowerStandby ?_
    simp only [apply_ite State.seq, evalTarget_seq, setSup_seq, setSeek_seq, setSeq_seq, ite_self]
    exact hst
  · exact h3 _ ((h2 _).setSup (by exact id) (by exact id) (by exact id))

@[simp] theorem setPower_seq (m : Power) (s : State) : (setPower m s).seq = s.seq := by
  unfold setPower
  split <;> rfl

@[simp] theorem setSeqState_seq (st : SeqState) (s : State) : (setSeqState st s).seq = s.seq.enter st s.seek := by
  simp only [setSeqState, apply_ite State.seq, setPower_seq, evalTarget_seq, setSup_seq, setSeek_seq, setSeq_seq, ite_self]

theorem setSeqState_state (st : SeqState) (s : State) : (setSeqState st s).seq.state = st := by
  rw [setSeqState_seq]; rfl

/-- One live state leads to another. -/
protected theorem Keeps.enterLive (h : Keeps o a s) {st : SeqState} (hs : s.seq.state.live = true) (hst : st.live = true) :
    Keeps o a (setSeqState st s) :=
  h.setSeqState st fun hl => by
    obtain ⟨_, h2, h3, _, _⟩ := (laserLaw_iff s).mp hl
    have hp := h2 (engaged_of_live hs)
    refine (laserLaw_enter_iff s st s.seek).mpr ⟨fun _ => hst, fun _ => hp, fun _ => h3 hs, ?_, ?_⟩ <;> simp [hp]

/-- Any engaged state leads to DISENGAGING, and to the rest states, once the laser demand is cleared (R143). -/
protected theorem Keeps.enterDark (h : Keeps o a s) {st : SeqState} (hs : s.seq.state.engaged = true) (hd : s.seq.laser = false)
    (hst : st.live = false) : Keeps o a (setSeqState st s) :=
  h.setSeqState st fun hl => by
    obtain ⟨_, h2, _, _, _⟩ := (laserLaw_iff s).mp hl
    have hp := h2 hs
    refine (laserLaw_enter_iff s st s.seek).mpr ⟨?_, fun _ => hp, ?_, ?_, ?_⟩ <;> simp [hp, hd, hst]

/-! ## Ends of entries (R132, R136) -/

theorem queueLaw_tail {e : Entry} {rest : List Entry} (h : queueLaw (e :: rest)) : queueLaw rest := by
  obtain ⟨hlen, hw⟩ := h
  exact ⟨(Nat.le_succ _).trans hlen, fun x hx => hw x (List.mem_of_mem_tail hx)⟩

theorem queueLaw_filter {q : List Entry} (p : Entry → Bool) (h : queueLaw q) : queueLaw (q.filter p) := by
  obtain ⟨hlen, hw⟩ := h
  refine ⟨(List.length_filter_le _ _).trans hlen, fun x hx => ?_⟩
  cases q with
  | nil => cases hx
  | cons e rest =>
    refine hw x (List.mem_of_mem_filter (p := p) ?_)
    by_cases he : p e = true
    · rwa [List.filter_cons_of_pos he] at hx
    · rw [List.filter_cons_of_neg he] at hx
      exact List.mem_of_mem_tail hx

/-- A queue that changes while an empty one stays empty meets the laser law as before. -/
theorem laserLaw_setQueue {s : State} {q : List Entry} (hq : s.seq.queue = [] → q = []) (h : s.laserLaw) :
    (s.setSeq { s.seq with queue := q }).laserLaw := by
  obtain ⟨h1, h2, h3, h4, h5⟩ := h
  exact ⟨h1, h2, h3, h4, fun hp => ⟨(h5 hp).1, hq (h5 hp).2⟩⟩

@[simp] theorem postDone_seq (e : Entry) (x : EndOutcome) (s : State) : (postDone e x s).seq = s.seq := rfl

@[simp] theorem postAbandoned_seq (es : List Entry) (s : State) : (postAbandoned es s).seq = s.seq := by
  rw [postAbandoned_eq]; rfl

@[simp] theorem endEntry_state (x : EndOutcome) (s : State) : (endEntry x s).seq.state = s.seq.state := by
  unfold endEntry
  split
  · split <;> rfl
  · rfl

@[simp] theorem flush_state (s : State) : (flush s).seq.state = s.seq.state := by simp [flush]

protected theorem Keeps.postDone (h : Keeps o a s) (e : Entry) (x : EndOutcome) : Keeps o a (postDone e x s) := h.post _ _

protected theorem Keeps.postRecovery (h : Keeps o a s) (c : Cause) (r : RecoveryResult) (n : Nat) :
    Keeps o a (postRecovery c r n s) := h.post _ _

protected theorem Keeps.endEntry (h : Keeps o a s) (x : EndOutcome) : Keeps o a (endEntry x s) := by
  unfold endEntry
  split
  · rename_i e rest hq
    split
    · exact Keeps.postDone (h.setSeq (fun hl => queueLaw_tail (hq ▸ hl)) (laserLaw_setQueue fun he => by simp [hq] at he)) _ _
    · exact h
  · exact h

protected theorem Keeps.postAbandoned (h : Keeps o a s) (es : List Entry) : Keeps o a (postAbandoned es s) := by
  induction es generalizing s with
  | nil => exact h
  | cons e es ih => exact ih (h.postDone _ _)

protected theorem Keeps.flush (h : Keeps o a s) : Keeps o a (flush s) :=
  Keeps.postAbandoned (h.setSeq (queueLaw_filter _) (laserLaw_setQueue fun he => by rw [he]; rfl)) _

protected theorem Keeps.testHead (h : Keeps o a s) : Keeps o a (testHead s) := h.emitNow _

protected theorem Keeps.endFollowing (h : Keeps o a s) (x : EndOutcome) (hs : s.seq.state.live = true) :
    Keeps o a (endFollowing x s) :=
  ((h.endEntry x).enterLive (by simpa using hs) rfl).testHead

/-! ## Disengaging (R143) -/

@[simp] theorem cancelTask_seq (s : State) : (cancelTask s).seq = s.seq := rfl
@[simp] theorem openFocus_seq (s : State) : (openFocus s).seq = s.seq := by rw [openFocus_eq]; rfl

@[simp] theorem stopOrder_seq (s : State) : (stopOrder s).seq = s.seq := by
  unfold stopOrder
  split <;> rfl

@[simp] theorem raiseOffTrack_seq (s : State) : (raiseOffTrack s).seq = s.seq := by
  unfold raiseOffTrack
  split <;> rfl

@[simp] theorem raiseFocusLost_seq (s : State) : (raiseFocusLost s).seq = s.seq := by
  unfold raiseFocusLost
  split
  · exact openFocus_seq s
  · rfl

@[simp] theorem loseFocus_seq (s : State) : (loseFocus s).seq = s.seq := by
  unfold loseFocus
  split
  · rfl
  · exact raiseFocusLost_seq s

@[simp] theorem raiseDue_seq (s : State) : (raiseDue s).seq = s.seq := by
  unfold raiseDue
  simp only [apply_ite State.seq, loseFocus_seq, raiseOffTrack_seq, raiseFocusLost_seq, takeOrder_snd, setFreeCount_seq, ite_self]

@[simp] theorem regroup_seq (g : Groups) (s : State) : (regroup g s).seq = s.seq := by
  unfold regroup groupSwitch
  simp only [apply_ite State.seq, raiseDue_seq, setFe_seq, setGroups_seq, ite_self]

@[simp] theorem endShock_seq (s : State) : (endShock s).seq = s.seq := by
  unfold endShock
  split
  · exact regroup_seq _ s
  · rfl

@[simp] theorem setSpindleState_seq (x : Spindle) (s : State) : (setSpindleState x s).seq = s.seq := by
  unfold setSpindleState
  simp only [apply_ite State.seq, emit_eq, setSignals_seq, post_seq, setSpindle_seq, ite_self]

@[simp] theorem brakeOrder_seq (s : State) : (brakeOrder s).seq = s.seq := by
  unfold brakeOrder
  dsimp only
  split <;> simp [enterBraking]

/-- A disengage clears the laser demand and leaves the rest of the sequencer for its last step. -/
@[simp] theorem disengageSteps_seq (s : State) : (disengageSteps s).seq = { s.seq with laser := false } := by
  simp [disengageSteps]

protected theorem Keeps.disengageSteps (h : Keeps o a s) : Keeps o a (disengageSteps s) :=
  Keeps.setSeek (Keeps.endShock (Keeps.brakeOrder (h.cancelTask.openFocus.setSeq (by exact id) (by
    rintro ⟨_, h2, h3, h4, h5⟩
    exact ⟨nofun, h2, h3, h4, h5⟩)))) id

protected theorem Keeps.arrive (h : Keeps o a s) (hs : s.seq.state.engaged = true) (hd : s.seq.laser = false) :
    Keeps o a (arrive s) := by
  unfold arrive
  refine Keeps.testHead (Keeps.endEntry ((h.enterDark hs hd ?_).setSeq (by exact id) (by exact id)) _)
  split <;> rfl

protected theorem Keeps.disengage (h : Keeps o a s) (standby : Bool) (hs : s.seq.state.engaged = true) :
    Keeps o a (disengage standby s) := by
  have hd := h.disengageSteps.setSeq (x := { (disengageSteps s).seq with toStandby := standby }) id id
  have hstate : (disengageSteps s).seq.state.engaged = true := by simpa using hs
  have hlaser : (disengageSteps s).seq.laser = false := by simp
  unfold disengage
  dsimp only
  split
  · exact hd.arrive hstate hlaser
  · exact hd.enterDark hstate hlaser rfl

protected theorem Keeps.failureEnd (h : Keeps o a s) (x : EndOutcome) (hs : s.seq.state.engaged = true) :
    Keeps o a (failureEnd x s) :=
  (h.endEntry x).flush.disengage false (by simpa using hs)

/-! ## ENGAGE (R139, R140) -/

protected theorem Keeps.engageReturn (h : Keeps o a s) (hs : s.seq.state.live = true) : Keeps o a (engageReturn s) := by
  unfold engageReturn
  split
  · exact Keeps.startSeek (h.setSeq (by exact id) (by exact id)) _
  · exact h.endFollowing _ hs
  · exact h.endFollowing _ hs

protected theorem Keeps.engageReady (h : Keeps o a s) (hs : s.seq.state.live = true) : Keeps o a (engageReady s) := by
  unfold engageReady
  by_cases hv : s.seek.valid = true
  · simp only [if_pos hv]
    split
    · exact Keeps.engageReturn (h.setSeq (by exact id) (by exact id)) hs
    · exact h.setSeq id id
  · simp only [if_neg hv]
    split
    · exact h.engageReturn hs
    · exact h

protected theorem Keeps.engageTrack (h : Keeps o a s) (hs : s.seq.state.live = true) : Keeps o a (engageTrack s) := by
  unfold engageTrack
  split
  · exact Keeps.engageReady (h.setSeq (by exact id) (by exact id)) hs
  · split
    · exact h.pullInOrder
    · exact h

protected theorem Keeps.engageFocus (h : Keeps o a s) (hs : s.seq.state.live = true) : Keeps o a (engageFocus s) := by
  unfold engageFocus
  split
  · exact Keeps.engageTrack (h.setSeq (by exact id) (by exact id)) hs
  · split
    · exact h.searchOrder
    · exact h

protected theorem Keeps.engageAdvance (h : Keeps o a s) : Keeps o a (engageAdvance s) := by
  unfold engageAdvance
  split
  · rename_i hst
    have hs : s.seq.state.live = true := by rw [hst]; rfl
    split
    · exact h.engageFocus hs
    · exact h.engageTrack hs
    · exact h.engageReady hs
    all_goals exact h
  · exact h

@[simp] theorem startOrder_seq (s : State) : (startOrder s).seq = s.seq := by
  unfold startOrder
  dsimp only
  split
  · split <;> simp [enterKick, enterCoast, evalTarget]
  · split <;> simp [enterKick, evalTarget]
  all_goals rfl

/-- ENGAGING is entered with the disc clamped and the power mode ACTIVE (R138). -/
protected theorem Keeps.engageRun (h : Keeps o a s)
    (hg : s.laserLaw → s.sup.power = .active ∧ s.loader.state = .clamped ∧ s.loader.ejectPending = false) :
    Keeps o a (engageRun s) := by
  have hin : Keeps o a (setSeqState .engaging s) := h.setSeqState .engaging fun hl => by
    obtain ⟨hp, hc⟩ := hg hl
    refine (laserLaw_enter_iff s .engaging s.seek).mpr ⟨fun _ => rfl, fun _ => hp, fun _ => hc, ?_, ?_⟩ <;> simp [hp]
  refine Keeps.engageAdvance ((Keeps.startOrder (hin.engageFe.setSeq (by exact id) fun hl => ?_)).setSeq (by exact id) (by exact id))
  obtain ⟨_, h2, h3, h4, h5⟩ := hl
  refine ⟨fun _ => ?_, h2, h3, h4, h5⟩
  simp only [setSeq_seq, setFe_seq, setSeqState_state]
  decide

theorem engageGuard_of_live (hs : s.seq.state.live = true) (hl : s.laserLaw) :
    s.sup.power = .active ∧ s.loader.state = .clamped ∧ s.loader.ejectPending = false := by
  obtain ⟨_, h2, h3, _, _⟩ := (laserLaw_iff s).mp hl
  exact ⟨h2 (engaged_of_live hs), h3 hs⟩

/-- An entry that waits keeps the part out of SLEEP, and in IDLE the power mode is not STANDBY, so an ENGAGE finds ACTIVE. -/
protected theorem Keeps.engageFirst (h : Keeps o a s) (hq : s.seq.queue ≠ []) (hd : s.discReady = true) :
    Keeps o a (engageFirst s) := by
  simp only [State.discReady, Bool.and_eq_true, decide_eq_true_eq, Bool.not_eq_true'] at hd
  unfold engageFirst
  split
  · refine Keeps.engageRun (Keeps.setPowerActive (h.setSeq (by exact id) (by exact id))) fun _ => ?_
    unfold setPower
    split
    · rename_i hp; exact ⟨hp, hd⟩
    · exact ⟨rfl, hd⟩
  · rename_i hne
    refine Keeps.engageRun (h.setSeq (by exact id) (by exact id)) fun hl => ⟨?_, hd⟩
    obtain ⟨_, _, _, h4, h5⟩ := hl
    cases hp : s.sup.power with
    | active => exact hp
    | standby => exact absurd (h4 hp) hne
    | sleep => exact absurd (h5 hp).2 hq

/-! ## Starting entries (R136) -/

theorem queueLaw_mark {e : Entry} {rest : List Entry} (h : queueLaw (e :: rest)) :
    queueLaw ({ e with inProgress := true } :: rest) := h

protected theorem Keeps.markHead (h : Keeps o a s) : Keeps o a (markHead s) := by
  unfold markHead
  split
  · rename_i e rest hq
    exact h.setSeq (fun hl => queueLaw_mark (hq ▸ hl)) (laserLaw_setQueue fun he => by simp [hq] at he)
  · exact h

@[simp] theorem markHead_state (s : State) : (markHead s).seq.state = s.seq.state := by
  unfold markHead
  split <;> rfl

theorem markHead_queue_ne_nil (h : s.seq.queue ≠ []) : (markHead s).seq.queue ≠ [] := by
  unfold markHead
  split
  · simp
  · exact h

@[simp] theorem markHead_discReady (s : State) : (markHead s).discReady = s.discReady := by
  unfold markHead
  split <;> rfl

protected theorem Keeps.endsAtOnce (h : Keeps o a s) (x : EndOutcome) : Keeps o a (endsAtOnce x s) :=
  (h.markHead.endEntry x).testHead

protected theorem Keeps.pauseRun (h : Keeps o a s) (hs : s.seq.state.live = true) : Keeps o a (pauseRun s) := by
  unfold pauseRun
  split
  · exact h.endFollowing _ hs
  · exact h.enterLive hs rfl

protected theorem Keeps.startDisengaged (h : Keeps o a s) (m : Motion) (hq : s.seq.queue ≠ []) :
    Keeps o a (startDisengaged m s) := by
  cases m with
  | engage =>
    unfold startDisengaged
    dsimp only
    split
    · rename_i hd
      exact h.markHead.engageFirst (markHead_queue_ne_nil hq) (by simpa using hd)
    · exact h.endsAtOnce _
  | seek t => exact h.endsAtOnce _
  | jump n => exact h.endsAtOnce _
  | pause => exact h.endsAtOnce _
  | disengage => exact h.endsAtOnce _

protected theorem Keeps.startFollowing (h : Keeps o a s) (m : Motion) (hs : s.seq.state = .following) :
    Keeps o a (startFollowing m s) := by
  have hlive : (markHead s).seq.state.live = true := by rw [markHead_state, hs]; rfl
  cases m with
  | engage => exact h.endsAtOnce _
  | seek t => exact (h.markHead.enterLive hlive rfl).startSeek t
  | jump n => exact (h.markHead.enterLive hlive rfl).startJump n
  | pause => exact h.markHead.pauseRun hlive
  | disengage => exact h.markHead.disengage false (engaged_of_live hlive)

/-- A head that is due stands in the queue. -/
theorem headDue_some {m : Motion} (h : s.headDue = some m) : s.seq.queue ≠ [] := by
  intro hq
  simp [State.headDue, hq] at h

protected theorem Keeps.startHead (h : Keeps o a s) : Keeps o a (startHead s) := by
  unfold startHead
  split
  · rename_i m hm
    split
    · rename_i hf; exact h.startFollowing m hf
    · exact h.startDisengaged m (headDue_some hm)
  · exact h

end

end Sys2Proof.Machine
end

