-- ==== Sys2Proof/Proofs/KeepingOrders.lean ====
section
/-! SUPPORT. What recovery, the orders to the sequencer, the reports, the motion requests and the loader keep, and what the end of a
step keeps that hands all of them on (R132 to R172). -/

namespace Sys2Proof.Machine

section
variable {o : Option (Fin 64)} {a s : State}

/-! ## Recovery (R150 to R153) -/

protected theorem Keeps.recoverPullIn (h : Keeps o a s) : Keeps o a (recoverPullIn s) := Keeps.pullInOrder (h.setSeq (by exact id) (by exact id))

protected theorem Keeps.recoverFocus (h : Keeps o a s) : Keeps o a (recoverFocus s) := by
  unfold recoverFocus
  dsimp only
  split
  · exact h.openTrack.recoverPullIn
  · exact Keeps.searchOrder (h.openTrack.setSeq (by exact id) (by exact id))

protected theorem Keeps.recoverLoops (h : Keeps o a s) : Keeps o a (recoverLoops s) := by
  unfold recoverLoops
  split
  · exact h.setSeq id id
  · split
    · exact h.recoverPullIn
    · exact h.setSeq id id

protected theorem Keeps.attemptBegin (h : Keeps o a s) : Keeps o a (attemptBegin s) := by
  have hn := h.setSeq (x := { s.seq with attempts := s.seq.attempts + 1 }) id id
  unfold attemptBegin
  dsimp only
  split
  · exact hn.recoverFocus
  all_goals exact hn.recoverLoops

protected theorem Keeps.attemptFail (h : Keeps o a s) (hs : s.seq.state.live = true) : Keeps o a (attemptFail s) := by
  unfold attemptFail
  dsimp only
  split
  · exact h.cancelTask.stopOrder.attemptBegin
  · exact (h.cancelTask.stopOrder.postRecovery _ _ _).failureEnd _ (by simpa [postRecovery] using engaged_of_live hs)

protected theorem Keeps.replayJump (h : Keeps o a s) (n : Int) (hs : s.seq.state.live = true) : Keeps o a (replayJump n s) :=
  (h.enterLive hs rfl).startJump n

protected theorem Keeps.attemptSuccess (h : Keeps o a s) (hs : s.seq.state.live = true) : Keeps o a (attemptSuccess s) := by
  have hp := h.postRecovery s.seq.cause .resumed s.seq.attempts
  unfold attemptSuccess
  dsimp only
  split
  · split
    · exact hp.enterLive hs rfl
    · exact hp.engageRun (engageGuard_of_live hs)
  · split
    · exact hp.enterLive hs rfl
    · exact (hp.enterLive hs rfl).startSeek _
  · split
    · exact hp.enterLive hs rfl
    · exact hp.replayJump _ hs
  · exact hp.pauseRun hs
  · exact (hp.enterLive hs rfl).testHead
  · exact (hp.enterLive hs rfl).testHead

protected theorem Keeps.recoverReturn (h : Keeps o a s) (hs : s.seq.state.live = true) : Keeps o a (recoverReturn s) := by
  unfold recoverReturn
  split
  · exact h.attemptSuccess hs
  · dsimp only
    split
    · exact h.setSeq id id
    · exact Keeps.startSeek (h.setSeq (by exact id) (by exact id)) _

protected theorem Keeps.recoveryStart (h : Keeps o a s) (c : Cause) (hs : s.seq.state.live = true) :
    Keeps o a (recoveryStart c s) :=
  Keeps.attemptBegin ((h.cancelTask.stopOrder.enterLive (by simpa using hs) (by exact rfl)).setSeq (by exact id) (by exact id))

protected theorem Keeps.incident (h : Keeps o a s) (c : Cause) : Keeps o a (incident c s) := by
  unfold incident
  split
  · rename_i hst
    refine Keeps.attemptFail (h.setSeq (by exact id) (by exact id)) ?_
    simp only [setSeq_seq, hst]
    decide
  · rename_i hst; exact h.recoveryStart c (by rw [hst]; rfl)
  · rename_i hst; exact h.recoveryStart c (by rw [hst]; rfl)
  · rename_i hst; exact h.recoveryStart c (by rw [hst]; rfl)
  · rename_i hst; exact h.recoveryStart c (by rw [hst]; rfl)
  · rename_i hst; exact h.recoveryStart c (by rw [hst]; rfl)
  · rename_i hst; exact h.recoveryStart c (by rw [hst]; rfl)
  all_goals exact h

protected theorem Keeps.loopWaitTimeout (h : Keeps o a s) : Keeps o a (loopWaitTimeout s) := by
  unfold loopWaitTimeout
  split
  · dsimp only
    split
    · exact h.setSeq id id
    · exact Keeps.pullInOrder (h.setSeq (by exact id) (by exact id))
  · exact h

/-- RECOVERING is one of the live states, and so is ENGAGING. -/
theorem live_of_recovering {c : Bool} (h : (decide (s.seq.state = .recovering) && c) = true) : s.seq.state.live = true := by
  simp only [Bool.and_eq_true, decide_eq_true_eq] at h
  rw [h.1]; rfl

protected theorem Keeps.recoveryAddressTimeout (h : Keeps o a s) : Keeps o a (recoveryAddressTimeout s) := by
  unfold recoveryAddressTimeout
  split
  · rename_i hc; exact h.attemptFail (live_of_recovering hc)
  · exact h

protected theorem Keeps.engageAddressTimeout (h : Keeps o a s) : Keeps o a (engageAddressTimeout s) := by
  unfold engageAddressTimeout
  split
  · rename_i hc
    simp only [Bool.and_eq_true, decide_eq_true_eq] at hc
    exact h.failureEnd _ (by rw [hc.1.1.1]; rfl)
  · exact h

/-! ## Orders of the outer blocks (R145 to R149) -/

@[simp] theorem abandonAll_state (s : State) : (abandonAll s).seq.state = s.seq.state := by
  unfold abandonAll
  dsimp only
  split <;> simp [postRecovery]

protected theorem Keeps.abandonAll (h : Keeps o a s) : Keeps o a (abandonAll s) := by
  unfold abandonAll
  dsimp only
  split
  · exact (h.endEntry _).flush.postRecovery _ _ _
  · exact (h.endEntry _).flush

protected theorem Keeps.haltSettle (h : Keeps o a s) (hs : s.seq.state.live = true) : Keeps o a (haltSettle s) := by
  unfold haltSettle
  split
  · exact (h.enterLive hs rfl).testHead
  · split
    · exact h.flush.disengage _ (by simpa using engaged_of_live hs)
    · exact h.setSeq id id

/-- Any state but IDLE, STANDBY and DISENGAGING is live. -/
theorem live_of_ne {st : SeqState} (hi : st ≠ .idle) (hs : st ≠ .standby) (hd : st ≠ .disengaging) : st.live = true := by
  cases st with
  | idle => exact absurd rfl hi
  | standby => exact absurd rfl hs
  | disengaging => exact absurd rfl hd
  | _ => rfl

protected theorem Keeps.haltOrder (h : Keeps o a s) : Keeps o a (haltOrder s) := by
  unfold haltOrder
  extract_lets engaging state
  split
  · exact h.flush
  · rename_i hst
    simp only [Bool.or_eq_true, decide_eq_true_eq, not_or] at hst
    have hs : (abandonAll s).seq.state.live = true := by
      rw [abandonAll_state]
      exact live_of_ne hst.1.1.1 hst.1.1.2 hst.2
    split
    · exact h.abandonAll.disengage _ (engaged_of_live hs)
    · split
      · split
        · exact (h.abandonAll.cancelTask.enterLive hs rfl).testHead
        · exact h.abandonAll.cancelTask.disengage _ (engaged_of_live hs)
      · exact h.abandonAll.cancelTask.stopOrder.haltSettle (by simpa using hs)

/-- STANDBY is left for IDLE together with the power mode STANDBY (R146). -/
theorem setPower_active_setSeqState_idle (hs : s.seq.state = .standby) :
    setPower .active (setSeqState .idle s)
      = if s.sup.power = .active then setSeqState .idle s
        else post .power [0] (setSeqState .idle (s.setSup { s.sup with power := .active })) := by
  by_cases hp : s.sup.power = .active
  · simp [setPower, setSeqState, hs, hp, SeqState.reading]
  · simp [setPower, setSeqState, hs, hp, SeqState.reading, Power.code]
    rfl

protected theorem Keeps.standbyToIdle (h : Keeps o a s) (hs : s.seq.state = .standby) :
    Keeps o a (setPower .active (setSeqState .idle s)) := by
  have hidle {u : State} (hu : Keeps o a u) (hst : u.seq.state = .standby) (hp : u.sup.power = .active) :
      Keeps o a (setSeqState .idle u) :=
    hu.setSeqState .idle fun hl => by
      obtain ⟨h1, _, _, _, _⟩ := (laserLaw_iff u).mp hl
      have hd : u.seq.laser = false := by
        by_contra hd
        simp only [Bool.not_eq_false] at hd
        have := h1 hd
        rw [hst] at this
        cases this
      refine (laserLaw_enter_iff u .idle u.seek).mpr ⟨?_, ?_, ?_, ?_, ?_⟩
      · simp [hd]
      · exact nofun
      · exact nofun
      · simp [hp]
      · simp [hp]
  rw [setPower_active_setSeqState_idle hs]
  split
  · rename_i hp; exact hidle h hs hp
  · refine Keeps.post (hidle (h.setSup (x := { s.sup with power := .active }) (fun hl => ?_) id id) hs rfl) _ _
    obtain ⟨h1, _, h3, _, _⟩ := hl
    exact ⟨h1, fun _ => rfl, h3, nofun, nofun⟩

protected theorem Keeps.ejectOrder (h : Keeps o a s) : Keeps o a (ejectOrder s) := by
  unfold ejectOrder
  dsimp only
  split
  · exact h.abandonAll
  · rename_i hst; exact h.abandonAll.standbyToIdle hst
  · exact h.abandonAll.setSeq id id
  all_goals (rename_i hst; exact h.abandonAll.disengage _ (by rw [hst]; rfl))

/-- After an eject order the part is at rest or on its way to it. -/
theorem disengage_not_live (standby : Bool) (s : State) : (disengage standby s).seq.state.live = false := by
  unfold disengage
  dsimp only
  split
  · unfold arrive
    simp only [testHead, emitNow_eq, setSignals_seq, endEntry_state, setSeq_seq, setSeqState_state]
    cases standby <;> rfl
  · rw [setSeqState_state]; rfl

theorem ejectOrder_not_live (s : State) : (ejectOrder s).seq.state.live = false := by
  unfold ejectOrder
  dsimp only
  split
  · rename_i hst; rw [hst]; rfl
  · rw [setPower_seq, setSeqState_state]; rfl
  · rename_i hst; simp only [setSeq_seq, hst]; rfl
  all_goals exact disengage_not_live _ _

protected theorem Keeps.faultOrder (h : Keeps o a s) : Keeps o a (faultOrder s) := by
  unfold faultOrder
  dsimp only
  split
  · rename_i he
    exact Keeps.enterDark (h.abandonAll.disengageSteps.setSeq (by exact id) (by exact id)) (by simpa using he) (by simp) rfl
  · exact h.abandonAll

/-- STANDBY is entered from a rest state under ACTIVE, and the power mode follows (R182). -/
protected theorem Keeps.enterStandby (h : Keeps o a s) (hs : s.seq.state = .idle) : Keeps o a (setSeqState .standby s) :=
  h.setSeqState .standby fun hl => by
    obtain ⟨h1, _, _, _, h5⟩ := (laserLaw_iff s).mp hl
    have hd : s.seq.laser = false := by
      by_contra hd
      simp only [Bool.not_eq_false] at hd
      have := h1 hd
      rw [hs] at this
      cases this
    refine (laserLaw_enter_iff s .standby s.seek).mpr ⟨?_, nofun, nofun, fun _ => rfl, fun hp => ⟨rfl, (h5 hp).2⟩⟩
    simp [hd]

protected theorem Keeps.standbyOrder (h : Keeps o a s) : Keeps o a (standbyOrder s) := by
  unfold standbyOrder
  dsimp only
  split
  · rename_i hst; exact h.abandonAll.enterStandby hst
  · rename_i hst; exact h.abandonAll.setPowerStandby hst
  · exact h.abandonAll.setSeq id id
  all_goals (rename_i hst; exact h.abandonAll.disengage _ (by rw [hst]; rfl))

protected theorem Keeps.idleExpiry (h : Keeps o a s) : Keeps o a (idleExpiry s) := by
  unfold idleExpiry
  split
  · exact (h.endEntry _).standbyOrder
  · exact h

protected theorem Keeps.suspend (h : Keeps o a s) (hs : s.seq.state.live = true) : Keeps o a (suspend s) := by
  unfold suspend
  dsimp only
  split
  · exact (h.cancelTask.enterLive hs rfl).stopOrder
  · exact h.cancelTask.enterLive hs rfl

protected theorem Keeps.crankStart (h : Keeps o a s) : Keeps o a (crankStart s) := by
  unfold crankStart
  split
  · rename_i hst; exact h.suspend (by rw [hst]; rfl)
  · rename_i hst
    split
    · exact h.suspend (by rw [hst]; rfl)
    · exact h.enterLive (by rw [hst]; rfl) rfl
  · rename_i hst
    split
    · exact h.suspend (by rw [hst]; rfl)
    · exact h.enterLive (by rw [hst]; rfl) rfl
  · split
    · exact h.cancelTask.stopOrder
    · exact h
  · split
    · exact h.cancelTask.stopOrder
    · exact h
  all_goals exact h

protected theorem Keeps.replay (h : Keeps o a s) (hs : s.seq.state.live = true) : Keeps o a (replay s) := by
  unfold replay
  split
  · exact h.engageRun (engageGuard_of_live hs)
  · exact (h.enterLive hs rfl).startSeek _
  · split
    · exact Keeps.startSeek (h.setSeq (by exact id) (by exact id)) _
    · exact h.replayJump _ hs
  all_goals exact h

protected theorem Keeps.crankEnd (h : Keeps o a s) : Keeps o a (crankEnd s) := by
  unfold crankEnd
  split
  · rename_i hst; exact h.startOrder.replay (by rw [startOrder_seq, hst]; rfl)
  · split
    · rename_i hc; exact h.recoverReturn (live_of_recovering hc)
    · exact h.testHead

/-! ## Reports to the sequencer (R124, R139 to R154) -/

protected theorem Keeps.seqFocusCaptured (h : Keeps o a s) : Keeps o a (seqFocusCaptured s) := by
  unfold seqFocusCaptured
  split
  · exact h.recoverPullIn
  · exact h.engageAdvance

protected theorem Keeps.seqFocusFail (h : Keeps o a s) : Keeps o a (seqFocusFail s) := by
  unfold seqFocusFail
  split
  · rename_i hst; exact h.failureEnd _ (by rw [hst]; rfl)
  · split
    · rename_i hst; exact h.attemptFail (by rw [hst]; rfl)
    · exact h

/-- The states in which HALT leaves the sequencer waiting for the track are live (R145). -/
theorem live_of_haltWait (h : s.haltWait = true) : s.seq.state.live = true := by
  simp only [State.haltWait, Bool.and_eq_true, Bool.or_eq_true, decide_eq_true_eq] at h
  rcases h.1 with ((h | h) | h) | h <;> rw [h] <;> rfl

protected theorem Keeps.seqLockEntered (h : Keeps o a s) : Keeps o a (seqLockEntered s) := by
  unfold seqLockEntered
  split
  · rename_i hw
    split
    · exact (h.enterLive (live_of_haltWait hw) rfl).testHead
    · exact h
  · split
    · split
      · exact h.setSeq id id
      · exact h
    · exact h.engageAdvance

protected theorem Keeps.seqTrackFail (h : Keeps o a s) (byPause : Bool) : Keeps o a (seqTrackFail byPause s) := by
  unfold seqTrackFail
  split
  · rename_i hst; exact h.attemptFail (by rw [hst]; rfl)
  · split
    · rename_i hw; exact h.flush.disengage _ (by simpa using engaged_of_live (live_of_haltWait hw))
    · split
      · rename_i hc
        simp only [Bool.and_eq_true] at hc
        exact h.failureEnd _ hc.1.2
      · split
        · exact h.seekTrackFail
        · split
          · rename_i hst; exact h.failureEnd _ (by rw [hst]; rfl)
          · exact h

protected theorem Keeps.seqFocusLost (h : Keeps o a s) : Keeps o a (seqFocusLost s) := by
  unfold seqFocusLost
  split
  · rename_i hw; exact h.flush.disengage _ (by simpa using engaged_of_live (live_of_haltWait hw))
  · exact h.incident _

/-- The end of a task by the sequencer: a failure end for TRACK_FAIL, else FOLLOWING (R124, R141). -/
theorem Keeps.endOrFail (h : Keeps o a s) (x : EndOutcome) (hs : s.seq.state.live = true) :
    Keeps o a (if x = .trackFail then failureEnd x s else endFollowing x s) := by
  split
  · exact h.failureEnd _ (engaged_of_live hs)
  · exact h.endFollowing _ hs

protected theorem Keeps.seqOutcome (h : Keeps o a s) (x : EndOutcome) : Keeps o a (seqOutcome x s) := by
  unfold seqOutcome
  split
  · rename_i hst; exact h.endOrFail x (by rw [hst]; rfl)
  · rename_i hst; exact h.endOrFail x (by rw [hst]; rfl)
  · rename_i hst; exact h.endOrFail x (by rw [hst]; rfl)
  · rename_i hst
    have hs : s.seq.state.live = true := by rw [hst]; rfl
    split
    · exact h.attemptSuccess hs
    · exact h.attemptFail hs
  · rename_i hst
    have hs : s.seq.state.live = true := by rw [hst]; rfl
    split
    · split
      · exact h.replayJump _ hs
      all_goals exact h
    · exact h.endOrFail x hs
  all_goals exact h

protected theorem Keeps.seqSpinFail (h : Keeps o a s) : Keeps o a (seqSpinFail s) := by
  unfold seqSpinFail
  split
  · rename_i hc
    simp only [Bool.and_eq_true] at hc
    dsimp only
    split
    · exact (h.postRecovery _ _ _).failureEnd _ hc.1
    · split
      · exact (h.postRecovery _ _ _).failureEnd _ hc.1
      · exact h.failureEnd _ hc.1
  · exact h

/-- DISENGAGING has no laser demand by its law, so it may be left for a rest state (R143). -/
protected theorem Keeps.seqStopped (h : Keeps o a s) : Keeps o a (seqStopped s) := by
  unfold seqStopped
  split
  · rename_i hst
    unfold arrive
    refine Keeps.testHead (Keeps.endEntry ((h.setSeqState _ fun hl => ?_).setSeq (by exact id) (by exact id)) _)
    obtain ⟨h1, h2, _, _, _⟩ := (laserLaw_iff s).mp hl
    have hp : s.sup.power = .active := h2 (by rw [hst]; rfl)
    refine (laserLaw_enter_iff s _ s.seek).mpr ⟨fun hd => ?_, fun _ => hp, fun hd => ?_, by simp [hp], by simp [hp]⟩
    · have := h1 hd
      rw [hst] at this
      cases this
    · split at hd <;> cases hd
  · exact h

protected theorem Keeps.seqAddress (h : Keeps o a s) : Keeps o a (seqAddress s) := by
  unfold seqAddress
  split
  · rename_i hc; exact h.recoverReturn (live_of_recovering hc)
  · exact h.engageAdvance

protected theorem Keeps.followAddress (h : Keeps o a s) (address : Nat) : Keeps o a (followAddress address s) := by
  unfold followAddress
  split
  · exact h.setSeq id id
  · exact h

/-! ## Motion requests (R132 to R135) -/

theorem splitTail_some {q before : List Entry} {tail : Entry} (h : splitTail q = some (before, tail)) : q = before ++ [tail] := by
  induction q generalizing before with
  | nil => cases h
  | cons e es ih =>
    cases es with
    | nil => cases h; rfl
    | cons e' es' =>
      simp only [splitTail, Option.map_eq_some_iff, Prod.mk.injEq] at h
      obtain ⟨⟨b, t⟩, hp, rfl, rfl⟩ := h
      rw [ih hp]; rfl

/-- A merge puts a waiting entry in the place of a waiting tail. -/
theorem mergeTail_some {tail x : Entry} {m : Motion} {tag : Byte} {c : Bool} (h : mergeTail tail m tag = some (x, c)) :
    x.inProgress = false := by
  unfold mergeTail at h
  split at h
  · cases h
  · split at h
    · cases h; rfl
    · cases h; rfl
    · cases h

/-- An entry that waits may stand behind any others. -/
theorem queueLaw_concat {q : List Entry} {x : Entry} (hx : x.inProgress = false) (hlen : q.length < 4) (h : queueLaw q) :
    queueLaw (q ++ [x]) := by
  obtain ⟨_, hw⟩ := h
  refine ⟨by simpa using hlen, fun e he => ?_⟩
  cases q with
  | nil => cases he
  | cons e' es =>
    rcases List.mem_append.mp he with he | he
    · exact hw e he
    · rw [List.mem_singleton.mp he]; exact hx

theorem queueLaw_dropLast {q : List Entry} {x : Entry} (h : queueLaw (q ++ [x])) : queueLaw q ∧ q.length < 4 := by
  obtain ⟨hlen, hw⟩ := h
  have hlt : q.length < 4 := by simpa using hlen
  refine ⟨⟨hlt.le, fun e he => ?_⟩, hlt⟩
  cases q with
  | nil => cases he
  | cons e' es => exact hw e (List.mem_append_left _ he)

theorem queueLaw_merge {q queue : List Entry} {m : Motion} {tag old : Byte} {c : Bool}
    (hm : mergeQueue q m tag = some (queue, old, c)) (h : queueLaw q) : queueLaw queue := by
  unfold mergeQueue at hm
  split at hm
  · cases hm
  · rename_i before tail hsplit
    obtain ⟨⟨x, c'⟩, hx, hq⟩ := Option.map_eq_some_iff.mp hm
    cases hq
    rw [splitTail_some hsplit] at h
    exact queueLaw_concat (mergeTail_some hx) (queueLaw_dropLast h).2 (queueLaw_dropLast h).1

protected theorem Keeps.afterAppend (h : Keeps o a s) : Keeps o a (afterAppend s) := by
  unfold afterAppend
  split
  · rename_i hc
    simp only [Bool.and_eq_true, decide_eq_true_eq] at hc
    exact h.endFollowing _ (by rw [hc.1]; rfl)
  · exact h.testHead

protected theorem Keeps.wakeToActive (h : Keeps o a s) : Keeps o a (wakeTo .active s) := by
  unfold wakeTo
  split
  · exact Keeps.setPowerActive (h.setSup (by exact id) (by exact id) (by exact id))
  · exact h

/-- A request that wakes the part leaves no SLEEP. -/
theorem wakeToActive_awake (s : State) : (wakeTo .active s).sup.power ≠ .sleep := by
  unfold wakeTo
  split
  · rename_i hp; simp [setPower, hp]
  · assumption

/-- Out of SLEEP the laser law does not speak of the queue. -/
theorem laserLaw_setQueue_awake {q : List Entry} (hp : s.sup.power ≠ .sleep) (h : s.laserLaw) :
    (s.setSeq { s.seq with queue := q }).laserLaw := by
  obtain ⟨h1, h2, h3, h4, _⟩ := h
  exact ⟨h1, h2, h3, h4, fun hs => absurd hs hp⟩

protected theorem Keeps.motionRequest (h : Keeps o a s) (kind : Nat) (m : Motion) (tag : Byte) :
    Keeps o a (motionRequest kind m tag s) := by
  have hw := h.wakeToActive
  unfold motionRequest
  dsimp only
  split
  · exact hw.reply _ _ _
  · split
    · rename_i hm
      exact Keeps.reply (hw.setSeq (queueLaw_merge hm) (laserLaw_setQueue_awake (wakeToActive_awake s))) _ _ _
    · split
      · exact hw.reply _ _ _
      · rename_i hlen
        exact Keeps.afterAppend (Keeps.reply (hw.setSeq (queueLaw_concat rfl (by omega))
          (laserLaw_setQueue_awake (wakeToActive_awake s))) _ _ _)

/-! ## The loader (R159 to R170) -/

/-- No disc is ready, or no live state needs it: the loader may change. -/
def State.loaderFree (s : State) : Prop := s.discReady = false ∨ s.seq.state.live = false

theorem discReady_eq_false_iff (s : State) : s.discReady = false ↔ ¬(s.loader.state = .clamped ∧ s.loader.ejectPending = false) := by
  simp [State.discReady, ← Bool.not_eq_true]

theorem not_live_of_loaderFree (h : s.loaderFree) (hl : s.laserLaw) : s.seq.state.live = false := by
  rcases h with h | h
  · obtain ⟨_, _, h3, _, _⟩ := (laserLaw_iff s).mp hl
    by_contra hlive
    exact (discReady_eq_false_iff s).mp h (h3 (Bool.not_eq_false _ ▸ hlive))
  · exact h

theorem loaderFree_of_state (h : s.loader.state ≠ .clamped) : s.loaderFree :=
  .inl ((discReady_eq_false_iff s).mpr fun hc => h hc.1)

/-- The laser law with another loader: a live state still has its disc, or there is none. -/
theorem laserLaw_setLoader {x : Loader} (hx : s.loaderFree ∨ (x.state = .clamped ∧ x.ejectPending = false)) (hl : s.laserLaw) :
    (s.setLoader x).laserLaw := by
  obtain ⟨h1, h2, _, h4, h5⟩ := (laserLaw_iff s).mp hl
  refine (laserLaw_iff _).mpr ⟨h1, h2, fun hlive => ?_, h4, h5⟩
  rcases hx with hf | hx
  · exact absurd hlive (by simp [not_live_of_loaderFree hf hl])
  · exact hx

protected theorem Keeps.setLoaderState (h : Keeps o a s) {x : Loader}
    (hx : s.loaderFree ∨ (x.state = .clamped ∧ x.ejectPending = false))
    (hd : inDrive s.loader.drive → inDrive x.drive)
    (hr : s.loader.reloadSetting ≤ 255 → x.reloadSetting ≤ 255) : Keeps o a (setLoaderState x s) :=
  Keeps.post (h.setLoader (laserLaw_setLoader hx) hd hr) _ _

protected theorem Keeps.enterClamped (h : Keeps o a s) : Keeps o a (enterClamped s) :=
  h.setLoaderState (.inr ⟨rfl, rfl⟩) id id

protected theorem Keeps.enterPulling (h : Keeps o a s) (hf : s.loaderFree) : Keeps o a (enterPulling s) := by
  have hp := h.setLoaderState (x := { s.loader with
    state := .pulling, ejectPending := false, jam := false, timer := 0, reload := none }) (.inl hf) id id
  unfold enterPulling
  dsimp only
  split
  · exact hp.enterClamped
  · exact hp

protected theorem Keeps.enterEmpty (h : Keeps o a s) (hf : s.loaderFree) : Keeps o a (enterEmpty s) :=
  h.setLoaderState (.inl hf) id id

protected theorem Keeps.enterPresented (h : Keeps o a s) (hf : s.loaderFree) : Keeps o a (enterPresented s) := by
  have hp := h.setLoaderState (x := { s.loader with state := .presented, reload := s.loader.startReload }) (.inl hf) id id
  unfold enterPresented
  dsimp only
  split
  · exact hp
  · exact hp.enterEmpty (loaderFree_of_state (s := setLoaderState { s.loader with
      state := .presented, reload := s.loader.startReload } s) (fun hc => by cases hc))

/-- Nothing of the disc is left: the bins stand at 0 from the first on (R26, R32). -/
protected theorem Keeps.discGone (h : Keeps o a s) : Keeps o a ((s.setAngle {}).setRev (Vector.replicate 64 {})) :=
  { h with
    table := fun _ b => by simp }

protected theorem Keeps.unclamp (h : Keeps o a s) : Keeps o a (unclamp s) := by
  have hz : zoneLaw s.seek.cleared := by simp [zoneLaw, Seek.cleared, firstTracksOf, tracksAfter]
  exact Keeps.evalTarget ((Keeps.setSeek (h.discGone.setDefects (by exact fun _ _ i d hd => by simp at hd))
    (by exact fun _ => hz)).setSeq (by exact id) (by exact id))

protected theorem Keeps.enterReleasing (h : Keeps o a s) (hf : s.loaderFree) : Keeps o a (enterReleasing s) := by
  have hr := h.setLoaderState (x := { s.loader with state := .releasing, ejectPending := false, timer := 0 }) (.inl hf) id id
  have hne : (setLoaderState { s.loader with state := .releasing, ejectPending := false, timer := 0 } s).loader.state ≠ .clamped :=
    fun hc => by cases hc
  unfold enterReleasing
  dsimp only
  split
  · split
    · exact hr.unclamp.enterPresented (loaderFree_of_state (s := unclamp _) hne)
    · exact hr.unclamp
  · split
    · exact hr.enterPresented (loaderFree_of_state hne)
    · exact hr

protected theorem Keeps.enterJammed (h : Keeps o a s) (hf : s.loaderFree) : Keeps o a (enterJammed s) :=
  h.setLoaderState (.inl hf) id id

@[simp] theorem wakeTo_loader (m : Power) (s : State) : (wakeTo m s).loader = s.loader := by
  unfold wakeTo setPower
  split
  · split <;> rfl
  · rfl

protected theorem Keeps.pullIn (h : Keeps o a s) (hs : s.loader.state = .empty) : Keeps o a (pullIn s) :=
  h.wakeToActive.enterPulling (loaderFree_of_state (by simp [hs]))

protected theorem Keeps.loaderSlot (h : Keeps o a s) : Keeps o a (loaderSlot s) := by
  unfold loaderSlot
  split
  · rename_i hst
    split
    · split
      · exact h.pullIn hst
      · exact h.post _ _
    · exact h
  · rename_i hst
    split
    · exact h
    · exact h.enterEmpty (loaderFree_of_state (by simp [hst]))
  all_goals exact h

protected theorem Keeps.loaderClampEnd (h : Keeps o a s) : Keeps o a (loaderClampEnd s) := by
  unfold loaderClampEnd
  split
  · exact h.enterClamped
  · exact h

protected theorem Keeps.loaderEjectEnd (h : Keeps o a s) : Keeps o a (loaderEjectEnd s) := by
  unfold loaderEjectEnd
  split
  · rename_i hc
    simp only [Bool.and_eq_true, decide_eq_true_eq] at hc
    exact h.enterPresented (loaderFree_of_state (by simp [hc.1]))
  · exact h

protected theorem Keeps.loaderFreed (h : Keeps o a s) : Keeps o a (loaderFreed s) := by
  unfold loaderFreed
  split
  · rename_i hc
    simp only [Bool.and_eq_true, decide_eq_true_eq] at hc
    exact h.pullIn hc.1.1
  · exact h

protected theorem Keeps.ejectRelease (h : Keeps o a s) : Keeps o a (ejectRelease s) := by
  unfold ejectRelease
  split
  · rename_i hc
    simp only [Bool.and_eq_true, decide_eq_true_eq] at hc
    exact h.enterReleasing (.inl (by simp [State.discReady, hc.1.2]))
  · exact h

protected theorem Keeps.loadTimeout (h : Keeps o a s) : Keeps o a (loadTimeout s) := by
  unfold loadTimeout
  split
  · rename_i hc
    simp only [Bool.and_eq_true, decide_eq_true_eq] at hc
    have hne : s.loader.state ≠ .clamped := by simp [hc.1]
    exact Keeps.enterReleasing (h.setLoader (laserLaw_setLoader (.inl (loaderFree_of_state hne))) (by exact id) (by exact id))
      (loaderFree_of_state hne)
  · exact h

protected theorem Keeps.releaseTimeout (h : Keeps o a s) : Keeps o a (releaseTimeout s) := by
  unfold releaseTimeout
  split
  · rename_i hc
    simp only [Bool.and_eq_true, decide_eq_true_eq] at hc
    have hne : s.loader.state ≠ .clamped := by simp [hc.1]
    exact Keeps.enterJammed (h.setLoader (laserLaw_setLoader (.inl (loaderFree_of_state hne))) (by exact id) (by exact id)) (loaderFree_of_state hne)
  · exact h

protected theorem Keeps.reloadExpiry (h : Keeps o a s) : Keeps o a (reloadExpiry s) := by
  unfold reloadExpiry
  split
  · rename_i hc
    simp only [State.reloadRuns, Bool.and_eq_true, decide_eq_true_eq] at hc
    exact h.enterPulling (loaderFree_of_state (by simp [hc.1.1.1]))
  · exact h

/-- Every drive the loader is asked for is one of three (R159). -/
theorem loaderDemand_inDrive (s : State) : inDrive s.loaderDemand := by
  unfold State.loaderDemand
  split
  · split <;> simp [inDrive]
  · exact inDrive_zero

protected theorem Keeps.loaderTest (h : Keeps o a s) : Keeps o a (loaderTest s) :=
  h.ejectRelease.setLoader id (fun _ => loaderDemand_inDrive _) id

protected theorem Keeps.loadEffect (h : Keeps o a s) : Keeps o a (loadEffect s).2 := by
  unfold loadEffect
  split
  · rename_i hst
    split
    · exact h.enterPulling (loaderFree_of_state (by simp [hst]))
    · exact h
  · exact h
  · exact h
  · exact h
  · rename_i hst; exact h.enterPulling (loaderFree_of_state (by simp [hst]))
  · rename_i hst; exact h.enterPulling (loaderFree_of_state (by simp [hst]))

protected theorem Keeps.ejectEffect (h : Keeps o a s) (hs : s.seq.state.live = false) : Keeps o a (ejectEffect s) := by
  unfold ejectEffect
  split
  · exact h.enterReleasing (.inr hs)
  · exact h.setLoader (laserLaw_setLoader (.inl (.inr hs))) id id
  · exact h.enterReleasing (.inr hs)
  all_goals exact h

/-! ## What is handed on (R40, R90, R152) -/

protected theorem Keeps.takeOffTrack (h : Keeps o a s) : Keeps o a (takeOffTrack s) := by
  unfold takeOffTrack
  split
  · dsimp only
    split
    · exact h.takeOrder.shockTrigger.incident _
    · exact (h.takeOrder.incident _).shockTrigger
  · exact (h.incident _).shockTrigger

protected theorem Keeps.handle (h : Keeps o a s) (x : Signal) : Keeps o a (handle x s) := by
  cases x with
  | focusCaptured => exact h.seqFocusCaptured
  | focusFail => exact h.seqFocusFail
  | trackLocked => exact h.seekTrackLocked
  | trackFail byPause => exact h.seqTrackFail byPause
  | jumpDone byPause =>
    unfold handle
    dsimp only
    split
    · exact h
    · exact h.seekJumpDone
  | moveDone => exact h.seekMoveDone
  | lockEntered => exact h.seekReorder.seqLockEntered
  | offTrack => exact h.takeOffTrack
  | focusLost => exact h.disturb.seqFocusLost
  | focusLostDue => exact h.raiseFocusLost
  | addressLost => exact h.incident _
  | spinFail => exact h.seqSpinFail
  | spindleMoved => exact h.engageAdvance
  | spindleStopped => exact h.seqStopped
  | outcome x => exact h.seqOutcome x
  | testHead => exact h.startHead
  | launchDue => exact h.takePending
  | loaderDue => exact h.ejectRelease

protected theorem Keeps.drain (h : Keeps o a s) (n : Nat) : Keeps o a (drain n s) := by
  induction n generalizing s with
  | zero => exact h.setSignals _
  | succ n ih =>
    unfold drain
    split
    · exact h
    · exact ih ((h.setSignals _).handle _)

protected theorem Keeps.settle (h : Keeps o a s) : Keeps o a (settle s) := (h.drain 64).loaderTest

end

end Sys2Proof.Machine
end

