-- ==== Sys2Proof/Proofs/KeepingCommands.lean ====
section
/-! SUPPORT. What the servo sample, the resets, the link, the requests, the lines and the timers keep, and so what every command and every
step keeps (R1 to R208). -/

namespace Sys2Proof.Machine

section
variable {o : Option (Fin 64)} {a s : State}

/-! ## The servo sample (R1) -/

/-- The region of a hold that ends is as long as the detector has counted bins, which are at most 16 (R61, R63). -/
theorem sample_region_span (d : Detector) (g : GroupRec) (level : Nat) (armed : Bool) (bin : Fin 64) (n : Nat) :
    (∀ r, (d.sample g level armed bin n).region = some r → r.span = (d.sample g level armed bin n).det.binsPassed + 1)
      ∧ (d.binsPassed ≤ 15 → (d.sample g level armed bin n).det.binsPassed ≤ 15) := by
  unfold Detector.sample
  split
  · generalize (if holdExit g level d.entryArmed ≤ n then d.goodRun + 1 else 0) = good
    dsimp only
    split
    · exact ⟨fun r hr => by cases hr; rfl, id⟩
    · exact ⟨nofun, fun _ => Nat.min_le_left _ _⟩
  · split
    · exact ⟨nofun, fun _ => Nat.zero_le _⟩
    · exact ⟨nofun, id⟩

theorem detect_region_span (s : State) (n : Nat) :
    (∀ r, (detect s n).region = some r → r.span = (detect s n).det.binsPassed + 1)
      ∧ (s.det.binsPassed ≤ 15 → (detect s n).det.binsPassed ≤ 15) := by
  unfold detect
  split
  · exact sample_region_span _ _ _ _ _ _
  · exact ⟨nofun, id⟩

theorem inDrive_searchRamp {p : Nat} (h : p ≤ 16383) : inDrive (searchRamp p) := by
  unfold searchRamp inDrive
  split <;> omega

theorem focusOutput_inDrive (g : GroupRec) (c : Bool) (e ff : Int) {l : FocusLoop} (h : l.pos ≤ 16383) :
    inDrive (focusOutput g c e ff l).ax.u := by
  unfold focusOutput
  split
  · exact inDrive_zero
  · exact inDrive_searchRamp h
  · split
    · exact satDrive_inDrive _
    · exact satDrive_inDrive _
  · exact satDrive_inDrive _

theorem focusOutput_pos (g : GroupRec) (c : Bool) (e ff : Int) (l : FocusLoop) : (focusOutput g c e ff l).pos = l.pos := by
  unfold focusOutput
  split
  · rfl
  · rfl
  · split <;> rfl
  · rfl

theorem trackOutput_inDrive (g : GroupRec) (c : Bool) (e ff : Int) (l : TrackLoop) : inDrive (trackOutput g c e ff l).ax.u := by
  unfold trackOutput
  split
  · exact inDrive_zero
  · exact satDrive_inDrive _
  · exact satDrive_inDrive _
  · exact satDrive_inDrive _
  · exact satDrive_inDrive _
  · split
    · exact satDrive_inDrive _
    · exact satDrive_inDrive _
  · split
    · exact satDrive_inDrive _
    · exact satDrive_inDrive _

theorem countLost_ax_pos (l : FocusLoop) (g : GroupRec) (c : Bool) (n : Nat) :
    (l.countLost g c n).ax = l.ax ∧ (l.countLost g c n).pos = l.pos := by
  unfold FocusLoop.countLost
  split <;> exact ⟨rfl, rfl⟩

theorem countOff_ax (l : TrackLoop) (g : GroupRec) (c : Bool) (e : Int) : (l.countOff g c e).ax = l.ax := by
  unfold TrackLoop.countOff
  split <;> rfl

theorem follow_pos (l : FocusLoop) (h : Detection) : (l.follow h).pos = l.pos := by
  unfold FocusLoop.follow
  split
  · rfl
  · split <;> rfl

theorem frontEndSample_c_level (f : Formed) (c d : Bool) (fe : FrontEnd) :
    (frontEndSample f c d fe).c = fe.c ∧ (frontEndSample f c d fe).level = fe.level := by
  unfold frontEndSample FrontEnd.cross FrontEnd.accumulate
  dsimp only
  split
  · split
    · split <;> exact ⟨rfl, rfl⟩
    · exact ⟨rfl, rfl⟩
  · split
    · split <;> exact ⟨rfl, rfl⟩
    · exact ⟨rfl, rfl⟩

protected theorem Keeps.sampleDrives (h : Keeps o a s) (f : Formed) (n : Nat) : Keeps o a (sampleDrives f (detect s n) s) := by
  have hfe (d : Bool) := frontEndSample_c_level f (detect s n).inHold d s.fe
  unfold sampleDrives
  refine Keeps.setTrack (Keeps.setFocus ((h.setDet (detect_region_span s n).2).setFe (hfe _).1 (hfe _).2) fun _ hp => ?_) fun _ => ?_
  · rw [(countLost_ax_pos _ _ _ _).1, (countLost_ax_pos _ _ _ _).2, focusOutput_pos, follow_pos]
    exact ⟨focusOutput_inDrive _ _ _ _ (by rwa [follow_pos]), hp⟩
  · rw [countOff_ax]
    exact trackOutput_inDrive _ _ _ _ _

@[simp] theorem sampleDrives_det (f : Formed) (h : Detection) (s : State) : (sampleDrives f h s).det = h.det := rfl

/-- Accumulators grow in the current bin alone (R29). -/
protected theorem Keeps.learnSample (h : Keeps o a s) (c : Bool) : Keeps o a (learnSample c s) := by
  have hff (r : RevRecord) (x : Int) : (r.addTrack x).trkFf = r.trkFf ∧ (r.addTrack x).focFf = r.focFf := by
    unfold RevRecord.addTrack; split <;> exact ⟨rfl, rfl⟩
  have hgg (r : RevRecord) (x : Int) : (r.addFocus x).trkFf = r.trkFf ∧ (r.addFocus x).focFf = r.focFf := by
    unfold RevRecord.addFocus; split <;> exact ⟨rfl, rfl⟩
  have hset {r : RevRecord} (hr : r.trkFf = s.bin.trkFf ∧ r.focFf = s.bin.focFf) : Keeps o a (setBin s.angle.bin r s) :=
    { h with
      table := fun ha b => by
        obtain ⟨h1, h2, h3, h4, h5⟩ := h.table ha b
        rw [setBin_rev_getElem]
        split
        · rename_i hb
          subst hb
          rw [hr.1, hr.2]
          exact ⟨h1, h2, h3, h4, fun hb => absurd rfl hb⟩
        · exact ⟨h1, h2, h3, h4, h5⟩ }
  unfold learnSample
  dsimp only
  refine hset ?_
  split
  · split
    · exact ⟨(hgg _ _).1.trans (hff _ _).1, (hgg _ _).2.trans (hff _ _).2⟩
    · exact hgg _ _
  · split
    · exact hff _ _
    · exact ⟨rfl, rfl⟩

theorem inDrive_sledForce (c d : Bool) {x : Int} (h : inDrive x) : inDrive (sledForce c d x) := by
  unfold sledForce
  split
  · exact inDrive_zero
  · split
    · exact inDrive_zero
    · exact h

protected theorem Keeps.sledCompute (h : Keeps o a s) : Keeps o a (sledCompute s) :=
  h.setSled fun _ _ => inDrive_sledForce _ _ (by
    unfold followDrive
    dsimp only
    split
    · exact satDrive_inDrive _
    · exact inDrive_zero)

/-- The seek drive of a lawful group lies in the drive's range (R77, R108). -/
theorem inDrive_moveDrive {n : Nat} (h : n ≤ 2047) (m : Option Bool) : inDrive (moveDrive n m) := by
  unfold moveDrive inDrive
  split <;> omega

protected theorem Keeps.sledSample (h : Keeps o a s) : Keeps o a (sledSample s) := by
  unfold sledSample
  split
  · dsimp only
    split
    · exact Keeps.sledCompute (h.setSled (by exact fun _ => id))
    · exact (h.setSled (by exact fun _ => id))
  · refine h.setSled fun hg _ => ?_
    dsimp only
    split
    · exact inDrive_sledForce _ _ (inDrive_moveDrive ((hg.1 (activeId s.groups)).1 31).2 _)
    · exact inDrive_zero

protected theorem Keeps.markPasses (h : Keeps o a s) (c : Bool) : Keeps o a (markPasses c s) := by
  unfold markPasses
  split
  · exact h.update fun d hd => by split <;> exact hd
  · exact h

@[simp] theorem learnSample_det (c : Bool) (s : State) : (learnSample c s).det = s.det := rfl

@[simp] theorem sledSample_det (s : State) : (sledSample s).det = s.det := by
  unfold sledSample sledCompute
  split
  · dsimp only
    split <;> rfl
  · rfl

@[simp] theorem markPasses_det (c : Bool) (s : State) : (markPasses c s).det = s.det := by
  unfold markPasses
  split <;> rfl

protected theorem Keeps.takeDetection (h : Keeps o a s) {d : Detection}
    (hd : ∀ r, d.region = some r → r.span = s.det.binsPassed + 1) : Keeps o a (takeDetection d s) := by
  unfold takeDetection
  split
  · rename_i r hr; exact h.takeRegion (hd r hr)
  · exact h

protected theorem Keeps.searchFails (h : Keeps o a s) : Keeps o a (searchFails s) :=
  Keeps.emit (h.setFocus fun _ _ => ⟨inDrive_zero, Nat.zero_le _⟩) _

protected theorem Keeps.searchSample (h : Keeps o a s) (f : Formed) : Keeps o a (searchSample f s) := by
  unfold searchSample
  split
  · split
    · exact Keeps.emit (h.setFocus (x := s.focus.capture f.eF) fun hu _ => ⟨hu, Nat.zero_le _⟩) _
    · split
      · rename_i hp; exact h.setFocus fun hu _ => ⟨hu, hp⟩
      · split
        · exact h.searchFails
        · exact h.setFocus fun hu _ => ⟨hu, Nat.zero_le _⟩
  · exact h

protected theorem Keeps.stallSample (h : Keeps o a s) (c : Bool) : Keeps o a (stallSample c s) := by
  unfold stallSample
  split
  · exact h.setTrack id
  · dsimp only
    split
    · exact Keeps.moveStall (h.setTrack (by exact id))
    · exact h.setTrack id

protected theorem Keeps.trackSample (h : Keeps o a s) (c d : Bool) (e : Int) : Keeps o a (trackSample c d e s) := by
  unfold trackSample
  split
  · unfold settlingSample
    dsimp only
    split
    · exact Keeps.enterLocked (h.setTrack (by exact id))
    · split
      · exact Keeps.settleTimeout (h.setTrack (by exact id))
      · exact h.setTrack id
  · unfold pullinSample
    dsimp only
    split
    · split
      · exact Keeps.settleTimeout (h.setTrack (by exact id))
      · exact h.setTrack id
    · split
      · exact Keeps.settleTimeout (h.setTrack (by exact id))
      · exact h.setTrack id
  · unfold moveSample
    split
    · exact Keeps.emit (h.endMove.setTrack (by exact id)) _
    · exact h.stallSample _
  · split
    · unfold closeSample
      split
      · exact h.setTrack id
      · dsimp only
        split
        · exact Keeps.closeTimeout (h.setTrack (by exact id))
        · exact h.setTrack id
    · unfold jumpSample
      split
      · exact h.setTrack id
      · exact h.stallSample _
  all_goals exact h

protected theorem Keeps.sampleEvents (h : Keeps o a s) (d : Detection) (c : Bool) (e : Int) :
    Keeps o a (sampleEvents d c e s) := by
  unfold sampleEvents
  dsimp only
  split
  · split
    · exact ((h.takeOrder.trackSample _ _ _).drain 64).raiseFocusLost
    · exact h.takeOrder.raiseFocusLost
  · unfold sampleIncidents
    split
    · exact ((h.trackSample _ _ _).drain 64).raiseFocusLost
    · split
      · exact (h.trackSample _ _ _).drain 64
      · exact ((h.trackSample _ _ _).drain 64).raiseDue

protected theorem Keeps.sampleBody (h : Keeps o a s) (fe te sum : Adc) : Keeps o a (sampleBody fe te sum s) :=
  ((Keeps.takeDetection (((h.sampleDrives _ _).learnSample _).sledSample.markPasses _) fun r hr => by
    simp only [markPasses_det, sledSample_det, learnSample_det, sampleDrives_det]
    exact (detect_region_span s _).1 r hr).searchSample _).sampleEvents _ _ _

protected theorem Keeps.servoSample (h : Keeps o a s) (fe te sum : Adc) : Keeps o a (servoSample fe te sum s) := by
  unfold servoSample
  split
  · exact h
  · exact (h.sampleBody fe te sum).settle.setFe rfl rfl

/-! ## Resets (R187, R188) -/

/-- A record with one field set to a value in its range. -/
theorem recordRange_set {g : GroupRec} (n : Fin 33) {v : Nat}
    (hv : (fieldRanges[n]).1 ≤ v ∧ v ≤ (fieldRanges[n]).2)
    (h : ∀ m : Fin 33, (fieldRanges[m]).1 ≤ g[m] ∧ g[m] ≤ (fieldRanges[m]).2) (m : Fin 33) :
    (fieldRanges[m]).1 ≤ (g.set n v)[m] ∧ (g.set n v)[m] ≤ (fieldRanges[m]).2 := by
  by_cases hm : n = m
  · subst hm; simpa using hv
  · have : n.val ≠ m.val := fun he => hm (Fin.ext he)
    simpa [this] using h m

theorem recordLaw_g0 : recordLaw g0Defaults := by decide

theorem recordLaw_g1 : recordLaw g1Defaults := by decide

/-- The calibration store writes fields 0 to 8, of which no comparison speaks (R78, R79). -/
theorem recordLaw_calGroup (store : CalStore) : recordLaw (calGroup store) := by
  unfold calGroup
  split
  · refine ⟨fun m => ?_, ?_⟩
    · exact recordRange_set 8 (clampField_bounds 8 _) (recordRange_set 7 (clampField_bounds 7 _)
        (recordRange_set 6 (clampField_bounds 6 _) (recordRange_set 5 (clampField_bounds 5 _)
        (recordRange_set 4 (clampField_bounds 4 _) (recordRange_set 3 (clampField_bounds 3 _)
        (recordRange_set 2 (clampField_bounds 2 _) (recordRange_set 1 (clampField_bounds 1 _)
        (recordRange_set 0 (clampField_bounds 0 _) recordLaw_g0.1)))))))) m
    · simpa using recordLaw_g0.2
  · exact recordLaw_g0

theorem groupLaw_resetGroups (store : CalStore) : groupLaw (resetGroups store) := by
  have hg := recordLaw_calGroup store
  have h1 := recordLaw_g1
  refine ⟨fun i => ?_, by simp [resetGroups], by simp [resetGroups]⟩
  match i with
  | 0 => exact hg
  | 1 => exact h1
  | 2 => exact hg
  | 3 => exact hg

theorem shockLaw_resetGroups (store : CalStore) : shockLaw (resetGroups store) := by simp [shockLaw, resetGroups]

/-- The reset coefficient 1024 lies in the range of G0, whose fields 9 to 33 no store changes (R16). -/
theorem coefficientLaw_reset {s : State} {store : CalStore} (hf : s.fe = resetFrontEnd store) (hg : s.groups = resetGroups store) :
    s.coefficientLaw := by
  have hact : s.active = calGroup store := by simp only [State.active, hg]; rfl
  have hset : s.setFe (resetFrontEnd store) = s := by rw [← hf]; rfl
  rw [← hset]
  refine setC_lawful (c := 1024) (by rw [hact]; exact recordLaw_calGroup store) ?_ ?_
  · rw [hact]; rfl
  · rw [hact]; rfl

theorem driveLaw_reset {s : State} (hf : s.focus = {}) (ht : s.track = {}) (hsl : s.sled = {}) (hsp : inDrive s.spindle.drive)
    (hl : s.loader.drive = 0) : s.driveLaw := by
  simp only [State.driveLaw, hf, ht, hsl, hl]
  exact ⟨inDrive_zero, inDrive_zero, inDrive_zero, hsp, inDrive_zero, Nat.zero_le _⟩

theorem laserLaw_reset {s : State} (hq : s.seq = {}) (hp : s.sup.power = .active) : s.laserLaw := by
  simp [State.laserLaw, hq, hp, SeqState.engaged]

theorem zoneLaw_fresh (f : Frame) : zoneLaw { frame := f } := by simp [zoneLaw, firstTracksOf, tracksAfter]

theorem tableLaw_fresh {s : State} (h : s.rev = Vector.replicate 64 {}) (o : Option (Fin 64)) : s.tableLaw o := by
  intro b
  simp [h]

theorem derivedLoader_settings (x : Supervisor) : (derivedLoader x).drive = 0 ∧ (derivedLoader x).reloadSetting = 0 :=
  ⟨rfl, rfl⟩

theorem queueLaw_nil : queueLaw [] := ⟨Nat.zero_le _, nofun⟩

theorem noticeLaw_nil : noticeLaw [] := ⟨Nat.zero_le _, List.nodup_nil⟩

/-- Power-on meets every law, whatever stood before (R187). -/
protected theorem Keeps.powerOn (h : Keeps o a s) (lines : Lines) (high : Bool) : Keeps o a (powerOn lines high s) where
  pending := h.pending
  queue _ := queueLaw_nil
  notices _ := noticeLaw_nil
  zones _ := zoneLaw_fresh _
  groups _ := groupLaw_resetGroups _
  shock _ := shockLaw_resetGroups _
  coefficient _ _ := coefficientLaw_reset rfl rfl
  table _ := tableLaw_fresh rfl o
  defects _ := ⟨Nat.zero_le _, fun i d hd => by simp [powerOn] at hd⟩
  drives _ _ := driveLaw_reset rfl rfl rfl inDrive_zero rfl
  laser _ := laserLaw_reset rfl rfl
  mute _ := rfl
  settings _ := by simp [State.settingLaw, powerOn, startSupervisor, derivedLoader]

theorem spindleSoftReset_inDrive {x : Spindle} (held : Bool) (h : inDrive x.drive) : inDrive (x.softReset held).drive := by
  unfold Spindle.softReset
  split
  · exact h
  · cases held <;> simp [inDrive]

/-- A SOFT RESET keeps the disc's tables or clears them, and resets the rest (R188). -/
protected theorem Keeps.softReset (h : Keeps o a s) : Keeps o a (softReset s) := by
  unfold softReset
  extract_lets sup loader keeps seek defects angle r
  refine Keeps.evalTarget (s := r) ?_
  exact
    { pending := h.pending
      queue := fun _ => queueLaw_nil
      notices := fun _ => noticeLaw_nil
      zones := fun ha => by
        have hz := h.zones ha
        show zoneLaw seek
        simp only [seek]
        split
        · exact hz
        · exact zoneLaw_fresh _
      groups := fun _ => groupLaw_resetGroups _
      shock := fun _ => shockLaw_resetGroups _
      coefficient := fun _ _ => coefficientLaw_reset rfl rfl
      table := fun ha => by
        by_cases hk : keeps = true
        · have hb : r.angle = s.angle := if_pos hk
          have hr : r.rev = s.rev := if_pos hk
          have ht := h.table ha
          simp only [State.tableLaw, hb, hr] at ht ⊢
          exact ht
        · exact tableLaw_fresh (if_neg hk) o
      defects := fun ha => by
        refine ⟨Nat.zero_le _, ?_⟩
        show entriesLaw defects.entries
        simp only [defects]
        split
        · exact entriesLaw_update _ (fun _ => id) (h.defects ha).2
        · intro i d hd; simp at hd
      drives := fun hg ha => driveLaw_reset rfl rfl rfl (spindleSoftReset_inDrive _ (h.drives hg ha).2.2.2.1) rfl
      laser := fun _ => laserLaw_reset rfl rfl
      mute := fun _ => rfl
      settings := fun _ => by simp [r, sup, loader, State.settingLaw, Supervisor.softReset, derivedLoader] }

end

end Sys2Proof.Machine
end

