-- ==== Sys2Proof/Proofs/KeepingRequests.lean ====
section
/-! SUPPORT. What the link, the requests, the lines and the timers keep, and so what every command and every step keeps (R1 to R208). -/

namespace Sys2Proof.Machine

section
variable {o : Option (Fin 64)} {a s : State}

/-! ## The link (R190 to R195) -/

theorem noticeLaw_tail {ns : List Notice} (h : noticeLaw ns) : noticeLaw ns.tail := by
  obtain ⟨hlen, hnodup⟩ := h
  exact ⟨by rw [List.length_tail]; omega, hnodup.sublist (((List.tail_sublist ns).filter _).map _)⟩

@[simp] theorem endTransfer_notices (l : Link) : l.endTransfer.notices = l.notices := by
  unfold Link.endTransfer
  split
  · rfl
  · rfl
  · dsimp only
    split <;> rfl

theorem noticeLaw_readOut {l : Link} (f : Flight) (h : noticeLaw l.notices) : noticeLaw (l.readOut f).notices := by
  unfold Link.readOut
  dsimp only
  split
  · exact h
  · split
    · exact h
    · exact noticeLaw_tail h
  · exact h

theorem noticeLaw_clock {l : Link} (h : noticeLaw l.notices) : noticeLaw l.clock.notices := by
  unfold Link.clock
  split
  · dsimp only
    split
    · exact noticeLaw_readOut _ h
    · exact h
  all_goals exact h

theorem noticeLaw_clocks {l : Link} (n : Nat) (h : noticeLaw l.notices) : noticeLaw (Link.clocks n l).notices := by
  induction n generalizing l with
  | zero => exact h
  | succ n ih => exact ih (noticeLaw_clock h)

theorem noticeLaw_startRead {l : Link} (own : Bool) (h : noticeLaw l.notices) : noticeLaw (l.startRead own).notices := by
  unfold Link.startRead
  dsimp only
  split
  · simpa using h
  · simpa using h

theorem noticeLaw_readTransfer {l : Link} (start : Option Bool) (n : Nat) (stop : Bool) (h : noticeLaw l.notices) :
    noticeLaw (l.readTransfer start n stop).notices := by
  unfold Link.readTransfer
  dsimp only
  split
  · rw [endTransfer_notices]
    refine noticeLaw_clocks n ?_
    split
    · exact noticeLaw_startRead _ h
    · exact h
  · refine noticeLaw_clocks n ?_
    split
    · exact noticeLaw_startRead _ h
    · exact h

protected theorem Keeps.startWrite (h : Keeps o a s) (address : BitVec 7) : Keeps o a (startWrite address s) :=
  h.setLink fun hn => by
    unfold Link.startWrite
    dsimp only
    split
    · simpa using hn
    · simpa using hn

/-! ## Requests that write groups and zones (R83, R85, R89, R118, R119) -/

theorem byteAt_le (p : List Byte) (i : Nat) : byteAt p i ≤ 255 := by
  have := ((p[i]?).getD 0).isLt
  simp only [byteAt]
  omega

/-- Each pair writes a value in its field's range (R83). -/
theorem recordRange_applyPairs (pairs : List (Nat × Nat × Nat)) {g : GroupRec}
    (h : ∀ m : Fin 33, (fieldRanges[m]).1 ≤ g[m] ∧ g[m] ≤ (fieldRanges[m]).2) (m : Fin 33) :
    (fieldRanges[m]).1 ≤ (applyPairs pairs g)[m] ∧ (applyPairs pairs g)[m] ≤ (fieldRanges[m]).2 := by
  induction pairs generalizing g with
  | nil => exact h m
  | cons p pairs ih =>
    refine ih (g := g.setIfInBounds p.2.1 (clampField p.2.1 p.2.2)) fun k => ?_
    simp only [Fin.getElem_fin, Vector.getElem_setIfInBounds]
    split
    · rename_i hk
      have := clampField_bounds k p.2.2
      simpa [hk] using this
    · exact h k

/-- A record with no failing comparison meets the conditions across its fields (R78). -/
theorem crossLaw_of_firstFailure {g : GroupRec} (h : firstFailure g = none) :
    g[9] ≤ g[10] ∧ g[11] ≤ g[12] ∧ g[12] ≤ g[13] ∧ g[15] ≤ g[14] ∧ g[16] ≤ g[15] ∧ g[17] ≤ g[16] ∧ g[20] ≤ g[21] := by
  unfold firstFailure at h
  split_ifs at h
  simp only [not_lt] at *
  exact ⟨‹_›, ‹_›, ‹_›, ‹_›, ‹_›, ‹_›, ‹_›⟩

/-- A lawful record may stand in the place of any record but the active one (R82, R83). -/
protected theorem Keeps.setRecord (h : Keeps o a s) {i : GroupId} {g : GroupRec} (hi : i ≠ activeId s.groups)
    (hg : recordLaw s.groups.recs[i] → recordLaw g) :
    Keeps o a (s.setGroups { s.groups with recs := s.groups.recs.set i g }) := by
  refine h.setGroups (fun hl => ⟨fun k => ?_, hl.2⟩) (fun hl => hl) ?_
  · by_cases hk : i.val = k.val
    · obtain rfl := Fin.ext hk
      simp only [Fin.getElem_fin, Vector.getElem_set_self]
      exact hg (hl.1 i)
    · simp only [Fin.getElem_fin, Vector.getElem_set_ne _ _ hk]
      exact hl.1 k
  · exact Vector.getElem_set_ne i.isLt _ fun he => hi (Fin.ext he)

theorem paramRefusal_active {group : Nat} {ps : List (Nat × Nat × Nat)} {g : Groups}
    (h : paramRefusal group ps g = none) : Fin.ofNat 4 group ≠ activeId g := by
  intro hid
  simp only [paramRefusal, hid, if_true] at h
  split_ifs at h

protected theorem Keeps.takeParamSet (h : Keeps o a s) (p : List Byte) : Keeps o a (takeParamSet p s) := by
  unfold takeParamSet paramSet
  dsimp only
  split
  · exact h.reply _ _ _
  · rename_i hnone
    split
    · exact h.reply _ _ _
    · rename_i hf
      exact (h.setRecord (paramRefusal_active hnone)
        fun hg => ⟨recordRange_applyPairs _ hg.1, crossLaw_of_firstFailure hf⟩).reply _ _ _

protected theorem Keeps.takeLaunch (h : Keeps o a s) (p : List Byte) : Keeps o a (takeLaunch p s) := by
  unfold takeLaunch
  dsimp only
  split
  · exact h.reply _ _ _
  · refine Keeps.reply ?_ _ _ _
    split
    · exact (h.setPendingLaunch none).launchGroup _
    · unfold launchIndex
      split
      · exact (h.launchGroup _).post _ _
      · exact h.setPendingLaunch _

protected theorem Keeps.refuseShockConfig (h : Keeps o a s) (st : Status) : Keeps o a (refuseShockConfig st s) := h.reply _ _ _

protected theorem Keeps.takeShockConfig (h : Keeps o a s) (p : List Byte) : Keeps o a (takeShockConfig p s) := by
  unfold takeShockConfig
  split
  · exact h.reply _ _ _
  · dsimp only
    split
    · exact h.refuseShockConfig _
    · split
      · exact h.refuseShockConfig _
      · rename_i hm
        simp only [Bool.not_eq_true] at hm
        refine Keeps.reply (h.setGroups
          (x := { s.groups with shock := Fin.ofNat 4 (byteAt p 0), shockRevs := max 1 (byteAt p 1) })
          (fun hg => ⟨hg.1, Nat.le_max_left _ _, ?_⟩) (fun hl => ?_) ?_) _ _ _
        · exact Nat.max_le.mpr ⟨by omega, byteAt_le p 1⟩
        · simp only [shockLaw, hm, Bool.false_eq_true, if_false] at hl ⊢
          exact ⟨Nat.le_max_left _ _, hl.2⟩
        · simp [activeId, hm]

/-- The order of the first blocks, each pair of neighbours compared, is the order of all (R117). -/
theorem pairwise_of_zip {zones : List Zone}
    (h : (zones.zip zones.tail).all (fun p => p.1.first < p.2.first) = true) : (zones.map (·.first)).Pairwise (· < ·) := by
  rw [← List.isChain_iff_pairwise, List.isChain_map]
  induction zones with
  | nil => exact .nil
  | cons z zs ih =>
    cases zs with
    | nil => exact .singleton z
    | cons y ys =>
      simp only [List.tail_cons, List.zip_cons_cons, List.all_cons, Bool.and_eq_true, decide_eq_true_eq] at h
      exact .cons_cons h.1 (ih h.2)

/-- A changed table keeps the law where its order is lawful and its fields stand in their ranges (R117, R120). -/
theorem zoneLaw_of_lawful {x : Seek} {zones : List Zone} {last : Nat} (hl : zonesLawful zones last = true)
    (hr : ∀ z ∈ zones, 256 ≤ z.bpt ∧ z.bpt ≤ 65535 ∧ 2000 ≤ z.interval ∧ z.interval ≤ 60000) (hlast : last ≤ 4194303)
    (hx : x.zones = zones) (hxl : x.lastBlock = last) (hxf : x.firstTracks = firstTracksOf zones) : zoneLaw x := by
  simp only [zonesLawful, Bool.and_eq_true, decide_eq_true_eq, List.all_eq_true] at hl
  obtain ⟨⟨⟨hhead, hlen⟩, hord⟩, hfirst⟩ := hl
  subst hx hxl
  refine ⟨?_, hlen, by rw [List.head?_map]; exact hhead, pairwise_of_zip (List.all_eq_true.mpr (by simpa using hord)),
    fun z hz => ⟨hfirst z hz, hr z hz⟩, hlast, hxf⟩
  cases hzs : x.zones with
  | nil => simp [hzs] at hhead
  | cons z zs => simp

protected theorem Keeps.setZones (h : Keeps o a s) {zones : List Zone} {last : Nat}
    (g : zoneLaw s.seek → zoneLaw { s.seek with zones := zones, lastBlock := last, firstTracks := firstTracksOf zones }) :
    Keeps o a (setZones zones last s) :=
  Keeps.evalTarget (h.setSeek g)

theorem clampZone_range (r : Zone) :
    256 ≤ (clampZone r).bpt ∧ (clampZone r).bpt ≤ 65535 ∧ 2000 ≤ (clampZone r).interval ∧ (clampZone r).interval ≤ 60000 := by
  have h1 := satNat_bounds (lo := 256) (hi := 65535) (by omega) r.bpt
  have h2 := satNat_bounds (lo := 2000) (hi := 60000) (by omega) r.interval
  exact ⟨h1.1, h1.2, h2.1, h2.2⟩

theorem mem_writeZone {zones : List Zone} {z : Nat} {r x : Zone} (h : x ∈ writeZone zones z r) : x = r ∨ x ∈ zones := by
  unfold writeZone at h
  split at h
  · exact (List.mem_or_eq_of_mem_set h).symm
  · exact (List.mem_append.mp h).symm.imp_left List.mem_singleton.mp

protected theorem Keeps.zoneSet (h : Keeps o a s) (z : Nat) (asked : Zone) : Keeps o a (zoneSet z asked s) := by
  unfold zoneSet
  dsimp only
  split
  · exact h.reply _ _ _
  · split
    · rename_i hl
      refine Keeps.reply (h.setZones fun hz => zoneLaw_of_lawful hl (fun x hx => ?_) hz.2.2.2.2.2.1 rfl rfl rfl) _ _ _
      rcases mem_writeZone hx with rfl | hx
      · exact clampZone_range asked
      · exact (hz.2.2.2.2.1 x hx).2
    · exact h.reply _ _ _

protected theorem Keeps.takeZoneSet (h : Keeps o a s) (p : List Byte) : Keeps o a (takeZoneSet p s) := by
  unfold takeZoneSet
  dsimp only
  split
  · split
    · exact h.reply _ _ _
    · exact h.reply _ _ _
  · exact h.zoneSet _ _

/-- A table cut to its first zones keeps the law under a last block that none of them exceeds (R119). -/
theorem zoneLaw_take {x : Seek} {n last : Nat} (hn : 1 ≤ n) (hfirst : ∀ z ∈ x.zones.take n, z.first ≤ last)
    (hlast : last ≤ 4194303) (h : zoneLaw x) :
    zoneLaw { x with zones := x.zones.take n, lastBlock := last, firstTracks := firstTracksOf (x.zones.take n) } := by
  obtain ⟨h1, h2, h3, h4, h5, _, _⟩ := h
  refine ⟨?_, ?_, ?_, ?_, fun z hz => ⟨hfirst z hz, (h5 z (List.mem_of_mem_take hz)).2⟩, hlast, rfl⟩
  · simp only [List.length_take]; omega
  · simp only [List.length_take]; omega
  · cases hz : x.zones with
    | nil => simp [hz] at h1
    | cons z zs =>
      obtain ⟨k, rfl⟩ : ∃ k, n = k + 1 := ⟨n - 1, by omega⟩
      simpa [hz] using h3
  · exact h4.sublist ((List.take_sublist n x.zones).map _)

protected theorem Keeps.takeZoneLimit (h : Keeps o a s) (p : List Byte) : Keeps o a (takeZoneLimit p s) := by
  unfold takeZoneLimit
  split
  · exact h.reply _ _ _
  · unfold zoneLimit
    dsimp only
    split
    · rename_i hall
      simp only [List.all_eq_true, decide_eq_true_eq] at hall
      refine Keeps.reply (h.setZones fun hz => zoneLaw_take ?_ hall (Nat.min_le_left _ _) hz) _ _ _
      have := hz.1
      omega
    · exact h.reply _ _ _

/-! ## Requests that write the disc tables and the settings (R4, R72, R73, R175, R179, R198) -/

protected theorem Keeps.addEntry (h : Keeps o a s) {d : Defect} (hd : d.lawful) : Keeps o a (addEntry d s).2 := by
  have hx : ∀ x, some d = some x → x.lawful := fun x hx => Option.some.inj hx ▸ hd
  unfold addEntry
  split
  · exact Keeps.rearm (h.setDefects fun _ he => entriesLaw_put hx he)
  · split
    · exact Keeps.rearm ((h.postDefect _ _).setDefects fun _ he => entriesLaw_put hx he)
    · exact h

protected theorem Keeps.takeDefectAdd (h : Keeps o a s) (p : List Byte) : Keeps o a (takeDefectAdd p s) := by
  unfold takeDefectAdd defectAdd
  extract_lets adj r
  split
  · exact h.reply _ _ _
  · rename_i hle
    have hs := satNat_bounds (lo := 1) (hi := 16) (by omega) (byteAt p 1)
    split
    · exact Keeps.reply (h.addEntry ⟨hs.1, hs.2, Nat.not_lt.mp hle, fun ho => by cases ho⟩) _ _ _
    · exact h.reply _ _ _

theorem keptBy_some {n : Nat} {d : Option Defect} {x : Defect} (h : keptBy n d = some x) : d = some x := by
  cases d with
  | none => cases h
  | some y =>
    simp only [keptBy] at h
    split at h
    · cases h
    · exact h

protected theorem Keeps.takeDefectClear (h : Keeps o a s) (p : List Byte) : Keeps o a (takeDefectClear p s) := by
  unfold takeDefectClear
  dsimp only
  split
  · exact h.reply _ _ _
  · exact Keeps.reply (Keeps.rearm (h.setDefects fun _ he =>
      entriesLaw_mapTable _ (fun d x hx => ⟨x, keptBy_some hx, id⟩) he)) _ _ _

protected theorem Keeps.takeOffset (h : Keeps o a s) (p : List Byte) : Keeps o a (takeOffset p s) := by
  unfold takeOffset
  split
  · exact h.reply _ _ _
  · exact Keeps.reply (h.setFe (by exact rfl) (by exact rfl)) _ _ _

protected theorem Keeps.takeNoticeMask (h : Keeps o a s) (p : List Byte) : Keeps o a (takeNoticeMask p s) := by
  unfold takeNoticeMask
  dsimp only
  split
  · exact h.reply _ _ _
  · exact Keeps.reply (h.setLink (by exact id)) _ _ _

/-- The settings are written in their ranges (R175). -/
protected theorem Keeps.writeLines (h : Keeps o a s) {p : List Byte} (hmon : byteAt p 6 ≤ 7) : Keeps o a (writeLines p s) := by
  have hd := satNat_bounds (lo := 1) (hi := 15) (by omega) (byteAt p 2)
  unfold writeLines
  refine Keeps.setSup ((h.setLink (by exact id)).setLoader (by exact id) (by exact id) fun _ => ?_) (by exact id) (by exact id) fun hs => ?_
  · exact byteAt_le p 4
  · exact ⟨hd.1, hd.2, byteAt_le p 5, hmon, hs.2.2.2.2⟩

protected theorem Keeps.takeLineConfig (h : Keeps o a s) (p : List Byte) : Keeps o a (takeLineConfig p s) := by
  unfold takeLineConfig
  split
  · exact h.reply _ _ _
  · split
    · exact h.reply _ _ _
    · rename_i hc
      simp only [Bool.or_eq_true, decide_eq_true_eq, not_or, not_lt] at hc
      exact (h.writeLines hc.2).reply _ _ _

protected theorem Keeps.postFault (h : Keeps o a s) : Keeps o a (postFault s) := h.post _ _

protected theorem Keeps.takeClearFault (h : Keeps o a s) : Keeps o a (takeClearFault s) := by
  unfold takeClearFault
  dsimp only
  split
  · exact Keeps.reply (Keeps.postFault (h.setSup (by exact id) (by exact id) (by exact id))) _ _ _
  · exact h.reply _ _ _

/-! ## Power (R181 to R184) -/

protected theorem Keeps.powerActive (h : Keeps o a s) : Keeps o a (powerActive s) := h.wakeToActive.setPowerActive

theorem postAbandoned_setSup (es : List Entry) (x : Supervisor) (s : State) :
    postAbandoned es (s.setSup x) = (postAbandoned es s).setSup x := by
  simp only [postAbandoned_eq]; rfl

/-- The ends that an order brings do not ask what the Supervisor holds. -/
theorem abandonAll_setSup (x : Supervisor) (s : State) : abandonAll (s.setSup x) = (abandonAll s).setSup x := by
  have he (y : EndOutcome) : endEntry y (s.setSup x) = (endEntry y s).setSup x := by
    unfold endEntry
    rw [setSup_seq]
    split
    · split <;> rfl
    · rfl
  have hf (u : State) : flush (u.setSup x) = (flush u).setSup x :=
    postAbandoned_setSup _ x (u.setSeq _)
  unfold abandonAll
  dsimp only
  rw [he, hf, setSup_seq]
  split <;> rfl

@[simp] theorem abandonAll_sup (s : State) : (abandonAll s).sup = s.sup := by
  have := congrArg State.sup (abandonAll_setSup s.sup s)
  rwa [show s.setSup s.sup = s from rfl, setSup_sup] at this

/-- STANDBY is entered from IDLE with the power mode taken before the state (R182, log entry 24). -/
protected theorem Keeps.sleepToStandby (h : Keeps o a s) (hs : s.seq.state = .idle) (hp : s.sup.power = .sleep) :
    Keeps o a (standbyOrder (wakeTo .standby s)) := by
  let x : Supervisor := { s.sup with shockSeen := s.sup.shockPin, power := .standby }
  let u : State := s.setLink (s.link.post .power [1])
  have hwake : wakeTo .standby s = u.setSup x := by
    simp only [wakeTo, hp, if_true, setPower, setSup_sup]
    rfl
  have hstate : (abandonAll u).seq.state = .idle := by rw [abandonAll_state]; exact hs
  have horder : standbyOrder (wakeTo .standby s)
      = ((abandonAll u).setSeq ((abandonAll u).seq.enter .standby (abandonAll u).seek)).setSup { x with idleTimer := none } := by
    rw [hwake, standbyOrder, abandonAll_setSup]
    simp only [setSup_seq, hstate]
    simp only [setSeqState, setPower, setSup_seq, hstate]
    simp [x]
    rfl
  rw [horder]
  have hu : Keeps o a u := h.setLink (noticeLaw_post _ _)
  exact { hu.abandonAll with
    queue := hu.abandonAll.queue
    laser := fun ha => by
      obtain ⟨h1, _, _, _, h5⟩ := (laserLaw_iff _).mp (hu.abandonAll.laser ha)
      refine (laserLaw_iff _).mpr ⟨fun hd => ?_, nofun, nofun, fun _ => rfl, nofun⟩
      have := h1 hd
      rw [hstate] at this
      cases this
    mute := fun ha => by
      have := hu.abandonAll.mute ha
      simp only [State.muteLaw, abandonAll_sup] at this
      exact this
    settings := fun ha => by
      have := hu.abandonAll.settings ha
      simp only [State.settingLaw, abandonAll_sup] at this
      exact this }

/-- Out of SLEEP the order of R182 finds the part at rest, or no SLEEP by the laser law. -/
protected theorem Keeps.powerStandby (h : Keeps o a s) : Keeps o a (powerStandby s) := by
  unfold powerStandby
  by_cases hp : s.sup.power = .sleep
  · by_cases hs : s.seq.state = .idle
    · exact h.sleepToStandby hs hp
    · refine Keeps.standbyOrder ?_
      rw [wakeTo, if_pos hp, setPower, if_neg (by simp [hp])]
      refine Keeps.post (Keeps.setSup (h.setSup (x := { s.sup with shockSeen := s.sup.shockPin }) id id id) (fun hl => ?_)
        (by exact id) (by exact id)) _ _
      obtain ⟨h1, _, h3, _, h5⟩ := hl
      have hrest := (h5 hp).1
      refine ⟨h1, fun he => ?_, h3, fun _ => ?_, nofun⟩
      · exact absurd (hrest.symm.trans he) (by decide)
      · simp only [setSup_seq, SeqState.engaged, Bool.not_eq_false', Bool.or_eq_true] at hrest
        exact of_decide_eq_true (hrest.resolve_left fun hd => hs (of_decide_eq_true hd))
  · rw [wakeTo_awake hp]
    exact h.standbyOrder

/-- SLEEP is entered by a part at rest with nothing queued (R181, R183). -/
protected theorem Keeps.powerSleep (h : Keeps o a s) (hb : ¬ s.sleepBusy = true) : Keeps o a (powerSleep s) := by
  have hfe := h.setFe (x := s.fe.stop) rfl rfl
  simp only [State.sleepBusy, Bool.or_eq_true, not_or, Bool.not_eq_true, Bool.not_eq_false', List.isEmpty_iff] at hb
  obtain ⟨⟨⟨he, hq⟩, _⟩, _⟩ := hb
  unfold powerSleep setPower
  split
  · exact hfe
  · refine Keeps.post (hfe.setSup (fun hl => ?_) (by exact id) (by exact id)) _ _
    obtain ⟨h1, _, h3, _, _⟩ := hl
    exact ⟨h1, fun hx => absurd (he.symm.trans hx) (by decide), h3, nofun, fun _ => ⟨he, hq⟩⟩

protected theorem Keeps.takePower (h : Keeps o a s) (p : List Byte) : Keeps o a (takePower p s) := by
  unfold takePower
  split
  · exact h.powerActive.reply _ _ _
  · split
    · exact h.reply _ _ _
    · split
      · exact h.reply _ _ _
      · exact h.powerStandby.reply _ _ _
  · split
    · exact h.reply _ _ _
    · split
      · exact h.reply _ _ _
      · rename_i hb; exact (h.powerSleep hb).reply _ _ _
  · exact h.reply _ _ _

/-! ## A record on the link (R191 to R193) -/

protected theorem Keeps.takeParamGet (h : Keeps o a s) (p : List Byte) : Keeps o a (takeParamGet p s) := by
  unfold takeParamGet
  dsimp only
  split
  · exact h.reply _ _ _
  · exact h.reply _ _ _

protected theorem Keeps.handOver (h : Keeps o a s) (kind : Nat) (p : List Byte) : Keeps o a (handOver kind p s) := by
  unfold handOver
  split
  · exact (h.reply _ _ _).setLink id
  · exact h.reply _ _ _
  · exact h.reply _ _ _
  · exact h.takeParamGet p
  · exact h.takeParamSet p
  · exact h.takeLaunch p
  · exact h.takeShockConfig p
  · exact h.takeZoneSet p
  · exact h.takeZoneLimit p
  · exact h.reply _ _ _
  · exact h.clearFeedforward.reply _ _ _
  · exact h.reply _ _ _
  · exact h.takeDefectAdd p
  · exact h.takeDefectClear p
  · exact h.takeOffset p
  · exact h.takeNoticeMask p
  · exact h.takeLineConfig p
  · exact h.takeClearFault
  · exact h.takePower p
  · exact h.softReset.reply _ _ _
  · exact h.motionRequest _ _ _
  · exact h.motionRequest _ _ _
  · exact h.motionRequest _ _ _
  · exact h.motionRequest _ _ _
  · exact h.motionRequest _ _ _
  · exact h.haltOrder.reply _ _ _
  · exact h.wakeToActive.loadEffect.reply _ _ _
  · exact (h.wakeToActive.ejectOrder.ejectEffect (ejectOrder_not_live _)).reply _ _ _
  · exact h

protected theorem Keeps.takeRecord (h : Keeps o a s) (buffer : List Byte) : Keeps o a (takeRecord buffer s) := by
  unfold takeRecord
  dsimp only
  split
  · exact h.reply _ _ _
  · split
    · exact h.reply _ _ _
    · split
      · exact h.reply _ _ _
      · exact h.handOver _ _

protected theorem Keeps.takeByte (h : Keeps o a s) (b : Byte) : Keeps o a (takeByte b s) := by
  unfold takeByte
  split
  · split
    · exact h.setLink id
    · dsimp only
      split
      · exact Keeps.takeRecord (h.setLink (by exact id)) _
      · exact h.setLink id
  · exact h

protected theorem Keeps.takeBytes (h : Keeps o a s) (bs : List Byte) : Keeps o a (takeBytes bs s) := by
  induction bs generalizing s with
  | nil => exact h
  | cons b bs ih => exact ih (h.takeByte b)

protected theorem Keeps.writeRecord (h : Keeps o a s) (bs : List Byte) : Keeps o a (writeRecord bs s) :=
  (h.startWrite _).takeBytes bs

protected theorem Keeps.request (h : Keeps o a s) (kind : Nat) (p : List Byte) : Keeps o a (request kind p s) := h.writeRecord _

protected theorem Keeps.endWrite (h : Keeps o a s) (start : Option (BitVec 7)) (bs : List Byte) :
    Keeps o a (endWrite start bs s) := by
  have hend {u : State} (hu : Keeps o a u) : Keeps o a (u.setLink u.link.endTransfer) := hu.setLink fun hn => by simpa using hn
  unfold endWrite
  dsimp only
  split
  · exact hend ((h.startWrite _).takeBytes bs)
  · exact hend (h.takeBytes bs)

/-! ## The lines (R109, R112, R157, R174 to R178) -/

protected theorem Keeps.setLine (h : Keeps o a s) (line : DebLine) (d : Debounced) :
    Keeps o a (s.setSup (s.sup.setLine line d)) := by
  cases line with
  | slot => exact h.setSup id id id
  | clampEnd => exact h.setSup id id id
  | ejectEnd => exact h.setSup id id id
  | innerLimit => exact h.setSup id id id
  | supplyLow => exact h.setSup id id id

protected theorem Keeps.crankHoldStart (h : Keeps o a s) : Keeps o a (crankHoldStart s) :=
  Keeps.post (Keeps.crankStart (Keeps.setSled (Keeps.spindleHold (h.setSup (by exact id) (by exact id) (by exact id))) fun _ _ => inDrive_zero)) _ _

protected theorem Keeps.crankHoldEnd (h : Keeps o a s) : Keeps o a (crankHoldEnd s) :=
  Keeps.post (Keeps.crankEnd (Keeps.loaderFreed (Keeps.spindleRelease (h.setSup (by exact id) (by exact id) (by exact id))))) _ _

protected theorem Keeps.innerLimitActive (h : Keeps o a s) : Keeps o a (innerLimitActive s) :=
  Keeps.seekInnerLimit (h.setSled fun _ hd => by
    dsimp only
    split
    · exact inDrive_zero
    · exact hd)

protected theorem Keeps.changeLine (h : Keeps o a s) (line : DebLine) : Keeps o a (changeLine line s) := by
  have hl := h.setLine line { level := !(s.sup.line line).level, run := 0 }
  unfold changeLine lineChanged
  cases line with
  | slot => exact hl.loaderSlot
  | clampEnd => exact hl.loaderClampEnd
  | ejectEnd => exact hl.loaderEjectEnd
  | innerLimit =>
    dsimp only
    split
    · exact hl.innerLimitActive
    · exact hl
  | supplyLow =>
    dsimp only
    split
    · exact hl.crankHoldStart
    · exact hl.crankHoldEnd

protected theorem Keeps.sampleLine (h : Keeps o a s) (line : DebLine) (raw : Bool) : Keeps o a (sampleLine line raw s) := by
  unfold sampleLine
  dsimp only
  split
  · exact h.setLine _ _
  · split
    · exact h.changeLine _
    · exact h.setLine _ _

protected theorem Keeps.shockLine (h : Keeps o a s) (high : Bool) : Keeps o a (shockLine high s) := by
  unfold shockLine
  split
  · exact h.setSup id id id
  · dsimp only
    split
    · exact Keeps.shockTrigger (h.setSup (by exact id) (by exact id) (by exact id))
    · exact h.setSup id id id

protected theorem Keeps.faultAssert (h : Keeps o a s) : Keeps o a (faultAssert s) := by
  unfold faultAssert
  split
  · exact h
  · exact Keeps.postFault (Keeps.faultOrder (Keeps.spindleHold (h.setSup (by exact id) (by exact fun _ => rfl) (by exact id))))

protected theorem Keeps.faultDrop (h : Keeps o a s) : Keeps o a (faultDrop s) := by
  unfold faultDrop
  split
  · exact Keeps.postFault (Keeps.loaderFreed (Keeps.spindleRelease (h.setSup (by exact id) (by exact fun _ => rfl) (by exact id))))
  · exact h

protected theorem Keeps.validReport (h : Keeps o a s) (address : Nat) : Keeps o a (validReport address s) := by
  have hs := (Keeps.evalTarget (h.setSeek (x := s.seek.takeAddress address) id)).followAddress address
  unfold validReport
  dsimp only
  split
  · exact hs.seekFresh _
  · exact hs.seqAddress

protected theorem Keeps.addressBits (h : Keeps o a s) (bits : List Bool) (ended : Bool) : Keeps o a (addressBits bits ended s) := by
  unfold addressBits
  dsimp only
  split
  · split
    · split
      · exact Keeps.validReport (h.setSeek (by exact id)) _
      · exact h.setSeek id
    · exact h.setSeek id
    · exact h.setSeek id
  · exact h.setSeek id

/-! ## The millisecond (log entry 4) -/

protected theorem Keeps.spindleTimeout (h : Keeps o a s) : Keeps o a (spindleTimeout s) := by
  unfold spindleTimeout
  split
  · exact h.kickTimeout
  · exact h.lockingTimeout
  · exact h.brakingTimeout
  all_goals exact h

protected theorem Keeps.tickSpindle (h : Keeps o a s) : Keeps o a (tickSpindle s) := by
  unfold tickSpindle
  split
  · exact h
  · dsimp only
    split
    · exact Keeps.spindleTimeout (h.setSpindle (by exact id))
    · exact h.setSpindle id

protected theorem Keeps.tickAddress (h : Keeps o a s) : Keeps o a (tickAddress s) := by
  have ha := h.setSeek (x := { s.seek with age := countUp 65535 s.seek.age }) id
  unfold tickAddress
  dsimp only
  split
  · split
    · exact Keeps.addressLost (ha.setSeek (by exact id))
    · exact ha.setSeek id
  · exact ha

protected theorem Keeps.tickWait (h : Keeps o a s) : Keeps o a (tickWait s) := by
  unfold tickWait
  split
  · dsimp only
    split
    · exact Keeps.addressWaitTimeout (h.setSeek (by exact id))
    · exact h.setSeek id
  · exact h

protected theorem Keeps.tickEngage (h : Keeps o a s) : Keeps o a (tickEngage s) := by
  unfold tickEngage
  split
  · exact h
  · dsimp only
    split
    · exact Keeps.engageAddressTimeout (h.setSeq (by exact id) (by exact id))
    · exact h.setSeq id id

protected theorem Keeps.tickLoopWait (h : Keeps o a s) : Keeps o a (tickLoopWait s) := by
  unfold tickLoopWait
  split
  · exact h
  · dsimp only
    split
    · exact Keeps.loopWaitTimeout (h.setSeq (by exact id) (by exact id))
    · exact h.setSeq id id

protected theorem Keeps.tickRecovery (h : Keeps o a s) : Keeps o a (tickRecovery s) := by
  unfold tickRecovery
  split
  · dsimp only
    split
    · exact Keeps.recoveryAddressTimeout (h.setSeq (by exact id) (by exact id))
    · exact h.setSeq id id
  · exact h

protected theorem Keeps.tickIdle (h : Keeps o a s) : Keeps o a (tickIdle s) := by
  unfold tickIdle
  split
  · exact h
  · split
    · exact h
    · dsimp only
      split
      · split
        · exact Keeps.idleExpiry (h.setSup (by exact id) (by exact id) (by exact id))
        · exact h.setSup id id id
      · exact h.setSup id id id

protected theorem Keeps.loaderTimeout (h : Keeps o a s) : Keeps o a (loaderTimeout s) := by
  unfold loaderTimeout
  split
  · exact h.loadTimeout
  · exact h.releaseTimeout
  all_goals exact h

protected theorem Keeps.tickLoader (h : Keeps o a s) : Keeps o a (tickLoader s) := by
  unfold tickLoader
  split
  · dsimp only
    split
    · exact Keeps.loaderTimeout (h.setLoader (by exact id) (by exact id) (by exact id))
    · exact h.setLoader id id id
  · exact h

protected theorem Keeps.tickReload (h : Keeps o a s) : Keeps o a (tickReload s) := by
  unfold tickReload
  split
  · exact h
  · split
    · dsimp only
      split
      · exact Keeps.reloadExpiry (h.setLoader (by exact id) (by exact id) (by exact id))
      · exact h.setLoader id id id
    · exact h

protected theorem Keeps.dueBoundaries (h : Keeps none a s) (n : Nat) : Keeps none a (dueBoundaries n s) := by
  induction n generalizing s with
  | zero => exact h
  | succ n ih =>
    unfold dueBoundaries
    split
    · exact h
    · split
      · exact ih h.timedBoundary.settle
      · exact h

protected theorem Keeps.tickAngle (h : Keeps none a s) : Keeps none a (tickAngle s) := by
  unfold tickAngle
  split
  · exact Keeps.dueBoundaries (h.setAngle (by exact rfl)) _
  · exact h

protected theorem Keeps.pulseEnd (h : Keeps o a s) : Keeps o a (pulseEnd s) := h.setLink id

protected theorem Keeps.tick (h : Keeps none a s) : Keeps none a (tick s) := by
  unfold tick
  split
  · exact h
  · simp only [tickParts, List.foldl_cons, List.foldl_nil]
    have hbefore := h.pulseEnd.settle.tickAngle.settle.tickSpindle.settle.tickWait.settle.tickEngage.settle.tickLoopWait.settle
    exact hbefore.tickRecovery.settle.tickAddress.settle.tickIdle.settle.tickLoader.settle.tickReload.settle

/-! ## Every command -/

protected theorem Keeps.fgEdge (h : Keeps none a s) (t : Nat) : Keeps none a (fgEdge t s) := by
  have hc := h.edgeCount t
  have hafter {u : State} (hu : Keeps none a u) : Keeps none a (afterSpindle u) := by
    unfold afterSpindle
    split
    · exact hu
    · exact hu.drain 64
  unfold fgEdge
  dsimp only
  split
  · split
    · exact ((hc.takeOrder.edgeBoundaries _).drain 64).spindleEdge _
    · exact (hafter (hc.takeOrder.spindleEdge _)).edgeBoundaries _
  · exact (hc.edgeBoundaries _).spindleEdge _

protected theorem Keeps.holdLimit (h : Keeps o a s) : Keeps o a (holdLimit s) := by
  unfold holdLimit
  split
  · exact Keeps.raiseFocusLost (h.setDet (by exact id))
  · exact h

protected theorem Keeps.lastSweepEnds (h : Keeps o a s) : Keeps o a (lastSweepEnds s) := by
  unfold lastSweepEnds
  split
  · exact h.searchFails
  · exact h

protected theorem Keeps.followBlockEnds (h : Keeps o a s) : Keeps o a (followBlockEnds s) := by
  unfold followBlockEnds
  split
  · exact h.sledCompute
  · exact h

protected theorem Keeps.powerOnReset (h : Keeps o a s) (lines : Option Lines) (high : Bool) :
    Keeps o a (powerOnReset lines high s) := by
  unfold powerOnReset
  split
  · exact (h.setHeld true).setLink (by exact id)
  · exact (h.powerOn _ _).settle

/-- What a command does to a running part, with what follows from it. -/
theorem Keeps.ofDone {s t : State} {f : State → State} (hf : ∀ {u : State}, Keeps none s u → Keeps none s (f u))
    (h : done f s = .next t) : Keeps none s t := by
  cases h
  split
  · exact Keeps.refl s
  · exact (hf (Keeps.refl s)).settle

/-- Every command keeps every law. -/
theorem exec_keeps {c : Instr} {s t : State} (h : exec c s = .next t) : Keeps none s t := by
  cases c with
  | servoSample fe te sum => cases h; exact (Keeps.refl s).servoSample fe te sum
  | holdLimit => exact Keeps.ofDone Keeps.holdLimit h
  | focusFail => exact Keeps.ofDone Keeps.lastSweepEnds h
  | settleTimeout => exact Keeps.ofDone Keeps.settleTimeout h
  | closeTimeout => exact Keeps.ofDone Keeps.closeTimeout h
  | moveStall => exact Keeps.ofDone Keeps.moveStall h
  | offTrack => exact Keeps.ofDone Keeps.raiseOffTrack h
  | focusLost => exact Keeps.ofDone Keeps.raiseFocusLost h
  | sledComputation => exact Keeps.ofDone Keeps.followBlockEnds h
  | fgEdge t => exact Keeps.ofDone (fun hu => hu.fgEdge t) h
  | timedBinBoundary => exact Keeps.ofDone Keeps.timedBoundary h
  | pendingLaunchEffect => exact Keeps.ofDone Keeps.takePending h
  | shockModeExit => exact Keeps.ofDone Keeps.endShock h
  | kickTimeout => exact Keeps.ofDone Keeps.kickTimeout h
  | lockingTimeout => exact Keeps.ofDone Keeps.lockingTimeout h
  | brakingTimeout => exact Keeps.ofDone Keeps.brakingTimeout h
  | addressReport bits ended =>
    simp only [exec, execAddressReport] at h
    split at h
    · cases h; exact (Keeps.refl s).setSeek (by exact id)
    · exact Keeps.ofDone (fun hu => hu.addressBits bits ended) h
  | addressLost => exact Keeps.ofDone Keeps.addressLost h
  | addressWaitTimeout => exact Keeps.ofDone Keeps.addressWaitTimeout h
  | legReorder => exact Keeps.ofDone Keeps.seekReorder h
  | entryStart => exact Keeps.ofDone Keeps.testHead h
  | engageAddressTimeout => exact Keeps.ofDone Keeps.engageAddressTimeout h
  | recoveryLoopWaitTimeout => exact Keeps.ofDone Keeps.loopWaitTimeout h
  | recoveryAddressTimeout => exact Keeps.ofDone Keeps.recoveryAddressTimeout h
  | idleTimerExpiry => exact Keeps.ofDone Keeps.idleExpiry h
  | senseLineSample line active => exact Keeps.ofDone (fun hu => hu.sampleLine line active) h
  | debouncedLineChange line => exact Keeps.ofDone (fun hu => hu.changeLine line) h
  | ejectRelease => exact Keeps.ofDone Keeps.ejectRelease h
  | loadTimeout => exact Keeps.ofDone Keeps.loadTimeout h
  | releaseTimeout => exact Keeps.ofDone Keeps.releaseTimeout h
  | reloadTimerExpiry => exact Keeps.ofDone Keeps.reloadExpiry h
  | shockEdge high => exact Keeps.ofDone (fun hu => hu.shockLine high) h
  | driverFaultAssert => exact Keeps.ofDone Keeps.faultAssert h
  | driverFaultDrop => exact Keeps.ofDone Keeps.faultDrop h
  | powerOnReset lines high => cases h; exact (Keeps.refl s).powerOnReset lines high
  | writeTransferEnd start bytes => exact Keeps.ofDone (fun hu => hu.endWrite start bytes) h
  | readTransfer start clocks stop => exact Keeps.ofDone (fun hu => hu.setLink (noticeLaw_readTransfer _ clocks stop)) h
  | unknownRequest record => exact Keeps.ofDone (fun hu => hu.writeRecord record) h
  | attnPulseEnd => exact Keeps.ofDone Keeps.pulseEnd h
  | _ p => exact Keeps.ofDone (fun hu => hu.request _ p) h

/-- Every step keeps every law. -/
theorem step_keeps {s t : State} (h : step s = .next t) : Keeps none (s.setPending t.pending) t := by
  unfold step at h
  split at h
  · have hk := exec_keeps h
    rw [hk.pending]
    exact hk
  · cases h
    rw [(Keeps.refl s).tick.pending]
    exact (Keeps.refl s).tick

end

end Sys2Proof.Machine
end

