-- ==== Sys2Proof/Proofs/Keeping/Settled.lean ====
section
/-! SUPPORT. What every step leaves behind: nothing handed on, the loader drive as R159 gives it, and no release due; and the pins that
follow from the laws. With them the obligations about every step. -/

namespace Sys2Proof.Machine

/-! ## Every command and every millisecond ends settled -/

theorem enterPresented_frame (s : State) :
    (enterPresented s).signals = s.signals ∧ (enterPresented s).loader.ejectPending = s.loader.ejectPending := by
  unfold enterPresented
  dsimp only
  split <;> exact ⟨rfl, rfl⟩

theorem enterReleasing_frame (s : State) :
    (enterReleasing s).signals = s.signals ∧ (enterReleasing s).loader.ejectPending = false := by
  have hif (u : State) (c : Prop) [Decidable c] : (if c then enterPresented u else u).signals = u.signals
      ∧ (if c then enterPresented u else u).loader.ejectPending = u.loader.ejectPending := by
    split
    · exact enterPresented_frame u
    · exact ⟨rfl, rfl⟩
  unfold enterReleasing
  dsimp only
  rw [(hif _ _).1, (hif _ _).2]
  split <;> exact ⟨rfl, rfl⟩

/-- The end of a step is at rest: nothing is handed on, a release that was due has taken place, and the drive is taken last. -/
theorem loaderTest_atRest {s : State} (h : s.signals = []) : (loaderTest s).atRest := by
  by_cases hdue : s.loader.state = .clamped ∧ s.loader.ejectPending = true ∧ s.motorPermit = true
  · have hmoved : (ejectRelease s).signals = s.signals ∧ (ejectRelease s).loader.ejectPending = false := by
      obtain ⟨hc, he, hp⟩ := hdue
      simpa only [ejectRelease, hc, he, hp, decide_true, Bool.and_true, if_true] using enterReleasing_frame s
    refine ⟨hmoved.1.trans h, rfl, fun hdue' => ?_⟩
    have : (ejectRelease s).loader.ejectPending = true := hdue'.2.1
    exact absurd (hmoved.2.symm.trans this) (by decide)
  · rw [loaderTest, ejectRelease_of_not_due hdue]
    exact ⟨h, rfl, hdue⟩

theorem settle_atRest (s : State) : (settle s).atRest := loaderTest_atRest (drain_signals 64 s)

/-- A command of the form `done f` leaves a machine at rest. -/
theorem atRest_of_done {f : State → State} {s t : State} (hs : s.atRest) (h : done f s = .next t) : t.atRest := by
  cases h
  split
  · exact hs
  · exact settle_atRest _

theorem servoSample_atRest (fe te sum : Adc) {s : State} (hs : s.atRest) : (servoSample fe te sum s).atRest := by
  unfold servoSample
  split
  · exact hs
  · exact settle_atRest (sampleBody fe te sum s)

theorem powerOnReset_atRest (lines : Option Lines) (high : Bool) {s : State} (hs : s.atRest) :
    (powerOnReset lines high s).atRest := by
  cases lines with
  | none => exact hs
  | some x => exact settle_atRest (powerOn x high s)

theorem heldBits_atRest (ended : Bool) {s : State} (hs : s.atRest) : (heldBits ended s).atRest := by
  unfold heldBits
  split
  · exact hs
  · exact hs

/-- Each part of the millisecond is settled. -/
theorem foldl_settle_atRest (parts : List (State → State)) {s : State} (hs : s.atRest) :
    (parts.foldl (fun s part => settle (part s)) s).atRest := by
  induction parts generalizing s with
  | nil => exact hs
  | cons part parts ih => exact ih (settle_atRest (part s))

theorem tick_atRest {s : State} (hs : s.atRest) : (tick s).atRest := by
  unfold tick
  split
  · exact hs
  · exact foldl_settle_atRest tickParts hs

/-- Every command leaves a machine at rest. -/
theorem exec_atRest {c : Instr} {s t : State} (hs : s.atRest) (h : exec c s = .next t) : t.atRest := by
  cases c with
  | servoSample fe te sum => cases h; exact servoSample_atRest fe te sum hs
  | powerOnReset lines high => cases h; exact powerOnReset_atRest lines high hs
  | addressReport bits ended =>
    simp only [exec, execAddressReport] at h
    split at h
    · cases h; exact heldBits_atRest ended hs
    · exact atRest_of_done hs h
  | _ => exact atRest_of_done hs h

theorem step_atRest {s t : State} (hs : s.atRest) (h : step s = .next t) : t.atRest := by
  unfold step at h
  split at h
  · rename_i c rest _
    have hfront : (s.setPending rest).atRest := hs
    exact exec_atRest hfront h
  · cases h; exact tick_atRest hs

/-! ## The pins (R138, R159, R178, R187, R189, R199) -/

/-- The demand of the loader drive, by states. -/
theorem loaderDemand_eq (s : State) : s.loaderDemand =
    if s.motorPermit = true then
      (if s.loader.state = .pulling then 1536 else if s.loader.state = .releasing then -1536 else 0)
    else 0 := by
  unfold State.loaderDemand
  cases s.loader.state <;> rfl

/-- The law of the loader motor is the second clause of `atRest`. -/
theorem loaderLaw_iff (s : State) : s.loaderLaw ↔ s.loader.drive = s.loaderDemand := by
  have hpermit : s.motorPermit = true ↔ s.spindle.state = .stopped ∧ ¬(s.seq.laser = true ∧ s.sup.mute = false)
      ∧ s.sup.crankHold = false ∧ s.sup.mute = false := by
    cases hl : s.seq.laser <;> cases hm : s.sup.mute <;> simp [State.motorPermit, State.laserOn, hl, hm]
  simp only [loaderDemand_eq, hpermit]

theorem muted_inDrive {s : State} {x : Int} (h : inDrive x) : inDrive (s.muted x) := by
  unfold State.muted
  split
  · exact ⟨by decide, by decide⟩
  · exact h

theorem muted_of_mute {s : State} (h : s.sup.mute = true) (x : Int) : s.muted x = 0 := by simp [State.muted, h]

theorem muted_of_free {s : State} (h : s.sup.mute = false) (hh : s.held = false) (x : Int) : s.muted x = x := by
  simp [State.muted, h, hh]

/-- LASER_EN on: the demand stands, mute is inactive and the part is not held (R138, R187). -/
theorem laserEn_iff (s : State) : s.laserEn = true ↔ s.seq.laser = true ∧ s.sup.mute = false ∧ s.held = false := by
  simp [State.laserEn, State.laserOn, and_assoc]

/-- With the laser on the loader motor has no permit (R159). -/
theorem loaderDemand_of_laserEn {s : State} (h : s.laserEn = true) : s.loaderDemand = 0 := by
  obtain ⟨hl, hm, _⟩ := (laserEn_iff s).mp h
  simp [State.loaderDemand, State.motorPermit, State.laserOn, hl, hm]

theorem attn_iff {s : State} (h : s.held = false) :
    s.attn = true ↔ if s.link.attnMode = .pulse then s.link.pulse = true else s.link.reply ≠ none ∨ s.link.notices ≠ [] := by
  cases hm : s.link.attnMode <;> simp [State.attn, h, hm, Option.isSome_iff_ne_none]

theorem mon_iff {s : State} (h : s.held = false) (hm : s.muteLaw) : s.mon = true ↔
    (s.sup.monSelect = 1 ∧ s.angle.bin = 0) ∨ (s.sup.monSelect = 2 ∧ s.det.inHold = true)
      ∨ (s.sup.monSelect = 3 ∧ s.groups.shockMode = true) ∨ (s.sup.monSelect = 4 ∧ s.seek.valid = true)
      ∨ (s.sup.monSelect = 5 ∧ 0 < s.track.offCount) ∨ (s.sup.monSelect = 6 ∧ s.attn = true)
      ∨ (s.sup.monSelect = 7 ∧ s.sup.faultPin = true) := by
  have hm : s.sup.mute = s.sup.faultPin := hm
  simp only [State.mon, h, Bool.not_false, Bool.and_true, State.monSource, State.inHold, hm]
  split <;> simp_all

/-! ## The obligations about every step -/

/-- Settles O1. -/
theorem stepTakesTheFront : Obligations.StepTakesTheFront := by
  unfold Obligations.StepTakesTheFront
  intro c rest s h
  simp only [step, h]

/-- Settles O55: the first clause of what every command keeps. -/
theorem commandsLeaveTheQueue : Obligations.CommandsLeaveTheQueue := by
  unfold Obligations.CommandsLeaveTheQueue
  intro c s t h
  exact (exec_keeps h).pending

/-- Settles O56. -/
theorem stepKeepsQueues : Obligations.StepKeepsQueues := by
  unfold Obligations.StepKeepsQueues
  intro s t hq hn h
  exact ⟨(step_keeps h).queue hq, (step_keeps h).notices hn⟩

/-- Settles O57. -/
theorem stepKeepsZoneTable : Obligations.StepKeepsZoneTable := by
  unfold Obligations.StepKeepsZoneTable
  intro s t hz h
  exact (step_keeps h).zones hz

/-- Settles O58. -/
theorem stepKeepsGroups : Obligations.StepKeepsGroups := by
  unfold Obligations.StepKeepsGroups
  intro s t hg hs hc h
  exact ⟨(step_keeps h).groups hg, (step_keeps h).shock hs, (step_keeps h).coefficient hg hc⟩

/-- Settles O59: between steps no bin stands open. -/
theorem stepKeepsDiscTables : Obligations.StepKeepsDiscTables := by
  unfold Obligations.StepKeepsDiscTables
  intro s t hf hd h
  exact ⟨(tableLaw_none_iff t).mp ((step_keeps h).table ((tableLaw_none_iff s).mpr hf)), (step_keeps h).defects hd⟩

/-- Settles O60: the laws are kept, every step ends at rest, and the pins are read off the laws. -/
theorem stepKeepsOutputsSafe : Obligations.StepKeepsOutputsSafe := by
  unfold Obligations.StepKeepsOutputsSafe
  intro s t hg hd _ hl hm hr h
  have hk := step_keeps h
  have hrest := step_atRest hr h
  have hdrive : t.driveLaw := hk.drives hg hd
  have hlaser : t.laserLaw := hk.laser hl
  have hmute : t.muteLaw := hk.mute hm
  obtain ⟨hfoc, htrk, hsled, hspin, hload, _⟩ := id hdrive
  obtain ⟨hlit, hactive, hclamped, _, _⟩ := id hlaser
  refine ⟨hdrive, (loaderLaw_iff t).mpr hrest.2.1, hlaser, hmute, hrest, hk.settings,
    ⟨muted_inDrive hfoc, muted_inDrive htrk, muted_inDrive hsled, muted_inDrive hspin, muted_inDrive hload⟩,
    fun hf => ?_, fun hf hh => ?_, fun hen => ?_, fun hh => ⟨attn_iff hh, mon_iff hh hmute⟩⟩
  · have hon : t.sup.mute = true := hmute.trans hf
    exact ⟨muted_of_mute hon _, muted_of_mute hon _, muted_of_mute hon _, muted_of_mute hon _, muted_of_mute hon _,
      Bool.eq_false_iff.mpr fun hen => by simp [laserEn_iff, hon] at hen⟩
  · have hoff : t.sup.mute = false := hmute.trans hf
    exact ⟨muted_of_free hoff hh _, muted_of_free hoff hh _, muted_of_free hoff hh _, muted_of_free hoff hh _,
      muted_of_free hoff hh _, by simp [State.laserEn, State.laserOn, hoff, hh]⟩
  · obtain ⟨hl, hoff, _⟩ := (laserEn_iff t).mp hen
    obtain ⟨heng, hne⟩ := hlit hl
    refine ⟨hmute.symm.trans hoff, (hclamped heng hne).1, hactive heng, heng, hne, ?_⟩
    rw [State.loadDrv, hrest.2.1, loaderDemand_of_laserEn hen, State.muted, ite_self]

end Sys2Proof.Machine
end

