-- ==== Sys2Proof/Proofs/Requests/Settings.lean ====
section
/-! SUPPORT. How a request runs from its record to its answer, and the requests that read and write settings: OFFSET, NOTICE MASK, LINE
CONFIG, CLEAR FAULT, SHOCK CONFIG (R4, R89, R175, R179, R193, R198). -/

namespace Sys2Proof.Machine

/-! ## The bytes of a value (R205) -/

theorem beNat_be2 {n : Nat} (h : n < 65536) : beNat (be2 n) = n := by
  simp only [beNat, be2, byte, List.foldl_cons, List.foldl_nil, BitVec.toNat_ofNat]
  omega

theorem beNat_be3 {n : Nat} (h : n < 16777216) : beNat (be3 n) = n := by
  simp only [beNat, be3, byte, List.foldl_cons, List.foldl_nil, BitVec.toNat_ofNat]
  omega

/-- A signed value comes back from its two bytes. -/
theorem signed16_be2Signed {x : Int} (hlo : -32768 ≤ x) (hhi : x < 32768) : signed16 (beNat (be2Signed x)) = x := by
  rw [be2Signed, beNat_be2 (by omega), signed16]
  split <;> omega

@[simp] theorem byte_byte_toNat (b : Byte) : byte b.toNat = b := by
  simp [byte]

/-! ## From the record to the answer (R190, R193) -/

/-- The link as the owner of a request finds it: the whole record received and acknowledged, the transfer still open. -/
def Link.received (l : Link) (kind : Nat) (payload : List Byte) : Link :=
  { l with rx := .write, buffer := requestRecord kind payload, acks := List.replicate (payload.length + 4) true }

/-- Only the kinds of the catalogue allow a length, and none above 24 (R204). -/
theorem bounds_of_lengthAllowed {kind : Nat} {p : List Byte} (h : lengthAllowed kind p = true) :
    (1 ≤ kind ∧ kind ≤ 0x1C) ∧ p.length ≤ 24 := by
  unfold lengthAllowed at h
  dsimp only at h
  split at h <;> simp only [decide_eq_true_eq, Bool.or_eq_true, Bool.and_eq_true, Bool.false_eq_true] at h <;>
    exact ⟨by decide, by omega⟩

section
variable {s t : State} {kind : Nat} {p : List Byte}

/-- An answered request in a settled machine: what its owner does with it, where nothing more follows. -/
theorem done_request (hs : s.settled) (hl : s.linkReady) (hal : lengthAllowed kind p = true)
    (h : handOver kind p (s.setLink (s.link.received kind p)) = t) (ht : t.atRest) :
    done (request kind p) s = .next t := by
  obtain ⟨hk, hlen⟩ := bounds_of_lengthAllowed hal
  have hreq : request kind p s = t := (request_ready hl hk hlen hal).trans h
  exact hreq ▸ done_of_atRest _ hs.2 (hreq.symm ▸ ht)

/-- The same, where something may follow. -/
theorem done_request_settle (hs : s.settled) (hl : s.linkReady) (hal : lengthAllowed kind p = true)
    (h : handOver kind p (s.setLink (s.link.received kind p)) = t) :
    done (request kind p) s = .next (settle t) := by
  obtain ⟨hk, hlen⟩ := bounds_of_lengthAllowed hal
  rw [done_of_running _ hs.2, request_ready hl hk hlen hal]
  exact congrArg (fun u => Host.Outcome.next (settle u)) h

/-- The reply to a received request. -/
theorem reply_received (s : State) (l : Link) (kind : Nat) (p : List Byte) (st : Status) (out : List Byte) (hk : kind < 128) :
    reply kind st out (s.setLink (l.received kind p)) = s.setLink (l.answered kind p st.code out) :=
  reply_answered (s.setLink l) kind p st out hk

/-- A posting and the reception of a request touch different fields of the link. -/
theorem Link.post_received (l : Link) (k : NoticeKind) (q : List Byte) (kind : Nat) (p : List Byte) :
    (l.received kind p).post k q = (l.post k q).received kind p := by
  cases hm : l.masked k with
  | true => rw [Link.post_masked hm, Link.post_masked (by exact hm)]
  | false =>
    cases hu : k.isState && l.notices.any (fun n => n.kind = k) with
    | true =>
      obtain ⟨hstate, has⟩ := Bool.and_eq_true_iff.mp hu
      rw [Link.post_update hm hstate has, Link.post_update (by exact hm) hstate (by exact has)]
      rfl
    | false =>
      rw [Link.post_new hm hu, Link.post_new (by exact hm) (by exact hu)]
      by_cases hroom : l.notices.length < 8
      · rw [if_pos hroom, if_pos (by exact hroom)]
        rfl
      · rw [if_neg hroom, if_neg (by exact hroom)]
        rfl

theorem post_received (s : State) (l : Link) (k : NoticeKind) (q : List Byte) (kind : Nat) (p : List Byte) :
    post k q (s.setLink (l.received kind p)) = s.setLink ((l.post k q).received kind p) := by
  simp only [post_eq, setLink_link, setLink_setLink, Link.post_received]

end

/-! ## OFFSET (R4) -/

theorem exec_offset_read {s : State} (hs : s.settled) (h : s.linkReady) :
    exec (.offset []) s = .next (s.setLink (s.link.answered 0x0F [] 0x00 (offsetPayload s.fe))) :=
  done_request hs h rfl (reply_received s s.link 0x0F [] .ok _ (by decide)) (by exact hs.1)

/-- A written pair of offsets is clamped (R4). -/
theorem exec_offset_write {s : State} (hs : s.settled) (h : s.linkReady) {a b : Int} (ha : -32768 ≤ a ∧ a < 32768)
    (hb : -32768 ≤ b ∧ b < 32768) :
    let fe : FrontEnd := { s.fe with feOff := clampOffset a, teOff := clampOffset b }
    exec (.offset (be2Signed a ++ be2Signed b)) s = .next ((s.setFe fe).setLink
      (s.link.answered 0x0F (be2Signed a ++ be2Signed b)
        (okOrClamped (clampOffset a ≠ a || clampOffset b ≠ b)).code (offsetPayload fe))) := by
  intro fe
  have hra : signedAt (be2Signed a ++ be2Signed b) 0 = a := signed16_be2Signed ha.1 ha.2
  have hrb : signedAt (be2Signed a ++ be2Signed b) 2 = b := signed16_be2Signed hb.1 hb.2
  refine done_request hs h rfl ?_ (by exact hs.1)
  rw [handOver, takeOffset, if_neg (by exact List.cons_ne_nil _ _), hra, hrb]
  exact reply_received (s.setFe fe) s.link 0x0F _ _ _ (by decide)

/-! ## NOTICE MASK (R198) -/

theorem mask_low_eleven (m : BitVec 16) : m &&& 0x07FF#16 = BitVec.ofNat 16 (m.toNat % 2048) := by
  apply BitVec.eq_of_toNat_eq
  have h : m.toNat &&& 2047 = m.toNat % 2048 := Nat.and_two_pow_sub_one_eq_mod m.toNat 11
  rw [BitVec.toNat_and, BitVec.toNat_ofNat, BitVec.toNat_ofNat, Nat.mod_eq_of_lt (by decide : 2047 < 2 ^ 16), h]
  omega

theorem exec_noticeMask_read {s : State} (hs : s.settled) (h : s.linkReady) :
    exec (.noticeMask []) s = .next (s.setLink (s.link.answered 0x10 [] 0x00 (be2 s.link.mask.toNat))) :=
  done_request hs h rfl (reply_received s s.link 0x10 [] .ok _ (by decide)) (by exact hs.1)

theorem exec_noticeMask_write {s : State} (hs : s.settled) (h : s.linkReady) (m : BitVec 16) :
    exec (.noticeMask (be2 m.toNat)) s = .next (s.setLink
        { s.link.answered 0x10 (be2 m.toNat) 0x00 (be2 (m.toNat % 2048)) with mask := BitVec.ofNat 16 (m.toNat % 2048) }) := by
  have hread : fieldAt (be2 m.toNat) 0 2 = m.toNat := beNat_be2 m.isLt
  have hlow : (BitVec.ofNat 16 (m.toNat % 2048)).toNat = m.toNat % 2048 := by simp; omega
  refine done_request hs h rfl ?_ (by exact hs.1)
  rw [handOver, takeNoticeMask, if_neg (by exact List.cons_ne_nil _ _), hread, BitVec.ofNat_toNat, BitVec.setWidth_eq,
    mask_low_eleven]
  dsimp only [setLink_link]
  rw [hlow]
  exact reply_received s { s.link with mask := BitVec.ofNat 16 (m.toNat % 2048) } 0x10 _ .ok _ (by decide)

/-- Settles O13. -/
theorem offsetAndMaskRequests : Obligations.OffsetAndMaskRequests := by
  unfold Obligations.OffsetAndMaskRequests
  intro s a b m hs h ha ha' hb hb'
  refine ⟨exec_offset_read hs h, ?_, exec_noticeMask_read hs h, exec_noticeMask_write hs h m⟩
  rw [exec_offset_write hs h ⟨ha, ha'⟩ ⟨hb, hb'⟩]
  have hst : (okOrClamped (clampOffset a ≠ a || clampOffset b ≠ b)).code
      = if clampOffset a = a ∧ clampOffset b = b then 0x00 else 0x03 := by
    by_cases h1 : clampOffset a = a <;> by_cases h2 : clampOffset b = b <;> simp [h1, h2, okOrClamped, Status.code]
  have hc (x : Int) : max (-511) (min x 511) = clampOffset x := by simp only [clampOffset, sat]; omega
  simp only [hst, hc]
  rfl

/-! ## LINE CONFIG (R175) -/

theorem attnOf_code (m : AttnMode) : attnOf m.code = m := by cases m <;> rfl

theorem edgeOf_code (e : EdgeSelect) : edgeOf e.code = e := by cases e <;> rfl

theorem flag_eq_one (b : Bool) : decide (flag b = 1) = b := by cases b <;> rfl

theorem attnCode_le (m : AttnMode) : m.code ≤ 1 := by cases m <;> decide

theorem edgeCode_le (e : EdgeSelect) : e.code ≤ 2 := by cases e <;> decide

theorem flag_le_one (b : Bool) : flag b ≤ 1 := by cases b <;> decide

/-- A byte is given by its value. -/
theorem byte_of_toNat {b : Byte} {n : Nat} (h : b.toNat = n) : byte n = b := by rw [← h, byte_byte_toNat]

/-- Settles O14: the read, the refusal, and the write of the seven settings, each of them said by its code. -/
theorem lineConfigRequests : Obligations.LineConfigRequests := by
  unfold Obligations.LineConfigRequests
  intro s am es db al rl im mo hs h p
  refine ⟨done_request hs h rfl (reply_received s s.link 0x11 [] .ok _ (by decide)) (by exact hs.1), fun hbad => ?_,
    fun m e on ham hes hal hmo => ?_⟩
  · refine done_request hs h rfl ?_ (by exact hs.1)
    rw [handOver, takeLineConfig, if_neg (by exact List.cons_ne_nil _ _), if_pos (by
      simp only [Bool.or_eq_true, decide_eq_true_eq, or_assoc]; exact hbad)]
    exact reply_received s s.link 0x11 p .range [] (by decide)
  · have hgood : ¬(1 < byteAt p 0 || 2 < byteAt p 1 || 1 < byteAt p 3 || 7 < byteAt p 6) = true := by
      have h0 : byteAt p 0 ≤ 1 := ham.trans_le (attnCode_le m)
      have h1 : byteAt p 1 ≤ 2 := hes.trans_le (edgeCode_le e)
      have h3 : byteAt p 3 ≤ 1 := hal.trans_le (flag_le_one on)
      have h6 : byteAt p 6 ≤ 7 := hmo
      simp only [Bool.or_eq_true, decide_eq_true_eq]
      omega
    have hattn : attnOf (byteAt p 0) = m := (congrArg attnOf ham).trans (attnOf_code m)
    have hedge : edgeOf (byteAt p 1) = e := (congrArg edgeOf hes).trans (edgeOf_code e)
    have hauto : decide (byteAt p 3 = 1) = on := (congrArg (fun n => decide (n = 1)) hal).trans (flag_eq_one on)
    have hdeb : satNat 1 15 (byteAt p 2) = max 1 (min db.toNat 15) := by
      rw [satNat, min_comm 15]
      rfl
    intro d
    refine done_request hs h rfl ?_ (by exact hs.1)
    rw [handOver, takeLineConfig, if_neg (by exact List.cons_ne_nil _ _), if_neg hgood]
    simp only [writeLines, hattn, hedge, hauto, hdeb]
    refine (reply_received ((s.setSup _).setLoader _) (s.link.setAttn m) 0x11 p _ _ (by decide)).trans ?_
    have hst : (okOrClamped (decide (d ≠ byteAt p 2))).code = if d = db.toNat then 0x00 else 0x03 := by
      by_cases hd : d = db.toNat
      · simp [okOrClamped, byteAt, p, hd, Status.code]
      · simp [okOrClamped, byteAt, p, hd, Status.code]
    have hpay : [byte m.code, byte e.code, byte d, flagByte on, byte rl.toNat, byte im.toNat, byte mo.toNat]
        = [am, es, byte d, al, rl, im, mo] := by
      simp only [byte_byte_toNat, byte_of_toNat ham, byte_of_toNat hes, flagByte, byte_of_toNat hal]
    rw [← hst, ← hpay]
    rfl

/-! ## CLEAR FAULT (R179) -/

/-- Settles O15. -/
theorem clearFaultRequest : Obligations.ClearFaultRequest := by
  unfold Obligations.ClearFaultRequest
  intro s hs h
  refine ⟨fun hclear => ?_, fun hset => ?_⟩
  · refine done_request hs h rfl ?_ (by exact hs.1)
    rw [handOver, takeClearFault, if_neg (by rw [setLink_sup, hclear]; decide)]
    exact reply_received s s.link 0x12 [] .ok [] (by decide)
  · refine done_request hs h rfl ?_ (by exact hs.1)
    rw [handOver, takeClearFault, if_pos (by exact hset)]
    refine (congrArg (reply 0x12 .ok []) (post_received (s.setSup { s.sup with faultLatch := false }) s.link .fault _ 0x12 [])).trans ?_
    exact reply_received (s.setSup { s.sup with faultLatch := false }) _ 0x12 [] .ok [] (by decide)

/-! ## SHOCK CONFIG (R89) -/

theorem pendingCode_eq (p : Option GroupId) : pendingCode p = match p with | some g => g.val | none => 255 := by
  cases p <;> rfl

theorem refuseShockConfig_received (s : State) (p : List Byte) (st : Status) :
    refuseShockConfig st (s.setLink (s.link.received 0x07 p)) = s.setLink (s.link.answered 0x07 p st.code
      (if Config.refusedShockCarries st.code then shockPayload s.groups else [])) :=
  reply_received s s.link 0x07 p st _ (by decide)

/-- Settles O7. -/
theorem shockConfigRequests : Obligations.ShockConfigRequests := by
  unfold Obligations.ShockConfigRequests
  intro s g n hs h settings refused
  have hsettings : settings = shockPayload s.groups := by
    simp only [settings, shockPayload, pendingCode_eq]
    rfl
  simp only [refused, hsettings]
  have hbyte : byteAt [g, n] 0 = g.toNat := rfl
  refine ⟨?_, fun hbad => ?_, fun hg hmode => ?_, fun hg hmode => ?_⟩
  · exact done_request hs h rfl (reply_received s s.link 0x07 [] .ok _ (by decide)) (by exact hs.1)
  · refine done_request hs h rfl ?_ (by exact hs.1)
    rw [handOver, takeShockConfig, if_neg (by exact List.cons_ne_nil _ _), if_pos (by exact hbad)]
    exact refuseShockConfig_received s [g, n] .range
  · refine done_request hs h rfl ?_ (by exact hs.1)
    rw [handOver, takeShockConfig, if_neg (by exact List.cons_ne_nil _ _), if_neg (by exact Nat.not_lt.mpr hg), if_pos (by exact hmode)]
    exact refuseShockConfig_received s [g, n] .busy
  · refine done_request hs h rfl ?_ (by exact hs.1)
    rw [handOver, takeShockConfig, if_neg (by exact List.cons_ne_nil _ _), if_neg (by exact Nat.not_lt.mpr hg), if_neg (by simp [hmode])]
    have hid : (Fin.ofNat 4 g.toNat).val = g.toNat := Nat.mod_eq_of_lt (by omega)
    have hst : (okOrClamped (decide (byteAt [g, n] 1 = 0))).code = if n.toNat = 0 then 0x03 else 0x00 := by
      by_cases hn : n.toNat = 0 <;> simp [okOrClamped, byteAt, hn, Status.code]
    refine (reply_received (s.setGroups { s.groups with shock := Fin.ofNat 4 g.toNat, shockRevs := max 1 n.toNat }) s.link 0x07
      [g, n] _ _ (by decide)).trans ?_
    rw [hst]
    simp only [shockPayload, pendingCode_eq, setGroups_groups, setLink_groups, byteAt, List.getElem?_cons_zero,
      List.getElem?_cons_succ, Option.getD_some, hid, byte_byte_toNat, hmode]
    rfl

end Sys2Proof.Machine
end

