-- ==== Sys2Proof/Proofs/Requests/Groups.lean ====
section
/-! SUPPORT. The requests to the Group Store: PARAM GET, PARAM SET and LAUNCH, with the incidents that a change of the active group raises
(R39, R78 to R88). -/

namespace Sys2Proof.Machine

/-! ## PARAM GET (R84) -/

/-- The first and the count of a read, as the statements write them. -/
theorem adjustRead_eq (size most f n : Nat) :
    adjustRead size most f n = (min f (size - 1), min (max 1 (min n most)) (size - min f (size - 1))) := by
  simp only [adjustRead, satNat, Prod.mk.injEq]
  omega

/-- A read answers CLAMPED where it changed its first or its count. -/
theorem adjustStatus_code (x f n : Nat) (y : Nat) :
    (okOrClamped (decide ((x, y) ≠ (f, n)))).code = if x = f ∧ y = n then 0x00 else 0x03 := by
  by_cases h : x = f ∧ y = n
  · simp [okOrClamped, h, Status.code]
  · rw [if_neg h]
    simp [okOrClamped, h, Status.code]

theorem fieldValues_eq (g : GroupRec) (first count : Nat) :
    fieldValues g first count
      = ((List.range count).map (fun i => fieldBytes (first + i) ((g.toList)[first + i]?.getD 0))).flatten := by
  simp only [fieldValues, List.flatMap_def, Vector.getElem?_toList]

theorem exec_paramGet {s : State} (hs : s.settled) (h : s.linkReady) (g f n : Byte) :
    exec (.paramGet [g, f, n]) s = .next (s.setLink
      (if 3 < g.toNat then s.link.answered 0x04 [g, f, n] 0x28 []
       else
        let first := min f.toNat 32
        let count := min (max 1 (min n.toNat 16)) (33 - first)
        s.link.answered 0x04 [g, f, n] (if first = f.toNat ∧ count = n.toNat then 0x00 else 0x03)
          (BitVec.ofNat 8 (g.toNat * 64 + first) ::
            ((List.range count).map (fun i => fieldBytes (first + i) ((s.groups.recs[Fin.ofNat 4 g.toNat].toList)[first + i]?.getD 0))).flatten))) := by
  by_cases hg : 3 < g.toNat
  · rw [if_pos hg]
    refine done_request hs h rfl ?_ (by exact hs.1)
    rw [handOver, takeParamGet, if_pos (by exact hg)]
    exact reply_received s s.link 0x04 _ .range [] (by decide)
  · rw [if_neg hg]
    refine done_request hs h rfl ?_ (by exact hs.1)
    rw [handOver, takeParamGet, if_neg (by exact hg), adjustRead_eq]
    dsimp only
    rw [fieldValues_eq, ← adjustStatus_code]
    exact reply_received s s.link 0x04 _ _ _ (by decide)

/-! ## PARAM SET (R78, R82, R83) -/

/-- A payload that divides into pairs and holds one has the two bytes of a pair at least (R206). -/
theorem two_le_of_paramPairs {fuel : Nat} {p : List Byte} {a : Nat × Nat × Nat} {pairs : List (Nat × Nat × Nat)}
    (h : paramPairs fuel p = some pairs) (ha : pairs.head? = some a) : 2 ≤ p.length := by
  have hwidth (n : Nat) : 1 ≤ fieldWidth n := by
    unfold fieldWidth
    split <;> decide
  cases p with
  | nil =>
    cases fuel <;> simp only [paramPairs, Option.some.injEq] at h <;> subst h <;> cases ha
  | cons code rest =>
    cases fuel with
    | zero => cases h
    | succ fuel =>
      simp only [paramPairs] at h
      split at h
      · cases h
      · have := hwidth (code.toNat % 64)
        simp only [List.length_cons]
        omega

section
variable {s : State} {p : List Byte} {pairs : List (Nat × Nat × Nat)} {a : Nat × Nat × Nat}

/-- PARAM SET is handed to the Group Store with its pairs. -/
theorem done_paramSet (hs : s.settled) (h : s.linkReady) (hlen : p.length ≤ 24) (hp : paramPairs 8 p = some pairs)
    (ha : pairs.head? = some a) {t : State} (ht : t.atRest)
    (htake : paramSet pairs (s.setLink (s.link.received 0x05 p)) = t) : exec (.paramSet p) s = .next t := by
  refine done_request hs h ?_ ?_ ht
  · simp only [lengthAllowed, hp, Option.isSome_some, Bool.and_true, Bool.and_eq_true, decide_eq_true_eq]
    exact ⟨two_le_of_paramPairs hp ha, hlen⟩
  · rw [handOver, takeParamSet, hp]
    exact htake

/-- Pairs of one group and of fields up to 32 are refused only where the group is the active one (R82). -/
theorem paramRefusal_of_pairs {g : Groups} (hgood : ∀ q ∈ pairs, q.1 = a.1 ∧ q.2.1 ≤ 32) :
    paramRefusal a.1 pairs g = if Fin.ofNat 4 a.1 = activeId g then some .groupActive else none := by
  rw [paramRefusal, if_neg, if_neg]
  · simp only [List.any_eq_true, decide_eq_true_eq, not_exists, not_and, not_lt]
    exact fun q hq => (hgood q hq).2
  · simp only [List.any_eq_true, decide_eq_true_eq, not_exists, not_and, not_not]
    exact fun q hq => (hgood q hq).1

theorem paramRefusal_of_ill {g : Groups} (hbad : ∃ q ∈ pairs, q.1 ≠ a.1 ∨ 32 < q.2.1) :
    paramRefusal a.1 pairs g = some .range := by
  obtain ⟨q, hq, hill⟩ := hbad
  unfold paramRefusal
  split
  · rfl
  · rename_i hgroup
    rw [if_pos]
    simp only [List.any_eq_true, decide_eq_true_eq, not_exists, not_and, not_not] at hgroup ⊢
    exact ⟨q, hq, hill.resolve_left (not_not.mpr (hgroup q hq))⟩

theorem pairsClamp_eq_true_iff : pairsClamp pairs = true ↔ ∃ q ∈ pairs, clampField q.2.1 q.2.2 ≠ q.2.2 := by
  simp [pairsClamp]

end

/-- Settles O5. -/
theorem paramRequests : Obligations.ParamRequests := by
  unfold Obligations.ParamRequests
  intro s g f n p hs h hlen
  refine ⟨exec_paramGet hs h g f n, fun pairs hp a ha => ⟨fun hbad => ?_, fun hgood => ?_⟩⟩
  · refine done_paramSet hs h hlen hp ha (by exact hs.1) ?_
    simp only [paramSet, ha, Option.map_some, Option.getD_some, paramRefusal_of_ill hbad]
    exact reply_received s s.link 0x05 p .range [] (by decide)
  · intro id copy
    refine ⟨fun hactive => ?_, fun hfree => ⟨fun field hfail => ?_, fun hnone => ?_⟩⟩
    · refine done_paramSet hs h hlen hp ha (by exact hs.1) ?_
      simp only [paramSet, ha, Option.map_some, Option.getD_some, paramRefusal_of_pairs hgood, setLink_groups]
      rw [if_pos (by exact hactive)]
      exact reply_received s s.link 0x05 p .groupActive [] (by decide)
    · refine done_paramSet hs h hlen hp ha (by exact hs.1) ?_
      simp only [paramSet, ha, Option.map_some, Option.getD_some, paramRefusal_of_pairs hgood, setLink_groups]
      rw [if_neg (by exact hfree)]
      have hfail' : firstFailure (applyPairs pairs s.groups.recs[Fin.ofNat 4 a.1]) = some field := hfail
      simp only [hfail']
      exact reply_received s s.link 0x05 p .inconsistent _ (by decide)
    · refine done_paramSet hs h hlen hp ha (by exact hs.1) ?_
      simp only [paramSet, ha, Option.map_some, Option.getD_some, paramRefusal_of_pairs hgood, setLink_groups]
      rw [if_neg (by exact hfree)]
      have hnone' : firstFailure (applyPairs pairs s.groups.recs[Fin.ofNat 4 a.1]) = none := hnone
      have hst : (if ∃ q ∈ pairs, clampField q.2.1 q.2.2 ≠ q.2.2 then 0x03 else 0x00) = (okOrClamped (pairsClamp pairs)).code := by
        simp only [← pairsClamp_eq_true_iff]
        cases pairsClamp pairs <;> rfl
      simp only [hnone']
      rw [hst]
      exact reply_received (s.setGroups { s.groups with recs := s.groups.recs.set id copy }) s.link 0x05 p _ [] (by decide)

end Sys2Proof.Machine
end

