-- ==== Sys2Proof/Proofs/Requests/Launch.lean ====
section
/-! SUPPORT. The change of the active group and the incident it may raise (R9, R10, R39, R53, R55, R81), and the LAUNCH request that makes
it (R85, R86, R88). -/

namespace Sys2Proof.Machine

/-! ## An incident raised inside a step -/

/-- OFF_TRACK raised, or FOCUS_LOST, or nothing. -/
def State.raises (off lost : Bool) (s : State) : State :=
  if off then raiseOffTrack s else if lost then raiseFocusLost s else s

section
variable (off lost : Bool) (s : State) (l : Link)

/-- The link has no part in the incidents. -/
theorem raiseOffTrack_setLink : raiseOffTrack (s.setLink l) = (raiseOffTrack s).setLink l := by
  unfold raiseOffTrack
  by_cases h : s.trackHeld = true
  · rw [if_pos h, if_pos (by exact h)]
    rfl
  · rw [if_neg h, if_neg (by exact h)]

theorem raiseFocusLost_setLink : raiseFocusLost (s.setLink l) = (raiseFocusLost s).setLink l := by
  unfold raiseFocusLost
  by_cases h : s.focusHeld = true
  · rw [if_pos h, if_pos (by exact h)]
    rfl
  · rw [if_neg h, if_neg (by exact h)]

theorem raises_setLink : (s.setLink l).raises off lost = (s.raises off lost).setLink l := by
  cases off
  · cases lost
    · rfl
    · exact raiseFocusLost_setLink s l
  · exact raiseOffTrack_setLink s l

theorem raises_link : (s.raises off lost).link = s.link := by
  have h : s.raises off lost = (s.raises off lost).setLink s.link := raises_setLink off lost s s.link
  rw [h]
  rfl

/-- A notice posted after the incident has been raised, and a reply, are the same before it. -/
theorem post_raises (k : NoticeKind) (p : List Byte) : post k p (s.raises off lost) = (post k p s).raises off lost := by
  rw [post_eq, post_eq, raises_setLink, raises_link]

theorem reply_raises (kind : Nat) (st : Status) (p : List Byte) :
    reply kind st p (s.raises off lost) = (reply kind st p s).raises off lost := by
  rw [reply_eq, reply_eq, raises_setLink, raises_link]

end

/-- The commands OFF_TRACK and FOCUS_LOST do in a running part what the incidents do inside a step. -/
theorem settle_raises_off {s : State} (h : s.held = false) : exec .offTrack s = .next (settle (s.raises true false)) :=
  done_of_running raiseOffTrack h

theorem settle_raises_lost {s : State} (h : s.held = false) : exec .focusLost s = .next (settle (s.raises false true)) :=
  done_of_running raiseFocusLost h

/-! ## The change of the active group -/

/-- The machine with new settings of the Group Store, c and L taken into the range of a group that becomes active; the counters not yet
tested (R80, R81). -/
def State.underGroups (s : State) (g : Groups) : State :=
  (s.setGroups g).setFe (if activeId g = activeId s.groups then s.fe else s.fe.underGroup g.recs[activeId g])

/-- The active group becomes another one under which the off-track counter stands at its limit. -/
def State.offOnSwitch (s : State) (g : Groups) : Prop := activeId g ≠ activeId s.groups ∧ s.offReached g.recs[activeId g]

/-- The same of the focus-lost counter. -/
def State.lostOnSwitch (s : State) (g : Groups) : Prop := activeId g ≠ activeId s.groups ∧ s.lostReached g.recs[activeId g]

theorem offTrackDue_iff (s : State) : s.offTrackDue = true ↔ s.offReached s.active := by
  simp [State.offTrackDue, State.trackHeld, State.offReached]

theorem focusLostDue_iff (s : State) : s.focusLostDue = true ↔ s.lostReached s.active := by
  simp [State.focusLostDue, State.focusHeld, State.lostReached]

/-- What the counters raise, where not both stand at their limits and no OFF_TRACK waits. -/
theorem raiseDue_eq_raises {s : State} {off lost : Bool} (hoff : s.offTrackDue = off) (hlost : s.focusLostDue = lost)
    (hone : (off && lost) = false) (hsig : Signal.offTrack ∉ s.signals) : raiseDue s = s.raises off lost := by
  cases off <;> cases lost
  · simp [raiseDue, hoff, hlost, State.raises]
  · simp [raiseDue, hoff, hlost, State.raises, loseFocus, hsig]
  · simp [raiseDue, hoff, hlost, State.raises]
  · exact absurd hone (by decide)

/-- A change of the Group Store's settings, by which of the counters stands at its new limit; not both. -/
theorem regroup_eq_raises {s : State} {g : Groups} {off lost : Bool} (hoff : off = true ↔ s.offOnSwitch g)
    (hlost : lost = true ↔ s.lostOnSwitch g) (hone : (off && lost) = false) (hsig : Signal.offTrack ∉ s.signals) :
    regroup g s = (s.underGroups g).raises off lost := by
  unfold State.underGroups
  by_cases hsame : activeId g = activeId s.groups
  · rw [if_pos hsame, regroup_same hsame, Bool.eq_false_iff.mpr fun h => (hoff.mp h).1 hsame,
      Bool.eq_false_iff.mpr fun h => (hlost.mp h).1 hsame]
    rfl
  · rw [if_neg hsame, regroup_switch hsame]
    refine raiseDue_eq_raises (Bool.eq_iff_iff.mpr ?_) (Bool.eq_iff_iff.mpr ?_) hone hsig
    · exact (offTrackDue_iff _).trans (Iff.trans (and_iff_right hsame).symm hoff.symm)
    · exact (focusLostDue_iff _).trans (Iff.trans (and_iff_right hsame).symm hlost.symm)

/-! ## LAUNCH (R85, R86, R88) -/

section
variable {s : State} {g : Byte} {off lost : Bool}

/-- LAUNCH NOW as a received request (R85). -/
theorem takeLaunch_now (hg : g.toNat ≤ 3) (hsig : s.signals = []) (hone : (off && lost) = false)
    (hoff : off = true ↔ s.offOnSwitch { s.groups with base := Fin.ofNat 4 g.toNat, pending := none })
    (hlost : lost = true ↔ s.lostOnSwitch { s.groups with base := Fin.ofNat 4 g.toNat, pending := none }) :
    takeLaunch [g, 0] (s.setLink (s.link.received 0x06 [g, 0]))
      = ((s.underGroups { s.groups with base := Fin.ofNat 4 g.toNat, pending := none }).setLink
          (s.link.answered 0x06 [g, 0] 0x00 [])).raises off lost := by
  have hgood : ¬(3 < byteAt [g, 0] 0 || 1 < byteAt [g, 0] 1) = true := by simpa [byteAt] using hg
  have hnow : launchNow (Fin.ofNat 4 g.toNat) (s.setLink (s.link.received 0x06 [g, 0]))
      = ((s.underGroups { s.groups with base := Fin.ofNat 4 g.toNat, pending := none }).setLink
          (s.link.received 0x06 [g, 0])).raises off lost :=
    regroup_eq_raises (s := (s.setLink (s.link.received 0x06 [g, 0])).setGroups { s.groups with pending := none })
      hoff hlost hone (by simp [hsig])
  rw [takeLaunch, if_neg hgood]
  refine (congrArg (reply 0x06 .ok []) hnow).trans ?_
  rw [reply_raises]
  exact congrArg (State.raises off lost) (reply_received _ s.link 0x06 _ .ok [] (by decide))

/-- LAUNCH INDEX as a received request, with the spindle STOPPED (R86). -/
theorem takeLaunch_stopped (hg : g.toNat ≤ 3) (hsig : s.signals = []) (hone : (off && lost) = false)
    (hstop : s.spindle.state = .stopped)
    (hoff : off = true ↔ s.offOnSwitch { s.groups with base := Fin.ofNat 4 g.toNat })
    (hlost : lost = true ↔ s.lostOnSwitch { s.groups with base := Fin.ofNat 4 g.toNat }) :
    takeLaunch [g, 1] (s.setLink (s.link.received 0x06 [g, 1]))
      = ((s.underGroups { s.groups with base := Fin.ofNat 4 g.toNat }).setLink
          ((s.link.post .launch [g]).answered 0x06 [g, 1] 0x00 [])).raises off lost := by
  have hgood : ¬(3 < byteAt [g, 1] 0 || 1 < byteAt [g, 1] 1) = true := by simpa [byteAt] using hg
  have hbyte : byte (Fin.ofNat 4 g.toNat).val = g := by
    rw [show (Fin.ofNat 4 g.toNat).val = g.toNat from Nat.mod_eq_of_lt (by omega), byte_byte_toNat]
  have hnow : launchGroup (Fin.ofNat 4 g.toNat) (s.setLink (s.link.received 0x06 [g, 1]))
      = ((s.underGroups { s.groups with base := Fin.ofNat 4 g.toNat }).setLink (s.link.received 0x06 [g, 1])).raises off lost :=
    regroup_eq_raises (s := s.setLink (s.link.received 0x06 [g, 1])) hoff hlost hone (by simp [hsig])
  have hindex : launchIndex (Fin.ofNat 4 g.toNat) (s.setLink (s.link.received 0x06 [g, 1]))
      = ((s.underGroups { s.groups with base := Fin.ofNat 4 g.toNat }).setLink
          ((s.link.post .launch [g]).received 0x06 [g, 1])).raises off lost := by
    rw [launchIndex, if_pos (by exact hstop), hnow, post_raises, hbyte, post_received]
  rw [takeLaunch, if_neg hgood]
  refine (congrArg (reply 0x06 .ok []) hindex).trans ?_
  rw [reply_raises]
  exact congrArg (State.raises off lost) (reply_received _ _ 0x06 _ .ok [] (by decide))

/-- LAUNCH INDEX as a received request, with the spindle turning (R86). -/
theorem takeLaunch_pending (hg : g.toNat ≤ 3) (hturn : s.spindle.state ≠ .stopped) :
    takeLaunch [g, 1] (s.setLink (s.link.received 0x06 [g, 1]))
      = (s.setGroups { s.groups with pending := some (Fin.ofNat 4 g.toNat) }).setLink (s.link.answered 0x06 [g, 1] 0x00 []) := by
  have hgood : ¬(3 < byteAt [g, 1] 0 || 1 < byteAt [g, 1] 1) = true := by simpa [byteAt] using hg
  rw [takeLaunch, if_neg hgood]
  have hindex : launchIndex (Fin.ofNat 4 g.toNat) (s.setLink (s.link.received 0x06 [g, 1]))
      = (s.setGroups { s.groups with pending := some (Fin.ofNat 4 g.toNat) }).setLink (s.link.received 0x06 [g, 1]) :=
    if_neg hturn
  exact (congrArg (reply 0x06 .ok []) hindex).trans (reply_received _ s.link 0x06 _ .ok [] (by decide))

end

theorem takeLaunch_ill {s : State} {g t : Byte} (h : 3 < g.toNat ∨ 1 < t.toNat) :
    takeLaunch [g, t] (s.setLink (s.link.received 0x06 [g, t])) = s.setLink (s.link.answered 0x06 [g, t] 0x28 []) := by
  rw [takeLaunch, if_pos (by simpa [byteAt] using h)]
  exact reply_received s s.link 0x06 _ .range [] (by decide)

/-- Settles O6: the launch is the change of the active group, and by the counters the command of the incident under the new group. -/
theorem launchRequests : Obligations.LaunchRequests := by
  unfold Obligations.LaunchRequests
  intro s g t hs h
  refine ⟨fun hill => ⟨done_request hs h rfl (takeLaunch_ill hill) (by exact hs.1), done_request hs h rfl (takeLaunch_ill hill) (by exact hs.1)⟩,
    fun hg _ => ?_⟩
  intro id r c switches fe off lost now stopped
  have hact (b : Option GroupId) : activeId { s.groups with base := id, pending := b } ≠ activeId s.groups ↔ switches = true := by
    simp only [activeId, switches, decide_eq_true_eq]
    cases s.groups.shockMode <;> simp
  have hrec (b : Option GroupId) (hsw : switches = true) : s.groups.recs[activeId { s.groups with base := id, pending := b }] = r := by
    have hmode : s.groups.shockMode = false := (of_decide_eq_true hsw).1
    simp [activeId, hmode, r]
  have hoff (b : Option GroupId) : off = true ↔ s.offOnSwitch { s.groups with base := id, pending := b } := by
    simp only [State.offOnSwitch, hact, off, decide_eq_true_eq]
    exact and_congr_right fun hsw => by rw [hrec b hsw]
  have hlost (b : Option GroupId) : lost = true ↔ s.lostOnSwitch { s.groups with base := id, pending := b } := by
    simp only [State.lostOnSwitch, hact, lost, decide_eq_true_eq]
    exact and_congr_right fun hsw => by rw [hrec b hsw]
  have hfe (b : Option GroupId) : s.underGroups { s.groups with base := id, pending := b }
      = (s.setGroups { s.groups with base := id, pending := b }).setFe fe := by
    unfold State.underGroups
    by_cases hsw : switches = true
    · rw [if_neg ((hact b).mpr hsw)]
      simp only [hrec b hsw, fe, if_pos hsw]
      rfl
    · rw [if_pos (not_not.mp (mt (hact b).mp hsw))]
      simp only [fe, if_neg hsw]
  have hnow (hone : (off && lost) = false) : exec (.launchNow [g, 0]) s = .next (settle (now.raises off lost)) := by
    refine done_request_settle hs h rfl ((takeLaunch_now hg hs.1.1 hone (hoff none) (hlost none)).trans ?_)
    rw [hfe none]
  have hstopped (hone : (off && lost) = false) (hstop : s.spindle.state = .stopped) :
      exec (.launchIndex [g, 1]) s = .next (settle (stopped.raises off lost)) := by
    refine done_request_settle hs h rfl
      ((takeLaunch_stopped hg hs.1.1 hone hstop (hoff s.groups.pending) (hlost s.groups.pending)).trans ?_)
    exact congrArg (fun u : State => (u.setLink _).raises off lost) (hfe s.groups.pending)
  have hheld : now.held = false ∧ stopped.held = false := ⟨hs.2, hs.2⟩
  refine ⟨fun ho hl => ?_, fun ho hl => ?_, fun ho hl => ?_, fun hturn => ?_⟩
  · rw [ho, hl] at hnow hstopped
    refine ⟨(hnow rfl).trans (congrArg _ (settle_of_atRest (by exact hs.1))), fun hstop => ?_⟩
    exact (hstopped rfl hstop).trans (congrArg _ (settle_of_atRest (by exact hs.1)))
  · rw [ho, hl] at hnow hstopped
    exact ⟨(hnow rfl).trans (settle_raises_off hheld.1).symm, fun hstop => (hstopped rfl hstop).trans (settle_raises_off hheld.2).symm⟩
  · rw [ho, hl] at hnow hstopped
    exact ⟨(hnow rfl).trans (settle_raises_lost hheld.1).symm, fun hstop => (hstopped rfl hstop).trans (settle_raises_lost hheld.2).symm⟩
  · exact done_request hs h rfl (takeLaunch_pending hg hturn) (by exact hs.1)

end Sys2Proof.Machine
end

