-- ==== Sys2Proof/Proofs/Requests/Zones.lean ====
section
/-! SUPPORT. The requests to the Zone Table: ZONE SET and ZONE LIMIT (R117 to R120). -/

namespace Sys2Proof.Machine

/-! ## The Zone Table law by index (R117) -/

/-- The test of a table: its first zone begins at block 0, each zone begins above the one before it, none above the last block. -/
theorem zonesLawful_iff (zs : List Zone) (last : Nat) : zonesLawful zs last = true ↔
    (∃ y, zs[0]? = some y ∧ y.first = 0) ∧ zs.length ≤ 16
      ∧ (∀ (i : Nat) (x y : Zone), zs[i]? = some x → zs[i + 1]? = some y → x.first < y.first)
      ∧ (∀ (i : Nat) (x : Zone), zs[i]? = some x → x.first ≤ last) := by
  have hhead : zs.head?.map (·.first) = some 0 ↔ ∃ y, zs[0]? = some y ∧ y.first = 0 := by
    rw [List.head?_eq_getElem?, Option.map_eq_some_iff]
  have horder : (∀ p ∈ zs.zip zs.tail, p.1.first < p.2.first)
      ↔ ∀ i x y, zs[i]? = some x → zs[i + 1]? = some y → x.first < y.first := by
    constructor
    · intro h i x y hx hy
      refine h (x, y) (List.mem_iff_getElem?.mpr ⟨i, ?_⟩)
      rw [List.getElem?_zip_eq_some, List.getElem?_tail]
      exact ⟨hx, hy⟩
    · intro h p hp
      obtain ⟨i, hi⟩ := List.mem_iff_getElem?.mp hp
      rw [List.getElem?_zip_eq_some, List.getElem?_tail] at hi
      exact h i p.1 p.2 hi.1 hi.2
  have hlast : (∀ z ∈ zs, z.first ≤ last) ↔ ∀ (i : Nat) (x : Zone), zs[i]? = some x → x.first ≤ last := by
    simp only [List.mem_iff_getElem?, forall_exists_index]
    exact forall_comm
  simp only [zonesLawful, Bool.and_eq_true, decide_eq_true_eq, List.all_eq_true, and_assoc]
  rw [hhead, horder, hlast]

/-- A lawful Zone Table passes the test. -/
theorem zonesLawful_of_zoneLaw {x : Seek} (h : zoneLaw x) : zonesLawful x.zones x.lastBlock = true := by
  obtain ⟨_, hlen, hhead, hpair, hrange, _, _⟩ := h
  refine (zonesLawful_iff _ _).mpr ⟨?_, hlen, fun i y z hy hz => ?_, fun i y hy => (hrange y (List.mem_of_getElem? hy)).1⟩
  · rw [List.head?_eq_getElem?, List.getElem?_map, Option.map_eq_some_iff] at hhead
    exact hhead
  · obtain ⟨hi, rfl⟩ := List.getElem?_eq_some_iff.mp hy
    obtain ⟨hj, rfl⟩ := List.getElem?_eq_some_iff.mp hz
    have := List.pairwise_iff_getElem.mp hpair i (i + 1) (by simpa using hi) (by simpa using hj) (by omega)
    simpa using this

theorem getElem?_writeZone {zs : List Zone} {z : Nat} (hz : z ≤ zs.length) (r : Zone) (i : Nat) :
    (writeZone zs z r)[i]? = if i = z then some r else zs[i]? := by
  unfold writeZone
  split
  · rename_i hlt
    rw [List.getElem?_set]
    by_cases hi : i = z
    · subst hi
      simp [hlt]
    · simp [hi, Ne.symm hi]
  · rename_i hnlt
    have hzl : z = zs.length := by omega
    subst hzl
    by_cases hi : i = zs.length
    · simp [hi]
    · rw [if_neg hi]
      rcases Nat.lt_or_gt_of_ne hi with hlt | hgt
      · exact List.getElem?_append_left hlt
      · rw [List.getElem?_eq_none (by simpa using hgt), List.getElem?_eq_none (by omega)]

theorem length_writeZone {zs : List Zone} {z : Nat} (hz : z ≤ zs.length) (r : Zone) :
    (writeZone zs z r).length = max zs.length (z + 1) := by
  unfold writeZone
  split
  · rw [List.length_set]; omega
  · rw [List.length_append, List.length_singleton]; omega

/-- A write keeps the law exactly where its first block stands between those beside it, at 0 in zone 0, up to the last block (R118). -/
theorem zonesLawful_writeZone {x : Seek} (h : zoneLaw x) {z : Nat} (hz : z ≤ x.zones.length) (hz16 : z < 16) (r : Zone) :
    zonesLawful (writeZone x.zones z r) x.lastBlock = true ↔
      ¬((z = 0 ∧ r.first ≠ 0) ∨ (1 ≤ z ∧ ∃ y, x.zones[z - 1]? = some y ∧ r.first ≤ y.first)
        ∨ (∃ y, x.zones[z + 1]? = some y ∧ y.first ≤ r.first) ∨ x.lastBlock < r.first) := by
  obtain ⟨hhead, hlen, horder, hlast⟩ := (zonesLawful_iff _ _).mp (zonesLawful_of_zoneLaw h)
  simp only [zonesLawful_iff, getElem?_writeZone hz, length_writeZone hz]
  constructor
  · rintro ⟨hhead', _, horder', hlast'⟩ (⟨rfl, hne⟩ | ⟨hpos, y, hy, hle⟩ | ⟨y, hy, hle⟩ | hgt)
    · obtain ⟨y, hy, hzero⟩ := hhead'
      rw [if_pos rfl, Option.some.injEq] at hy
      exact hne (hy ▸ hzero)
    · have := horder' (z - 1) y r (by rw [if_neg (by omega)]; exact hy) (if_pos (by omega))
      omega
    · have := horder' z r y (if_pos rfl) (by rw [if_neg (by omega)]; exact hy)
      omega
    · have := hlast' z r (if_pos rfl)
      omega
  · intro hok
    simp only [not_or, not_and, not_exists, not_lt, not_le, not_not] at hok
    obtain ⟨hzero, hprev, hnext, hle⟩ := hok
    refine ⟨?_, by omega, fun i a b ha hb => ?_, fun i a ha => ?_⟩
    · by_cases hz0 : z = 0
      · exact ⟨r, if_pos hz0.symm, hzero hz0⟩
      · obtain ⟨y, hy, hy0⟩ := hhead
        exact ⟨y, by rw [if_neg (Ne.symm hz0)]; exact hy, hy0⟩
    · by_cases hi : i = z
      · subst hi
        rw [if_pos rfl, Option.some.injEq] at ha
        rw [if_neg (by omega)] at hb
        exact ha ▸ hnext b hb
      · rw [if_neg hi] at ha
        by_cases hj : i + 1 = z
        · subst hj
          rw [if_pos rfl, Option.some.injEq] at hb
          exact hb ▸ hprev (by omega) a ha
        · rw [if_neg hj] at hb
          exact horder i a b ha hb
    · by_cases hi : i = z
      · rw [if_pos hi, Option.some.injEq] at ha
        exact ha ▸ hle
      · rw [if_neg hi] at ha
        exact hlast i a ha

/-! ## ZONE SET (R118) -/

/-- A changed table with its reply. -/
theorem reply_setZones (s : State) (kind : Nat) (p : List Byte) (zones : List Zone) (last : Nat) (st : Status) (out : List Byte)
    (hk : kind < 128) :
    reply kind st out (setZones zones last (s.setLink (s.link.received kind p)))
      = (setZones zones last s).setLink (s.link.answered kind p st.code out) :=
  reply_received (setZones zones last s) s.link kind p st out hk

/-- The Zone Table has no part in whether a machine is at rest. -/
theorem atRest_setZones {s : State} (h : s.atRest) (zones : List Zone) (last : Nat) (l : Link) :
    ((setZones zones last s).setLink l).atRest := h

/-- Settles O8. -/
theorem zoneSetRequests : Obligations.ZoneSetRequests := by
  unfold Obligations.ZoneSetRequests
  intro s z f b t hs h hlaw hf hb ht p f' b' t'
  have hlen : s.seek.zones.length ≤ 16 := hlaw.2.1
  have htake : takeZoneSet p (s.setLink (s.link.received 0x08 p)) = zoneSet z.toNat ⟨f, b, t⟩ (s.setLink (s.link.received 0x08 p)) := by
    rw [takeZoneSet, if_neg (by simp [p, be3, be2])]
    have h1 : fieldAt p 1 3 = f := beNat_be3 hf
    have h2 : fieldAt p 4 2 = b := beNat_be2 hb
    have h3 : fieldAt p 6 2 = t := beNat_be2 ht
    rw [h1, h2, h3]
    rfl
  have hclamp : clampZone ⟨f, b, t⟩ = ⟨f', b', t'⟩ := by
    simp only [clampZone, satNat, maxBlock, f', b', t', Zone.mk.injEq]
    omega
  have hroom (hz : z.toNat ≤ s.seek.zones.length) (hz16 : z.toNat < 16) :
      ¬((s.setLink (s.link.received 0x08 p)).seek.zones.length < z.toNat || 16 ≤ z.toNat) = true := by
    simp only [Bool.or_eq_true, decide_eq_true_eq, not_or, not_lt, not_le]
    exact ⟨hz, hz16⟩
  refine ⟨fun r hr => ?_, fun hnone => ?_, fun hbad => ?_, fun hz hz16 => ⟨fun hbad => ?_, fun hok => ?_⟩⟩
  · refine done_request hs h rfl ?_ (by exact hs.1)
    have hr' : (s.setLink (s.link.received 0x08 [z])).seek.zones[byteAt [z] 0]? = some r := hr
    rw [handOver, takeZoneSet, if_pos (by rfl)]
    simp only [hr']
    refine (reply_received s s.link 0x08 [z] .ok _ (by decide)).trans ?_
    rw [zonePayload, show byteAt [z] 0 = z.toNat from rfl, byte_byte_toNat]
    rfl
  · refine done_request hs h rfl ?_ (by exact hs.1)
    have hr' : (s.setLink (s.link.received 0x08 [z])).seek.zones[byteAt [z] 0]? = none := List.getElem?_eq_none hnone
    rw [handOver, takeZoneSet, if_pos (by rfl)]
    simp only [hr']
    exact reply_received s s.link 0x08 [z] .range [] (by decide)
  · refine done_request hs h rfl (htake.trans ?_) (by exact hs.1)
    rw [zoneSet, if_pos (by
      simp only [Bool.or_eq_true, decide_eq_true_eq]
      exact hbad.imp_right Eq.ge)]
    exact reply_received s s.link 0x08 p .range [] (by decide)
  · refine done_request hs h rfl (htake.trans ?_) (by exact hs.1)
    have hnot := mt (zonesLawful_writeZone hlaw hz hz16 ⟨f', b', t'⟩).mp (not_not.mpr hbad)
    rw [zoneSet, if_neg (hroom hz hz16), hclamp]
    dsimp only
    rw [if_neg (by exact hnot)]
    exact reply_received s s.link 0x08 p .inconsistent [] (by decide)
  · have hlawful := (zonesLawful_writeZone hlaw hz hz16 ⟨f', b', t'⟩).mpr hok
    have hwrite : writeZone s.seek.zones z.toNat ⟨f', b', t'⟩ =
        if z.toNat = s.seek.zones.length then s.seek.zones ++ [⟨f', b', t'⟩] else s.seek.zones.set z.toNat ⟨f', b', t'⟩ := by
      unfold writeZone
      by_cases he : z.toNat = s.seek.zones.length
      · rw [if_pos he, if_neg (by omega)]
      · rw [if_neg he, if_pos (by omega)]
    have hst : (okOrClamped (decide ((⟨f', b', t'⟩ : Zone) ≠ ⟨f, b, t⟩))).code = if f' = f ∧ b' = b ∧ t' = t then 0x00 else 0x03 := by
      by_cases he : f' = f ∧ b' = b ∧ t' = t
      · rw [if_pos he]
        simp [okOrClamped, he, Status.code]
      · rw [if_neg he]
        simp [okOrClamped, he, Status.code]
    intro zones x0 x
    refine done_request hs h rfl (htake.trans ?_) (atRest_setZones hs.1 zones s.seek.lastBlock _)
    rw [zoneSet, if_neg (hroom hz hz16), hclamp]
    dsimp only
    rw [if_pos (by exact hlawful)]
    refine (reply_setZones s 0x08 p _ _ _ _ (by decide)).trans ?_
    rw [hst, zonePayload, byte_byte_toNat, setLink_seek, hwrite]
    rfl

/-! ## ZONE LIMIT (R119) -/

/-- Settles O9. -/
theorem zoneLimitRequests : Obligations.ZoneLimitRequests := by
  unfold Obligations.ZoneLimitRequests
  intro s n last hs h hlaw hlast p count last' kept
  have hlen : 1 ≤ s.seek.zones.length := hlaw.1
  have hcount : min s.seek.zones.length (max 1 n.toNat) = count := min_comm _ _
  have hlast' : min maxBlock last = last' := min_comm _ _
  have htake : takeZoneLimit p (s.setLink (s.link.received 0x09 p)) = zoneLimit n.toNat last (s.setLink (s.link.received 0x09 p)) := by
    have h1 : fieldAt p 1 3 = last := beNat_be3 hlast
    rw [takeZoneLimit, if_neg (by exact List.cons_ne_nil _ _), h1]
    rfl
  refine ⟨?_, fun hbad => ?_, fun hok => ?_⟩
  · exact done_request hs h rfl (reply_received s s.link 0x09 [] .ok _ (by decide)) (by exact hs.1)
  · refine done_request hs h rfl (htake.trans ?_) (by exact hs.1)
    have hnot : ¬ kept.all (fun z => z.first ≤ last') = true := by
      simp only [List.all_eq_true, decide_eq_true_eq, not_forall, not_le]
      obtain ⟨y, hy, hlt⟩ := hbad
      exact ⟨y, hy, hlt⟩
    simp only [zoneLimit, setLink_seek, hcount, hlast']
    rw [if_neg (by exact hnot)]
    exact reply_received s s.link 0x09 p .inconsistent [] (by decide)
  · have hall : kept.all (fun z => z.first ≤ last') = true := by
      simp only [List.all_eq_true, decide_eq_true_eq]
      exact hok
    have hst : (okOrClamped (decide (count ≠ n.toNat) || decide (last' ≠ last))).code = if count = n.toNat ∧ last' = last then 0x00 else 0x03 := by
      by_cases h1 : count = n.toNat <;> by_cases h2 : last' = last <;> simp [okOrClamped, h1, h2, Status.code]
    have hkept : kept.length = count := by
      simp only [kept, count, List.length_take]
      omega
    intro x0 x
    refine done_request hs h rfl (htake.trans ?_) (atRest_setZones hs.1 kept last' _)
    simp only [zoneLimit, setLink_seek, hcount, hlast']
    rw [if_pos (by exact hall)]
    refine (reply_setZones s 0x09 p _ _ _ _ (by decide)).trans ?_
    have hpay : limitPayload (setZones kept last' (s.setLink (s.link.received 0x09 p))) = byte count :: be3 last' := by
      rw [← hkept]
      rfl
    rw [hst, hpay]
    rfl

end Sys2Proof.Machine
end

