-- ==== Sys2Proof/Proofs/DefectTable.lean ====
section
/-! SUPPORT. The Defect Window Table: its free index, the index an eviction frees, and the armed flag, each said by what the table holds
(R65, R66, R69). -/

namespace Sys2Proof.Machine

/-! ## The armed flag (R66) -/

theorem inSpan_iff (first : Fin 64) (span : Nat) (b : Fin 64) : inSpan first span b = true ↔ binOf first span b := by
  simp only [inSpan, binOf, decide_eq_true_eq, Fin.val_sub]
  rw [show 64 - first.val + b.val = b.val + 64 - first.val by omega]

theorem covers_iff (d : Defect) (b : Fin 64) (tp : Nat) :
    d.covers b tp = true ↔ binOf d.first d.span b ∧ d.inner ≤ tp ∧ tp ≤ d.outer := by
  simp only [Defect.covers, Defect.inRange, Bool.and_eq_true, decide_eq_true_eq, inSpan_iff]

/-- A table of 32 entries holds what its list holds. -/
theorem mem_entries_iff {entries : Vector (Option Defect) 32} {d : Option Defect} :
    d ∈ entries.toList ↔ ∃ i : Fin 32, entries[i] = d := by
  rw [Vector.mem_toList_iff, Vector.mem_iff_getElem]
  exact ⟨fun ⟨i, hi, h⟩ => ⟨⟨i, hi⟩, h⟩, fun ⟨i, h⟩ => ⟨i.val, i.isLt, h⟩⟩

/-- The flag is set where some entry covers the pickup. -/
theorem armed_arm_iff (t : DefectTable) (b : Fin 64) (tp : Nat) :
    (t.arm b tp).armed = true ↔ covered t.entries b tp := by
  simp only [DefectTable.arm, List.any_eq_true, mem_entries_iff, covered]
  constructor
  · rintro ⟨d, ⟨i, hi⟩, hd⟩
    cases d with
    | none => exact absurd hd Bool.false_ne_true
    | some x => exact ⟨i, x, hi, (covers_iff x b tp).mp hd⟩
  · rintro ⟨i, d, hi, hd⟩
    exact ⟨some d, ⟨i, hi⟩, (covers_iff d b tp).mpr hd⟩

/-! ## The lowest free index (R65) -/

theorem firstIndex_eq_none_iff {α : Type} (test : α → Bool) (l : List α) (n : Nat) :
    firstIndex test l n = none ↔ ∀ x ∈ l, test x = false := by
  rcases firstIndex_cases test l n with ⟨h, hall⟩ | ⟨k, h, hk, ht, _⟩
  · exact ⟨fun _ => hall, fun _ => h⟩
  · refine ⟨fun hn => absurd (h.symm.trans hn) (by simp), fun hall => ?_⟩
    exact absurd (ht.symm.trans (hall _ (List.getElem_mem hk))) (by decide)

/-- The index found is the first that meets the test. -/
theorem firstIndex_eq_some {α : Type} {test : α → Bool} {l : List α} {n k : Nat} (hk : k < l.length) (ht : test l[k] = true)
    (hmin : ∀ j, ∀ hj : j < k, test (l[j]'(by omega)) = false) : firstIndex test l n = some (n + k) := by
  rcases firstIndex_cases test l n with ⟨_, hall⟩ | ⟨m, h, hm, htm, hminm⟩
  · exact absurd (ht.symm.trans (hall _ (List.getElem_mem hk))) (by decide)
  · rcases Nat.lt_trichotomy m k with hlt | heq | hgt
    · exact absurd (htm.symm.trans (hmin m hlt)) (by decide)
    · exact heq ▸ h
    · exact absurd (ht.symm.trans (hminm k hgt)) (by decide)

theorem freeIndex_eq_some {t : DefectTable} {i : Fin 32} (hi : t.entries[i] = none)
    (hmin : ∀ j : Fin 32, j < i → t.entries[j] ≠ none) : t.freeIndex = some i.val := by
  rw [DefectTable.freeIndex, firstIndex_eq_some (k := i.val) (by simp) (by simpa using hi), Nat.zero_add]
  intro j hj
  have := hmin ⟨j, by omega⟩ hj
  simpa [← Option.ne_none_iff_isSome] using this

theorem freeIndex_eq_none {t : DefectTable} (h : ∀ j : Fin 32, t.entries[j] ≠ none) : t.freeIndex = none := by
  refine (firstIndex_eq_none_iff _ _ _).mpr fun d hd => ?_
  obtain ⟨i, rfl⟩ := mem_entries_iff.mp hd
  simpa [← Option.ne_none_iff_isSome] using h i

/-! ## The index an eviction frees (R69) -/

/-- A candidate that no LEARNED entry undercuts stays. -/
theorem weakest_of_best {l : List (Option Defect)} {b : Nat × Nat}
    (h : ∀ x, some x ∈ l → x.origin = .learned → b.2 ≤ x.hits) (n : Nat) : weakest l n (some b) = some b := by
  induction l generalizing n with
  | nil => rfl
  | cons d ds ih =>
    have hds := fun x hx => h x (List.mem_cons_of_mem d hx)
    cases d with
    | none => exact ih hds (n + 1)
    | some x =>
      have hx : ¬(decide (x.origin = .learned) && decide (x.hits < b.2)) = true := by
        simp only [Bool.and_eq_true, decide_eq_true_eq, not_and, not_lt]
        exact h x List.mem_cons_self
      rw [weakest, if_neg hx]
      exact ih hds (n + 1)

/-- With no LEARNED entry there is none to evict. -/
theorem weakest_of_no_learned {l : List (Option Defect)} (h : ∀ x, some x ∈ l → x.origin ≠ .learned) (n : Nat) :
    weakest l n none = none := by
  induction l generalizing n with
  | nil => rfl
  | cons d ds ih =>
    have hds := fun x hx => h x (List.mem_cons_of_mem d hx)
    cases d with
    | none => exact ih hds (n + 1)
    | some x =>
      rw [weakest, if_neg (h x List.mem_cons_self)]
      exact ih hds (n + 1)

/-- The LEARNED entry below all before it and not above any behind it is the one found. -/
theorem weakest_of_split {before after : List (Option Defect)} {y : Defect} (hy : y.origin = .learned)
    (hbefore : ∀ x, some x ∈ before → x.origin = .learned → y.hits < x.hits)
    (hafter : ∀ x, some x ∈ after → x.origin = .learned → y.hits ≤ x.hits) (n : Nat) (best : Option (Nat × Nat))
    (hbest : ∀ b, best = some b → y.hits < b.2) :
    weakest (before ++ some y :: after) n best = some (n + before.length, y.hits) := by
  induction before generalizing n best with
  | nil =>
    have htake : weakest (some y :: after) n best = weakest after (n + 1) (some (n, y.hits)) := by
      cases best with
      | none => simp only [weakest, hy, if_true]
      | some b => simp only [weakest, hy, hbest b rfl, decide_true, Bool.and_self, if_true]
    exact htake.trans (weakest_of_best hafter (n + 1))
  | cons d ds ih =>
    have hds := fun x hx => hbefore x (List.mem_cons_of_mem d hx)
    rw [List.cons_append, weakest.eq_def]
    dsimp only
    rw [List.length_cons, show n + (ds.length + 1) = n + 1 + ds.length by omega]
    refine ih hds (n + 1) _ fun b hb => ?_
    cases d with
    | none => exact hbest b hb
    | some x =>
      have hx := hbefore x List.mem_cons_self
      cases best with
      | none =>
        dsimp only at hb
        split at hb
        · rename_i hl
          cases hb
          exact hx hl
        · cases hb
      | some c =>
        dsimp only at hb
        split at hb
        · rename_i hl
          cases hb
          simp only [Bool.and_eq_true, decide_eq_true_eq] at hl
          exact hx hl.1
        · exact hbest b hb

theorem evictIndex_eq_some {t : DefectTable} {i : Fin 32} {y : Defect} (hi : t.entries[i] = some y) (hy : y.origin = .learned)
    (hmin : ∀ j : Fin 32, ∀ x, t.entries[j] = some x → x.origin = .learned → y.hits < x.hits ∨ (y.hits = x.hits ∧ i ≤ j)) :
    t.evictIndex = some i.val := by
  have hlen : i.val < t.entries.toList.length := by simp
  have hget : t.entries.toList[i.val] = some y := by simpa using hi
  have hsplit : t.entries.toList = t.entries.toList.take i.val ++ some y :: t.entries.toList.drop (i.val + 1) := by
    rw [← hget, List.getElem_cons_drop, List.take_append_drop]
  rw [DefectTable.evictIndex, hsplit, weakest_of_split hy (fun x hx hl => ?_) (fun x hx hl => ?_) 0 none nofun]
  · simp
  · obtain ⟨j, hj, hjx⟩ := List.mem_take_iff_getElem.mp hx
    have hj' : j < 32 ∧ j < i.val := by simp at hj; omega
    rcases hmin ⟨j, hj'.1⟩ x (by simpa using hjx) hl with h | ⟨_, h⟩
    · exact h
    · exact absurd h (by rw [not_le]; exact hj'.2)
  · obtain ⟨j, hjx⟩ := mem_entries_iff.mp (List.mem_of_mem_drop hx)
    rcases hmin j x hjx hl with h | ⟨h, _⟩
    · exact h.le
    · exact h.le

theorem evictIndex_eq_none {t : DefectTable} (h : ∀ j : Fin 32, ∀ x, t.entries[j] = some x → x.origin ≠ .learned) :
    t.evictIndex = none := by
  rw [DefectTable.evictIndex, weakest_of_no_learned fun x hx => ?_]
  · rfl
  · obtain ⟨j, hj⟩ := mem_entries_iff.mp hx
    exact h j x hj

/-- A write to an index of the table. -/
theorem put_entries (t : DefectTable) (i : Fin 32) (d : Option Defect) : t.put i.val d = { t with entries := t.entries.set i d } := by
  refine congrArg (fun e => { t with entries := e }) (Vector.ext fun j hj => ?_)
  simp only [Vector.getElem_setIfInBounds, Vector.getElem_set]

end Sys2Proof.Machine
end

