-- ==== Sys2Proof/Proofs/Requests/DiscTables.lean ====
section
/-! SUPPORT. The requests to the disc tables: TABLE READ, DEFECT READ, DEFECT ADD and DEFECT CLEAR (R34, R72 to R74). -/

namespace Sys2Proof.Machine

/-! ## TABLE READ and DEFECT READ (R34, R74, R207) -/

/-- Two 12-bit values in three bytes are one 24-bit value. -/
theorem feedforwardBytes_eq (r : RevRecord) :
    feedforwardBytes r = be3 ((r.trkFf % 4096).toNat * 4096 + (r.focFf % 4096).toNat) := by
  have hbyte {a b : Nat} (h : a % 256 = b % 256) : byte a = byte b := by
    apply BitVec.eq_of_toNat_eq
    simpa [byte] using h
  have hf : (r.focFf % 4096).toNat < 4096 := by omega
  simp only [feedforwardBytes, be3, List.cons.injEq, and_true]
  exact ⟨hbyte (by omega), hbyte (by omega), hbyte (by omega)⟩

theorem defectBytes_eq (d : Option Defect) : defectBytes d =
    match d with
    | none => [0x80, 0, 0, 0, 0, 0, 0, 0, 0, 0]
    | some d =>
      byte (64 * d.origin.code + d.first.val) :: (be2 (4096 * (d.span - 1) + d.depth.getD 0)
        ++ be3 (8388608 * flag d.depth.isNone + d.inner) ++ be3 d.outer ++ [byte d.hits]) := by
  cases d with
  | none => rfl
  | some d =>
    simp only [defectBytes, Nat.mul_comm d.origin.code, Nat.mul_comm (d.span - 1), Nat.mul_comm (flag d.depth.isNone)]
    rfl

/-- Settles O11. -/
theorem tableAndDefectReads : Obligations.TableAndDefectReads := by
  unfold Obligations.TableAndDefectReads
  intro s f n hs h
  refine ⟨?_, ?_⟩
  · refine done_request hs h rfl ?_ (by exact hs.1)
    rw [handOver, takeTableRead, adjustRead_eq]
    dsimp only
    rw [← adjustStatus_code]
    simp only [← feedforwardBytes_eq, Vector.getElem?_toList, ← List.flatMap_def]
    exact reply_received s s.link 0x0A _ _ _ (by decide)
  · refine done_request hs h rfl ?_ (by exact hs.1)
    rw [handOver, takeDefectRead, adjustRead_eq]
    dsimp only
    rw [← adjustStatus_code]
    refine (reply_received s s.link 0x0C _ _ _ (by decide)).trans ?_
    simp only [defectValues, defectBytes_eq, DefectTable.entry, Vector.getElem?_toList, ← List.flatMap_def]
    rfl

/-! ## DEFECT ADD (R69, R72) -/

/-- An entry written to an index and the table armed again: what the statements call the armed flag. -/
theorem arm_put (t : DefectTable) (i : Fin 32) (d : Option Defect) (b : Fin 64) (tp : Nat) :
    ((t.put i.val d).arm b tp) = ⟨t.entries.set i d, ((t.put i.val d).arm b tp).armed⟩
      ∧ (((t.put i.val d).arm b tp).armed = true ↔ covered (t.entries.set i d) b tp) := by
  have hput := put_entries t i d
  refine ⟨?_, (armed_arm_iff _ b tp).trans ?_⟩
  · rw [hput]
    rfl
  · rw [hput]

section
variable {s : State} {p : List Byte} {d : Defect} {st : Status} {out : List Byte}

/-- The link as the owner of the request finds it has no part in where an entry goes. -/
theorem addEntry_free {i : Nat} (l : Link) (hfree : s.defects.freeIndex = some i) :
    addEntry d (s.setLink l) = (some i, (s.setDefects ((s.defects.put i (some d)).arm s.angle.bin s.seek.tpCur)).setLink l) := by
  simp only [addEntry, setLink_defects, hfree]
  rfl

theorem addEntry_evict {i : Nat} (kind : Nat) (hfull : s.defects.freeIndex = none) (hweak : s.defects.evictIndex = some i) :
    addEntry d (s.setLink (s.link.received kind p))
      = (some i, (s.setDefects ((s.defects.put i (some d)).arm s.angle.bin s.seek.tpCur)).setLink
          ((s.link.post .defect [0x01, byte i]).received kind p)) := by
  have hpost := post_received s s.link .defect [0x01, byte i] kind p
  simp only [addEntry, setLink_defects, hfull, hweak]
  exact congrArg (fun u : State => (some i, rearm (u.setDefects (s.defects.put i (some d))))) hpost

theorem addEntry_full (l : Link) (hfull : s.defects.freeIndex = none) (hweak : s.defects.evictIndex = none) :
    addEntry d (s.setLink l) = (none, s.setLink l) := by
  simp only [addEntry, setLink_defects, hfull, hweak]

end

/-- The values of DEFECT ADD, adjusted (R72). -/
theorem adjustAdd_code (f n inner outer : Nat) :
    (okOrClamped (decide (adjustAdd f n inner outer ≠ (f, n, inner, outer)))).code
      = if f ≤ 63 ∧ 1 ≤ n ∧ n ≤ 16 ∧ inner ≤ 4194303 ∧ outer ≤ 4194303 then 0x00 else 0x03 := by
  have hiff : adjustAdd f n inner outer = (f, n, inner, outer)
      ↔ f ≤ 63 ∧ 1 ≤ n ∧ n ≤ 16 ∧ inner ≤ 4194303 ∧ outer ≤ 4194303 := by
    simp only [adjustAdd, satNat, maxBlock, Prod.mk.injEq]
    omega
  simp only [ne_eq, hiff]
  by_cases hok : f ≤ 63 ∧ 1 ≤ n ∧ n ≤ 16 ∧ inner ≤ 4194303 ∧ outer ≤ 4194303
  · simp [hok, okOrClamped, Status.code]
  · simp [hok, okOrClamped, Status.code]

/-! ## DEFECT CLEAR (R73) -/

theorem keptBy_eq (n : Nat) (d : Option Defect) (hn : n ≤ 2) : keptBy n d =
    if n = 2 ∨ (n = 0 ∧ d.map (·.origin) = some .learned) ∨ (n = 1 ∧ d.map (·.origin) = some .host) then none else d := by
  cases d with
  | none => simp [keptBy]
  | some x =>
    have hn' : n = 0 ∨ n = 1 ∨ n = 2 := by omega
    rcases hn' with rfl | rfl | rfl <;> cases ho : x.origin <;> simp [keptBy, ho, Origin.code]

/-- Settles O12. -/
theorem defectWrites : Obligations.DefectWrites := by
  unfold Obligations.DefectWrites
  intro s f n inner outer hs h hin hout p d st
  have htake : takeDefectAdd p = defectAdd f.toNat n.toNat inner outer := by
    have h1 : fieldAt p 2 3 = inner := beNat_be3 hin
    have h2 : fieldAt p 5 3 = outer := beNat_be3 hout
    funext u
    rw [takeDefectAdd, h1, h2]
    rfl
  have hd : hostEntry (adjustAdd f.toNat n.toNat inner outer).1 (adjustAdd f.toNat n.toNat inner outer).2.1
      (adjustAdd f.toNat n.toNat inner outer).2.2.1 (adjustAdd f.toNat n.toNat inner outer).2.2.2 = d := by
    simp only [hostEntry, adjustAdd, satNat, maxBlock, d, min_comm 63, min_comm 16, min_comm 4194303]
  have hst : (okOrClamped (decide (adjustAdd f.toNat n.toNat inner outer ≠ (f.toNat, n.toNat, inner, outer)))).code = st :=
    adjustAdd_code _ _ _ _
  have hrange : (adjustAdd f.toNat n.toNat inner outer).2.2.2 < (adjustAdd f.toNat n.toNat inner outer).2.2.1 ↔ d.outer < d.inner := by
    rw [← hd]
    rfl
  -- the request where a place is found for the entry
  have hplaced {i : Nat} {u : State} {l : Link} (hle : d.inner ≤ d.outer)
      (hadd : addEntry d (s.setLink (s.link.received 0x0D p)) = (some i, u.setLink (l.received 0x0D p))) (hu : u.atRest) :
      exec (.defectAdd p) s = .next (u.setLink (l.answered 0x0D p st [byte i])) := by
    refine done_request hs h rfl ?_ (by exact hu)
    rw [handOver, htake, defectAdd]
    dsimp only
    rw [if_neg (mt hrange.mp (not_lt.mpr hle)), hd, hadd, ← hst]
    exact reply_received u l 0x0D p _ _ (by decide)
  refine ⟨fun hlt => ?_, fun hle => ⟨fun i hi hmin => ?_, fun hall => ?_, fun i hfull y hy hl hmin => ?_⟩, fun hbad => ?_, fun hsel => ?_⟩
  · refine done_request hs h rfl ?_ (by exact hs.1)
    rw [handOver, htake, defectAdd]
    dsimp only
    rw [if_pos (hrange.mpr hlt)]
    exact reply_received s s.link 0x0D p .inconsistent [] (by decide)
  · obtain ⟨harm, hcov⟩ := arm_put s.defects i (some d) s.angle.bin s.seek.tpCur
    refine ⟨_, ?_, hcov⟩
    rw [← harm]
    exact hplaced hle (addEntry_free _ (freeIndex_eq_some hi hmin)) hs.1
  · refine done_request hs h rfl ?_ (by exact hs.1)
    rw [handOver, htake, defectAdd]
    dsimp only
    rw [if_neg (mt hrange.mp (not_lt.mpr hle)), addEntry_full _ (freeIndex_eq_none fun j hj => ?_) (evictIndex_eq_none fun j x hj => ?_)]
    · exact reply_received s s.link 0x0D p .tableFull [] (by decide)
    · obtain ⟨x, hx, _⟩ := hall j
      exact absurd (hj.symm.trans hx) nofun
    · obtain ⟨y, hy, ho⟩ := hall j
      rw [hj, Option.some.injEq] at hy
      rw [hy, ho]
      decide
  · obtain ⟨harm, hcov⟩ := arm_put s.defects i (some d) s.angle.bin s.seek.tpCur
    refine ⟨_, ?_, hcov⟩
    rw [← harm]
    exact hplaced hle (addEntry_evict 0x0D (freeIndex_eq_none hfull) (evictIndex_eq_some hy hl hmin)) hs.1
  · refine done_request hs h rfl ?_ (by exact hs.1)
    rw [handOver, takeDefectClear]
    dsimp only
    rw [if_pos (by exact hbad)]
    exact reply_received s s.link 0x0E _ .range [] (by decide)
  · let kept : DefectTable := { s.defects with entries := mapTable (keptBy f.toNat) s.defects.entries }
    refine ⟨(s.setDefects (kept.arm s.angle.bin s.seek.tpCur)).setLink (s.link.answered 0x0E [f] 0x00 []), ?_, rfl, fun i => ?_, ?_⟩
    · refine done_request hs h rfl ?_ (by exact hs.1)
      rw [handOver, takeDefectClear]
      dsimp only
      rw [if_neg (by exact not_lt.mpr hsel)]
      exact reply_received (s.setDefects (kept.arm s.angle.bin s.seek.tpCur)) s.link 0x0E _ .ok [] (by decide)
    · have hget : (mapTable (keptBy f.toNat) s.defects.entries)[i] = keptBy f.toNat s.defects.entries[i] :=
        mapTable_getElem _ _ _ _
      exact hget.trans (keptBy_eq f.toNat _ hsel)
    · exact armed_arm_iff kept _ _

end Sys2Proof.Machine
end

