-- ==== Sys2Proof/Proofs/Link/Writes.lean ====
section
/-! SUPPORT. Write transfers byte by byte: which bytes are stored and acknowledged, and what a transfer leaves behind when it ends (R190 to
R193). -/

namespace Sys2Proof.Machine

/-! ## The end of a command that touches the link alone -/

theorem ownAddress_eq (s : State) : s.targetAddress = if s.sup.addrHigh then 0x2D else 0x2C := rfl

/-- The kind of the reply to a record (R193). -/
theorem replyKind_byte (k : Byte) : replyKind (byte k.toNat) = if k.toNat < 128 then k + 128 else k := by
  rw [byte_byte_toNat]
  rfl

/-! ## A complete record that is not taken (R193) -/

section
variable {s : State} {k c : Byte} {p : List Byte}

/-- A complete record on a ready link, by its check byte, its kind and its length. -/
theorem writeRecord_tested (h : s.linkReady) (hp : p.length ≤ 24) :
    writeRecord (k :: byte p.length :: (p ++ [c])) s =
      let u := s.setLink { s.link with
          rx := .write, buffer := k :: byte p.length :: (p ++ [c]), acks := List.replicate (p.length + 4) true }
      if byteSum (k :: byte p.length :: (p ++ [c])) ≠ 0 then reply k.toNat .check [] u
      else if k.toNat = 0 || 0x1C < k.toNat then reply k.toNat .unknown [] u
      else if !lengthAllowed k.toNat p then reply k.toNat .length [] u
      else handOver k.toNat p u := by
  have hl : (byte p.length).toNat = p.length := byte_toNat (by omega)
  rw [writeRecord_ready h (by omega) (by simp [hl])]
  have hpay : ((k :: byte p.length :: (p ++ [c])).drop 2).take (byteAt (k :: byte p.length :: (p ++ [c])) 1) = p := by
    simp [byteAt, hl]
  rw [takeRecord, hpay]
  simp only [List.length_append, List.length_singleton]
  rfl

/-- The answer of the statement. -/
theorem reply_record (st : Status) :
    reply k.toNat st [] (s.setLink { s.link with
          rx := .write, buffer := k :: byte p.length :: (p ++ [c]), acks := List.replicate (p.length + 4) true })
      = s.setLink { s.link with
          rx := .write, buffer := k :: byte p.length :: (p ++ [c])
          reply := some ⟨if k.toNat < 128 then k + 128 else k, byte st.code, []⟩
          pulse := decide (s.link.attnMode = .pulse), acks := List.replicate (p.length + 4) true } := by
  simp only [reply, Link.place, Link.startPulse, replyKind_byte, setLink_link, setLink_setLink]
  rfl

end

/-- Settles O50. -/
theorem badRecordsAreAnswered : Obligations.BadRecordsAreAnswered := by
  unfold Obligations.BadRecordsAreAnswered
  intro s k c p hs hrx hp record sum answers
  have htested (hr : s.link.reply = none) := writeRecord_tested (k := k) (c := c) ⟨hrx, hr⟩ hp
  refine ⟨fun hr => ?_, fun hr hsum => ?_, fun hr hsum hk => ?_, fun hr hsum h1 h2 hal => ?_⟩
  · refine done_of_setLink hs ((writeRecord_occupied hr record).trans ?_)
    rw [Link.endTransfer, hrx]
  · refine done_of_setLink hs ((htested hr).trans ?_)
    dsimp only
    rw [if_pos (by exact hsum)]
    exact reply_record .check
  · refine done_of_setLink hs ((htested hr).trans ?_)
    dsimp only
    rw [if_neg (by exact not_not.mpr hsum), if_pos (by simpa using hk)]
    exact reply_record .unknown
  · refine done_of_setLink hs ((htested hr).trans ?_)
    dsimp only
    rw [if_neg (by exact not_not.mpr hsum), if_neg (by simp; omega), if_pos (by rw [hal]; rfl)]
    exact reply_record .length

/-! ## Bytes stored and bytes refused (R191) -/

theorem takeBytes_append (a b : List Byte) (s : State) : takeBytes (a ++ b) s = takeBytes b (takeBytes a s) := by
  induction a generalizing s with
  | nil => rfl
  | cons x xs ih => exact ih (takeByte x s)

section
variable {s : State}

/-- Outside a write transfer no byte is taken. -/
theorem takeBytes_idle (h : s.link.rx ≠ .write) (bytes : List Byte) : takeBytes bytes s = s := by
  induction bytes with
  | nil => rfl
  | cons b bs ih => rw [takeBytes, takeByte, if_neg h, ih]

/-- Bytes behind a complete record, or behind an L above 24, are not acknowledged. -/
theorem takeBytes_refused (hrx : s.link.rx = .write)
    (hfull : (bufferComplete s.link.buffer || bufferOversize s.link.buffer) = true) (bytes : List Byte) :
    takeBytes bytes s = s.setLink { s.link with acks := s.link.acks ++ List.replicate bytes.length false } := by
  induction bytes generalizing s with
  | nil => simp only [takeBytes, List.length_nil, List.replicate_zero, List.append_nil]; rfl
  | cons b bs ih =>
    rw [takeBytes, takeByte, if_pos hrx, if_pos hfull, ih (by exact hrx) (by exact hfull)]
    simp only [setLink_link, setLink_setLink, List.append_assoc, List.length_cons, List.replicate_succ, List.singleton_append]

/-- Bytes that do not fill a record up are stored and acknowledged. -/
theorem takeBytes_partial {k l : Byte} (hl : l.toNat ≤ 24) (bytes x : List Byte) (hrx : s.link.rx = .write)
    (hb : s.link.buffer = k :: l :: x) (hlen : x.length + bytes.length < 1 + l.toNat) :
    takeBytes bytes s = s.setLink { s.link with
      buffer := k :: l :: (x ++ bytes), acks := s.link.acks ++ List.replicate bytes.length true } := by
  induction bytes generalizing x s with
  | nil =>
    simp only [takeBytes, List.length_nil, List.replicate_zero, List.append_nil, ← hb]
    rfl
  | cons b bs ih =>
    have hlen' : x.length + (bs.length + 1) < 1 + l.toNat := hlen
    have hx : ¬x.length = l.toNat + 1 := by omega
    have hxb : ¬(x ++ [b]).length = l.toNat + 1 := by
      rw [List.length_append, List.length_singleton]
      omega
    simp only [takeBytes, takeByte, hrx, hb, List.cons_append, bufferComplete_two hl, bufferOversize_two hl, hx, hxb,
      decide_false, Bool.or_self, Bool.not_false, if_true, Bool.false_eq_true, if_false]
    rw [ih (x ++ [b]) rfl rfl (by rw [List.length_append, List.length_singleton]; omega)]
    simp only [setLink_link, setLink_setLink, List.append_assoc, List.singleton_append, List.length_cons, List.replicate_succ]

/-- The first bytes of a transfer to the own address: kind and length are stored, and the length alone decides how it goes on. -/
theorem takeBytes_head (k l : Byte) (hrx : s.link.rx = .write) (hb : s.link.buffer = []) :
    takeBytes [k, l] s = s.setLink { s.link with
      buffer := [k, l], acks := s.link.acks ++ [true, decide (l.toNat ≤ 24)] } := by
  have hcomplete : bufferComplete [k, l] = false := by
    simp only [bufferComplete, List.length_cons, List.length_nil, Bool.and_eq_false_iff, decide_eq_false_iff_not]
    omega
  have hover : (!bufferOversize [k, l]) = decide (l.toNat ≤ 24) := by
    by_cases h : l.toNat ≤ 24
    · simp [bufferOversize, h]
    · simp [bufferOversize, h, not_le.mp h]
  have h0 : (bufferComplete [] || bufferOversize []) = false := rfl
  have h2 : bufferComplete [k] = false := rfl
  have h3 : bufferOversize [k] = false := rfl
  simp only [takeBytes, takeByte, hrx, hb, h0, h2, h3, hcomplete, hover, Bool.or_self, if_true, Bool.false_eq_true, if_false,
    List.nil_append, List.cons_append, setLink_link, setLink_setLink, List.append_assoc, Bool.not_false]

theorem takeBytes_one (k : Byte) (hrx : s.link.rx = .write) (hb : s.link.buffer = []) :
    takeBytes [k] s = s.setLink { s.link with buffer := [k], acks := s.link.acks ++ [true] } := by
  have h0 : (bufferComplete [] || bufferOversize []) = false := rfl
  have h2 : bufferComplete [k] = false := rfl
  have h3 : bufferOversize [k] = false := rfl
  simp only [takeBytes, takeByte, hrx, hb, h0, h2, h3, if_true, Bool.false_eq_true, if_false, List.nil_append, Bool.not_false]

end

/-! ## The end of a write transfer (R190 to R192) -/

section
variable {l : Link}

/-- Nothing stands behind a transfer whose record was taken, or that brought no byte. -/
theorem endTransfer_silent (hrx : l.rx = .write) (hb : closingReply l.buffer = none) :
    l.endTransfer = { l with rx := .idle, buffer := [] } := by
  simp only [Link.endTransfer, hrx, hb]

theorem endTransfer_answers {r : OutRecord} (hrx : l.rx = .write) (hb : closingReply l.buffer = some r) :
    l.endTransfer = { l with rx := .idle, buffer := [], reply := some r, pulse := decide (l.attnMode = .pulse) } := by
  simp only [Link.endTransfer, hrx, hb]
  rfl

theorem closingReply_one (k : Byte) : closingReply [k] = some ⟨if k.toNat < 128 then k + 128 else k, 0x13, []⟩ := rfl

theorem closingReply_short {k n : Byte} {p : List Byte} (hn : n.toNat ≤ 24) (hp : p.length < 1 + n.toNat) :
    closingReply (k :: n :: p) = some ⟨if k.toNat < 128 then k + 128 else k, 0x13, []⟩ := by
  have hc : ¬p.length = n.toNat + 1 := by omega
  rw [closingReply, bufferComplete_two hn, bufferOversize_two hn, decide_eq_false hc]
  rfl

theorem closingReply_oversize {k n : Byte} {p : List Byte} (hn : 24 < n.toNat) :
    closingReply (k :: n :: p) = some ⟨if k.toNat < 128 then k + 128 else k, 0x11, []⟩ := by
  have hc : bufferComplete (k :: n :: p) = false := by simp [bufferComplete, not_le.mpr hn]
  have ho : bufferOversize (k :: n :: p) = true := by simpa [bufferOversize] using hn
  rw [closingReply, hc, ho]
  rfl

theorem closingReply_complete {k n : Byte} {p : List Byte} (hn : n.toNat ≤ 24) (hp : p.length = n.toNat + 1) :
    closingReply (k :: n :: p) = none := by
  rw [closingReply, bufferComplete_two hn, decide_eq_true hp]
  rfl

end

/-- A write transfer to the own address with the reply slot empty, after any bytes (R190). -/
theorem endWrite_own {s : State} (hrx : s.link.rx = .idle) (hr : s.link.reply = none) (bytes : List Byte) {l : Link}
    (htake : takeBytes bytes (s.setLink { s.link with rx := .write, buffer := [], acks := [true] }) = s.setLink l) :
    endWrite (some s.targetAddress) bytes s = s.setLink l.endTransfer := by
  have hstart : startWrite s.targetAddress s = s.setLink { s.link with rx := .write, buffer := [], acks := [true] } := by
    simp [startWrite, Link.startWrite, Link.endTransfer, hrx, hr]
  simp only [endWrite, hstart, htake, setLink_link, setLink_setLink]

/-- The address is not acknowledged, and no byte is taken (R190). -/
theorem endWrite_refused {s : State} (hrx : s.link.rx = .idle) {a : BitVec 7} (h : a ≠ s.targetAddress ∨ s.link.reply ≠ none)
    (bytes : List Byte) : endWrite (some a) bytes s = s.setLink { s.link with acks := [false] } := by
  have hno : (decide (a = s.targetAddress) && s.link.reply.isNone) = false := by
    rcases h with ha | hr
    · simp [ha]
    · obtain ⟨r, hr⟩ := Option.ne_none_iff_exists'.mp hr
      simp [hr]
  have hend : s.link.endTransfer = s.link := by rw [Link.endTransfer, hrx]
  have hstart : startWrite a s = s.setLink { s.link with acks := [false] } := by
    simp only [startWrite, Link.startWrite, hend, hno, Bool.false_eq_true, if_false]
  have hidle : (s.setLink { s.link with acks := [false] }).link.rx ≠ .write := by
    rw [setLink_link, hrx]
    decide
  simp only [endWrite, hstart, takeBytes_idle hidle, setLink_link, setLink_setLink]
  rw [Link.endTransfer, hrx]

/-- Settles O49: where the address is acknowledged the bytes are followed to the buffer that the end of the transfer finds. -/
theorem writeTransfers : Obligations.WriteTransfers := by
  unfold Obligations.WriteTransfers
  intro s a k l p hs own answers taken refused
  refine ⟨fun hrx => ⟨fun ha => done_of_setLink hs (endWrite_refused hrx ha p), fun hr => ?_⟩, fun hrx => ?_⟩
  · let u : State := s.setLink { s.link with rx := .write, buffer := [], acks := [true] }
    have hown {bytes : List Byte} {m : Link} (htake : takeBytes bytes u = s.setLink m) :
        exec (.writeTransferEnd (some own) bytes) s = .next (s.setLink m.endTransfer) :=
      done_of_setLink hs (endWrite_own hrx hr bytes htake)
    have hhead := takeBytes_head (s := u) k l rfl rfl
    refine ⟨?_, ?_, fun hl hp => ?_, fun hl => ?_, ?_⟩
    · rw [hown (bytes := []) rfl, endTransfer_silent rfl rfl]
      simp only [hrx]
      rfl
    · rw [hown (takeBytes_one (s := u) k rfl rfl), endTransfer_answers rfl (closingReply_one k)]
      rfl
    · rw [decide_eq_true hl] at hhead
      have hall := takeBytes_partial (s := u.setLink { u.link with buffer := [k, l], acks := [true, true, true] })
        hl p [] rfl rfl (by simpa using hp)
      have hbytes : takeBytes (k :: l :: p) u = s.setLink { s.link with
          rx := .write, buffer := k :: l :: p, acks := [true, true, true] ++ List.replicate p.length true } :=
        (takeBytes_append [k, l] p u).trans ((congrArg (takeBytes p) hhead).trans hall)
      rw [hown hbytes, endTransfer_answers rfl (closingReply_short hl hp)]
      simp only [answers, taken, Nat.add_comm 3, List.replicate_succ, List.cons_append, List.nil_append]
    · rw [decide_eq_false (not_le.mpr hl)] at hhead
      have hall := takeBytes_refused (s := u.setLink { u.link with buffer := [k, l], acks := [true, true, false] })
        rfl (by simpa [bufferComplete, bufferOversize] using Or.inr hl) p
      have hbytes : takeBytes (k :: l :: p) u = s.setLink { s.link with
          rx := .write, buffer := [k, l], acks := [true, true, false] ++ List.replicate p.length false } :=
        (takeBytes_append [k, l] p u).trans ((congrArg (takeBytes p) hhead).trans hall)
      rw [hown hbytes, endTransfer_answers rfl (closingReply_oversize hl)]
      simp only [answers, taken, refused, Nat.add_comm 1, List.replicate_succ, List.replicate_zero, List.cons_append, List.nil_append]
    · have hident : takeBytes (requestRecord 0x03 []) u = s.setLink (s.link.answered 0x03 [] 0x00 (identPayload s)) := by
        have hreq := request_ident (s := s) ⟨hrx, hr⟩
        rw [request, writeRecord] at hreq
        rw [← hreq]
        simp [startWrite, Link.startWrite, Link.endTransfer, hrx, hr, u]
      have hall := takeBytes_refused (s := s.setLink (s.link.answered 0x03 [] 0x00 (identPayload s))) rfl rfl p
      have hbytes := (takeBytes_append (requestRecord 0x03 []) p u).trans ((congrArg (takeBytes p) hident).trans hall)
      rw [hown hbytes, endTransfer_silent rfl rfl, ← identPayload_eq]
      rfl
  · have hopen {m : Link} (hend : s.link.endTransfer = m) : exec (.writeTransferEnd none []) s = .next (s.setLink m) :=
      done_of_setLink hs (by rw [← hend]; rfl)
    refine ⟨fun hb => hopen (endTransfer_silent hrx ?_), fun hb => hopen (endTransfer_answers hrx ?_), fun hb hl => ?_⟩
    · rcases hb with hb | ⟨hl, hp, c, hb⟩
      · rw [hb]
        rfl
      · rw [hb]
        exact closingReply_complete (by omega) (by rw [List.length_append, List.length_singleton, hl])
    · rcases hb with hb | ⟨hb, hl, hp⟩
      · rw [hb]
        exact closingReply_one k
      · rw [hb]
        exact closingReply_short hl hp
    · exact hopen (endTransfer_answers hrx (by rw [hb]; exact closingReply_oversize hl))

end Sys2Proof.Machine
end

