-- ==== Sys2Proof/Proofs/Link/Reads.lean ====
section
/-! SUPPORT. Read transfers: the clocking of a record in flight as one change of the link, and the record a START chooses (R190, R194,
R195). -/

namespace Sys2Proof.Machine

/-! ## Several clocks as one change -/

/-- The check byte of the record in flight is among the next `n` bytes. -/
def Flight.ends (f : Flight) (n : Nat) : Bool := f.clocked < f.copy.bytes.length ∧ f.copy.bytes.length ≤ f.clocked + n

/-- The link after `n` clocks of the record in flight (R195). -/
def Link.clockedOut (l : Link) (f : Flight) (n : Nat) : Link :=
  { l with
    sent := l.sent ++ ((f.copy.bytes.drop f.clocked).take n
      ++ List.replicate (n - (f.copy.bytes.drop f.clocked).length) 0xFF)
    reply := if f.ends n = true ∧ f.source = .reply then none else l.reply
    notices := if f.ends n = true ∧ f.source = .notice ∧ f.changed = false then l.notices.tail else l.notices
    flight := some { f with clocked := f.clocked + n, source := if f.ends n then .spent else f.source } }

section
variable {l : Link} {f : Flight}

theorem clockedOut_zero (hf : l.flight = some f) : l.clockedOut f 0 = l := by
  have hno : f.ends 0 = false := by
    simp only [Flight.ends, decide_eq_false_iff_not]
    omega
  obtain ⟨_, _, _, _, flight, _, _, _, _, _, _⟩ := l
  subst hf
  simp [Link.clockedOut, hno]

/-- The byte a clock puts out, with the filling behind the record. -/
theorem take_one_fill (bytes : List Byte) (i n : Nat) :
    (bytes[i]?).getD 0xFF :: ((bytes.drop (i + 1)).take n ++ List.replicate (n - (bytes.drop (i + 1)).length) 0xFF)
      = (bytes.drop i).take (n + 1) ++ List.replicate (n + 1 - (bytes.drop i).length) 0xFF := by
  by_cases h : i < bytes.length
  · rw [List.drop_eq_getElem_cons h, List.getElem?_eq_getElem h, Option.getD_some, List.take_succ_cons, List.length_cons,
      Nat.add_sub_add_right, List.cons_append]
  · rw [List.getElem?_eq_none (by omega), List.drop_eq_nil_of_le (by omega), List.drop_eq_nil_of_le (by omega)]
    simp [List.replicate_succ]

/-- A record read out: it leaves the reply slot, or the Notice Queue unless its payload was replaced meanwhile (R195). -/
theorem readOut_eq (l : Link) (f : Flight) : l.readOut f = { l with
    reply := if f.source = .reply then none else l.reply
    notices := if f.source = .notice ∧ f.changed = false then l.notices.tail else l.notices
    flight := some { f with source := .spent } } := by
  obtain ⟨copy, source, changed, clocked⟩ := f
  cases source with
  | reply => rfl
  | spent => rfl
  | notice => cases changed <;> rfl

/-- One clock. -/
theorem clock_eq (hrx : l.rx = .read) (hf : l.flight = some f) : l.clock = l.clockedOut f 1 := by
  have hends : f.ends 1 = true ↔ f.clocked + 1 = f.copy.bytes.length := by
    simp only [Flight.ends, decide_eq_true_eq]
    omega
  have hbyte := take_one_fill f.copy.bytes f.clocked 0
  simp only [List.take_zero, Nat.zero_sub, List.replicate_zero, List.append_nil] at hbyte
  simp only [Link.clock, hrx, hf, Link.clockedOut, ← hbyte]
  by_cases hlast : f.clocked + 1 = f.copy.bytes.length
  · simp only [if_pos hlast, readOut_eq, hends.mpr hlast, true_and, if_true]
  · simp only [if_neg hlast, Bool.eq_false_iff.mpr (mt hends.mp hlast), Bool.false_eq_true, false_and, if_false]

/-- A clock and the clocks behind it. -/
theorem clockedOut_succ (n : Nat) :
    (l.clockedOut f 1).clockedOut { f with clocked := f.clocked + 1, source := if f.ends 1 then .spent else f.source } n
      = l.clockedOut f (n + 1) := by
  have hfill := take_one_fill f.copy.bytes f.clocked n
  have hbyte := take_one_fill f.copy.bytes f.clocked 0
  simp only [List.take_zero, Nat.zero_sub, List.replicate_zero, List.append_nil] at hbyte
  have hlater (src : FlightSource) : Flight.ends { f with clocked := f.clocked + 1, source := src } n
      = (f.ends (n + 1) && !f.ends 1) := by
    rw [Bool.eq_iff_iff]
    simp only [Flight.ends, Bool.and_eq_true, Bool.not_eq_true', decide_eq_true_eq, decide_eq_false_iff_not]
    omega
  have hsooner : f.ends 1 = true → f.ends (n + 1) = true := by
    simp only [Flight.ends, decide_eq_true_eq]
    omega
  simp only [Link.clockedOut, hlater, ← hfill, ← hbyte, List.append_assoc, List.singleton_append, Nat.add_assoc, Nat.add_comm 1 n]
  cases h1 : f.ends 1 with
  | true => simp only [hsooner h1, Bool.not_true, Bool.and_false, Bool.false_eq_true, false_and, true_and, if_true, if_false]
  | false => simp only [Bool.not_false, Bool.and_true, Bool.false_eq_true, false_and, if_false]

/-- `n` clocks of the record in flight. -/
theorem clocks_eq (n : Nat) (hrx : l.rx = .read) (hf : l.flight = some f) : Link.clocks n l = l.clockedOut f n := by
  induction n generalizing l f with
  | zero => exact (clockedOut_zero hf).symm
  | succ n ih => rw [Link.clocks, clock_eq hrx hf, ih (by exact hrx) rfl, clockedOut_succ]

/-- A transfer that goes on, or that a START has opened: its clocks, and the STOP where one is given. -/
theorem readTransfer_none (n : Nat) (stop : Bool) (hrx : l.rx = .read) (hf : l.flight = some f) :
    l.readTransfer none n stop = { l.clockedOut f n with
      rx := if stop then .idle else .read, flight := if stop then none else (l.clockedOut f n).flight } := by
  have hread : (l.clockedOut f n).rx = .read := hrx
  rw [Link.readTransfer]
  dsimp only
  rw [clocks_eq n hrx hf]
  cases stop with
  | true =>
    rw [if_pos rfl, Link.endTransfer, hread]
    rfl
  | false =>
    simp only [Bool.false_eq_true, if_false, ← hread]

end

/-! ## The record a START chooses (R194, R195) -/

section
variable {l : Link}

/-- A START closes what stands open of a read. -/
theorem endTransfer_of_read (h : l.rx = .read ∨ (l.rx = .idle ∧ l.flight = none)) :
    l.endTransfer = { l with rx := .idle, flight := none } := by
  rcases h with h | ⟨h, hf⟩
  · rw [Link.endTransfer, h]
  · rw [Link.endTransfer, h]
    obtain ⟨_, _, _, _, _, _, _, _, _, _, _⟩ := l
    subst h hf
    rfl

/-- Another address: the part neither acknowledges nor sends (R190). -/
theorem readTransfer_other (h : l.rx = .read ∨ (l.rx = .idle ∧ l.flight = none)) (n : Nat) (stop : Bool) :
    l.readTransfer (some false) n stop = { l with rx := .idle, sent := [], acks := [false], flight := none } := by
  have hclocks (m : Link) (hm : m.rx = .idle) : Link.clocks n m = m := by
    induction n generalizing m with
    | zero => rfl
    | succ n ih => rw [Link.clocks, show m.clock = m by rw [Link.clock, hm], ih m hm]
  rw [Link.readTransfer, Link.startRead, endTransfer_of_read h, if_neg Bool.false_ne_true, hclocks _ rfl]
  cases stop <;> rfl

/-- The own address: the chosen record goes out from its first byte. -/
theorem readTransfer_own (h : l.rx = .read ∨ (l.rx = .idle ∧ l.flight = none)) (n : Nat) (stop : Bool)
    {r : OutRecord} {source : FlightSource} (hc : l.choose = (r, source)) :
    l.readTransfer (some true) n stop
      = { l with
          rx := if stop then .idle else .read
          sent := r.bytes.take n ++ List.replicate (n - r.bytes.length) 0xFF
          acks := [true]
          reply := if decide (r.bytes.length ≤ n) = true ∧ source = .reply then none else l.reply
          notices := if decide (r.bytes.length ≤ n) = true ∧ source = .notice then l.notices.tail else l.notices
          flight := if stop then none else some ⟨r, if decide (r.bytes.length ≤ n) then .spent else source, false, n⟩ } := by
  have hchoose : Link.choose { l with rx := .idle, flight := none, sent := [], acks := [true] } = (r, source) := hc
  have hlen : 0 < r.bytes.length := by simp [OutRecord.bytes]
  have hends : Flight.ends ⟨r, source, false, 0⟩ n = decide (r.bytes.length ≤ n) := by
    simp only [Flight.ends, hlen, true_and, Nat.zero_add]
  have hstart : l.startRead true = { l with
      rx := .read, flight := some ⟨r, source, false, 0⟩, sent := [], acks := [true] } := by
    rw [Link.startRead, endTransfer_of_read h]
    dsimp only
    rw [if_pos rfl, hchoose]
  have hgo := readTransfer_none (l := l.startRead true) (f := ⟨r, source, false, 0⟩) n stop (by rw [hstart]) (by rw [hstart])
  have hsame : l.readTransfer (some true) n stop = (l.startRead true).readTransfer none n stop := rfl
  rw [hsame, hgo, hstart]
  simp only [Link.clockedOut, hends, List.drop_zero, List.nil_append, Nat.zero_add, and_true]

end

/-- Settles O48. -/
theorem readsOut : Obligations.ReadsOut := by
  unfold Obligations.ReadsOut
  intro s a n stop hs own framed clocked opens
  have hown : decide (own = s.targetAddress) = true := decide_eq_true rfl
  have hread {l : Link} {start : Option (BitVec 7)}
      (h : s.link.readTransfer (start.map (fun a => decide (a = s.targetAddress))) n stop = l) :
      exec (.readTransfer start n stop) s = .next (s.setLink l) :=
    done_of_setLink hs (congrArg s.setLink h)
  have hopens (hrx : s.link.rx = .read ∨ (s.link.rx = .idle ∧ s.link.flight = none)) {r : OutRecord} {source : FlightSource}
      (hc : s.link.choose = (r, source)) : exec (.readTransfer (some own) n stop) s = .next (s.setLink (opens r source)) := by
    refine hread ?_
    rw [Option.map_some, hown]
    exact readTransfer_own hrx n stop hc
  refine ⟨fun hrx => ⟨fun ha => ?_, fun r hr => hopens hrx ?_, fun x hx hr => hopens hrx ?_, fun hr hn => hopens hrx ?_⟩,
    fun f hf hrx => ?_⟩
  · refine hread ?_
    rw [Option.map_some, decide_eq_false (by exact ha)]
    exact readTransfer_other hrx n stop
  · rw [Link.choose, hr]
  · obtain ⟨y, hy⟩ : ∃ y, s.link.notices = x :: y := by
      cases hn : s.link.notices with
      | nil => rw [hn] at hx; cases hx
      | cons z zs => rw [hn, List.head?_cons, Option.some.injEq] at hx; exact ⟨zs, by rw [hx]⟩
    rw [Link.choose, hr, hy]
    rfl
  · rw [Link.choose, hr, hn]
    rfl
  · exact hread (readTransfer_none n stop hrx hf)

end Sys2Proof.Machine
end

