-- ==== Sys2Proof/Proofs/Resets.lean ====
section
/-! SUPPORT. The resets: the machine right after power-on, the start of a part that was held, and SOFT RESET (R3, R158, R171, R186 to
R188, R200). -/

namespace Sys2Proof.Machine

/-! ## The machine right after power-on -/

theorem reset_groupLaw : groupLaw State.reset.groups := by decide

theorem reset_atRest : State.reset.atRest := ⟨rfl, rfl, nofun⟩

/-- Settles O16. -/
theorem resetIsSafe : Obligations.ResetIsSafe := by
  unfold Obligations.ResetIsSafe State.safe
  exact ⟨queueLaw_nil, noticeLaw_nil, zoneLaw_fresh .idle, reset_groupLaw, by decide, by decide,
    (tableLaw_none_iff _).mp (tableLaw_fresh rfl none), ⟨Nat.zero_le _, fun i d hd => by simp [State.reset] at hd⟩,
    driveLaw_reset rfl rfl rfl inDrive_zero rfl, (loaderLaw_iff _).mpr reset_atRest.2.1, laserLaw_reset rfl rfl, rfl,
    by decide, reset_atRest⟩

/-! ## The calibration store (R3, R79, R186) -/

theorem calPasses_iff (store : CalStore) : calPasses store = true ↔ (store.toList.map (·.toNat)).sum % 65536 = 0 := by
  have hsum (l : List (BitVec 16)) (n : Nat) : l.foldl (fun n w => n + w.toNat) n = n + (l.map (·.toNat)).sum := by
    induction l generalizing n with
    | nil => simp
    | cons w ws ih => rw [List.foldl_cons, ih, List.map_cons, List.sum_cons, Nat.add_assoc]
  rw [calPasses, decide_eq_true_eq, hsum, Nat.zero_add]
  rfl

theorem signed16_toInt (w : BitVec 16) : signed16 w.toNat = w.toInt := by
  rw [signed16, BitVec.toInt_eq_toNat_cond]
  split <;> split <;> omega

/-- A word of the store by its number. -/
theorem store_getD (store : CalStore) (i : Fin 12) : (store.toList[i.val]?).getD 0 = store[i] := by
  simp

theorem calOffset_eq (store : CalStore) (i : Fin 12) :
    calOffset store i = if calPasses store = true then max (-511) (min 511 ((store.toList[i.val]?).getD 0).toInt) else 0 := by
  rw [store_getD, ← signed16_toInt]
  rfl

theorem clampField_eq (n : Fin 33) (v : Nat) : clampField n v = max (fieldRanges[n]).1 (min (fieldRanges[n]).2 v) := by
  have h : fieldRanges[n.val]? = some fieldRanges[n] := by simp
  rw [clampField, h]

/-- Fields 0 to 8 of G0 come from the store, the others from the defaults (R79). -/
theorem calGroup_getElem (store : CalStore) (n : Fin 33) : (calGroup store)[n] =
    if calPasses store = true ∧ n.val ≤ 8 then
      max (fieldRanges[n]).1 (min (fieldRanges[n]).2 ((store.toList[n.val + 2]?).getD 0).toNat)
    else g0Defaults[n] := by
  rw [← clampField_eq]
  unfold calGroup
  by_cases hp : calPasses store = true
  · rw [if_pos hp]
    by_cases hn : n.val ≤ 8
    · rw [if_pos ⟨hp, hn⟩]
      obtain ⟨k, hk⟩ := n
      have hn : k ≤ 8 := hn
      have : k = 0 ∨ k = 1 ∨ k = 2 ∨ k = 3 ∨ k = 4 ∨ k = 5 ∨ k = 6 ∨ k = 7 ∨ k = 8 := by omega
      rcases this with rfl | rfl | rfl | rfl | rfl | rfl | rfl | rfl | rfl <;> simp
    · rw [if_neg fun h => hn h.2]
      have hne : ∀ k, k ≤ 8 → k ≠ n.val := fun k hk he => hn (he ▸ hk)
      simp [hne]
  · rw [if_neg hp, if_neg fun h => hp h.1]

/-- The range of c, and the boundary of level 0, are no fields of the store. -/
theorem resetFrontEnd_eq (store : CalStore) :
    resetFrontEnd store = ⟨calOffset store 0, calOffset store 1, 1024, 0, 0, 0, .unknown, 0, 0, 0, 0, false⟩ := by
  have h9 : (calGroup store)[9] = 512 := (calGroup_getElem store 9).trans (if_neg fun h => absurd h.2 (by decide))
  have h10 : (calGroup store)[10] = 4096 := (calGroup_getElem store 10).trans (if_neg fun h => absurd h.2 (by decide))
  have h11 : (calGroup store)[11] = 1280 := (calGroup_getElem store 11).trans (if_neg fun h => absurd h.2 (by decide))
  simp only [resetFrontEnd, FrontEnd.setC, levelOf, h9, h10, h11]
  rfl

/-! ## The start of a part that was held (R158, R171, R187) -/

theorem cut_eq (f : Frame) : f.cut = if f = .idle then .idle else .unseen := by cases f <;> rfl

/-- The start leaves nothing to be handed on; the loader drive is what the derived state asks for. -/
theorem settle_powerOn (lines : Lines) (high : Bool) (s : State) : settle (powerOn lines high s) =
    (powerOn lines high s).setLoader { (powerOn lines high s).loader with drive := (powerOn lines high s).loaderDemand } := by
  rw [settle_of_quiet rfl, loaderTest, ejectRelease_of_not_due]
  exact fun h => absurd h.2.1 (by simp [powerOn, derivedLoader])

theorem derivedState_start (l : Lines) (high : Bool) (store : CalStore) : derivedState (startSupervisor l high store) =
    if l.clampEnd then .clamped else if !l.ejectEnd then .releasing else if l.slot then .presented else .empty := by
  cases hc : l.clampEnd <;> cases he : l.ejectEnd <;> simp [derivedState, startSupervisor, firstLevel, hc, he]

/-- The loader of a part that starts (R159, R168, R171). -/
theorem loader_powerOn (l : Lines) (high : Bool) (s : State) (st : LoaderState)
    (hst : derivedState (startSupervisor l high s.sup.calStore) = st) :
    ({ (powerOn l high s).loader with drive := (powerOn l high s).loaderDemand } : Loader)
      = ⟨st, false, false, 0, if st = .presented then some ⟨0, 10000⟩ else none, true, 0,
          if st = .releasing ∧ l.supplyLow = false ∧ l.driverFault = false then -1536 else 0⟩ := by
  have hne : st ≠ .pulling := by
    rw [← hst, derivedState]
    split_ifs <;> decide
  have hdemand : (powerOn l high s).loaderDemand =
      if st = .releasing ∧ l.supplyLow = false ∧ l.driverFault = false then -1536 else 0 := by
    have hpermit : (powerOn l high s).motorPermit = (!l.supplyLow && !l.driverFault) := rfl
    have hstate : (powerOn l high s).loader.state = st := hst
    rw [loaderDemand_eq, hpermit, hstate, if_neg hne]
    by_cases hr : st = .releasing
    · cases l.supplyLow <;> cases l.driverFault <;> simp [hr]
    · simp [hr]
  rw [hdemand]
  have hloader : (powerOn l high s).loader = { ({ state := st } : Loader) with
      reload := if st = .presented then ({ state := st } : Loader).startReload else none } := by rw [← hst]; rfl
  rw [hloader]
  rfl

/-! ## A held part (R187, log entry 43) -/

theorem mon_of_held {s : State} (h : s.held = true) : s.mon = false := by simp [State.mon, h]

/-- Nothing but the end of the hold and the bits of the address input reaches a held part. -/
theorem exec_of_held {s : State} (h : s.held = true) {c : Instr} (hreset : ∀ x high, c ≠ .powerOnReset x high)
    (hbits : ∀ b e, c ≠ .addressReport b e) : exec c s = .next s := by
  cases c with
  | powerOnReset x high => exact absurd rfl (hreset x high)
  | addressReport b e => exact absurd rfl (hbits b e)
  | servoSample fe te sum =>
    have : servoSample fe te sum s = s := if_pos (by rw [h]; rfl)
    exact congrArg Host.Outcome.next this
  | _ => exact done_of_held _ h

/-- Settles O17. -/
theorem powerOnLeaves : Obligations.PowerOnLeaves := by
  unfold Obligations.PowerOnLeaves
  intro l high s c pass word offset state
  have hpass : pass = calPasses s.sup.calStore := by
    rw [Bool.eq_iff_iff, calPasses_iff]
    exact decide_eq_true_iff
  refine ⟨rfl, fun hheld => ?_, ?_⟩
  · have hmuted (x : Int) : s.muted x = 0 := by simp [State.muted, hheld]
    exact ⟨hmuted _, hmuted _, hmuted _, hmuted _, hmuted _, by simp [State.laserEn, hheld], by simp [State.attn, hheld],
      mon_of_held hheld, fun hq => step_of_empty_held hq hheld, exec_of_held hheld⟩
  · have hoffset (i : Fin 12) : calOffset s.sup.calStore i = offset i.val := by
      rw [calOffset_eq]
      simp only [offset, hpass]
      rfl
    have hsettle := settle_powerOn l high s
    rw [loader_powerOn l high s state (derivedState_start l high _)] at hsettle
    refine ⟨settle (powerOn l high s), rfl, ?_⟩
    rw [hsettle]
    refine ⟨rfl, ?_, fun n => ?_, rfl, rfl, fun b => ?_, rfl, rfl, rfl, fun i => ?_, rfl, rfl, rfl, ?_, rfl, rfl, rfl, ?_, rfl, rfl, rfl, rfl⟩
    · refine (resetFrontEnd_eq s.sup.calStore).trans ?_
      rw [hoffset 0, hoffset 1]
      rfl
    · rw [hpass]
      exact calGroup_getElem s.sup.calStore n
    · exact Vector.getElem_replicate b.isLt
    · exact Vector.getElem_replicate i.isLt
    · exact congrArg (fun f : Frame => ({ frame := f } : Seek)) (cut_eq s.seek.frame)
    · rw [hpass]
      rfl

/-! ## SOFT RESET (R188) -/

theorem derivedState_eq_clamped (x : Supervisor) : derivedState x = .clamped ↔ x.clampEnd.level = true := by
  unfold derivedState
  split_ifs <;> simp_all

theorem derivedState_eq_presented (x : Supervisor) :
    derivedState x = .presented ↔ x.clampEnd.level = false ∧ x.ejectEnd.level = true ∧ x.slot.level = true := by
  unfold derivedState
  split_ifs <;> simp_all

theorem derivedState_eq_empty (x : Supervisor) :
    derivedState x = .empty ↔ x.clampEnd.level = false ∧ x.ejectEnd.level = true ∧ x.slot.level = false := by
  unfold derivedState
  split_ifs <;> simp_all

theorem derivedState_eq_releasing (x : Supervisor) :
    derivedState x = .releasing ↔ x.clampEnd.level = false ∧ x.ejectEnd.level = false := by
  unfold derivedState
  split_ifs <;> simp_all

theorem derivedState_ne_pulling (x : Supervisor) : derivedState x ≠ .pulling := by
  unfold derivedState
  split_ifs <;> decide

/-- A spindle that stands keeps standing; any other brakes, or coasts under crank hold or mute (R104, R106). -/
theorem spindleSoftReset_state (x : Spindle) (held : Bool) : (x.softReset held).state =
    if x.state = .stopped then .stopped else if held = true then .coast else .braking := by
  unfold Spindle.softReset
  by_cases h : x.state = .stopped
  · rw [if_pos h, if_pos h, ← h]
  · rw [if_neg h, if_neg h]

theorem spindleSoftReset_cleared (x : Spindle) (held : Bool) :
    (x.softReset held).run = false ∧ (x.softReset held).lockRun = 0 ∧ (x.softReset held).unlockRun = 0 := by
  unfold Spindle.softReset
  split_ifs <;> exact ⟨rfl, rfl, rfl⟩

theorem spindleSoftReset_turning {x : Spindle} (held : Bool) (h : x.state ≠ .stopped) :
    x.softReset held = { x with
      state := if held then .coast else .braking, drive := if held then 0 else -1024
      run := false, isp := 0, lockRun := 0, unlockRun := 0, timer := 0 } := if_neg h

/-- The part that SOFT RESET leaves, its reply apart: nothing is handed on, and the loader drive follows the derived state. -/
theorem exec_softReset {s : State} (hs : s.settled) (h : s.linkReady) :
    let u := softReset s
    exec (.softReset []) s = .next ((u.setLink ((s.link.softReset).answered 0x14 [] 0x00 [])).setLoader
      { u.loader with drive := u.loaderDemand }) := by
  intro u
  have hreply : handOver 0x14 [] (s.setLink (s.link.received 0x14 [])) = u.setLink (s.link.softReset.answered 0x14 [] 0x00 []) :=
    reply_received u s.link.softReset 0x14 [] .ok [] (by decide)
  refine (done_request_settle hs h rfl hreply).trans ?_
  rw [settle_of_quiet rfl, loaderTest, ejectRelease_of_not_due]
  · rfl
  · exact fun hdue => absurd hdue.2.1 Bool.false_ne_true

/-- The loader demand after a SOFT RESET: only a released disc moves, and only with the permit (R159, R188). -/
theorem loaderDemand_softReset (s : State) : (softReset s).loaderDemand =
    if derivedState s.sup = .releasing ∧ s.spindle.state = .stopped ∧ (s.sup.crankHold || s.sup.faultPin) = false then -1536 else 0 := by
  have hstate : (softReset s).loader.state = derivedState s.sup := rfl
  have hspindle : (softReset s).spindle.state = if s.spindle.state = .stopped then .stopped
      else if (s.sup.crankHold || s.sup.faultPin) = true then .coast else .braking := spindleSoftReset_state _ _
  have hpermit : (softReset s).motorPermit = true ↔ s.spindle.state = .stopped ∧ (s.sup.crankHold || s.sup.faultPin) = false := by
    have : (softReset s).motorPermit
        = (decide ((softReset s).spindle.state = .stopped) && !false && !s.sup.crankHold && !s.sup.faultPin) := rfl
    rw [this, hspindle]
    by_cases hz : s.spindle.state = .stopped
    · simp [hz]
    · cases s.sup.crankHold <;> cases s.sup.faultPin <;> simp [hz]
  rw [loaderDemand_eq, hstate, if_neg (derivedState_ne_pulling _)]
  by_cases hr : derivedState s.sup = .releasing
  · simp only [hpermit, hr, if_true, true_and]
  · simp only [hr, if_false, false_and, ite_self]

/-- What SOFT RESET keeps of the disc, by CLAMP_END (R76, R131, R188). -/
theorem softReset_disc (s : State) :
    (s.sup.clampEnd.level = true → (softReset s).angle = s.angle ∧ (softReset s).rev = s.rev ∧ (softReset s).seek = s.seek.kept
      ∧ (softReset s).defects = s.defects.kept.arm s.angle.bin s.seek.kept.tpCur)
    ∧ (s.sup.clampEnd.level = false → (softReset s).angle = {} ∧ (softReset s).rev = Vector.replicate 64 {}
      ∧ (softReset s).seek = { frame := s.seek.frame.cut }
      ∧ (softReset s).defects = ({} : DefectTable).arm ({} : Angle).bin ({} : Seek).tpCur) := by
  have hkeeps : derivedState s.sup.softReset = .clamped ↔ s.sup.clampEnd.level = true := derivedState_eq_clamped s.sup
  constructor
  · intro hk
    have hd : decide ((derivedLoader s.sup.softReset).state = .clamped) = true := decide_eq_true (hkeeps.mpr hk)
    simp only [softReset, evalTarget, State.setSpindle, hd, if_true, and_self]
  · intro hk
    have hd : decide ((derivedLoader s.sup.softReset).state = .clamped) = false :=
      decide_eq_false fun hc => absurd (hkeeps.mp hc) (by rw [hk]; exact Bool.false_ne_true)
    simp only [softReset, evalTarget, State.setSpindle, hd, if_false, and_self, Bool.false_eq_true]

theorem seekKept_eq (x : Seek) : x.kept =
    { x.dropTask with valid := false, watch := 0, frame := if x.frame = .idle then .idle else .unseen } :=
  congrArg (fun f : Frame => ({ x.dropTask with valid := false, watch := 0, frame := f } : Seek)) (cut_eq x.frame)

/-- Settles O18. -/
theorem softResetRequest : Obligations.SoftResetRequest := by
  unfold Obligations.SoftResetRequest
  intro s l high hs h held keeps
  have hstart : exec (.powerOnReset (some l) high) s = .next _ := congrArg Host.Outcome.next (settle_powerOn l high s)
  have harm : (softReset s).defects.armed = true ↔ covered (softReset s).defects.entries (softReset s).angle.bin (softReset s).seek.tpCur :=
    armed_arm_iff _ _ _
  obtain ⟨hkept, hcleared⟩ := softReset_disc s
  obtain ⟨hrun, hlock, hunlock⟩ := spindleSoftReset_cleared s.spindle held
  refine ⟨_, exec_softReset hs h, rfl, rfl, rfl, rfl, rfl, rfl, ⟨_, hstart, rfl, rfl⟩, rfl, calPasses_iff _, rfl, rfl, rfl, rfl, rfl, rfl,
    loaderDemand_softReset s, derivedState_eq_clamped _, derivedState_eq_presented _, derivedState_eq_empty _,
    derivedState_eq_releasing _, hrun, hlock, hunlock, rfl, fun hz => ?_, fun hz => ?_, fun hk => ?_, fun hk => ?_, harm, rfl, rfl, rfl⟩
  · exact (spindleSoftReset_state _ _).trans (if_pos hz)
  · have hx := spindleSoftReset_turning held hz
    exact ⟨congrArg Spindle.state hx, congrArg Spindle.timer hx, congrArg Spindle.isp hx, congrArg Spindle.drive hx⟩
  · obtain ⟨hangle, hrev, hseek, hdefects⟩ := hkept hk
    refine ⟨hangle, hrev, hseek.trans (seekKept_eq _), fun i => ?_⟩
    exact (congrArg (fun d : DefectTable => d.entries[i]) hdefects).trans (mapTable_getElem _ _ i.val i.isLt)
  · obtain ⟨hangle, hrev, hseek, hdefects⟩ := hcleared hk
    refine ⟨hangle, hrev, fun i => ?_, hseek.trans (congrArg (fun f : Frame => ({ frame := f } : Seek)) (cut_eq s.seek.frame))⟩
    exact (congrArg (fun d : DefectTable => d.entries[i]) hdefects).trans (Vector.getElem_replicate i.isLt)

end Sys2Proof.Machine
end

