-- ==== Sys2Proof/Proofs/SampleRules.lean ====
section
/-! SUPPORT. The servo sample: what the Front End forms, and the sled's computation (R1, R2, R11, R12, R15, R107 to R110). -/

namespace Sys2Proof.Machine

/-- Settles O27. -/
theorem sledFollows : Obligations.SledFollows := by
  unfold Obligations.SledFollows
  intro s hs hheld avg drive
  have hforce (x : Int) : s.forceSled x =
      if s.sup.crankHold = true ∨ (s.sup.innerLimit.level = true ∧ x < 0) then 0 else x := by
    unfold State.forceSled sledForce
    cases s.sup.crankHold <;> cases s.sup.innerLimit.level <;> simp
  have hfollow : followBlockEnds s = sledCompute s := by
    refine if_pos ?_
    rcases hheld with h | h <;> simp [State.trackHeld, h]
  have hcompute : exec .sledComputation s = .next (followBlockEnds s) :=
    done_of_atRest _ hs.2 (by rw [hfollow]; exact hs.1)
  rw [hcompute, hfollow, sledCompute, hforce]
  rfl

end Sys2Proof.Machine
end

