-- ==== Sys2Proof/Proofs/GroupEvents.lean ====
section
/-! SUPPORT. The events of the Group Store and the SHOCK line: a pending launch, the end of shock mode, a shock trigger, each with the
incident that a new limit raises (R39, R53, R55, R80, R81, R87, R88, R90, R91, R93, R174). -/

namespace Sys2Proof.Machine

section
variable {s u : State} {off lost : Bool}

/-- A change of the Group Store's settings, said with the record of the group that becomes active. -/
theorem regroup_eq {g : Groups} {switches : Bool} {r : GroupRec} (hsw : switches = true ↔ activeId g ≠ activeId s.groups)
    (hr : switches = true → g.recs[activeId g] = r) (hoff : off = true ↔ switches = true ∧ s.offReached r)
    (hlost : lost = true ↔ switches = true ∧ s.lostReached r) (hone : (off && lost) = false) (hsig : Signal.offTrack ∉ s.signals) :
    regroup g s = ((s.setGroups g).setFe (if switches then s.fe.underGroup r else s.fe)).raises off lost := by
  have hoff' : off = true ↔ s.offOnSwitch g := by
    rw [hoff, State.offOnSwitch, ← hsw]
    exact and_congr_right fun h => by rw [hr h]
  have hlost' : lost = true ↔ s.lostOnSwitch g := by
    rw [hlost, State.lostOnSwitch, ← hsw]
    exact and_congr_right fun h => by rw [hr h]
  rw [regroup_eq_raises hoff' hlost' hone hsig, State.underGroups]
  by_cases h : switches = true
  · rw [if_neg (hsw.mp h), if_pos h, hr h]
  · rw [if_pos (not_not.mp (mt hsw.mpr h)), if_neg h]

/-- The incidents leave the Group Store as it is. -/
theorem raises_groups (off lost : Bool) (s : State) : (s.raises off lost).groups = s.groups := by
  cases off
  · cases lost
    · rfl
    · show (raiseFocusLost s).groups = s.groups
      rw [raiseFocusLost]
      split_ifs <;> rfl
  · show (raiseOffTrack s).groups = s.groups
    rw [raiseOffTrack]
    split_ifs <;> rfl

/-- A command that raises at most one incident does what that incident's command does to the machine before it. -/
theorem done_of_raises {f : State → State} (hs : s.held = false) (hu : u.settled)
    (hf : (off && lost) = false → f s = u.raises off lost) :
    (off = false → lost = false → done f s = .next u) ∧ (off = true → lost = false → done f s = exec .offTrack u)
      ∧ (off = false → lost = true → done f s = exec .focusLost u) := by
  rw [done_of_running f hs]
  refine ⟨?_, ?_, ?_⟩
  · rintro rfl rfl
    rw [hf rfl]
    exact congrArg _ (settle_of_atRest hu.1)
  · rintro rfl rfl
    rw [hf rfl, settle_raises_off hu.2]
  · rintro rfl rfl
    rw [hf rfl, settle_raises_lost hu.2]

end

/-- Settles O32: both are a change of the Group Store's settings, followed by a notice. -/
theorem launchAndShockExit : Obligations.LaunchAndShockExit := by
  unfold Obligations.LaunchAndShockExit
  intro s hs _
  have hsig : Signal.offTrack ∉ s.signals := by simp [hs.1.1]
  refine ⟨fun g hg => ?_, fun hp => ?_, fun hm => ?_, fun hm => ?_⟩
  · intro r switches off lost u
    refine done_of_raises hs.2 ⟨by exact hs.1, by exact hs.2⟩ fun hone => ?_
    have hsw : switches = true ↔ activeId { s.groups with base := g, pending := none } ≠ activeId s.groups := by
      simp only [switches, activeId, decide_eq_true_eq]
      cases s.groups.shockMode <;> simp
    have hr (h : switches = true) : s.groups.recs[activeId { s.groups with base := g, pending := none }] = r := by
      have hmode : s.groups.shockMode = false := (of_decide_eq_true h).1
      simp [activeId, hmode, r]
    have hregroup := regroup_eq (s := s.setGroups { s.groups with pending := none }) hsw hr decide_eq_true_iff decide_eq_true_iff
      hone hsig
    unfold takePending takePendingThen
    rw [hg]
    exact (congrArg (post .launch [byte g.val]) hregroup).trans (post_raises _ _ _ _ _)
  · have hidle : takePending s = s := by rw [takePending, takePendingThen, hp]; rfl
    exact (done_of_atRest _ hs.2 (hidle.symm ▸ hs.1)).trans (congrArg _ hidle)
  · intro r switches off lost u
    refine done_of_raises hs.2 ⟨by exact hs.1, by exact hs.2⟩ fun hone => ?_
    have hsw : switches = true ↔ activeId { s.groups with shockMode := false, clean := 0, disturbed := false } ≠ activeId s.groups := by
      simp only [switches, activeId, decide_eq_true_eq, hm, if_true, if_false, Bool.false_eq_true, ne_eq]
      exact not_congr eq_comm
    have hregroup := regroup_eq (s := s) (r := r) hsw (fun _ => rfl) decide_eq_true_iff decide_eq_true_iff hone hsig
    rw [endShock, if_pos hm]
    show post .shock [0, byte (regroup { s.groups with shockMode := false, clean := 0, disturbed := false } s).groups.base.val] _ = _
    rw [hregroup, raises_groups, post_raises]
    rfl
  · have hidle : endShock s = s := if_neg (by rw [hm]; exact Bool.false_ne_true)
    exact (done_of_atRest _ hs.2 (hidle.symm ▸ hs.1)).trans (congrArg _ hidle)

/-! ## SHOCK (R90, R91, R174) -/

/-- A change that counts for the edge select, in a state in which a shock is a trigger. -/
theorem shockLine_counts_iff (s : State) (high : Bool) :
    (decide (s.sup.shockSeen ≠ high) && s.sup.edgeSelect.counts high) = true
        ∧ (s.seq.state.engaged && !decide (s.seq.state = .disengaging)) = true ↔
      s.sup.shockSeen ≠ high ∧ (s.sup.edgeSelect = .both ∨ (s.sup.edgeSelect = .rising ∧ high = true)
        ∨ (s.sup.edgeSelect = .falling ∧ high = false)) ∧ s.seq.state ≠ .idle ∧ s.seq.state ≠ .standby ∧ s.seq.state ≠ .disengaging := by
  have hselect : s.sup.edgeSelect.counts high = true ↔ s.sup.edgeSelect = .both ∨ (s.sup.edgeSelect = .rising ∧ high = true)
      ∨ (s.sup.edgeSelect = .falling ∧ high = false) := by
    cases s.sup.edgeSelect <;> simp [EdgeSelect.counts]
  rw [Bool.and_eq_true, hselect, decide_eq_true_eq]
  simp only [SeqState.engaged, Bool.and_eq_true, Bool.not_eq_true', Bool.or_eq_false_iff, decide_eq_false_iff_not, and_assoc, ne_eq]

/-- Settles O44. -/
theorem shockLineTriggers : Obligations.ShockLineTriggers := by
  unfold Obligations.ShockLineTriggers
  intro s high hs _ seen counts r switches off lost entered
  have hseen : seen.atRest := hs.1
  have hiff := shockLine_counts_iff s high
  have hquiet (hp : s.sup.power ≠ .sleep) (hc : ¬counts) : shockLine high s = seen := by
    rw [shockLine, if_neg hp]
    show (if (decide (s.sup.shockSeen ≠ high) && s.sup.edgeSelect.counts high) = true then shockTrigger seen else seen) = seen
    by_cases hcount : (decide (s.sup.shockSeen ≠ high) && s.sup.edgeSelect.counts high) = true
    · rw [if_pos hcount]
      exact if_neg fun he => hc (hiff.mp ⟨hcount, he⟩)
    · rw [if_neg hcount]
  have htrigger (hp : s.sup.power ≠ .sleep) (hc : counts) : shockLine high s = shockTrigger seen := by
    rw [shockLine, if_neg hp]
    exact if_pos (hiff.mpr hc).1
  have hlive (hc : counts) : (seen.seq.state.engaged && !decide (seen.seq.state = .disengaging)) = true := (hiff.mpr hc).2
  refine ⟨fun hp => ?_, fun hp hc => ?_, fun hp hc hm => ?_, fun hp hc hm => ?_⟩
  · have hpin : shockLine high s = s.setSup { s.sup with shockPin := high } := if_pos hp
    exact (done_of_atRest _ hs.2 (hpin.symm ▸ hs.1)).trans (congrArg _ hpin)
  · exact (done_of_atRest _ hs.2 ((hquiet hp hc).symm ▸ hseen)).trans (congrArg _ (hquiet hp hc))
  · have hrenew : shockLine high s = seen.setGroups { s.groups with clean := 0, disturbed := true } := by
      rw [htrigger hp hc, shockTrigger, if_pos (hlive hc), if_pos (by exact hm)]
      rfl
    exact (done_of_atRest _ hs.2 (hrenew.symm ▸ hs.1)).trans (congrArg _ hrenew)
  · refine done_of_raises hs.2 ⟨by exact hs.1, by exact hs.2⟩ fun hone => ?_
    have hsw : switches = true ↔ activeId { s.groups with shockMode := true, clean := 0, disturbed := true } ≠ activeId s.groups := by
      simp only [switches, activeId, decide_eq_true_eq, hm, if_true, if_false, Bool.false_eq_true, ne_eq]
    have hregroup := regroup_eq (s := seen) (r := r) hsw (fun _ => rfl) decide_eq_true_iff decide_eq_true_iff hone
      (by simp [seen, hs.1.1])
    have hmode : ¬seen.groups.shockMode = true := by
      rw [show seen.groups.shockMode = false from hm]
      exact Bool.false_ne_true
    rw [htrigger hp hc, shockTrigger, if_pos (hlive hc), if_neg hmode]
    show post .shock [1, byte (regroup { s.groups with shockMode := true, clean := 0, disturbed := true } seen).groups.shock.val]
      (regroup { s.groups with shockMode := true, clean := 0, disturbed := true } seen) = _
    rw [hregroup, raises_groups, post_raises]
    rfl

end Sys2Proof.Machine
end

