-- ==== Sys2Proof/Proofs/DisengageTurning.lean ====
section
/-! SUPPORT. The spindle's changes of state (R95, R96, R104, R105), the disengage of a part whose spindle turns (R96, R103, R143), the
failure end that leads to it (R136), and what the step makes of what it hands on. -/

namespace Sys2Proof.Machine

/-! ## The spindle's changes of state (R95, R105) -/

/-- The SPINDLE notice of a change of state. -/
def spindleNotice (old new : SpindleState) : List Notice :=
  if spindleReports old new then [⟨.spindle, [byte new.code]⟩] else []

section
variable {s : State}

theorem setSpindleState_moved {x : Spindle} (h : s.spindle.state ≠ x.state) :
    setSpindleState x s = ((s.setSpindle x).setLink (s.link.postAll (spindleNotice s.spindle.state x.state))).setSignals
      (s.signals ++ [.spindleMoved]) := by
  unfold setSpindleState spindleNotice
  dsimp only
  rw [if_neg h]
  cases spindleReports s.spindle.state x.state <;> rfl

theorem setSpindleState_same {x : Spindle} (h : s.spindle.state = x.state) : setSpindleState x s = s.setSpindle x := by
  have hquiet : spindleReports s.spindle.state x.state = false := by simp [spindleReports, h]
  unfold setSpindleState
  dsimp only
  rw [if_pos h, hquiet]
  rfl

theorem turning_ne_stopped (h : s.turning) : s.spindle.state ≠ .stopped := by
  rcases h with h | h | h <;> rw [h] <;> decide

theorem turning_ne_braking (h : s.turning) : s.spindle.state ≠ .braking := by
  rcases h with h | h | h <;> rw [h] <;> decide

theorem turning_ne_coast (h : s.turning) : s.spindle.state ≠ .coast := by
  rcases h with h | h | h <;> rw [h] <;> decide

/-- A spindle that leaves LOCKED for a state other than LOCKED says so; no other change to such a state is reported. -/
theorem spindleNotice_leave {old new : SpindleState} (hn : new ≠ .locked) :
    spindleNotice old new = if old = .locked then [⟨.spindle, [byte new.code]⟩] else [] := by
  by_cases hl : old = .locked
  · simp [spindleNotice, spindleReports, hl, Ne.symm hn]
  · simp [spindleNotice, spindleReports, hl, hn]

theorem brakeOrder_of_turning (h : s.turning) :
    brakeOrder s = ((s.setSpindle s.spindle.braked).setLink
      (s.link.postAll (if s.spindle.state = .locked then [⟨.spindle, [5]⟩] else []))).setSignals (s.signals ++ [.spindleMoved]) := by
  have hbrake : brakeOrder s = enterBraking (s.setSpindle { s.spindle with run := false }) := by
    unfold brakeOrder
    rcases h with h | h | h <;> simp only [setSpindle_spindle, h]
  rw [hbrake, enterBraking, setSpindleState_moved (by exact turning_ne_braking h), spindleNotice_leave SpindleState.noConfusion]
  rfl

/-! ## The disengage (R143) -/

/-- The part with the loops open, the laser demand cleared and the spindle braking, as the steps of a disengage leave it. -/
def State.opened (s : State) : State :=
  (((cancelTask s).loopsOpened.unlit.setSpindle s.spindle.braked).setLink
    (s.link.postAll (if s.spindle.state = .locked then [⟨.spindle, [5]⟩] else []))).shockEnded.unread.setSignals
      (s.signals.filter (fun x => !x.isOutcome) ++ [.spindleMoved])

theorem disengageSteps_of_turning (h : s.turning) : disengageSteps s = s.opened := by
  calc disengageSteps s
      = (endShock (brakeOrder (openFocus (cancelTask s)).unlit)).unread := rfl
    _ = (endShock (brakeOrder (cancelTask s).loopsOpened.unlit)).unread := by rw [openFocus_eq]
    _ = _ := by
        rw [brakeOrder_of_turning (by exact h), endShock_of_open rfl rfl]
        rfl

theorem disengage_eq_of_turning (standby : Bool) (h : s.turning) :
    disengage standby s = (s.opened.bound standby).enteredDisengaging := by
  have hturns : s.opened.spindle.state ≠ .stopped := SpindleState.noConfusion
  rw [disengage, disengageSteps_of_turning h]
  exact (if_neg hturns).trans (setSeqState_disengaging _)

theorem enteredDisengaging_opened (standby : Bool) (first : List Notice) :
    (((s.setSeq { s.seq with queue := [] }).setLink (s.link.postAll first)).opened.bound standby).enteredDisengaging
      = (s.disengaged standby first).setSignals (s.signals.filter (fun x => !x.isOutcome) ++ [.spindleMoved]) := by
  simp only [State.disengaged, postAll_append, State.enteredDisengaging, State.bound, State.opened, State.unread,
    State.shockEnded, Groups.unshocked, State.unlit, State.loopsOpened, cancelTask, State.setSeq, State.setSeek, State.setLink,
    State.setSignals, State.setSpindle, Spindle.braked, Seek.dropTask, State.ownTarget]
  rfl

theorem disengage_of_turning (standby : Bool) (h : s.turning) (first : List Notice) :
    disengage standby ((s.setSeq { s.seq with queue := [] }).setLink (s.link.postAll first))
      = (s.disengaged standby first).setSignals (s.signals.filter (fun x => !x.isOutcome) ++ [.spindleMoved]) :=
  (disengage_eq_of_turning standby (by exact h)).trans (enteredDisengaging_opened standby first)

/-- A failure end (R136). -/
theorem failureEnd_of_turning (o : EndOutcome) (hq : queueLaw s.seq.queue) (h : s.turning) :
    failureEnd o s = (s.disengaged false (allEnd o.code s.seq.queue)).setSignals
      (s.signals.filter (fun x => !x.isOutcome) ++ [.spindleMoved]) := by
  rw [failureEnd, flush_endEntry_eq o hq, disengage_of_turning false h]

/-! ## The end of the step -/

theorem setSignals_nil (h : s.signals = []) : s.setSignals [] = s := by rw [← h]; rfl

/-- A step that hands on one thing takes it first. -/
theorem drain_emit (n : Nat) {x : Signal} (h : s.signals = []) : drain (n + 1) (emit x s) = drain n (handle x s) := by
  have hone : (emit x s).signals = [x] := by rw [emit_eq, setSignals_signals, h]; rfl
  rw [drain_cons n hone]
  exact congrArg (fun u => drain n (handle x u)) (setSignals_nil h)

theorem settle_emit {x : Signal} (h : s.signals = []) : settle (emit x s) = loaderTest (drain 63 (handle x s)) :=
  congrArg loaderTest (drain_emit 63 h)

/-- The spindle's own change is nothing to a sequencer that is not ENGAGING. -/
theorem drain_spindleMoved (n : Nat) {t : State} (h : t.seq.state ≠ .engaging) :
    drain (n + 1) (t.setSignals [.spindleMoved]) = t.setSignals [] := by
  rw [drain_cons n rfl]
  show drain n (engageAdvance (t.setSignals [])) = t.setSignals []
  rw [engageAdvance_of_not_engaging (by exact h), drain_of_quiet n rfl]

/-- A disengaged part is at rest, as the part was before. -/
theorem disengaged_atRest (hs : s.atRest) (h : s.turning) (standby : Bool) (first : List Notice) : (s.disengaged standby first).atRest :=
  atRest_of_not_stopped (turning_ne_stopped h) SpindleState.noConfusion hs hs.1 rfl

/-- What a disengage hands on, taken. -/
theorem drain_disengaged (n : Nat) (hs : s.signals = []) (standby : Bool) (first : List Notice) :
    drain (n + 1) ((s.disengaged standby first).setSignals [.spindleMoved]) = s.disengaged standby first := by
  have hquiet : (s.disengaged standby first).setSignals [] = s.disengaged standby first := by rw [← hs]; rfl
  rw [drain_spindleMoved n SeqState.noConfusion, hquiet]

theorem settle_disengaged (hs : s.atRest) (h : s.turning) (standby : Bool) (first : List Notice) :
    settle ((s.disengaged standby first).setSignals [.spindleMoved]) = s.disengaged standby first := by
  rw [settle, drain_disengaged 63 hs.1, loaderTest_of_atRest (disengaged_atRest hs h standby first)]

/-- A failure end with nothing else handed on. -/
theorem failureEnd_of_settled (o : EndOutcome) (hs : s.signals = []) (hq : queueLaw s.seq.queue) (h : s.turning) :
    failureEnd o s = (s.disengaged false (allEnd o.code s.seq.queue)).setSignals [.spindleMoved] := by
  rw [failureEnd_of_turning o hq h, hs]
  rfl

/-- A focus loop that was not held may be OFF before the disengage or not. -/
theorem disengaged_setFocus {x : FocusLoop} (hs : ¬(s.focus.state = .locked ∨ s.focus.state = .hold))
    (hx : ¬(x.state = .locked ∨ x.state = .hold)) (standby : Bool) (first : List Notice) :
    (s.setFocus x).disengaged standby first = s.disengaged standby first := by
  unfold State.disengaged
  rw [if_neg (c := (s.setFocus x).focus.state = .locked ∨ (s.setFocus x).focus.state = .hold) hx, if_neg hs]
  rfl

end

/-- Settles O35: both are a failure end with the spindle turning. -/
theorem engageFails : Obligations.EngageFails := by
  unfold Obligations.EngageFails
  intro s hs hq he ht
  refine ⟨fun hf => ?_, fun hstep htimer hv => ?_⟩
  · have hsearch : exec .focusFail s = .next (settle (emit .focusFail (s.setFocus {}))) := by
      rw [show exec .focusFail s = done lastSweepEnds s from rfl, done_of_running _ hs.2, lastSweepEnds, if_pos hf, searchFails]
    have hend : handle .focusFail (s.setFocus {}) = ((s.setFocus {}).disengaged false (allEnd 2 s.seq.queue)).setSignals [.spindleMoved] :=
      (if_pos he).trans (failureEnd_of_settled .focusFail (by exact hs.1.1) (by exact hq) (by exact ht))
    rw [hsearch, settle_emit (by exact hs.1.1), hend, disengaged_setFocus (by simp [hf]) (by simp), drain_disengaged 62 hs.1.1,
      loaderTest_of_atRest (disengaged_atRest hs.1 ht _ _)]
  · have hend : engageAddressTimeout s = failureEnd .noAddress s := by
      refine if_pos ?_
      simp [he, hstep, hv, Option.isSome_iff_ne_none.mpr htimer]
    rw [show exec .engageAddressTimeout s = done engageAddressTimeout s from rfl, done_of_running _ hs.2, hend,
      failureEnd_of_settled .noAddress hs.1.1 hq ht, settle_disengaged hs.1 ht]
    rfl

end Sys2Proof.Machine
end

