-- ==== Sys2Proof/Proofs/LoaderEvents.lean ====
section
/-! SUPPORT. The Loader Controller: the entries to its states (R164, R166 to R170), the end of a step that moved it, and its own events
(R164, R165, R167, R168). -/

namespace Sys2Proof.Machine

/-! ## Unclamp (R166) -/

/-- The blocks that hold state about the disc, cleared. -/
def State.unclamped (s : State) : State :=
  { s with
    angle := State.reset.angle, rev := State.reset.rev, defects := State.reset.defects
    seek := { State.reset.seek with frame := s.seek.frame }
    seq := { s.seq with resume := none }
    spindle := { s.spindle with target := 20000 } }

/-- The reset Zone Table gives T = 20,000 for every zone (R97, R131). -/
theorem zoneAt_reset (z : Nat) : (zoneAt State.reset.seek.zones z).interval = 20000 := by
  cases z <;> rfl

theorem unclamp_eq (s : State) : unclamp s = s.unclamped :=
  congrArg (fun n => { s.unclamped with spindle := { s.spindle with target := n } }) (zoneAt_reset _)

/-! ## Entries to the states (R164, R167, R168) -/

section
variable {s : State}

/-- The loader with its new state and the LOADER notice (R170). -/
def State.moved (s : State) (x : Loader) : State := (s.setLoader x).setLink (s.link.post .loader [byte x.state.code, flagByte x.jam])

theorem setLoaderState_eq (x : Loader) (s : State) : setLoaderState x s = s.moved x := rfl

/-- A disc not at its clamp is pulled. -/
theorem enterPulling_eq (h : s.sup.clampEnd.level = false) : enterPulling s = s.moved
    { s.loader with state := .pulling, ejectPending := false, jam := false, timer := 0, reload := none } :=
  if_neg fun hc => Bool.false_ne_true (h.symm.trans hc)

/-- The loader as an entry to RELEASING leaves it. -/
def Loader.releasing (x : Loader) : Loader := { x with state := .releasing, ejectPending := false, timer := 0 }

/-- An entry to RELEASING, before EJECT_END is tested: out of CLAMPED it is the unclamp. -/
def State.released (s : State) : State :=
  if s.loader.state = .clamped then (s.moved s.loader.releasing).unclamped else s.moved s.loader.releasing

theorem enterReleasing_eq (s : State) :
    enterReleasing s = if s.sup.ejectEnd.level = true then enterPresented s.released else s.released := by
  have hsup : s.released.sup = s.sup := by
    unfold State.released
    split_ifs <;> rfl
  have hcore : (if decide (s.loader.state = .clamped) = true then unclamp (setLoaderState s.loader.releasing s)
      else setLoaderState s.loader.releasing s) = s.released := by
    simp only [State.released, decide_eq_true_eq, unclamp_eq, setLoaderState_eq]
  unfold enterReleasing
  dsimp only
  rw [← hsup, ← hcore]
  rfl

theorem enterReleasing_held (h : s.sup.ejectEnd.level = false) : enterReleasing s = s.released := by
  rw [enterReleasing_eq, h]
  rfl

/-! ## The end of a step that moved the loader (R159) -/

/-- A loader out of CLAMPED, or with no eject pending, takes its drive at the end of the step and nothing else. -/
theorem settle_of_loader (hs : s.signals = []) (h : s.loader.state ≠ .clamped ∨ s.loader.ejectPending = false) :
    settle s = s.setLoader { s.loader with drive := s.loaderDemand } := by
  rw [settle_of_quiet hs, loaderTest, ejectRelease_of_not_due]
  rintro ⟨hclamped, hpending, _⟩
  rcases h with h | h
  · exact h hclamped
  · exact Bool.false_ne_true (h.symm.trans hpending)

/-- The motor permit (R159). -/
theorem motorPermit_iff : s.motorPermit = true ↔ s.spindle.state = .stopped ∧ (s.seq.laser && !s.sup.mute) = false
    ∧ s.sup.crankHold = false ∧ s.sup.mute = false := by
  simp only [State.motorPermit, State.laserOn, Bool.and_eq_true, Bool.not_eq_true', decide_eq_true_eq, and_assoc]

theorem motorPermit_of (h : s.spindle.state = .stopped) (hl : s.seq.laser = false) (hc : s.sup.crankHold = false)
    (hm : s.sup.mute = false) : s.motorPermit = true :=
  motorPermit_iff.mpr ⟨h, by rw [hl]; rfl, hc, hm⟩

theorem loaderDemand_of_permit (h : s.motorPermit = true) : s.loaderDemand =
    if s.loader.state = .pulling then 1536 else if s.loader.state = .releasing then -1536 else 0 := by
  rw [loaderDemand_eq, if_pos h]

end

/-! ## The loader's own events -/

/-- Settles O46. -/
theorem loaderEventsMove : Obligations.LoaderEventsMove := by
  unfold Obligations.LoaderEventsMove
  intro s hsig hheld hstop hlaser hcrank hmute hclamp heject hpower moved
  have hpermit : s.motorPermit = true := motorPermit_of hstop hlaser hcrank hmute
  refine ⟨fun hstate hpending => ?_, fun hstate => ?_, fun hstate => ?_, fun hstate hreload => ?_⟩
  · have hrelease : ejectRelease s = s.released := (if_pos (by simp [hstate, hpending, hpermit])).trans (enterReleasing_held heject)
    have hreleased : s.released = (s.moved s.loader.releasing).unclamped := if_pos hstate
    rw [show exec .ejectRelease s = done ejectRelease s from rfl, done_of_running _ hheld, hrelease, hreleased,
      settle_of_loader (by exact hsig) (.inr rfl), loaderDemand_of_permit (by exact hpermit)]
    rfl
  · have htimeout : loadTimeout s = (s.setLoader { s.loader with timer := 5000, jam := true }).released :=
      (if_pos (by simp [hstate, hpermit])).trans (enterReleasing_held (by exact heject))
    have hreleased : (s.setLoader { s.loader with timer := 5000, jam := true }).released
        = (s.setLoader { s.loader with timer := 5000, jam := true }).moved { s.loader.releasing with jam := true } :=
      if_neg (by simp [hstate])
    rw [show exec .loadTimeout s = done loadTimeout s from rfl, done_of_running _ hheld, htimeout, hreleased,
      settle_of_loader (by exact hsig) (.inr rfl), loaderDemand_of_permit (by exact hpermit)]
    rfl
  · have htimeout : releaseTimeout s = s.moved { s.loader with state := .jammed, jam := true, timer := 5000 } :=
      if_pos (by simp [hstate, hpermit])
    rw [show exec .releaseTimeout s = done releaseTimeout s from rfl, done_of_running _ hheld, htimeout,
      settle_of_loader (by exact hsig) (.inl LoaderState.noConfusion), loaderDemand_of_permit (by exact hpermit)]
    rfl
  · have hruns : s.reloadRuns = true := by
      simp [State.reloadRuns, State.motorsHeld, hstate, hcrank, hmute, hpower, Option.isSome_iff_ne_none.mpr hreload]
    have hexpiry : reloadExpiry s = s.moved
        { s.loader with state := .pulling, ejectPending := false, jam := false, timer := 0, reload := none } :=
      (if_pos hruns).trans (enterPulling_eq hclamp)
    rw [show exec .reloadTimerExpiry s = done reloadExpiry s from rfl, done_of_running _ hheld, hexpiry,
      settle_of_loader (by exact hsig) (.inr rfl), loaderDemand_of_permit (by exact hpermit)]
    rfl

end Sys2Proof.Machine
end

