-- ==== Sys2Proof/Proofs/SequencerStates.lean ====
section
/-! SUPPORT. The sequencer's changes of state, said once (R97, R114, R137, R182, R185), and the end of a disengage (R87, R103, R143, R144,
R165). -/

namespace Sys2Proof.Machine

section
variable {s : State}

/-! ## Changes of state -/

/-- The machine with the sequencer in another state: its neighbours follow, and out of SEEKING the target is the own address's again. -/
def State.entered (s : State) (st : SeqState) : State :=
  { s with
    spindle := { s.spindle with target := if s.seq.state = .seeking then s.ownTarget else s.spindle.target }
    seek := if st.reading && !s.seq.state.reading then { s.seek with watch := 0 } else s.seek
    seq := s.seq.enter st s.seek
    sup := { s.sup with idleTimer := if st = .paused then some 0 else none } }

/-- Out of SEEKING, T is evaluated for the own address (R97). -/
theorem evalTarget_eq (h : s.seq.state ≠ .seeking) : evalTarget s = s.setSpindle { s.spindle with target := s.ownTarget } := by
  have href : s.referenceZone = if s.seek.known then zoneOf s.seek.zones s.seek.aCur else 0 := if_neg h
  rw [evalTarget, href]
  rfl

theorem setSeqState_eq {st : SeqState} (hne : st ≠ .standby) (hs : st ≠ .seeking) : setSeqState st s = s.entered st := by
  have hread (x : State) (c : Bool) : (if c = true then x.setSeek { x.seek with watch := 0 } else x)
      = x.setSeek (if c = true then { x.seek with watch := 0 } else x.seek) := by
    cases c <;> rfl
  have hor : (decide (s.seq.state = .seeking) || decide (st = .seeking)) = decide (s.seq.state = .seeking) := by simp [hs]
  unfold setSeqState
  dsimp only
  rw [if_neg hne, hread, hor]
  by_cases hold : s.seq.state = .seeking
  · rw [if_pos (decide_eq_true hold), evalTarget_eq (by exact hs), State.entered, if_pos hold]
    cases (st.reading && !s.seq.state.reading) <;> rfl
  · rw [if_neg (by simp [hold]), State.entered, if_neg hold]
    rfl

/-- An entry to STANDBY out of another state than SEEKING brings the power mode STANDBY, with its notice where it is another (R182). -/
theorem setSeqState_standby (h : s.seq.state ≠ .seeking) : setSeqState .standby s =
    { s with
      seq := s.seq.enter .standby s.seek
      sup := { s.sup with idleTimer := none, power := .standby }
      link := if s.sup.power = .standby then s.link else s.link.post .power [1] } := by
  have hset : setSeqState .standby s
      = setPower .standby ((s.setSeq (s.seq.enter .standby s.seek)).setSup { s.sup with idleTimer := none }) := by
    unfold setSeqState
    dsimp only
    rw [if_pos rfl, if_neg (by simp [h]), if_neg (by simp [SeqState.reading])]
    rfl
  rw [hset]
  by_cases hp : s.sup.power = .standby
  · rw [setPower_same (by exact hp), if_pos hp, ← hp]
    rfl
  · rw [setPower, if_neg (by exact hp), if_neg hp]
    rfl

/-! ## The test of the head with nothing waiting (R136) -/

/-- Where no entry waits, the test of the head finds none. -/
theorem startHead_of_none (h : s.headDue = none) : startHead s = s := by rw [startHead, h]

theorem headDue_of_empty (h : s.seq.queue = []) : s.headDue = none := by rw [State.headDue, h]

/-- A test of the head that finds none is taken and nothing more. -/
theorem drain_testHead (n : Nat) (h : s.headDue = none) : drain (n + 1) (testHead s) = drain n s := by
  have hdue : (s.setSignals s.signals).headDue = none := h
  rw [drain_cons n rfl]
  exact congrArg (drain n) (startHead_of_none hdue)

/-! ## The arrival of a disengage (R143, R144, R182) -/

/-- The part after a disengage has arrived, with the notices of it. -/
def State.arrived (s : State) : State :=
  { s with
    seq := { s.seq with
      state := if s.seq.toStandby then .standby else .idle
      queue := [], toStandby := false, step := .none, addrTimer := none, loopWait := none, recTimer := 0, cause := .none
      attempts := 0 }
    sup := { s.sup with idleTimer := none, power := if s.seq.toStandby then .standby else .active }
    link := s.link.postAll ((if s.seq.toStandby then [⟨.power, [1]⟩] else []) ++ endNotices 0 s.seq.queue) }

theorem queueLaw_of_inProgress {q : List Entry} (h : q.length ≤ 1) : queueLaw q := by
  refine ⟨by omega, fun e he => ?_⟩
  have : q.tail = [] := List.length_eq_zero_iff.mp (by simp; omega)
  simp [this] at he

/-- The end of every entry, where none waits. -/
theorem endEntry_of_all (o : EndOutcome) (hq : s.seq.queue.all (·.inProgress) = true) (hlen : s.seq.queue.length ≤ 1) :
    endEntry o s = (s.setSeq { s.seq with queue := [] }).setLink (s.link.postAll (endNotices o.code s.seq.queue)) := by
  have hwait : s.seq.queue.filter (fun e => !e.inProgress) = [] := by
    rw [List.filter_eq_nil_iff]
    intro e he
    simp [List.all_eq_true.mp hq e he]
  rw [endEntry_eq o (queueLaw_of_inProgress hlen), hwait, List.filter_eq_self.mpr (List.all_eq_true.mp hq)]

/-- Only the DISENGAGE in progress, if any, is left in the queue. -/
theorem arrive_eq (hd : s.seq.state = .disengaging) (hp : s.sup.power = .active) (hq : s.seq.queue.all (·.inProgress) = true)
    (hlen : s.seq.queue.length ≤ 1) : arrive s = testHead s.arrived := by
  have hne : s.seq.state ≠ .seeking := by rw [hd]; decide
  have hstandby (h : s.seq.toStandby = true) : endEntry .done ((setSeqState .standby s).setSeq
      { (setSeqState .standby s).seq with toStandby := false }) = s.arrived := by
    rw [setSeqState_standby hne, if_neg (by rw [hp]; decide), endEntry_of_all .done (by exact hq) (by exact hlen)]
    unfold State.arrived
    rw [h, postAll_append]
    rfl
  have hidle (h : s.seq.toStandby = false) : endEntry .done ((setSeqState .idle s).setSeq
      { (setSeqState .idle s).seq with toStandby := false }) = s.arrived := by
    rw [setSeqState_eq (by decide) (by decide), endEntry_of_all .done (by exact hq) (by exact hlen)]
    unfold State.arrived State.entered
    rw [h, if_neg hne, ← hp]
    rfl
  unfold arrive
  cases h : s.seq.toStandby with
  | true => exact congrArg testHead (hstandby h)
  | false => exact congrArg testHead (hidle h)

/-! ## What a stop hands on (R87, R103, R143, R165) -/

theorem drain_moved (n : Nat) {rest : List Signal} (h : s.seq.state ≠ .engaging) :
    drain (n + 1) (s.setSignals (.spindleMoved :: rest)) = drain n (s.setSignals rest) := by
  rw [drain_cons n rfl]
  exact congrArg (drain n) (engageAdvance_of_not_engaging (by exact h))

theorem drain_arrive (n : Nat) {rest : List Signal} (hd : s.seq.state = .disengaging) (hp : s.sup.power = .active)
    (hq : s.seq.queue.all (·.inProgress) = true) (hlen : s.seq.queue.length ≤ 1) :
    drain (n + 2) (s.setSignals (.spindleStopped :: rest)) = drain n (s.arrived.setSignals rest) := by
  have hstop : seqStopped (s.setSignals rest) = testHead (s.arrived.setSignals rest) :=
    (if_pos hd).trans (arrive_eq (by exact hd) (by exact hp) (by exact hq) (by exact hlen))
  rw [drain_cons (n + 1) rfl]
  exact (congrArg (drain (n + 1)) hstop).trans (drain_testHead n (headDue_of_empty rfl))

/-- The part with its pending launch taken; `fe` is what the group switch, if any, leaves of the Front End. -/
def State.launched (s : State) (g : GroupId) (fe : FrontEnd) : State :=
  { s with fe := fe, groups := { s.groups with base := g, pending := none }, link := s.link.post .launch [byte g.val] }

/-- A pending launch with both loops open (R87, R88). -/
theorem takePending_of_open {g : GroupId} (hg : s.groups.pending = some g) (hf : s.focusHeld = false) (ht : s.trackHeld = false) :
    ∃ fe, takePending s = s.launched g fe := by
  have hregroup : ∃ fe, regroup { s.groups with base := g, pending := none } (s.setGroups { s.groups with pending := none })
      = (s.setGroups { s.groups with base := g, pending := none }).setFe fe := by
    by_cases hid : activeId { s.groups with base := g, pending := none } = activeId s.groups
    · exact ⟨s.fe, regroup_same hid⟩
    · exact ⟨_, (regroup_switch hid).trans (groupSwitch_of_open (by exact hf) (by exact ht))⟩
  obtain ⟨fe, hfe⟩ := hregroup
  refine ⟨fe, ?_⟩
  rw [takePending, takePendingThen, hg]
  exact congrArg (post .launch [byte g.val]) hfe

theorem drain_launch (n : Nat) {rest : List Signal} {g : GroupId} (hg : s.groups.pending = some g) (hf : s.focusHeld = false)
    (ht : s.trackHeld = false) :
    ∃ fe, drain (n + 1) (s.setSignals (.launchDue :: rest)) = drain n ((s.launched g fe).setSignals rest) := by
  obtain ⟨fe, hfe⟩ := takePending_of_open (s := s.setSignals rest) hg hf ht
  have htake : handle .launchDue (s.setSignals rest) = (s.launched g fe).setSignals rest := hfe
  exact ⟨fe, (drain_cons (x := .launchDue) (rest := rest) n rfl).trans (congrArg (drain n) htake)⟩

/-- The state of a loader that releases its disc, by EJECT_END and SLOT (R167, R168). -/
def State.releasedTo (s : State) : LoaderState :=
  if !s.sup.ejectEnd.level then .releasing else if s.sup.slot.level then .presented else .empty

theorem enterPresented_eq (s : State) : ∃ x l, enterPresented s = (s.setLoader x).setLink l
    ∧ x.state = (if s.sup.slot.level then .presented else .empty) ∧ x.ejectPending = s.loader.ejectPending := by
  cases hslot : s.sup.slot.level with
  | true => exact ⟨_, _, if_pos hslot, rfl, rfl⟩
  | false => exact ⟨_, _, if_neg fun hc => Bool.false_ne_true (hslot.symm.trans hc), rfl, rfl⟩

/-- A clamped disc released: the unclamp, and the loader where its switches say (R166 to R168). -/
theorem enterReleasing_clamped (h : s.loader.state = .clamped) : ∃ x l, enterReleasing s = (s.unclamped.setLoader x).setLink l
    ∧ x.state = s.releasedTo ∧ x.ejectPending = false := by
  have hreleased : s.released = (s.moved s.loader.releasing).unclamped := if_pos h
  rw [enterReleasing_eq, hreleased]
  cases he : s.sup.ejectEnd.level with
  | true =>
    obtain ⟨x, l, heq, hstate, hpending⟩ := enterPresented_eq (s.moved s.loader.releasing).unclamped
    refine ⟨x, l, (if_pos rfl).trans heq, hstate.trans ?_, hpending⟩
    simp only [State.releasedTo, he]
    rfl
  | false => exact ⟨s.loader.releasing, _, if_neg Bool.false_ne_true, by simp [State.releasedTo, he, Loader.releasing], rfl⟩

theorem drain_release (n : Nat) {rest : List Signal} (hc : s.loader.state = .clamped) (he : s.loader.ejectPending = true)
    (hp : s.motorPermit = true) : ∃ x l, drain (n + 1) (s.setSignals (.loaderDue :: rest))
      = drain n (((s.unclamped.setLoader x).setLink l).setSignals rest) ∧ x.state = s.releasedTo ∧ x.ejectPending = false := by
  obtain ⟨x, l, heq, hstate, hpending⟩ := enterReleasing_clamped (s := s.setSignals rest) hc
  have hdue : ((s.setSignals rest).loader.state = .clamped && (s.setSignals rest).loader.ejectPending
      && (s.setSignals rest).motorPermit) = true := by
    have hp' : (s.setSignals rest).motorPermit = true := hp
    simp [hc, he, hp']
  have hrelease : handle .loaderDue (s.setSignals rest) = _ := (if_pos hdue).trans heq
  exact ⟨x, l, (drain_cons (x := .loaderDue) (rest := rest) n rfl).trans (congrArg (drain n) hrelease), hstate, hpending⟩

theorem drain_noRelease (n : Nat) {rest : List Signal} (hp : s.motorPermit = false) :
    drain (n + 1) (s.setSignals (.loaderDue :: rest)) = drain n (s.setSignals rest) := by
  rw [drain_cons n rfl]
  refine congrArg (drain n) (ejectRelease_of_not_due fun h => Bool.false_ne_true ?_)
  exact hp.symm.trans h.2.2

end

end Sys2Proof.Machine
end

