-- ==== Sys2Proof/Proofs/BrakingEnds.lean ====
section
/-! SUPPORT. The end of a braking in DISENGAGING: the stop, what it hands on in each of its orders, and where the part then stands (R87,
R103, R143, R144, R165, R166). -/

namespace Sys2Proof.Machine

section
variable {s : State}

/-- The part with its spindle STOPPED and no edge counted of a next spin-up. -/
def State.halted (s : State) : State :=
  { s with
    angle := { s.angle with spinUp := 0 }
    spindle := { s.spindle with state := .stopped, isp := 0, drive := 0, lockRun := 0, unlockRun := 0 } }

/-- What a stop hands on does not depend on what is handed on already. -/
theorem stopSignals_setSignals (s : State) (x : List Signal) :
    stopSignals (s.setSignals x) = ((stopSignals s).1, (stopSignals s).2.setSignals x) := by
  unfold stopSignals
  cases hg : s.groups.pending <;> cases he : s.loader.ejectPending <;> simp only [setSignals_groups, setSignals_loader, hg, he] <;> rfl

theorem stopSignals_snd (s : State) : ∃ c, (stopSignals s).2 = s.setFreeCount c := by
  unfold stopSignals
  cases s.groups.pending <;> cases s.loader.ejectPending <;> exact ⟨_, rfl⟩

/-- The stop of a braking spindle hands on its own change first. -/
theorem enterStopped_eq (hs : s.signals = []) (hb : s.spindle.state = .braking) :
    enterStopped s = (stopSignals s.halted).2.setSignals (.spindleMoved :: (stopSignals s.halted).1) := by
  have hmoved : setSpindleState { s.spindle with state := .stopped, drive := 0, isp := 0, lockRun := 0, unlockRun := 0 } s
      = (s.setSpindle s.halted.spindle).setSignals [.spindleMoved] := by
    rw [setSpindleState_moved (by rw [hb]; exact SpindleState.noConfusion), spindleNotice_leave SpindleState.noConfusion,
      if_neg (by rw [hb]; decide), hs]
    rfl
  have hhand : enterStopped s = (stopSignals (s.halted.setSignals [.spindleMoved])).2.setSignals
      ((stopSignals (s.halted.setSignals [.spindleMoved])).2.signals ++ (stopSignals (s.halted.setSignals [.spindleMoved])).1) := by
    rw [enterStopped, hmoved]
    rfl
  rw [hhand, stopSignals_setSignals]
  rfl

/-- A part whose disengage is under way with everything done but the stop: the spindle is braking, both loops are OFF, the disc is clamped,
and only a DISENGAGE in progress, if any, is left in the queue. -/
structure Arriving (s : State) : Prop where
  state : s.seq.state = .disengaging
  power : s.sup.power = .active
  queue : s.seq.queue.all (·.inProgress) = true
  length : s.seq.queue.length ≤ 1
  focus : s.focusHeld = false
  track : s.trackHeld = false

theorem Arriving.ne (h : Arriving s) : s.seq.state ≠ .engaging := by rw [h.state]; decide

/-- What is left when the stop has been taken. -/
structure Stopped (s u : State) : Prop where
  spindle : u.spindle.state = .stopped
  /-- No release is due. -/
  held : u.loader.state ≠ .clamped ∨ u.loader.ejectPending = false ∨ u.motorPermit = false
  groups : ∀ g, s.groups.pending = some g → u.groups = { s.groups with base := g, pending := none }
  /-- A waiting eject has released the disc. -/
  released : s.loader.ejectPending = true → s.motorPermit = true →
    u.loader.ejectPending = false ∧ u.loader.state = s.releasedTo ∧ u.angle = State.reset.angle ∧ u.rev = State.reset.rev
      ∧ u.defects = State.reset.defects ∧ u.seek = { State.reset.seek with frame := s.seek.frame } ∧ u.seq.resume = none
      ∧ u.spindle.target = 20000 ∧ u.motorPermit = true

/-- A clamped disc is not moved (R159). -/
theorem loaderDemand_of_clamped {u : State} (h : u.loader.state = .clamped) : u.loaderDemand = 0 := by
  simp [loaderDemand_eq, h]

theorem releasedTo_ne_clamped (s : State) : s.releasedTo ≠ .clamped := by
  unfold State.releasedTo
  split_ifs <;> decide

/-- A loader out of CLAMPED, or without the permit, has no release to make. -/
theorem ejectRelease_of_other {u : State} (h : u.loader.state ≠ .clamped ∨ u.loader.ejectPending = false ∨ u.motorPermit = false) :
    ejectRelease u = u := by
  refine ejectRelease_of_not_due fun hdue => ?_
  rcases h with h | h | h
  · exact h hdue.1
  · exact Bool.false_ne_true (h.symm.trans hdue.2.1)
  · exact Bool.false_ne_true (h.symm.trans hdue.2.2)

/-- With no eject waiting: the arrival, and the launch before or after it. -/
theorem stopped_of_noEject (h : Arriving s) (hstop : s.spindle.state = .stopped) (he : s.loader.ejectPending = false) :
    Stopped s (drain 63 ((stopSignals s).2.setSignals (stopSignals s).1)) := by
  have hnone (P : Prop) (hd : s.loader.ejectPending = true) : P := absurd (he.symm.trans hd) Bool.false_ne_true
  cases hg : s.groups.pending with
  | none =>
    have hsig : stopSignals s = ([.spindleStopped], s) := by simp only [stopSignals, hg, he, Option.isSome_none]
    rw [hsig, drain_arrive 61 h.state h.power h.queue h.length, drain_of_quiet 61 rfl]
    exact ⟨hstop, (.inr (.inl he)), fun g hg' => absurd (hg.symm.trans hg') (by simp), fun hd => hnone _ hd⟩
  | some g =>
    have hgroups (g' : GroupId) (hg' : s.groups.pending = some g') :
        ({ s.groups with base := g, pending := none } : Groups) = { s.groups with base := g', pending := none } := by
      rw [Option.some.inj (hg.symm.trans hg')]
    have hsig : stopSignals s = (if (takeOrder s).1 then [.launchDue, .spindleStopped] else [.spindleStopped, .launchDue],
        s.setFreeCount (s.freeCount + 1)) := by
      simp only [stopSignals, hg, he, Option.isSome_some, takeOrder_snd]
    rw [hsig]
    cases (takeOrder s).1 with
    | true =>
      obtain ⟨fe, hfe⟩ := drain_launch 62 (s := s.setFreeCount (s.freeCount + 1)) (rest := [.spindleStopped]) hg h.focus h.track
      refine (hfe.trans (drain_arrive 60 h.state h.power h.queue h.length)) ▸ ?_
      rw [drain_of_quiet 60 rfl]
      exact ⟨hstop, (.inr (.inl he)), hgroups, fun hd => hnone _ hd⟩
    | false =>
      obtain ⟨fe, hfe⟩ := drain_launch 60 (s := (s.setFreeCount (s.freeCount + 1)).arrived) (rest := []) hg h.focus h.track
      have harrive := drain_arrive 61 (s := s.setFreeCount (s.freeCount + 1)) (rest := [.launchDue]) h.state h.power h.queue h.length
      refine (harrive.trans hfe) ▸ ?_
      rw [drain_of_quiet 60 rfl]
      exact ⟨hstop, (.inr (.inl he)), hgroups, fun hd => hnone _ hd⟩

/-! ## With an eject waiting -/

/-- What the waiting eject leaves, with the permit or without it. -/
structure Ejected (s v : State) : Prop where
  seq : v.seq = { s.seq with resume := v.seq.resume }
  sup : v.sup = s.sup
  focus : v.focus = s.focus
  track : v.track = s.track
  groups : v.groups = s.groups
  spindle : v.spindle.state = s.spindle.state
  held : v.loader.state ≠ .clamped ∨ v.loader.ejectPending = false ∨ v.motorPermit = false
  released : s.motorPermit = true →
    v.loader.ejectPending = false ∧ v.loader.state = s.releasedTo ∧ v.angle = State.reset.angle ∧ v.rev = State.reset.rev
      ∧ v.defects = State.reset.defects ∧ v.seek = { State.reset.seek with frame := s.seek.frame } ∧ v.seq.resume = none
      ∧ v.spindle.target = 20000

theorem drain_loaderDue (n : Nat) {rest : List Signal} (hc : s.loader.state = .clamped) (he : s.loader.ejectPending = true) :
    ∃ v, drain (n + 1) (s.setSignals (.loaderDue :: rest)) = drain n (v.setSignals rest) ∧ Ejected s v := by
  by_cases hp : s.motorPermit = true
  · obtain ⟨x, l, heq, hstate, hpending⟩ := drain_release n (rest := rest) hc he hp
    refine ⟨_, heq, ⟨rfl, rfl, rfl, rfl, rfl, rfl, .inl ?_, fun _ => ⟨hpending, hstate, rfl, rfl, rfl, rfl, rfl, rfl⟩⟩⟩
    exact fun hcl => releasedTo_ne_clamped s (hstate.symm.trans hcl)
  · exact ⟨s, drain_noRelease n (Bool.not_eq_true _ ▸ hp), ⟨rfl, rfl, rfl, rfl, rfl, rfl, .inr (.inr (Bool.not_eq_true _ ▸ hp)),
      fun hp' => absurd hp' hp⟩⟩

theorem Ejected.arriving {v : State} (hv : Ejected s v) (h : Arriving s) : Arriving v where
  state := by rw [hv.seq]; exact h.state
  power := by rw [hv.sup]; exact h.power
  queue := by rw [hv.seq]; exact h.queue
  length := by rw [hv.seq]; exact h.length
  focus := by rw [State.focusHeld, hv.focus]; exact h.focus
  track := by rw [State.trackHeld, hv.track]; exact h.track

theorem Ejected.motorPermit {v : State} (hv : Ejected s v) : v.motorPermit = s.motorPermit := by
  have hlaser : v.seq.laser = s.seq.laser := by rw [hv.seq]
  simp only [State.motorPermit, State.laserOn, hv.spindle, hv.sup, hlaser]

/-- A part that stands as `s` but for what the launch and the arrival change. -/
structure Behind (s w : State) : Prop where
  spindle : w.spindle.state = .stopped
  groups : ∀ g, s.groups.pending = some g → w.groups = { s.groups with base := g, pending := none }
  permit : w.motorPermit = s.motorPermit
  switches : w.releasedTo = s.releasedTo
  frame : w.seek.frame = s.seek.frame

/-- What is left where the release comes behind the launch, if any. -/
theorem Ejected.stopped {w v : State} (hv : Ejected w v) (hw : Behind s w) : Stopped s v where
  spindle := hv.spindle.trans hw.spindle
  held := hv.held
  groups g hg' := hv.groups.trans (hw.groups g hg')
  released _ hpermit := by
    obtain ⟨h1, h2, h3, h4, h5, h6, h7, h8⟩ := hv.released (hw.permit.trans hpermit)
    exact ⟨h1, h2.trans hw.switches, h3, h4, h5, h6.trans (by rw [hw.frame]), h7, h8, hv.motorPermit.trans (hw.permit.trans hpermit)⟩

/-- The arrival, and the end of what is handed on, leave what the stop has left. -/
theorem Stopped.arrived {u : State} (hu : Stopped s u) : Stopped s (u.arrived.setSignals []) := ⟨hu.spindle, hu.held, hu.groups, hu.released⟩

theorem Stopped.setSignals {u : State} (hu : Stopped s u) : Stopped s (u.setSignals []) := ⟨hu.spindle, hu.held, hu.groups, hu.released⟩

theorem stopped_of_eject (h : Arriving s) (hstop : s.spindle.state = .stopped) (hc : s.loader.state = .clamped)
    (he : s.loader.ejectPending = true) : Stopped s (drain 63 ((stopSignals s).2.setSignals (stopSignals s).1)) := by
  cases hg : s.groups.pending with
  | none =>
    have hsig : stopSignals s = (if (takeOrder s).1 then [.loaderDue, .spindleStopped] else [.spindleStopped, .loaderDue],
        s.setFreeCount (s.freeCount + 1)) := by
      simp only [stopSignals, hg, he, Option.isSome_none, takeOrder_snd]
    have hnone (g : GroupId) (hg' : s.groups.pending = some g) : s.groups = { s.groups with base := g, pending := none } :=
      absurd (hg.symm.trans hg') (by simp)
    rw [hsig]
    cases (takeOrder s).1 with
    | true =>
      obtain ⟨v, hd, hv⟩ := drain_loaderDue 62 (s := s.setFreeCount (s.freeCount + 1)) (rest := [.spindleStopped]) hc he
      have ha : Arriving v := hv.arriving ⟨h.state, h.power, h.queue, h.length, h.focus, h.track⟩
      refine (hd.trans (drain_arrive 60 ha.state ha.power ha.queue ha.length)) ▸ ?_
      rw [drain_of_quiet 60 rfl]
      exact (hv.stopped ⟨hstop, hnone, rfl, rfl, rfl⟩).arrived
    | false =>
      obtain ⟨v, hd, hv⟩ := drain_loaderDue 60 (s := (s.setFreeCount (s.freeCount + 1)).arrived) (rest := []) hc he
      have harrive := drain_arrive 61 (s := s.setFreeCount (s.freeCount + 1)) (rest := [.loaderDue]) h.state h.power h.queue h.length
      refine (harrive.trans hd) ▸ ?_
      rw [drain_of_quiet 60 rfl]
      exact (hv.stopped ⟨hstop, hnone, rfl, rfl, rfl⟩).setSignals
  | some g =>
    have hsig : ∃ c l, stopSignals s = (l, s.setFreeCount c) ∧ (l = [.spindleStopped, .launchDue, .loaderDue]
        ∨ l = [.launchDue, .loaderDue, .spindleStopped] ∨ l = [.launchDue, .spindleStopped, .loaderDue]) := by
      simp only [stopSignals, hg, he, Option.isSome_some, takeOrder_snd]
      refine ⟨_, _, rfl, ?_⟩
      by_cases ha : (takeOrder s).1 = true
      · by_cases hb : (takeOrder (s.setFreeCount (s.freeCount + 1))).1 = true
        · exact .inr (.inl (by simp only [ha, hb]; rfl))
        · exact .inr (.inr (by simp only [ha, Bool.not_eq_true _ ▸ hb]; rfl))
      · exact .inl (by simp only [Bool.not_eq_true _ ▸ ha]; rfl)
    have hgroups (g' : GroupId) (hg' : s.groups.pending = some g') :
        ({ s.groups with base := g, pending := none } : Groups) = { s.groups with base := g', pending := none } := by
      rw [Option.some.inj (hg.symm.trans hg')]
    obtain ⟨c, l, hsig, hl⟩ := hsig
    rw [hsig]
    rcases hl with rfl | rfl | rfl
    · obtain ⟨fe, hfe⟩ := drain_launch 60 (s := (s.setFreeCount c).arrived) (rest := [.loaderDue]) hg h.focus h.track
      obtain ⟨v, hd, hv⟩ := drain_loaderDue 59 (s := (s.setFreeCount c).arrived.launched g fe) (rest := []) hc he
      have harrive := drain_arrive 61 (s := s.setFreeCount c) (rest := [.launchDue, .loaderDue]) h.state h.power h.queue h.length
      refine ((harrive.trans hfe).trans hd) ▸ ?_
      rw [drain_of_quiet 59 rfl]
      exact (hv.stopped ⟨hstop, hgroups, rfl, rfl, rfl⟩).setSignals
    · obtain ⟨fe, hfe⟩ := drain_launch 62 (s := s.setFreeCount c) (rest := [.loaderDue, .spindleStopped]) hg h.focus h.track
      obtain ⟨v, hd, hv⟩ := drain_loaderDue 61 (s := (s.setFreeCount c).launched g fe) (rest := [.spindleStopped]) hc he
      have ha : Arriving v := hv.arriving ⟨h.state, h.power, h.queue, h.length, h.focus, h.track⟩
      refine ((hfe.trans hd).trans (drain_arrive 59 ha.state ha.power ha.queue ha.length)) ▸ ?_
      rw [drain_of_quiet 59 rfl]
      exact (hv.stopped ⟨hstop, hgroups, rfl, rfl, rfl⟩).arrived
    · obtain ⟨fe, hfe⟩ := drain_launch 62 (s := s.setFreeCount c) (rest := [.spindleStopped, .loaderDue]) hg h.focus h.track
      obtain ⟨v, hd, hv⟩ := drain_loaderDue 59 (s := ((s.setFreeCount c).launched g fe).arrived) (rest := []) hc he
      have harrive := drain_arrive 60 (s := (s.setFreeCount c).launched g fe) (rest := [.loaderDue]) h.state h.power h.queue h.length
      refine ((hfe.trans harrive).trans hd) ▸ ?_
      rw [drain_of_quiet 59 rfl]
      exact (hv.stopped ⟨hstop, hgroups, rfl, rfl, rfl⟩).setSignals

end

/-- Settles O34: with nothing waiting the arrival is all that follows; else each order leaves the same. -/
theorem brakingEndsInStop : Obligations.BrakingEndsInStop := by
  unfold Obligations.BrakingEndsInStop
  intro s hs hb hd hlaser hc hf ht hp hq hlen stopped
  have hArr : Arriving s.halted := ⟨hd, hp, hq, hlen, by simp [State.focusHeld, State.halted, hf], by simp [State.trackHeld, State.halted, ht]⟩
  have hrun : exec .brakingTimeout s = .next (settle (enterStopped s)) := by
    rw [show exec .brakingTimeout s = done brakingTimeout s from rfl, done_of_running _ hs.2, brakingTimeout, if_pos hb]
  have hpermit : s.motorPermit = false := motorPermit_of_not_stopped (by rw [hb]; decide)
  obtain ⟨n, hn⟩ := stopSignals_snd s.halted
  have hstep : exec .brakingTimeout s = .next (loaderTest (drain 63 ((stopSignals s.halted).2.setSignals (stopSignals s.halted).1))) := by
    rw [hrun, enterStopped_eq hs.1.1 hb, settle, hn, drain_moved 63 (by exact hArr.ne)]
  refine ⟨fun he hg => ?_, fun g hg => ?_, fun he hcrank hmute => ?_⟩
  · have hsig : stopSignals s.halted = ([.spindleStopped], s.halted) := by
      have hg' : s.halted.groups.pending = none := hg
      have he' : s.halted.loader.ejectPending = false := he
      simp only [stopSignals, hg', he', Option.isSome_none]
    have hdrive : s.loader.drive = 0 := ((atRest_iff_of_not_stopped (by rw [hb]; decide)).mp hs.1).2
    have hrest : (s.halted.arrived.setSignals []).atRest := by
      refine ⟨rfl, hdrive.trans ?_, fun hdue => ?_⟩
      · exact (loaderDemand_of_clamped (by exact hc)).symm
      · exact Bool.false_ne_true (he.symm.trans hdue.2.1)
    have hquiet : s.halted.arrived.setSignals [] = s.halted.arrived := setSignals_nil hs.1.1
    rw [hstep, hsig, drain_arrive 61 hArr.state hArr.power hArr.queue hArr.length, drain_of_quiet 61 rfl, loaderTest_of_atRest hrest, hquiet]
    rfl
  · have hstopped : Stopped s.halted (drain 63 ((stopSignals s.halted).2.setSignals (stopSignals s.halted).1)) := by
      cases he : s.loader.ejectPending with
      | true => exact stopped_of_eject hArr rfl hc he
      | false => exact stopped_of_noEject hArr rfl he
    refine ⟨_, hstep, ?_⟩
    rw [loaderTest, ejectRelease_of_other hstopped.held]
    exact ⟨hstopped.spindle, hstopped.groups g hg⟩
  · have hstopped := stopped_of_eject hArr rfl hc he
    obtain ⟨hpending, hstate, hangle, hrev, hdefects, hseek, hresume, htarget, hmotor⟩ :=
      hstopped.released he (motorPermit_of rfl hlaser hcrank hmute)
    refine ⟨_, hstep, ?_⟩
    rw [loaderTest, ejectRelease_of_other hstopped.held]
    refine ⟨hstopped.spindle, hpending, hstate, ?_, hangle, hrev, hdefects, hseek, hresume, htarget⟩
    show State.loaderDemand _ = _
    rw [loaderDemand_of_permit hmotor, hstate, State.releasedTo]
    have hswitch : s.halted.sup = s.sup := rfl
    rw [hswitch]
    cases s.sup.ejectEnd.level <;> cases s.sup.slot.level <;> rfl

end Sys2Proof.Machine
end

