-- ==== Sys2Proof/Proofs/EntryStarts.lean ====
section
/-! SUPPORT. The start of an entry in IDLE and STANDBY (R136, R138, R139): the head test, the ends at once, and an ENGAGE up to its first
wait. -/

namespace Sys2Proof.Machine

section
variable {s : State} {e : Entry} {rest : List Entry}

/-! ## The test of the head -/

theorem exec_entryStart (hs : s.settled) : exec .entryStart s = .next (loaderTest (drain 63 (startHead s))) := by
  have hone : (testHead s).signals = [.testHead] := by rw [testHead, emitNow_eq, setSignals_signals, hs.1.1]
  rw [show exec .entryStart s = done testHead s from rfl, done_of_running _ hs.2, settle, drain_cons 63 hone]
  exact congrArg (fun u => Host.Outcome.next (loaderTest (drain 63 (startHead u)))) (setSignals_nil hs.1.1)

theorem headDue_of_waiting (hq : s.seq.queue = e :: rest) (he : e.inProgress = false) (hc : s.sup.crankHold = false)
    (hst : s.seq.state = .idle ∨ s.seq.state = .standby ∨ s.seq.state = .following) : s.headDue = some e.motion := by
  rw [State.headDue, hq]
  refine if_pos ?_
  rcases hst with h | h | h <;> simp [he, hc, h]

theorem startHead_of_disengaged (hq : s.seq.queue = e :: rest) (he : e.inProgress = false) (hc : s.sup.crankHold = false)
    (hst : s.seq.state = .idle ∨ s.seq.state = .standby) : startHead s = startDisengaged e.motion s := by
  rw [startHead, headDue_of_waiting hq he hc (by rcases hst with h | h <;> simp [h])]
  exact if_neg (by rcases hst with h | h <;> rw [h] <;> decide)

theorem startHead_of_following (hq : s.seq.queue = e :: rest) (he : e.inProgress = false) (hc : s.sup.crankHold = false)
    (hst : s.seq.state = .following) : startHead s = startFollowing e.motion s := by
  rw [startHead, headDue_of_waiting hq he hc (.inr (.inr hst))]
  exact if_pos hst

theorem markHead_eq (hq : s.seq.queue = e :: rest) :
    markHead s = s.setSeq { s.seq with queue := { e with inProgress := true } :: rest } := by
  rw [markHead, hq]

/-! ## Ends at once (R136) -/

/-- The part without its head entry, whose end is posted. -/
def State.headEnds (s : State) (o : EndOutcome) (e : Entry) (rest : List Entry) : State :=
  (s.setSeq { s.seq with queue := rest }).setLink (s.link.postAll (endNotices o.code [e]))

theorem endsAtOnce_eq (o : EndOutcome) (hq : s.seq.queue = e :: rest) : endsAtOnce o s = testHead (s.headEnds o e rest) := by
  rw [endsAtOnce, markHead_eq hq]
  rfl

theorem exec_endsAtOnce (o : EndOutcome) (hs : s.settled) (hq : s.seq.queue = [e]) (h : startHead s = endsAtOnce o s) :
    exec .entryStart s = .next (s.headEnds o e []) := by
  have hsig : (s.headEnds o e []).signals = [] := hs.1.1
  rw [exec_entryStart hs, h, endsAtOnce_eq o hq, drain_testHead 62 (headDue_of_empty rfl), drain_of_quiet 62 hsig, loaderTest_of_atRest]
  exact hs.1

/-! ## The start of an ENGAGE (R8, R96, R99, R138, R139) -/

/-- The spindle as the start order kicks it. -/
def Spindle.kicked (x : Spindle) (target : Nat) : Spindle :=
  { x with state := .kick, run := true, drive := 2047, lockRun := 0, unlockRun := 0, timer := 0, target := target }

theorem startOrder_of_stopped (hsp : s.spindle.state = .stopped) (hm : s.motorsHeld = false) (hst : s.seq.state ≠ .seeking) :
    startOrder s = (s.setSpindle (s.spindle.kicked s.ownTarget)).setSignals (s.signals ++ [.spindleMoved]) := by
  have hstopped : (evalTarget (s.setSpindle { s.spindle with run := true })).spindle.state = .stopped := hsp
  have hkick : startOrder s = enterKick (evalTarget (s.setSpindle { s.spindle with run := true })) := by
    unfold startOrder
    dsimp only
    rw [hstopped]
    exact if_neg fun hheld => Bool.false_ne_true (hm.symm.trans hheld)
  rw [hkick, evalTarget_eq (by exact hst), enterKick, setSpindleState_moved (by exact fun hk => SpindleState.noConfusion (hsp.symm.trans hk)),
    spindleNotice_leave SpindleState.noConfusion, if_neg (by exact fun hk => SpindleState.noConfusion (hsp.symm.trans hk))]
  rfl

/-- An ENGAGE waits in its first step while focus is not held and the spindle has not left KICK. -/
theorem engageAdvance_of_waiting (hst : s.seq.state = .engaging) (hstep : s.seq.step = .engageFocus) (hf : s.focusHeld = false)
    (hsp : s.spinning = false) : engageAdvance s = s := by
  rw [engageAdvance, if_pos hst, hstep]
  dsimp only
  rw [engageFocus, hf, hsp]
  rfl

/-- The part with an ENGAGE begun: c set, the laser demanded, the spindle kicked, its first step waiting. -/
def State.engaged (s : State) : State :=
  { s with
    fe := s.fe.engage s.active
    spindle := s.spindle.kicked s.ownTarget
    seq := { s.seq.enter .engaging s.seek with laser := true, step := .engageFocus }
    sup := { s.sup with idleTimer := none } }

theorem engageRun_of_stopped (hsp : s.spindle.state = .stopped) (hm : s.motorsHeld = false) (hst : s.seq.state ≠ .seeking)
    (hf : s.focusHeld = false) : engageRun s = s.engaged.setSignals (s.signals ++ [.spindleMoved]) := by
  have hentered : setSeqState .engaging s = (s.setSeq (s.seq.enter .engaging s.seek)).setSup { s.sup with idleTimer := none } := by
    rw [setSeqState_eq (by decide) (by decide), State.entered, if_neg hst]
    rfl
  rw [engageRun, hentered]
  dsimp only
  rw [startOrder_of_stopped (by exact hsp) (by exact hm) (by exact SeqState.noConfusion)]
  exact engageAdvance_of_waiting rfl rfl hf rfl

/-- An ENGAGE begun for the first time: its origin is recorded, and from STANDBY the part wakes to ACTIVE (R137, R139, R181). -/
def State.engagedFirst (s : State) : State :=
  { s.engaged with
    seq := { s.engaged.seq with
      resume := if s.seq.state = .standby then s.seq.resume else none, fromStandby := decide (s.seq.state = .standby) }
    sup := { s.sup with idleTimer := none, power := if s.seq.state = .standby then .active else s.sup.power }
    link := if s.seq.state = .standby ∧ s.sup.power ≠ .active then s.link.post .power [0] else s.link }

theorem engageFirst_eq (hst : s.seq.state = .idle ∨ s.seq.state = .standby) (hsp : s.spindle.state = .stopped)
    (hm : s.motorsHeld = false) (hf : s.focusHeld = false) :
    engageFirst s = s.engagedFirst.setSignals (s.signals ++ [.spindleMoved]) := by
  have hne : s.seq.state ≠ .seeking := by rcases hst with h | h <;> rw [h] <;> decide
  rw [engageFirst]
  unfold State.engagedFirst
  by_cases h : s.seq.state = .standby
  · rw [if_pos h, if_pos h, if_pos h]
    by_cases hp : s.sup.power = .active
    · rw [setPower_same (by exact hp), if_neg fun hc => hc.2 hp, ← hp, decide_eq_true h]
      exact engageRun_of_stopped (s := s.setSeq { s.seq with fromStandby := true }) hsp hm hne hf
    · rw [setPower, if_neg (by exact hp), if_pos ⟨h, hp⟩, decide_eq_true h]
      exact engageRun_of_stopped hsp hm hne hf
  · rw [if_neg h, if_neg h, if_neg h, if_neg fun hc => h hc.1, decide_eq_false h]
    exact engageRun_of_stopped hsp hm hne hf

/-- The spindle's own change finds the ENGAGE waiting still. -/
theorem drain_engaged (n : Nat) (hf : s.focusHeld = false) :
    drain (n + 1) (s.engagedFirst.setSignals [.spindleMoved]) = s.engagedFirst.setSignals [] := by
  have hwait : handle .spindleMoved (s.engagedFirst.setSignals []) = s.engagedFirst.setSignals [] :=
    engageAdvance_of_waiting rfl rfl hf rfl
  rw [drain_cons n rfl]
  exact (congrArg (drain n) hwait).trans (drain_of_quiet n rfl)

end

/-- Settles O39. -/
theorem entryStartsInIdle : Obligations.EntryStartsInIdle := by
  unfold Obligations.EntryStartsInIdle
  intro s e hs hst hq he hcrank r ready standby
  have hhead := startHead_of_disengaged hq he hcrank hst
  have hready : s.discReady = ready := by simp [State.discReady, ready]
  have hends (h : startDisengaged e.motion s = endsAtOnce .abandoned s) := exec_endsAtOnce .abandoned hs hq (hhead.trans h)
  refine ⟨fun hm hr hmute hsp hf => ?_, fun hm => ?_, fun hm => ?_⟩
  · have hf' : s.focusHeld = false := by simp [State.focusHeld, hf]
    have hm' : s.motorsHeld = false := by simp [State.motorsHeld, hcrank, hmute]
    have hengage : startHead s = engageFirst (s.setSeq { s.seq with queue := [{ e with inProgress := true }] }) := by
      rw [hhead, hm, startDisengaged, if_pos (hready.trans hr), markHead_eq hq, hm]
    have hdrive : s.loader.drive = 0 := hs.1.2.1.trans (loaderDemand_of_clamped (of_decide_eq_true hr).1)
    rw [exec_entryStart hs, hengage, engageFirst_eq (by exact hst) (by exact hsp) (by exact hm') (by exact hf')]
    have hnone : (s.setSeq { s.seq with queue := [{ e with inProgress := true }] }).signals = [] := hs.1.1
    rw [hnone, List.nil_append, drain_engaged 62 (by exact hf'), loaderTest_of_atRest]
    · rw [setSignals_nil (by exact hs.1.1)]
      simp only [standby, decide_eq_true_eq]
      rfl
    · exact (atRest_iff_of_not_stopped SpindleState.noConfusion).mpr ⟨rfl, hdrive⟩
  · rcases hm with ⟨hm, hr⟩ | hm | hm | hm
    · exact hends (by rw [hm, startDisengaged, hready, if_neg (by rw [hr]; exact Bool.false_ne_true)])
    · exact hends (by rw [hm, startDisengaged])
    · exact hends (by cases hmo : e.motion <;> simp_all [Motion.argument, startDisengaged])
    · exact hends (by cases hmo : e.motion <;> simp_all [Motion.tracks, startDisengaged])
  · exact exec_endsAtOnce .done hs hq (hhead.trans (by rw [hm, startDisengaged]))

end Sys2Proof.Machine
end

