-- ==== Sys2Proof/Proofs/Orders.lean ====
section
/-! SUPPORT. What the orders of the outer blocks and of recovery do to the task, the loops and the queue (R40, R50, R129, R145 to R153), and
the timers of recovery and of a part that reads (R114, R150 to R152, R185). -/

namespace Sys2Proof.Machine

section
variable {s : State}

/-! ## The cancel, and the orders to the loops (R40, R43, R50, R129) -/

/-- With nothing handed on, the cancel drops the task and nothing else. -/
theorem cancelTask_of_quiet (hs : s.signals = []) : cancelTask s = s.setSeek s.seek.dropTask := by
  rw [cancelTask, hs]
  exact setSignals_nil hs

theorem trackHeld_iff : s.trackHeld = true ↔ s.track.state = .locked ∨ s.track.state = .hold := by simp [State.trackHeld]

theorem focusHeld_iff : s.focusHeld = true ↔ s.focus.state = .locked ∨ s.focus.state = .hold := by simp [State.focusHeld]

/-- A stop order closes a jump or a move in progress, and ends the sled's move (R50). -/
theorem stopOrder_eq (s : State) : stopOrder s = (s.setSled
    (if s.track.state = .openSeek then { s.sled with drive := 0, move := none } else s.sled)).setTrack
      (if stalls s.track = true then s.track.close s.fe.crossings else s.track) := by
  unfold stopOrder stalls
  cases ht : s.track.state with
  | jumping => cases hp : s.track.phase <;> rfl
  | _ => rfl

theorem stopOrder_of_trackHeld (h : s.trackHeld = true) : stopOrder s = s := by
  rw [trackHeld_iff] at h
  have hstill : ¬s.track.state = .openSeek ∧ ¬stalls s.track = true := by rcases h with h | h <;> simp [stalls, h]
  rw [stopOrder_eq, if_neg hstill.1, if_neg hstill.2]
  rfl

/-- A stop order touches the sled and the tracking loop alone. -/
theorem stopOrder_frame (s : State) : (stopOrder s).signals = s.signals ∧ (stopOrder s).seq = s.seq ∧ (stopOrder s).spindle = s.spindle
    ∧ (stopOrder s).link = s.link := by
  rw [stopOrder_eq]
  exact ⟨rfl, rfl, rfl, rfl⟩

/-- A disengage opens the tracking loop, so that of a change before it only an end of the sled's move is left. -/
theorem disengaged_setTrack {y : Sled} {z : TrackLoop} (standby : Bool) (first : List Notice)
    (h : (if z.state = .openSeek then { y with drive := 0, move := none } else y)
      = if s.track.state = .openSeek then { s.sled with drive := 0, move := none } else s.sled) :
    ((s.setSled y).setTrack z).disengaged standby first = s.disengaged standby first :=
  congrArg (fun y => { s.disengaged standby first with sled := y }) h

theorem disengaged_stopOrder (standby : Bool) (first : List Notice) :
    (stopOrder s).disengaged standby first = s.disengaged standby first := by
  rw [stopOrder_eq]
  refine disengaged_setTrack standby first ?_
  by_cases hm : s.track.state = .openSeek
  · have hstalls : stalls s.track = true := by simp [stalls, hm]
    rw [if_pos hstalls, if_pos hm]
    exact if_neg TrackState.noConfusion
  · rw [if_neg hm]
    by_cases hstalls : stalls s.track = true
    · rw [if_pos hstalls]
      exact if_neg TrackState.noConfusion
    · rw [if_neg hstalls, if_neg hm]

theorem leaveMove_eq (s : State) :
    leaveMove s = s.setSled (if s.track.state = .openSeek then { s.sled with drive := 0, move := none } else s.sled) := by
  unfold leaveMove
  split_ifs <;> rfl

/-- The tracking loop as a pull-in order leaves it. -/
def TrackLoop.pulledIn (t : TrackLoop) : TrackLoop := { t.pullIn 1 with goal := .trackLocked, byPause := false }

theorem pullInOrder_of_focusHeld (h : s.focusHeld = true) : pullInOrder s = (s.setTrack s.track.pulledIn).setSled
    (if s.track.state = .openSeek then { s.sled with drive := 0, move := none } else s.sled) := by
  rw [pullInOrder, if_pos h, leaveMove_eq]
  rfl

/-! ## Everything ends ABANDONED (R145 to R148) -/

theorem abandonAll_eq (hq : queueLaw s.seq.queue) :
    abandonAll s = (s.setSeq { s.seq with queue := [] }).setLink (s.link.postAll s.abandons) := by
  unfold abandonAll State.abandons
  rw [flush_endEntry_eq .abandoned hq, postAll_append]
  by_cases hr : s.seq.state = .recovering
  · rw [if_pos (decide_eq_true hr), if_pos hr]
    rfl
  · rw [if_neg (by simp [hr]), if_neg hr]
    rfl

/-- A disengage where every entry has ended. -/
theorem disengage_of_empty (standby : Bool) (h : s.turning) (hq : s.seq.queue = []) :
    disengage standby s = (s.disengaged standby []).setSignals (s.signals.filter (fun x => !x.isOutcome) ++ [.spindleMoved]) := by
  have hsame : (s.setSeq { s.seq with queue := [] }).setLink (s.link.postAll []) = s := by rw [← hq]; rfl
  have hall := disengage_of_turning standby h []
  rwa [hsame] at hall

/-! ## Recovery (R150 to R152) -/

/-- An attempt for a loop that is held begins at its address step (R151). -/
theorem attemptBegin_of_trackHeld (hc : s.seq.cause ≠ .focusLost) (ht : s.trackHeld = true) :
    attemptBegin s = s.setSeq { s.seq with attempts := s.seq.attempts + 1, step := .recoverAddress, recTimer := 0, loopWait := none } := by
  have hloops : attemptBegin s = recoverLoops (s.setSeq { s.seq with attempts := s.seq.attempts + 1 }) := by
    unfold attemptBegin
    cases h : s.seq.cause with
    | focusLost => exact absurd h hc
    | _ => simp only [setSeq_seq, h]
  rw [hloops, recoverLoops, if_pos (by exact ht)]
  rfl

/-- The third failed attempt ends the recovery FAILED and the part disengages (R152). -/
theorem attemptFail_of_third (hs : s.signals = []) (hq : queueLaw s.seq.queue) (ht : s.turning) (h3 : ¬s.seq.attempts < 3) :
    attemptFail s = (s.disengaged false
      ([⟨.recovery, [byte s.seq.cause.code, 1, byte s.seq.attempts]⟩] ++ allEnd 8 s.seq.queue)).setSignals [.spindleMoved] := by
  have hfail : attemptFail s = failureEnd .recoveryFail ((stopOrder (s.setSeek s.seek.dropTask)).setLink
      (s.link.postAll [⟨.recovery, [byte s.seq.cause.code, 1, byte s.seq.attempts]⟩])) := by
    unfold attemptFail
    rw [cancelTask_of_quiet hs, stopOrder_eq]
    exact if_neg h3
  obtain ⟨hsig, hseq, hspindle, hlink⟩ := stopOrder_frame (s.setSeek s.seek.dropTask)
  have hqueue : queueLaw (stopOrder (s.setSeek s.seek.dropTask)).seq.queue := by rw [hseq]; exact hq
  have hturns : (stopOrder (s.setSeek s.seek.dropTask)).turning := by rw [State.turning, hspindle]; exact ht
  rw [hfail, failureEnd_of_settled .recoveryFail (by exact hsig.trans hs) (by exact hqueue) (by exact hturns)]
  refine congrArg (State.setSignals · [.spindleMoved]) ?_
  have hposted := disengaged_postAll (stopOrder (s.setSeek s.seek.dropTask)) false
    [⟨.recovery, [byte s.seq.cause.code, 1, byte s.seq.attempts]⟩] (allEnd 8 s.seq.queue)
  rw [hlink] at hposted
  have hends : ((stopOrder (s.setSeek s.seek.dropTask)).setLink
      (s.link.postAll [⟨.recovery, [byte s.seq.cause.code, 1, byte s.seq.attempts]⟩])).seq.queue = s.seq.queue := congrArg (·.queue) hseq
  rw [hends]
  exact hposted.trans (disengaged_stopOrder (s := s.setSeek s.seek.dropTask) false _)

/-! ## A recovery starts (R150) -/

/-- The sequencer in RECOVERING, in the address step of an attempt. -/
def Sequencer.recovering (x : Sequencer) (c : Cause) (k : Seek) : Sequencer :=
  { x.enter .recovering k with cause := c, attempts := 1, step := .recoverAddress, recTimer := 0, loopWait := none }

/-- An incident other than FOCUS_LOST, with the tracking loop held, cancels the task and begins at the address step (R129, R150, R151). -/
theorem recoveryStart_of_trackHeld {c : Cause} (hs : s.signals = []) (ht : s.trackHeld = true) (hc : c ≠ .focusLost) :
    recoveryStart c s = { s with
      spindle := { s.spindle with target := if s.seq.state = .seeking then s.ownTarget else s.spindle.target }
      seek := s.seek.dropTask
      seq := s.seq.recovering c s.seek
      sup := { s.sup with idleTimer := none } } := by
  rw [recoveryStart, cancelTask_of_quiet hs, stopOrder_of_trackHeld (by exact ht), setSeqState_eq (by decide) (by decide)]
  rw [attemptBegin_of_trackHeld (by exact hc) (by exact ht)]
  rfl

end

/-- Settles O40. -/
theorem recoveryAndIdleTimers : Obligations.RecoveryAndIdleTimers := by
  unfold Obligations.RecoveryAndIdleTimers
  intro s hs hq
  refine ⟨fun hr hw => ⟨fun hp => ?_, fun hp hf => ?_⟩, fun hr hstep ht => ⟨fun h3 hc => ?_, fun h3 hturn => ?_⟩, fun hst ht => ?_,
    fun hp hall hset hturn => ?_, fun h => ?_⟩
  · have hwait : loopWaitTimeout s = s.setSeq { s.seq with loopWait := none } := by
      rw [loopWaitTimeout, if_pos (by simp [hr, Option.isSome_iff_ne_none.mpr hw])]
      exact if_pos hp
    exact (done_of_atRest _ hs.2 (hwait.symm ▸ hs.1)).trans (congrArg _ hwait)
  · have hwait : loopWaitTimeout s = ((s.setSeq { s.seq with loopWait := none }).setTrack s.track.pulledIn).setSled
        (if s.track.state = .openSeek then { s.sled with drive := 0, move := none } else s.sled) := by
      rw [loopWaitTimeout, if_pos (by simp [hr, Option.isSome_iff_ne_none.mpr hw])]
      exact (if_neg hp).trans (pullInOrder_of_focusHeld (focusHeld_iff.mpr hf))
    exact (done_of_atRest _ hs.2 (hwait.symm ▸ hs.1)).trans (congrArg _ hwait)
  · have hheld : s.trackHeld = true := trackHeld_iff.mpr ht
    have hfail : recoveryAddressTimeout s = (s.setSeek s.seek.dropTask).setSeq
        { s.seq with attempts := s.seq.attempts + 1, recTimer := 0, loopWait := none } := by
      have hcause : s.seq.cause ≠ .focusLost := by rcases hc with hc | hc <;> rw [hc] <;> decide
      rw [recoveryAddressTimeout, if_pos (by simp [hr, hstep]), attemptFail, cancelTask_of_quiet hs.1.1,
        stopOrder_of_trackHeld (by exact hheld)]
      dsimp only
      rw [if_pos (by exact h3), attemptBegin_of_trackHeld (by exact hcause) (by exact hheld), ← hstep]
      rfl
    exact (done_of_atRest _ hs.2 (hfail.symm ▸ hs.1)).trans (congrArg _ hfail)
  · have hfail : recoveryAddressTimeout s = attemptFail s := if_pos (by simp [hr, hstep])
    rw [show exec .recoveryAddressTimeout s = done recoveryAddressTimeout s from rfl, done_of_running _ hs.2, hfail,
      attemptFail_of_third hs.1.1 hq hturn (by omega), settle_disengaged hs.1 hturn, h3]
    rfl
  · have hlost : addressLost s = emit .addressLost (s.setSeek { s.seek with valid := false, watch := 0 }) :=
      if_pos (by rcases hst with h | h <;> simp [h])
    have hincident : handle .addressLost (s.setSeek { s.seek with valid := false, watch := 0 })
        = recoveryStart .addressLost (s.setSeek { s.seek with valid := false, watch := 0 }) := by
      rcases hst with h | h <;> simp only [handle, incident, setSeek_seq, h]
    have hne : s.seq.state ≠ .seeking := by rcases hst with h | h <;> rw [h] <;> decide
    rw [show exec .addressLost s = done addressLost s from rfl, done_of_running _ hs.2, hlost, settle_emit (by exact hs.1.1), hincident,
      recoveryStart_of_trackHeld (by exact hs.1.1) (by exact trackHeld_iff.mpr ht) (by decide), if_neg (by exact hne)]
    refine congrArg Host.Outcome.next ((congrArg loaderTest (drain_of_quiet 63 (by exact hs.1.1))).trans ?_)
    exact loaderTest_of_atRest (by exact hs.1)
  · have hwait : s.seq.queue.filter (fun e => !e.inProgress) = [] := by
      rw [List.filter_eq_nil_iff]
      intro e he
      simp [List.all_eq_true.mp hall e he]
    have hbehind : s.waitsBehind = false := by
      rw [State.waitsBehind, List.any_eq_false]
      intro e he
      simp [List.all_eq_true.mp hall e he]
    have hends : endEntry .done s = (s.setSeq { s.seq with queue := [] }).setLink (s.link.postAll (allEnd 0 s.seq.queue)) := by
      rw [endEntry_eq .done hq, allEnd, hwait]
      simp only [endNotices, List.map_nil, List.append_nil]
      rfl
    have hexpiry : idleExpiry s
        = disengage true ((s.setSeq { s.seq with queue := [] }).setLink (s.link.postAll (allEnd 0 s.seq.queue))) := by
      have hnone : abandonAll (endEntry .done s) = endEntry .done s := by
        rw [hends, abandonAll_eq (by exact queueLaw_nil), State.abandons, if_neg (by exact fun h => SeqState.noConfusion (hp.symm.trans h))]
        rfl
      have hpaused : (endEntry .done s).seq.state = .paused := by rw [hends]; exact hp
      rw [idleExpiry_of_paused hp hbehind hset, standbyOrder, hnone]
      dsimp only
      rw [hpaused, hends]
    rw [show exec .idleTimerExpiry s = done idleExpiry s from rfl, done_of_running _ hs.2, hexpiry, disengage_of_turning true hturn,
      hs.1.1]
    exact congrArg _ (settle_disengaged hs.1 hturn true _)
  · have hstands : idleExpiry s = s := by
      rcases h with h | ⟨e, he, hwaits⟩ | h
      · simp [idleExpiry, h]
      · exact idleExpiry_of_waiting (List.any_eq_true.mpr ⟨e, he, by simp [hwaits]⟩)
      · simp [idleExpiry, h]
    exact (done_of_atRest _ hs.2 (hstands.symm ▸ hs.1)).trans (congrArg _ hstands)

end Sys2Proof.Machine
end

