-- ==== Sys2Proof/Proofs/Requests/PowerAndLoader.lean ====
section
/-! SUPPORT. The requests that set the power mode (R181 to R184) and that move the disc (R162, R163), with the standby and the eject order
(R146, R148). -/

namespace Sys2Proof.Machine

section
variable {s : State}

/-! ## Notices and a received request -/

theorem Link.postAll_received (l : Link) (ns : List Notice) (kind : Nat) (p : List Byte) :
    (l.received kind p).postAll ns = (l.postAll ns).received kind p := by
  induction ns generalizing l with
  | nil => rfl
  | cons n ns ih => rw [postAll_cons, postAll_cons, Link.post_received, ih]

/-- A disengage and the reception of the request that leads to it touch different fields of the link. -/
theorem disengaged_received (standby : Bool) (ends : List Notice) (kind : Nat) (p : List Byte) :
    (s.setLink (s.link.received kind p)).disengaged standby ends
      = (s.disengaged standby ends).setLink ((s.disengaged standby ends).link.received kind p) :=
  congrArg (s.disengaged standby ends).setLink (Link.postAll_received s.link _ kind p)

/-! ## The wake (R174, R184) -/

/-- The part awake in a mode, with its POWER notice. -/
theorem wakeTo_asleep {m : Power} (h : s.sup.power = .sleep) (hm : m ≠ .sleep) : wakeTo m s =
    (s.setSup { s.sup with power := m, shockSeen := s.sup.shockPin }).setLink (s.link.post .power [byte m.code]) := by
  rw [wakeTo, if_pos h, setPower]
  exact if_neg fun hs => hm (hs.symm.trans h)

/-- The spindle's own change, taken last by a part that is then at rest. -/
theorem settle_spindleMoved {t : State} (hne : t.seq.state ≠ .engaging) (hrest : t.atRest) :
    settle (t.setSignals [.spindleMoved]) = t := by
  rw [settle, drain_spindleMoved 63 hne, setSignals_nil hrest.1, loaderTest_of_atRest hrest]

/-! ## The standby order (R148, R182) -/

theorem abandonAll_of_empty (hq : s.seq.queue = []) (hr : s.seq.state ≠ .recovering) : abandonAll s = s := by
  rw [abandonAll_eq (by rw [hq]; exact queueLaw_nil), State.abandons, if_neg hr, hq]
  show (s.setSeq { s.seq with queue := [] }).setLink s.link = s
  rw [← hq]
  rfl

theorem standbyOrder_of_engaged (hq : queueLaw s.seq.queue) (hi : s.seq.state ≠ .idle) (hst : s.seq.state ≠ .standby)
    (hd : s.seq.state ≠ .disengaging) (ht : s.turning) :
    standbyOrder s = (s.disengaged true s.abandons).setSignals (s.signals.filter (fun x => !x.isOutcome) ++ [.spindleMoved]) := by
  have horder : standbyOrder s = disengage true (abandonAll s) := by
    have hstate := abandonAll_state s
    unfold standbyOrder
    dsimp only
    cases h : s.seq.state <;> rw [hstate, h] <;> simp_all
  rw [horder, abandonAll_eq hq, disengage_of_turning true ht]

theorem standbyOrder_of_idle (hq : s.seq.queue = []) (hi : s.seq.state = .idle) : standbyOrder s =
    { s with
      seq := { s.seq with
        state := .standby, step := .none, addrTimer := none, loopWait := none, recTimer := 0, cause := .none, attempts := 0 }
      sup := { s.sup with idleTimer := none, power := .standby }
      link := if s.sup.power = .standby then s.link else s.link.post .power [1] } := by
  have horder : standbyOrder s = setSeqState .standby s := by
    rw [standbyOrder, abandonAll_of_empty hq (by rw [hi]; decide)]
    dsimp only
    rw [hi]
  rw [horder, setSeqState_standby (by rw [hi]; decide)]
  rfl

theorem standbyOrder_of_standby (hq : s.seq.queue = []) (hst : s.seq.state = .standby) (hp : s.sup.power = .standby) :
    standbyOrder s = s := by
  rw [standbyOrder, abandonAll_of_empty hq (by rw [hst]; decide)]
  dsimp only
  rw [hst]
  exact setPower_same hp

end

/-! ## POWER -/

section
variable {s : State}

/-- A POWER request as it is received. -/
abbrev State.powerReceived (s : State) (m : Byte) : State := s.setLink (s.link.received 0x13 [m])

theorem answer_power (u : State) (l : Link) (m : Byte) (st : Status) :
    reply 0x13 st [] (u.setLink (l.received 0x13 [m])) = u.setLink (l.answered 0x13 [m] st.code []) :=
  reply_received u l 0x13 [m] st [] (by decide)

/-- The same of a part whose link is that of the received request with notices posted on it. -/
theorem answer_received {u : State} {l l' : Link} {m : Byte} {st : Status} (hl : l' = l.received 0x13 [m]) (hu : u.link = l') :
    reply 0x13 st [] u = u.setLink (l.answered 0x13 [m] st.code []) := by
  have h : u.setLink (l.received 0x13 [m]) = u := by rw [← hl, ← hu]; rfl
  exact (congrArg (reply 0x13 st []) h.symm).trans (answer_power u l m st)

theorem loaderMoving_iff : s.loaderMoving = true ↔
    s.loader.state = .pulling ∨ s.loader.state = .releasing ∨ (s.loader.state = .clamped ∧ s.loader.ejectPending = true) := by
  simp only [State.loaderMoving, Bool.or_eq_true, Bool.and_eq_true, decide_eq_true_eq, or_assoc]

theorem powerActive_received (hs : s.sup.power = .active) : powerActive (s.powerReceived 0) = s.powerReceived 0 := by
  rw [powerActive, wakeTo_awake (by exact fun hp => absurd (hs.symm.trans hp) (by decide)), setPower_same (by exact hs)]

end

/-- Settles O52. -/
theorem powerRequests : Obligations.PowerRequests := by
  unfold Obligations.PowerRequests
  intro s m hs h hq moving answers
  have hmoving : s.loaderMoving = moving := Bool.eq_iff_iff.mpr (loaderMoving_iff.trans decide_eq_true_iff.symm)
  have hsleepBusy (m : Byte) : (s.powerReceived m).sleepBusy
      = (s.seq.state.engaged || !s.seq.queue.isEmpty || !decide (s.spindle.state = .stopped) || moving) :=
    congrArg (fun b => s.seq.state.engaged || !s.seq.queue.isEmpty || !decide (s.spindle.state = .stopped) || b) hmoving
  have htaken (hp : s.sup.power ≠ .standby) (hm : moving = false) :
      takePower [1] (s.powerReceived 1) = reply 0x13 .ok [] (powerStandby (s.powerReceived 1)) :=
    (if_neg hp).trans (if_neg fun hmove => Bool.false_ne_true (hm.symm.trans (hmoving.symm.trans hmove)))
  refine ⟨fun hp => ?_, fun hp => ?_, fun hp => ?_, fun hp => ?_, fun hp hm => ?_, fun hp hm hi hempty => ?_, fun hp hm hempty hi => ?_,
    fun hp hm ht hi hst hd => ?_, fun hp => ?_, fun hp hbusy => ?_, fun hp hi hempty hstop hm => ?_, fun hm => ?_⟩
  · refine done_request hs h rfl ?_ (by exact hs.1)
    show reply 0x13 .ok [] (powerActive (s.powerReceived 0)) = _
    rw [powerActive_received hp]
    exact answer_power s s.link 0 .ok
  · refine done_request hs h rfl ?_ (by exact hs.1)
    show reply 0x13 .ok [] (powerActive (s.powerReceived 0)) = _
    have hwake : powerActive (s.powerReceived 0) = (s.setSup { s.sup with power := .active, shockSeen := s.sup.shockPin }).setLink
        ((s.link.post .power [0]).received 0x13 [0]) := by
      rw [powerActive, wakeTo_asleep (by exact hp) (by decide), setPower_same (m := .active) rfl]
      exact congrArg (s.setSup { s.sup with power := .active, shockSeen := s.sup.shockPin }).setLink (Link.post_received _ _ _ _ _)
    rw [hwake]
    exact answer_power _ _ 0 .ok
  · refine done_request hs h rfl ?_ (by exact hs.1)
    show reply 0x13 .ok [] (powerActive (s.powerReceived 0)) = _
    have hwake : powerActive (s.powerReceived 0) = (s.setSup { s.sup with power := .active }).setLink
        ((s.link.post .power [0]).received 0x13 [0]) := by
      rw [powerActive, wakeTo_awake (by exact fun hsl => absurd (hp.symm.trans hsl) (by decide)), setPower,
        if_neg (by exact fun hact => absurd (hp.symm.trans hact) (by decide))]
      exact post_received (s.setSup { s.sup with power := .active }) s.link .power [0] 0x13 [0]
    rw [hwake]
    exact answer_power _ _ 0 .ok
  · refine done_request hs h rfl ?_ (by exact hs.1)
    exact (if_pos hp).trans (answer_power s s.link 1 .ok)
  · refine done_request hs h rfl ?_ (by exact hs.1)
    exact (if_neg hp).trans ((if_pos (hmoving.trans hm)).trans (answer_power s s.link 1 .busy))
  · refine done_request hs h rfl ?_ (by exact hs.1)
    have hstandby : powerStandby (s.powerReceived 1) = _ :=
      (congrArg standbyOrder (wakeTo_awake (by exact fun hsl => absurd (hp.symm.trans hsl) (by decide)))).trans
        (standbyOrder_of_idle (by exact hempty) (by exact hi))
    refine (htaken (by rw [hp]; decide) hm).trans ((congrArg (reply 0x13 .ok []) hstandby).trans ?_)
    rw [if_neg (by exact fun hst => absurd (hp.symm.trans hst) (by decide))]
    exact answer_received (Link.post_received s.link .power [1] 0x13 [1]) rfl
  · have hwake := wakeTo_asleep (s := s.powerReceived 1) (m := .standby) hp (by decide)
    have hlink := Link.post_received s.link .power [1] 0x13 [1]
    by_cases hst : s.seq.state = .standby
    · rw [if_pos hst, if_pos hst]
      refine done_request hs h rfl ?_ (by exact hs.1)
      refine (htaken (by rw [hp]; decide) hm).trans ?_
      rw [powerStandby, hwake, standbyOrder_of_standby (by exact hempty) (by exact hst) rfl]
      exact answer_received hlink rfl
    · rw [if_neg hst, if_neg hst]
      refine done_request hs h rfl ?_ (by exact hs.1)
      refine (htaken (by rw [hp]; decide) hm).trans ?_
      rw [powerStandby, hwake, standbyOrder_of_idle (by exact hempty) (by exact hi.resolve_right hst)]
      exact answer_received hlink rfl
  · have horder := standbyOrder_of_engaged (s := s.powerReceived 1) (by exact hq) (by exact hi) (by exact hst) (by exact hd) (by exact ht)
    have hawake : wakeTo .standby (s.powerReceived 1) = s.powerReceived 1 :=
      wakeTo_awake (by exact fun hsl => absurd (hp.symm.trans hsl) (by decide))
    have hsig : (s.powerReceived 1).signals = [] := hs.1.1
    rw [hsig] at horder
    intro u
    have hanswer : handOver 0x13 [1] (s.powerReceived 1) = (u.setLink (u.link.answered 0x13 [1] 0x00 [])).setSignals [.spindleMoved] := by
      refine (htaken (by rw [hp]; decide) hm).trans ?_
      rw [powerStandby, hawake, horder]
      exact answer_received (Link.postAll_received s.link _ 0x13 [1]) rfl
    refine (done_request_settle hs h rfl hanswer).trans (congrArg Host.Outcome.next ?_)
    exact settle_spindleMoved SeqState.noConfusion (atRest_setLink (disengaged_atRest hs.1 ht true s.abandons) _)
  · refine done_request hs h rfl ?_ (by exact hs.1)
    exact (if_pos hp).trans (answer_power s s.link 2 .ok)
  · refine done_request hs h rfl ?_ (by exact hs.1)
    have hsleep : (s.powerReceived 2).sleepBusy = true := by
      rw [hsleepBusy]
      rcases hbusy with ⟨hi, hst⟩ | hempty | hstop | hm
      · simp [SeqState.engaged, hi, hst]
      · simp [hempty]
      · simp [hstop]
      · simp [hm]
    exact (if_neg hp).trans ((if_pos hsleep).trans (answer_power s s.link 2 .busy))
  · refine done_request hs h rfl ?_ (by exact hs.1)
    have hsleep : ¬(s.powerReceived 2).sleepBusy = true := by
      rw [hsleepBusy]
      rcases hi with hi | hi <;> simp [SeqState.engaged, hi, hempty, hstop, hm]
    refine (if_neg hp).trans ((if_neg hsleep).trans ?_)
    rw [powerSleep, setPower, if_neg (by exact hp)]
    exact answer_received (Link.post_received s.link .power [2] 0x13 [2]) rfl
  · refine done_request hs h rfl ?_ (by exact hs.1)
    have hmode : byteAt [m] 0 = m.toNat := rfl
    show takePower [m] (s.powerReceived m) = _
    unfold takePower
    rw [hmode]
    split
    · omega
    · omega
    · omega
    · exact answer_power s s.link m .range

/-! ## The part as a waking request finds it (R174, R184) -/

section
variable (s : State)

theorem awake_loader : s.awake.loader = s.loader := by unfold State.awake; split_ifs <;> rfl
theorem awake_spindle : s.awake.spindle = s.spindle := by unfold State.awake; split_ifs <;> rfl
theorem awake_seq : s.awake.seq = s.seq := by unfold State.awake; split_ifs <;> rfl
theorem awake_seek : s.awake.seek = s.seek := by unfold State.awake; split_ifs <;> rfl
theorem awake_signals : s.awake.signals = s.signals := by unfold State.awake; split_ifs <;> rfl
theorem awake_held : s.awake.held = s.held := by unfold State.awake; split_ifs <;> rfl
theorem awake_slot : s.awake.sup.slot = s.sup.slot := by unfold State.awake; split_ifs <;> rfl
theorem awake_clampEnd : s.awake.sup.clampEnd = s.sup.clampEnd := by unfold State.awake; split_ifs <;> rfl
theorem awake_ejectEnd : s.awake.sup.ejectEnd = s.sup.ejectEnd := by unfold State.awake; split_ifs <;> rfl
theorem awake_faultLatch : s.awake.sup.faultLatch = s.sup.faultLatch := by unfold State.awake; split_ifs <;> rfl
theorem awake_crankHold : s.awake.sup.crankHold = s.sup.crankHold := by unfold State.awake; split_ifs <;> rfl
theorem awake_mute : s.awake.sup.mute = s.sup.mute := by unfold State.awake; split_ifs <;> rfl

theorem awake_atRest {s : State} (h : s.atRest) : s.awake.atRest := by
  unfold State.awake
  split_ifs
  · exact h
  · exact h

theorem wakeTo_received (kind : Nat) (p : List Byte) :
    wakeTo .active (s.setLink (s.link.received kind p)) = s.awake.setLink (s.awake.link.received kind p) := by
  unfold State.awake
  by_cases h : s.sup.power = .sleep
  · rw [wakeTo_asleep (by exact h) (by decide), if_pos h]
    exact congrArg (s.setSup { s.sup with power := .active, shockSeen := s.sup.shockPin }).setLink (Link.post_received _ _ _ _ _)
  · rw [wakeTo_awake (by exact h), if_neg h]

end

/-! ## LOAD and EJECT -/

section
variable {s : State}

/-- A request that leaves a part that is not held as `u`, not yet settled, with its reply. -/
theorem exec_load (hs : s.settled) (h : s.linkReady) : exec (.load []) s = .next (settle
    (reply 0x1B (loadEffect (s.awake.setLink (s.awake.link.received 0x1B []))).1 []
      (loadEffect (s.awake.setLink (s.awake.link.received 0x1B []))).2)) := by
  refine done_request_settle hs h rfl ?_
  rw [← wakeTo_received]
  rfl

theorem exec_eject (hs : s.settled) (h : s.linkReady) : exec (.eject []) s = .next (settle
    (reply 0x1C .ok [] (ejectEffect (ejectOrder (s.awake.setLink (s.awake.link.received 0x1C [])))))) := by
  refine done_request_settle hs h rfl ?_
  rw [← wakeTo_received]
  rfl

/-- The eject order in IDLE with nothing queued changes nothing (R146). -/
theorem ejectOrder_of_idle (hq : s.seq.queue = []) (hi : s.seq.state = .idle) : ejectOrder s = s := by
  rw [ejectOrder, abandonAll_of_empty hq (by rw [hi]; decide)]
  dsimp only
  rw [hi]

theorem ejectOrder_of_engaged (hq : queueLaw s.seq.queue) (hi : s.seq.state ≠ .idle) (hst : s.seq.state ≠ .standby)
    (hd : s.seq.state ≠ .disengaging) (ht : s.turning) :
    ejectOrder s = (s.disengaged false s.abandons).setSignals (s.signals.filter (fun x => !x.isOutcome) ++ [.spindleMoved]) := by
  have horder : ejectOrder s = disengage false (abandonAll s) := by
    have hstate := abandonAll_state s
    unfold ejectOrder
    dsimp only
    cases h : s.seq.state <;> rw [hstate, h] <;> simp_all
  rw [horder, abandonAll_eq hq, disengage_of_turning false ht]

/-- A loader moved by a request: the request is answered, and the loader takes its drive at the end of the step. -/
theorem settle_reply_moved {w : State} {x : Loader} {d : Int} (kind : Nat) (st : Status) (hk : kind < 128) (hs : w.signals = [])
    (h : x.state ≠ .clamped ∨ x.ejectPending = false) (hd : (w.setLoader x).loaderDemand = d) :
    settle (reply kind st [] ((w.setLink (w.link.received kind [])).moved x)) = (w.setLoader { x with drive := d }).setLink
      ((w.link.post .loader [byte x.state.code, flagByte x.jam]).answered kind [] st.code []) := by
  have hmoved : (w.setLink (w.link.received kind [])).moved x
      = (w.moved x).setLink ((w.link.post .loader [byte x.state.code, flagByte x.jam]).received kind []) :=
    congrArg (w.setLoader x).setLink (Link.post_received _ _ _ _ _)
  rw [hmoved, reply_received (w.moved x) _ kind [] st [] hk, settle_of_loader (by exact hs) (by exact h), ← hd]
  rfl

/-- The drive of a loader that moves (R159). -/
theorem loaderDemand_of_moving {u : State} {permit : Bool} {d : Int} (hp : u.motorPermit = permit)
    (hd : (if u.loader.state = .pulling then 1536 else if u.loader.state = .releasing then -1536 else 0 : Int) = d) :
    u.loaderDemand = if permit then d else 0 := by
  rw [loaderDemand_eq, hp, hd]

/-! ### EJECT, by the loader's state (R163) -/

/-- An EJECT as it is received, up to the end of the step. -/
abbrev State.ejecting (w : State) : State :=
  settle (reply 0x1C .ok [] (ejectEffect (ejectOrder (w.setLink (w.link.received 0x1C [])))))

/-- In IDLE with nothing queued the loader alone acts. -/
theorem ejecting_of_idle {w : State} (hi : w.seq.state = .idle) (hq : w.seq.queue = []) :
    w.ejecting = settle (reply 0x1C .ok [] (ejectEffect (w.setLink (w.link.received 0x1C [])))) :=
  congrArg (fun u => settle (reply 0x1C .ok [] (ejectEffect u))) (ejectOrder_of_idle (by exact hq) (by exact hi))

theorem ejecting_still {w : State} (hw : w.atRest) (hi : w.seq.state = .idle) (hq : w.seq.queue = [])
    (hl : w.loader.state = .empty ∨ w.loader.state = .presented ∨ w.loader.state = .releasing) :
    w.ejecting = w.setLink (w.link.answered 0x1C [] 0x00 []) := by
  have heffect (l : Link) : ejectEffect (w.setLink l) = w.setLink l := by
    unfold ejectEffect
    rcases hl with hl | hl | hl <;> rw [show (w.setLink l).loader.state = _ from hl]
  rw [ejecting_of_idle hi hq, heffect, reply_received w w.link 0x1C [] .ok [] (by decide)]
  exact settle_of_atRest (atRest_setLink hw _)

theorem ejecting_moving {w : State} (hw : w.atRest) (hi : w.seq.state = .idle) (hq : w.seq.queue = [])
    (hl : w.loader.state = .pulling ∨ w.loader.state = .jammed) (he : w.sup.ejectEnd.level = false) :
    w.ejecting = (w.setLoader
        { w.loader with state := .releasing, ejectPending := false, timer := 0, drive := if w.motorPermit then -1536 else 0 }).setLink
      ((w.link.post .loader [3, byte (flag w.loader.jam)]).answered 0x1C [] 0x00 []) := by
  have heffect (l : Link) : ejectEffect (w.setLink l) = (w.setLink l).moved w.loader.releasing := by
    have hout : (w.setLink l).loader.state ≠ .clamped := by
      show w.loader.state ≠ .clamped
      rcases hl with hl | hl <;> rw [hl] <;> decide
    have hreleases : ejectEffect (w.setLink l) = enterReleasing (w.setLink l) := by
      unfold ejectEffect
      rcases hl with hl | hl <;> rw [show (w.setLink l).loader.state = _ from hl]
    rw [hreleases, enterReleasing_held (by exact he), State.released, if_neg hout]
    rfl
  rw [ejecting_of_idle hi hq, heffect, settle_reply_moved 0x1C .ok (by decide) hw.1 (.inr rfl) (loaderDemand_of_moving rfl rfl)]
  rfl

/-- A clamped disc is released at once where the motor is permitted: the eject pends until the end of the step (R165). -/
theorem ejecting_clamped {w : State} (hw : w.atRest) (hi : w.seq.state = .idle) (hq : w.seq.queue = [])
    (hl : w.loader.state = .clamped) (hp : w.motorPermit = true) (he : w.sup.ejectEnd.level = false) :
    w.ejecting =
      { w with
        loader := { w.loader with state := .releasing, ejectPending := false, timer := 0, drive := -1536 }
        angle := State.reset.angle, rev := State.reset.rev, defects := State.reset.defects
        seek := { State.reset.seek with frame := w.seek.frame }
        seq := { w.seq with resume := none }
        spindle := { w.spindle with target := 20000 }
        link := (w.link.answered 0x1C [] 0x00 []).post .loader [3, byte (flag w.loader.jam)] } := by
  have heffect (l : Link) : ejectEffect (w.setLink l) = (w.setLoader { w.loader with ejectPending := true }).setLink l := by
    unfold ejectEffect
    rw [show (w.setLink l).loader.state = _ from hl]
    rfl
  let t : State := (w.setLoader { w.loader with ejectPending := true }).setLink (w.link.answered 0x1C [] 0x00 [])
  have hperm : t.motorPermit = true := hp
  have hdue : (t.loader.state = .clamped && t.loader.ejectPending && t.motorPermit) = true := by
    have hclamped : t.loader.state = .clamped := hl
    rw [hperm, hclamped]
    rfl
  have hrelease : ejectRelease t = (t.moved t.loader.releasing).unclamped :=
    (if_pos hdue).trans ((enterReleasing_held (by exact he)).trans (if_pos (by exact hl)))
  rw [ejecting_of_idle hi hq, heffect, reply_received (w.setLoader { w.loader with ejectPending := true }) w.link 0x1C [] .ok [] (by decide),
    settle_of_quiet (by exact hw.1)]
  show loaderTest t = _
  rw [loaderTest, hrelease, loaderDemand_of_permit (by exact hp)]
  rfl

/-- An engaged part disengages first, the eject pending (R146, R163). -/
theorem ejecting_engaged {w : State} (hw : w.atRest) (hl : w.loader.state = .clamped) (ht : w.turning) (hi : w.seq.state ≠ .idle)
    (hst : w.seq.state ≠ .standby) (hd : w.seq.state ≠ .disengaging) (hq : queueLaw w.seq.queue) :
    w.ejecting =
      { w.disengaged false w.abandons with
        loader := { w.loader with ejectPending := true }
        link := (w.disengaged false w.abandons).link.answered 0x1C [] 0x00 [] } := by
  let u : State := w.disengaged false w.abandons
  let t : State := (u.setLoader { w.loader with ejectPending := true }).setLink (u.link.answered 0x1C [] 0x00 [])
  have horder : ejectOrder (w.setLink (w.link.received 0x1C [])) = (u.setLink (u.link.received 0x1C [])).setSignals [.spindleMoved] := by
    have hsig : (w.setLink (w.link.received 0x1C [])).signals = [] := hw.1
    rw [ejectOrder_of_engaged (by exact hq) (by exact hi) (by exact hst) (by exact hd) (by exact ht), hsig]
    exact congrArg (fun u => u.setSignals [.spindleMoved]) (disengaged_received false w.abandons 0x1C [])
  have heffect : ejectEffect ((u.setLink (u.link.received 0x1C [])).setSignals [.spindleMoved])
      = ((u.setLoader { w.loader with ejectPending := true }).setLink (u.link.received 0x1C [])).setSignals [.spindleMoved] := by
    unfold ejectEffect
    rw [show ((u.setLink (u.link.received 0x1C [])).setSignals [.spindleMoved]).loader.state = _ from hl]
    rfl
  have hreply : reply 0x1C .ok [] (((u.setLoader { w.loader with ejectPending := true }).setLink (u.link.received 0x1C [])).setSignals
      [.spindleMoved]) = t.setSignals [.spindleMoved] :=
    reply_received ((u.setLoader { w.loader with ejectPending := true }).setSignals [.spindleMoved]) u.link 0x1C [] .ok [] (by decide)
  have hstill : t.spindle.state ≠ .stopped := SpindleState.noConfusion
  have hrest : t.atRest := (atRest_iff_of_not_stopped hstill).mpr
    ⟨hw.1, ((atRest_iff_of_not_stopped (turning_ne_stopped ht)).mp hw).2⟩
  show settle (reply 0x1C .ok [] (ejectEffect (ejectOrder (w.setLink (w.link.received 0x1C []))))) = t
  rw [horder, heffect, hreply, settle_spindleMoved SeqState.noConfusion hrest]

end

/-- Settles O47. -/
theorem loadAndEjectRequests : Obligations.LoadAndEjectRequests := by
  unfold Obligations.LoadAndEjectRequests
  intro s hs h hp hmute w answers permit pulls
  have hrest : w.atRest := awake_atRest hs.1
  have hl : w.loader = s.loader := awake_loader s
  have hsp : w.spindle = s.spindle := awake_spindle s
  have hseq : w.seq = s.seq := awake_seq s
  have hpermit : w.motorPermit = permit := by
    simp [State.motorPermit, State.laserOn, hsp, hseq, w, awake_crankHold, awake_mute, hmute, permit, Bool.and_assoc, Bool.decide_and]
  have hanswer (kind : Nat) (st : Status) (hk : kind < 128) :
      reply kind st [] (w.setLink (w.link.received kind [])) = w.setLink (w.link.answered kind [] st.code []) :=
    reply_received w w.link kind [] st [] hk
  have hanswered (st : Status) (he : loadEffect (w.setLink (w.link.received 0x1B [])) = (st, w.setLink (w.link.received 0x1B []))) :
      exec (.load []) s = .next (answers st.code) := by
    rw [exec_load hs h, he, hanswer 0x1B st (by decide), settle_of_atRest (atRest_setLink hrest _)]
  have hstate (l : Link) : (w.setLink l).loader.state = s.loader.state := congrArg (·.state) hl
  have hpending (l : Link) : (w.setLink l).loader.ejectPending = s.loader.ejectPending := congrArg (·.ejectPending) hl
  have hslot' (l : Link) : (w.setLink l).sup.slot = s.sup.slot := awake_slot s
  refine ⟨fun hst hslot => ?_, fun hst => ?_, fun hst => ?_, fun hst hclamp => ?_, fun hst hi hq => ?_, fun hst hi hq he => ?_,
    fun hst hperm hi hq he => ?_, fun hst ht hi hstd hd hq => ?_⟩
  · refine hanswered .noDisc ?_
    unfold loadEffect
    rw [hstate, hst]
    exact if_neg (by rw [hslot', hslot]; exact Bool.false_ne_true)
  · refine hanswered .ok ?_
    unfold loadEffect
    rcases hst with hst | ⟨hst, he⟩
    · rw [hstate, hst]
    · rw [hstate, hst]
      dsimp only
      rw [hpending, he]
      rfl
  · refine hanswered .busy ?_
    unfold loadEffect
    rcases hst with hst | ⟨hst, he⟩
    · rw [hstate, hst]
    · rw [hstate, hst]
      dsimp only
      rw [hpending, he]
      rfl
  · have hpull : loadEffect (w.setLink (w.link.received 0x1B [])) = (.ok, enterPulling (w.setLink (w.link.received 0x1B []))) := by
      unfold loadEffect
      rw [hstate]
      rcases hst with ⟨hst, hslot⟩ | hst | hst
      · rw [hst]
        exact if_pos (by rw [hslot', hslot])
      · rw [hst]
      · rw [hst]
    have hclamp' : (w.setLink (w.link.received 0x1B [])).sup.clampEnd.level = false := by
      rw [show (w.setLink (w.link.received 0x1B [])).sup.clampEnd = s.sup.clampEnd from awake_clampEnd s, hclamp]
    have heq := settle_reply_moved (w := w)
      (x := { w.loader with state := .pulling, ejectPending := false, jam := false, timer := 0, reload := none })
      0x1B .ok (by decide) hrest.1 (.inr rfl) (loaderDemand_of_moving hpermit rfl)
    rw [hl] at heq
    rw [exec_load hs h, hpull, enterPulling_eq hclamp', show (w.setLink (w.link.received 0x1B [])).loader = s.loader from hl]
    exact congrArg Host.Outcome.next heq
  · rw [exec_eject hs h]
    exact congrArg Host.Outcome.next (ejecting_still hrest (hseq ▸ hi) (hseq ▸ hq) (hl ▸ hst))
  · have heq := ejecting_moving hrest (hseq ▸ hi) (hseq ▸ hq) (hl ▸ hst) (by rw [awake_ejectEnd, he])
    rw [hl, hpermit] at heq
    exact (exec_eject hs h).trans (congrArg Host.Outcome.next heq)
  · have heq := ejecting_clamped hrest (hseq ▸ hi) (hseq ▸ hq) (hl ▸ hst) (hpermit.trans hperm) (by rw [awake_ejectEnd, he])
    rw [hl, hseq, hsp, awake_seek] at heq
    exact (exec_eject hs h).trans (congrArg Host.Outcome.next heq)
  · have heq := ejecting_engaged hrest (hl ▸ hst) (by rw [State.turning, hsp]; exact ht) (hseq ▸ hi) (hseq ▸ hstd) (hseq ▸ hd) (hseq ▸ hq)
    have habandons : w.abandons = s.abandons := by rw [State.abandons, hseq]; rfl
    rw [hl, habandons] at heq
    exact (exec_eject hs h).trans (congrArg Host.Outcome.next heq)

end Sys2Proof.Machine
end

