-- ==== Sys2Proof/Proofs/Requests/Halt.lean ====
section
/-! SUPPORT. HALT (R145): the flush, the end of the work in progress, and where the part goes on. -/

namespace Sys2Proof.Machine

section
variable {s : State}

/-! ## Where the part goes on -/

/-- The part in FOLLOWING with no task and no entry, and notices posted. -/
def State.followed (s : State) (posts : List Notice) : State :=
  { s with
    seek := { s.seek.dropTask with watch := if s.seq.state = .paused then s.seek.watch else 0 }
    spindle := { s.spindle with target := if s.seq.state = .seeking then s.ownTarget else s.spindle.target }
    seq := { s.seq with
      state := .following, queue := [], resume := if s.seek.valid then some s.seek.aCur else s.seq.resume, step := .none
      addrTimer := none, loopWait := none, recTimer := 0, cause := .none, attempts := 0 }
    sup := { s.sup with idleTimer := none }
    link := s.link.postAll posts }

/-- Every entry and a recovery ended, and the task dropped. -/
def State.dropped (s : State) : State :=
  ((s.setSeq { s.seq with queue := [] }).setLink (s.link.postAll s.abandons)).setSeek s.seek.dropTask

theorem cancelTask_abandonAll (hs : s.signals = []) (hq : queueLaw s.seq.queue) : cancelTask (abandonAll s) = s.dropped := by
  rw [abandonAll_eq hq, cancelTask_of_quiet (by exact hs)]
  rfl

theorem follow_dropped (hr : s.seq.state ≠ .following) : setSeqState .following s.dropped = s.followed s.abandons := by
  rw [setSeqState_eq (by decide) (by decide), State.entered]
  cases h : s.seq.state <;> simp_all [State.dropped, State.followed, SeqState.reading, Sequencer.enter, Seek.dropTask, State.ownTarget]

/-- Where the track is held. -/
theorem haltSettle_of_trackHeld (hs : s.signals = []) (hq : queueLaw s.seq.queue) (hr : s.seq.state ≠ .following)
    (ht : s.trackHeld = true) : haltSettle (stopOrder (cancelTask (abandonAll s))) = testHead (s.followed s.abandons) := by
  have hheld : s.dropped.trackHeld = true := ht
  rw [cancelTask_abandonAll hs hq, stopOrder_of_trackHeld hheld, haltSettle, if_pos hheld, follow_dropped hr]

theorem disengage_dropped (hs : s.signals = []) (ht : s.turning) :
    disengage false s.dropped = (s.disengaged false s.abandons).setSignals [.spindleMoved] := by
  rw [disengage_of_empty false (by exact ht) rfl, show s.dropped.signals = [] from hs]
  have hposts := disengaged_postAll s false s.abandons []
  rw [List.append_nil] at hposts
  exact congrArg (State.setSignals · [.spindleMoved]) hposts

/-- Where the tracking loop is OFF. -/
theorem haltSettle_of_off (hs : s.signals = []) (hq : queueLaw s.seq.queue) (ht : s.turning) (ho : s.track.state = .off) :
    haltSettle (stopOrder (cancelTask (abandonAll s))) = (s.disengaged false s.abandons).setSignals [.spindleMoved] := by
  have hstill : stopOrder s.dropped = s.dropped := by
    have hoff : ¬s.dropped.track.state = .openSeek ∧ ¬stalls s.dropped.track = true := by simp [State.dropped, stalls, ho]
    rw [stopOrder_eq, if_neg hoff.1, if_neg hoff.2]
    rfl
  have hloose : ¬s.dropped.trackHeld = true := by simp [State.dropped, State.trackHeld, ho]
  have hflush : flush s.dropped = s.dropped := flush_eq s.dropped
  rw [cancelTask_abandonAll hs hq, hstill, haltSettle, if_neg hloose, if_pos (by exact ho), hflush, disengage_dropped hs ht]

/-- Else it waits for the track, a jump or move stopped (R50). -/
theorem haltSettle_of_waiting (hs : s.signals = []) (hq : queueLaw s.seq.queue) (ht : s.trackHeld = false) (ho : s.track.state ≠ .off) :
    haltSettle (stopOrder (cancelTask (abandonAll s))) =
      { s with
        seek := s.seek.dropTask
        seq := { s.seq with queue := [], step := .none }
        sled := if s.track.state = .openSeek then { s.sled with drive := 0, move := none } else s.sled
        track := if stalls s.track = true then s.track.close s.fe.crossings else s.track
        link := s.link.postAll s.abandons } := by
  have hstop := stopOrder_eq s.dropped
  have hloose : ¬(stopOrder s.dropped).trackHeld = true ∧ ¬(stopOrder s.dropped).track.state = .off := by
    rw [trackHeld_iff, hstop, setTrack_track]
    by_cases hm : stalls s.dropped.track = true
    · rw [if_pos hm]
      exact ⟨(·.elim TrackState.noConfusion TrackState.noConfusion), TrackState.noConfusion⟩
    · rw [if_neg hm]
      exact ⟨fun h => Bool.false_ne_true (ht.symm.trans (trackHeld_iff.mpr h)), ho⟩
  rw [cancelTask_abandonAll hs hq, haltSettle, if_neg hloose.1, if_neg hloose.2, hstop]
  simp only [State.dropped, State.setSeq, State.setTrack, State.setSled, State.setSeek, State.setLink]
  rfl

/-! ## The order -/

theorem haltOrder_of_procedure (hp : s.seq.state = .seeking ∨ s.seq.state = .jumping ∨ s.seq.state = .paused ∨ s.seq.state = .suspended)
    (he : s.engageInProgress = false) : haltOrder s = haltSettle (stopOrder (cancelTask (abandonAll s))) := by
  unfold haltOrder
  rcases hp with hp | hp | hp | hp <;> simp [hp, he]

theorem haltOrder_of_engage (hp : s.seq.state = .engaging ∨ s.seq.state = .seeking ∨ s.seq.state = .jumping ∨ s.seq.state = .paused
    ∨ s.seq.state = .suspended) (he : s.engageInProgress = true) : haltOrder s = disengage false (abandonAll s) := by
  unfold haltOrder
  rcases hp with hp | hp | hp | hp | hp <;> simp [hp, he]

theorem haltOrder_of_recovering (hr : s.seq.state = .recovering) (hs : s.signals = []) (hq : queueLaw s.seq.queue) :
    haltOrder s = if s.focusHeld && s.trackHeld then testHead (s.followed s.abandons) else disengage false s.dropped := by
  have hfollow := follow_dropped (s := s) (by rw [hr]; decide)
  rw [← hfollow]
  unfold haltOrder
  simp only [hr, cancelTask_abandonAll hs hq]
  simp
  rfl

end

/-! ## The request -/

section
variable {s : State}

theorem exec_halt (hs : s.settled) (h : s.linkReady) :
    exec (.halt []) s = .next (settle (reply 0x1A .ok [] (haltOrder (s.setLink (s.link.received 0x1A []))))) :=
  done_request_settle hs h rfl rfl

/-- The part goes on in FOLLOWING, the order answered. -/
theorem settle_followed (hs : s.atRest) (posts : List Notice) :
    settle (reply 0x1A .ok [] (testHead ((s.setLink (s.link.received 0x1A [])).followed posts)))
      = (s.followed posts).setLink ((s.link.postAll posts).answered 0x1A [] 0x00 []) := by
  let t : State := (s.followed posts).setLink ((s.link.postAll posts).answered 0x1A [] 0x00 [])
  have hfollow : testHead ((s.setLink (s.link.received 0x1A [])).followed posts)
      = (testHead (s.followed posts)).setLink ((s.link.postAll posts).received 0x1A []) :=
    congrArg (testHead (s.followed posts)).setLink (Link.postAll_received _ _ _ _)
  have hanswer : reply 0x1A .ok [] ((testHead (s.followed posts)).setLink ((s.link.postAll posts).received 0x1A [])) = testHead t :=
    reply_received (testHead (s.followed posts)) _ 0x1A [] .ok [] (by decide)
  have hrest : t.atRest := hs
  rw [hfollow, hanswer, settle, drain_testHead 63 (headDue_of_empty rfl), drain_of_quiet 63 hrest.1, loaderTest_of_atRest hrest]

/-- The part disengages, the order answered. -/
theorem settle_gone (hs : s.atRest) (ht : s.turning) (posts : List Notice) :
    settle (reply 0x1A .ok [] (((s.setLink (s.link.received 0x1A [])).disengaged false posts).setSignals [.spindleMoved]))
      = (s.disengaged false posts).setLink ((s.disengaged false posts).link.answered 0x1A [] 0x00 []) := by
  let u : State := s.disengaged false posts
  have hanswer : reply 0x1A .ok [] ((u.setLink (u.link.received 0x1A [])).setSignals [.spindleMoved])
      = (u.setLink (u.link.answered 0x1A [] 0x00 [])).setSignals [.spindleMoved] :=
    reply_received (u.setSignals [.spindleMoved]) u.link 0x1A [] .ok [] (by decide)
  rw [disengaged_received, hanswer]
  exact settle_spindleMoved SeqState.noConfusion (atRest_setLink (disengaged_atRest hs ht false posts) _)

end

/-- Settles O54. -/
theorem haltRequest : Obligations.HaltRequest := by
  unfold Obligations.HaltRequest
  intro s hs h hq focusHeld trackHeld procedure engage moving followed gone
  let r : State := s.setLink (s.link.received 0x1A [])
  have hengage : r.engageInProgress = engage := by
    unfold State.engageInProgress State.motion
    show decide ((match s.current with | some e => some e.motion | none => none) = some .engage) = engage
    cases hc : s.current <;> simp [engage, hc]
  have hposts (hr : s.seq.state ≠ .recovering) : r.abandons = allEnd 1 s.seq.queue := by
    show allEnd 1 s.seq.queue ++ (if s.seq.state = .recovering then _ else _) = _
    rw [if_neg hr, List.append_nil]
  have hfollow (hall : haltOrder r = testHead (r.followed r.abandons)) : exec (.halt []) s = .next (followed r.abandons) := by
    rw [exec_halt hs h]
    exact congrArg Host.Outcome.next ((congrArg (fun u => settle (reply 0x1A .ok [] u)) hall).trans (settle_followed hs.1 _))
  have hgone (ht : s.turning) (hall : haltOrder r = (r.disengaged false r.abandons).setSignals [.spindleMoved]) :
      exec (.halt []) s = .next (gone r.abandons) := by
    rw [exec_halt hs h]
    exact congrArg Host.Outcome.next ((congrArg (fun u => settle (reply 0x1A .ok [] u)) hall).trans (settle_gone hs.1 ht _))
  have hmoving : stalls s.track = moving := by simp [stalls, moving, Bool.or_assoc]
  have htrack : s.trackHeld = trackHeld := by simp [State.trackHeld, trackHeld]
  have hfocus : s.focusHeld = focusHeld := by simp [State.focusHeld, focusHeld]
  have hproc (hp : procedure = true) : r.seq.state = .seeking ∨ r.seq.state = .jumping ∨ r.seq.state = .paused ∨ r.seq.state = .suspended :=
    of_decide_eq_true hp
  have hnot {st : SeqState} (hst : st = .seeking ∨ st = .jumping ∨ st = .paused ∨ st = .suspended) : st ≠ .recovering ∧ st ≠ .following := by
    rcases hst with rfl | rfl | rfl | rfl <;> decide
  refine ⟨fun hi => ?_, fun hp he => ?_, fun ht hi he => ?_, fun hr => ?_⟩
  · have hall : haltOrder r = flush r := by
      unfold haltOrder
      exact if_pos (by simp only [Bool.or_eq_true, decide_eq_true_eq, or_assoc]; exact hi)
    rw [exec_halt hs h, hall, flush_eq]
    refine congrArg Host.Outcome.next ((congrArg (fun l => settle (reply 0x1A .ok []
      ((s.setSeq { s.seq with queue := s.seq.queue.filter (·.inProgress) }).setLink l))) (Link.postAll_received s.link _ 0x1A [])).trans ?_)
    rw [reply_received _ _ 0x1A [] .ok [] (by decide)]
    exact settle_of_atRest (by exact hs.1)
  · have hst := hproc hp
    have hall := haltOrder_of_procedure hst (hengage.trans he)
    rw [← hposts (hnot hst).1]
    refine ⟨fun ht => ?_, fun ht ho => ?_, fun ht ho => ?_⟩
    · exact hfollow (hall.trans (haltSettle_of_trackHeld hs.1.1 hq (hnot hst).2 (htrack.trans ht)))
    · exact hgone ht (hall.trans (haltSettle_of_off hs.1.1 hq ht ho))
    · rw [exec_halt hs h, hall, haltSettle_of_waiting (s := r) hs.1.1 hq (htrack.trans ht) ho, ← hmoving]
      let v : State :=
        { s with
          seek := s.seek.dropTask
          seq := { s.seq with queue := [], step := .none }
          sled := if s.track.state = .openSeek then { s.sled with drive := 0, move := none } else s.sled
          track := if stalls s.track = true then s.track.close s.fe.crossings else s.track }
      refine congrArg Host.Outcome.next ((congrArg (fun l => settle (reply 0x1A .ok [] (v.setLink l)))
        (Link.postAll_received s.link _ 0x1A [])).trans ?_)
      rw [reply_received v _ 0x1A [] .ok [] (by decide)]
      exact settle_of_atRest (by exact hs.1)
  · have hst : r.seq.state = .engaging ∨ r.seq.state = .seeking ∨ r.seq.state = .jumping ∨ r.seq.state = .paused
        ∨ r.seq.state = .suspended := hi.imp_right hproc
    have hr : r.seq.state ≠ .recovering := by rcases hst with hst | hst | hst | hst | hst <;> rw [hst] <;> decide
    rw [← hposts hr]
    refine hgone ht ((haltOrder_of_engage hst (hengage.trans he)).trans ?_)
    have hsig : r.signals = [] := hs.1.1
    rw [abandonAll_eq (by exact hq), disengage_of_turning false (by exact ht), hsig]
    rfl
  · have hall := haltOrder_of_recovering (s := r) hr hs.1.1 hq
    refine ⟨fun hf ht => ?_, fun ht hfree => ?_⟩
    · exact hfollow (hall.trans (if_pos (Bool.and_eq_true_iff.mpr ⟨hfocus.trans hf, htrack.trans ht⟩)))
    · refine hgone ht (hall.trans ((if_neg fun hheld => ?_).trans (disengage_dropped hs.1.1 ht)))
      obtain ⟨hf, ht'⟩ := Bool.and_eq_true_iff.mp hheld
      exact hfree.elim (fun h0 => Bool.false_ne_true (h0.symm.trans (hfocus.symm.trans hf))) (fun h0 => Bool.false_ne_true (h0.symm.trans (htrack.symm.trans ht')))

end Sys2Proof.Machine
end

