-- ==== Sys2Proof/Proofs/Requests/Motion.lean ====
section
/-! SUPPORT. The motion requests (R133 to R135): refusals, merges, the full queue, and the append with what it starts. -/

namespace Sys2Proof.Machine

/-! ## The request on the wire (R204, R206) -/

section
variable {s : State} {m : Motion} {tag : Byte}

theorem requestKind_lt (m : Motion) : m.requestKind < 128 := by
  cases m <;> simp [Motion.requestKind]

theorem handOver_motion (hf : m.fits) (u : State) :
    handOver m.requestKind (m.requestPayload tag) u = motionRequest m.requestKind m tag u := by
  cases m with
  | seek t => 
    have hfield : fieldAt (tag :: be3 t) 1 3 = t := beNat_be3 hf
    show motionRequest 0x16 (.seek (fieldAt (tag :: be3 t) 1 3)) tag u = _
    rw [hfield]
    rfl
  | jump n =>
    have hfield : signedAt (tag :: be2Signed n) 1 = n := signed16_be2Signed hf.1 hf.2
    show motionRequest 0x17 (.jump (signedAt (tag :: be2Signed n) 1)) tag u = _
    rw [hfield]
    rfl
  | engage => rfl
  | pause => rfl
  | disengage => rfl

theorem exec_motion (hs : s.settled) (h : s.linkReady) (hf : m.fits) : exec (m.command tag) s = .next (settle
    (motionRequest m.requestKind m tag (s.setLink (s.link.received m.requestKind (m.requestPayload tag))))) := by
  have hreq : exec (m.command tag) s = done (request m.requestKind (m.requestPayload tag)) s := by cases m <;> rfl
  have hlen : lengthAllowed m.requestKind (m.requestPayload tag) = true := by cases m <;> rfl
  exact hreq.trans (done_request_settle hs h hlen (handOver_motion hf _))

end

/-! ## The refusals and the adjustment (R133, R134) -/

section
variable {s : State} {m : Motion} {tag : Byte}

theorem adjustMotion_snd (lastBlock : Nat) (m : Motion) :
    (adjustMotion lastBlock m).2 = decide ((adjustMotion lastBlock m).1 ≠ m) := by
  cases m <;> simp [adjustMotion]

theorem motionRefusal_of_latch (h : s.sup.faultLatch = true) : motionRefusal m s = some .fault := if_pos h

theorem motionRefusal_of_moving (h : s.sup.faultLatch = false) (he : m ≠ .engage) (hd : m ≠ .disengage) :
    motionRefusal m s = if s.seq.state.engaged || hasEngage s.seq.queue then none else some .notEngaged := by
  unfold motionRefusal
  rw [if_neg (by rw [h]; exact Bool.false_ne_true)]
  cases m with
  | engage => exact absurd rfl he
  | disengage => exact absurd rfl hd
  | _ => rfl

theorem motionRefusal_of_engage (h : s.sup.faultLatch = false) :
    motionRefusal .engage s = if s.discReady then none else some .noDisc := by
  rw [motionRefusal, if_neg (by rw [h]; exact Bool.false_ne_true)]

theorem motionRefusal_of_disengage (h : s.sup.faultLatch = false) : motionRefusal .disengage s = none := by
  rw [motionRefusal, if_neg (by rw [h]; exact Bool.false_ne_true)]

/-! ## The merge (R135) -/

theorem splitTail_eq (queue : List Entry) : splitTail queue = queue.getLast?.map (fun e => (queue.dropLast, e)) := by
  induction queue with
  | nil => rfl
  | cons e es ih =>
    cases es with
    | nil => rfl
    | cons f fs => 
      rw [splitTail, ih, List.getLast?_cons_cons]
      · cases (f :: fs).getLast? <;> rfl
      · exact List.cons_ne_nil f fs

theorem mergeQueue_eq (queue : List Entry) (m : Motion) (tag : Byte) : mergeQueue queue m tag
    = queue.getLast?.bind (fun old => (mergeTail old m tag).map (fun p => (queue.dropLast ++ [p.1], old.tag, p.2))) := by
  rw [mergeQueue, splitTail_eq]
  cases queue.getLast? <;> rfl

theorem mergeTail_eq_none {old : Entry} (h : old.inProgress = true ∨ ((m.argument = none ∨ old.motion.argument = none)
    ∧ (m.tracks = none ∨ old.motion.tracks = none))) : mergeTail old m tag = none := by
  unfold mergeTail
  split
  · rfl
  · next hidle =>
    obtain ⟨hseek, hjump⟩ := h.resolve_left (by simpa using hidle)
    split
    · next hold => simp [Motion.argument, hold] at hseek
    · next hold => simp [Motion.tracks, hold] at hjump
    · rfl

/-! ## What the request does -/

variable {w : State} {kind : Nat}

theorem motionRequest_refused {st : Status} (hw : wakeTo .active s = w) (h : motionRefusal m w = some st) :
    motionRequest kind m tag s = reply kind st [tag] w := by
  subst hw
  simp only [motionRequest, h]

theorem motionRequest_merged {queue : List Entry} {old : Byte} {sat : Bool} (hw : wakeTo .active s = w) (h : motionRefusal m w = none)
    (hm : mergeQueue w.seq.queue (adjustMotion w.seek.lastBlock m).1 tag = some (queue, old, sat)) :
    motionRequest kind m tag s = reply kind (if (adjustMotion w.seek.lastBlock m).2 || sat then .clamped else .merged)
      (motionReply tag (some old) queue.length) (w.setSeq { w.seq with queue := queue }) := by
  subst hw
  simp only [motionRequest, h, hm]

theorem motionRequest_full (hw : wakeTo .active s = w) (h : motionRefusal m w = none)
    (hm : mergeQueue w.seq.queue (adjustMotion w.seek.lastBlock m).1 tag = none) (hlen : w.seq.queue.length = 4) :
    motionRequest kind m tag s = reply kind .queueFull [tag] w := by
  subst hw
  simp only [motionRequest, h, hm]
  exact if_pos (by omega)

theorem motionRequest_queued (hw : wakeTo .active s = w) (h : motionRefusal m w = none)
    (hm : mergeQueue w.seq.queue (adjustMotion w.seek.lastBlock m).1 tag = none) (hlen : w.seq.queue.length < 4) :
    motionRequest kind m tag s = afterAppend (reply kind (if (adjustMotion w.seek.lastBlock m).2 then .clamped else .queued)
      (motionReply tag none (w.seq.queue.length + 1))
      (w.setSeq { w.seq with queue := w.seq.queue ++ [⟨(adjustMotion w.seek.lastBlock m).1, tag, false⟩] })) := by
  subst hw
  simp only [motionRequest, h, hm, List.length_append, List.length_singleton]
  exact if_neg (by omega)

end

/-! ## What an append starts (R136, R142) -/

section
variable {s : State}

theorem afterAppend_of_idle (h : s.seq.state ≠ .paused ∨ s.current = none) : afterAppend s = testHead s := by
  refine if_neg fun hp => ?_
  obtain ⟨hst, hc⟩ := Bool.and_eq_true_iff.mp hp
  rcases h with h | h
  · exact h (of_decide_eq_true hst)
  · rw [h] at hc
    exact Bool.false_ne_true hc

/-- The part with a PAUSE in progress ended, in FOLLOWING. -/
def State.resumed (s : State) (e : Entry) (rest : List Entry) : State :=
  { s with
    seq := { s.seq with
      state := .following, queue := rest
      resume := if s.seek.valid then some s.seek.aCur else s.seq.resume, step := .none, addrTimer := none
      loopWait := none, recTimer := 0, cause := .none, attempts := 0 }
    sup := { s.sup with idleTimer := none }
    link := s.link.postAll (endNotices 0 [e]) }

theorem afterAppend_of_pause {e : Entry} {rest : List Entry} (h : s.seq.state = .paused) (hq : s.seq.queue = e :: rest)
    (he : e.inProgress = true) : afterAppend s = testHead (s.resumed e rest) := by
  have hcurrent : s.current = some e := by rw [State.current, hq]; exact if_pos he
  have hends : endEntry .done s = (s.setSeq { s.seq with queue := rest }).setLink (s.link.postAll (endNotices 0 [e])) := by
    rw [endEntry, hq]
    exact if_pos he
  have hnot : ¬s.seq.state = .seeking := by rw [h]; decide
  have hread : (SeqState.following.reading && !s.seq.state.reading) = false := by rw [h]; rfl
  rw [afterAppend, if_pos (by rw [h, hcurrent]; rfl), endFollowing, hends, setSeqState_eq (by decide) (by decide), State.entered,
    if_neg (by exact hnot)]
  refine congrArg testHead ?_
  simp only [setLink_seq, setSeq_seq, hread]
  rfl

/-- A part whose state takes no head settles as it stands. -/
theorem settle_testHead_of_none (hs : s.atRest) (h : s.headDue = none) : settle (testHead s) = s := by
  rw [settle, drain_testHead 63 h, drain_of_quiet 63 hs.1, loaderTest_of_atRest hs]

theorem headDue_of_busy (h : s.seq.state ≠ .idle ∧ s.seq.state ≠ .standby ∧ s.seq.state ≠ .following) : s.headDue = none := by
  unfold State.headDue
  split
  · exact if_neg (by simp [h.1, h.2.1, h.2.2])
  · rfl

end

/-- A queued entry leaves the part at rest. -/
theorem atRest_setQueue {s w : State} (hw : w.atRest) (hseq : w.seq = s.seq) (q : List Entry) (l : Link) :
    ((w.setSeq { s.seq with queue := q }).setLink l).atRest := by
  rw [← hseq]
  exact hw

/-- Settles O53. -/
theorem motionRequests : Obligations.MotionRequests := by
  unfold Obligations.MotionRequests
  intro s m tag hs h hf hq kind p queue w disc engaged clampJump m' refused
  let r : State := w.setLink (w.link.received kind p)
  have hwake : wakeTo .active (s.setLink (s.link.received kind p)) = r := wakeTo_received s kind p
  have hrest : w.atRest := awake_atRest hs.1
  have hheld : w.held = false := (awake_held s).trans hs.2
  have hseq : w.seq = s.seq := awake_seq s
  have hkind : kind < 128 := requestKind_lt m
  have hlatch : r.sup.faultLatch = s.sup.faultLatch := awake_faultLatch s
  have hseek : r.seek = s.seek := awake_seek s
  have hqueue : r.seq.queue = queue := congrArg (·.queue) hseq
  have hdisc : r.discReady = disc := by
    have hloader : r.loader = s.loader := awake_loader s
    simp [State.discReady, hloader, disc]
  have hengaged : (r.seq.state.engaged || hasEngage r.seq.queue) = engaged := by
    have hr : r.seq = s.seq := hseq
    exact Bool.eq_iff_iff.mpr (by simp [SeqState.engaged, hasEngage, hr, engaged, queue])
  have hm' : (adjustMotion r.seek.lastBlock m).1 = m' := by
    rw [hseek]
    cases m <;> simp [adjustMotion, m', Nat.min_comm, satJump, clampJump, sat]
  have hadjusted : (adjustMotion r.seek.lastBlock m).2 = decide (m' ≠ m) := by rw [adjustMotion_snd, hm']
  have hanswers (x : Sequencer) (st : Status) (out : List Byte) :
      reply kind st out (r.setSeq x) = (w.setSeq x).setLink (w.link.answered kind p st.code out) :=
    reply_received (w.setSeq x) w.link kind p st out hkind
  have hrefused (st : Status) (hr : motionRequest kind m tag (s.setLink (s.link.received kind p)) = reply kind st [tag] r) :
      exec (m.command tag) s = .next (refused st.code) := by
    rw [exec_motion hs h hf, hr]
    exact congrArg Host.Outcome.next ((congrArg settle (hanswers w.seq st [tag])).trans (settle_of_atRest (by exact hrest)))
  have hpasses (hl : s.sup.faultLatch = false)
      (hcase : (m = .engage ∧ disc = true) ∨ m = .disengage ∨ (m ≠ .engage ∧ engaged = true)) : motionRefusal m r = none := by
    have hlatch' := hlatch.trans hl
    by_cases hd : m = .disengage
    · subst hd
      exact motionRefusal_of_disengage hlatch'
    · rcases hcase with ⟨he, hready⟩ | hd' | ⟨he, hmoves⟩
      · subst he
        exact (motionRefusal_of_engage hlatch').trans (if_pos (hdisc.trans hready))
      · exact absurd hd' hd
      · exact (motionRefusal_of_moving hlatch' he hd).trans (if_pos (hengaged.trans hmoves))
  have hmerged {q : List Entry} {old : Byte} {sat : Bool} (hpass : motionRefusal m r = none)
      (hm : mergeQueue r.seq.queue (adjustMotion r.seek.lastBlock m).1 tag = some (q, old, sat)) (hlen : q.length = queue.length) :
      exec (m.command tag) s = .next ((w.setSeq { s.seq with queue := q }).setLink
        (w.link.answered kind p (if m' = m ∧ sat = false then 0x02 else 0x03) [tag, 1, old, byte queue.length])) := by
    have hcode : (if (adjustMotion r.seek.lastBlock m).2 || sat then Status.clamped else Status.merged).code
        = if m' = m ∧ sat = false then 0x02 else 0x03 := by
      rw [hadjusted]
      by_cases hsame : m' = m <;> cases sat <;> simp [hsame, Status.code]
    have hreply := motionRequest_merged (kind := kind) hwake hpass hm
    rw [hanswers, hcode, hlen, show r.seq = s.seq from hseq] at hreply
    rw [exec_motion hs h hf]
    exact congrArg Host.Outcome.next ((congrArg settle hreply).trans (settle_of_atRest (atRest_setQueue hrest hseq q _)))
  refine ⟨fun hl => ?_, fun hl hm hd => ?_, fun hl he hd hn => ?_, fun hl hcase => ⟨fun old hlast hidle => ?_, fun hnone => ?_⟩⟩
  · exact hrefused .fault (motionRequest_refused hwake (motionRefusal_of_latch (hlatch.trans hl)))
  · subst hm
    refine hrefused .noDisc (motionRequest_refused hwake ((motionRefusal_of_engage (hlatch.trans hl)).trans (if_neg ?_)))
    rw [hdisc, hd]
    exact Bool.false_ne_true
  · refine hrefused .notEngaged (motionRequest_refused hwake ((motionRefusal_of_moving (hlatch.trans hl) he hd).trans (if_neg ?_)))
    rw [hengaged, hn]
    exact Bool.false_ne_true
  · have hmerge : ∀ q, mergeTail old (adjustMotion r.seek.lastBlock m).1 tag = some q →
        mergeQueue r.seq.queue (adjustMotion r.seek.lastBlock m).1 tag = some (queue.dropLast ++ [q.1], old.tag, q.2) := by
      intro q hq
      rw [mergeQueue_eq, hqueue, hlast]
      exact congrArg (Option.map _) hq
    have hlen (e : Entry) : (queue.dropLast ++ [e]).length = queue.length := by
      have hne : queue ≠ [] := by rintro hnil; rw [hnil] at hlast; cases hlast
      have := List.length_pos_iff.mpr hne
      simp
      omega
    have hwaits : ¬old.inProgress = true := by rw [hidle]; exact Bool.false_ne_true
    refine ⟨fun hnew hold => ?_, fun n hn k hk => ?_⟩
    · have hseeks : mergeTail old (adjustMotion r.seek.lastBlock m).1 tag = some (⟨m', tag, false⟩, false) := by
        rw [hm']
        cases m with
        | seek t =>
          unfold mergeTail
          rw [if_neg hwaits]
          cases hmotion : old.motion with
          | seek _ => rfl
          | _ => exact absurd (by rw [hmotion]; rfl) hold
        | _ => exact absurd rfl hnew
      simpa using hmerged (hpasses hl hcase) (hmerge _ hseeks) (hlen _)
    · have hjumps : mergeTail old (adjustMotion r.seek.lastBlock m).1 tag
          = some (⟨.jump (clampJump (k + clampJump n)), tag, false⟩, decide (clampJump (k + clampJump n) ≠ k + clampJump n)) := by
        rw [hm']
        cases m with
        | jump n' =>
          cases hn
          unfold mergeTail
          rw [if_neg hwaits]
          cases hmotion : old.motion with
          | jump k' =>
            rw [hmotion] at hk
            cases hk
            rfl
          | _ => rw [hmotion] at hk; cases hk
        | _ => cases hn
      have hsame : m' = m ↔ clampJump n = n := by
        cases m with
        | jump n' => cases hn; exact ⟨fun he => by injection he, fun he => congrArg Motion.jump he⟩
        | _ => cases hn
      have hall := hmerged (hpasses hl hcase) (hmerge _ hjumps) (hlen _)
      simpa [hsame] using hall
  · have hmerge : mergeQueue r.seq.queue (adjustMotion r.seek.lastBlock m).1 tag = none := by
      rw [mergeQueue_eq, hqueue]
      cases hlast : queue.getLast? with
      | none => rfl
      | some old =>
        have hapart : (adjustMotion r.seek.lastBlock m).1.argument = none ↔ m.argument = none := by cases m <;> simp [adjustMotion, Motion.argument]
        have hapart' : (adjustMotion r.seek.lastBlock m).1.tracks = none ↔ m.tracks = none := by cases m <;> simp [adjustMotion, Motion.tracks]
        have hold := hnone old hlast
        rw [← hapart, ← hapart'] at hold
        exact congrArg (Option.map _) (mergeTail_eq_none hold)
    have hpass := hpasses hl hcase
    refine ⟨fun hlen => ?_, ?_⟩
    · exact hrefused .queueFull (motionRequest_full hwake hpass hmerge (by rw [hqueue]; exact hlen))
    · intro hlen queued
      have hqueued : exec (m.command tag) s = .next (settle (afterAppend queued)) := by
        have hcode : (if (adjustMotion r.seek.lastBlock m).2 then Status.clamped else Status.queued).code = if m' = m then 0x01 else 0x03 := by
          rw [hadjusted]
          by_cases hsame : m' = m <;> simp [hsame, Status.code]
        have hreply := motionRequest_queued (kind := kind) hwake hpass hmerge (by rw [hqueue]; exact hlen)
        rw [hanswers, hcode, show r.seq = s.seq from hseq, hm'] at hreply
        rw [exec_motion hs h hf]
        exact congrArg (fun u => Host.Outcome.next (settle u)) hreply
      have hrests : queued.atRest := atRest_setQueue hrest hseq _ _
      have hcurrent (hc : s.current = none) : queued.current = none := by
        show (match queue ++ [_] with | e :: _ => if e.inProgress then some e else none | [] => none) = none
        have hhead : (match queue with | e :: _ => if e.inProgress then some e else none | [] => none) = none := hc
        cases hall : queue with
        | nil => rfl
        | cons e es => rw [hall] at hhead; exact hhead
      refine ⟨fun hst => ?_, fun hst => ?_, fun e rest he hprog hst => ?_⟩
      · have hstays : queued.seq.state ≠ .paused ∨ queued.current = none := by
          rcases hst with hst | hst | hst | hst | hst | hst | ⟨_, hc⟩
          on_goal 7 => exact .inr (hcurrent hc)
          all_goals exact .inl (by show s.seq.state ≠ .paused; rw [hst]; decide)
        have hbusy : s.seq.state ≠ .idle ∧ s.seq.state ≠ .standby ∧ s.seq.state ≠ .following := by
          rcases hst with hst | hst | hst | hst | hst | hst | ⟨hst, _⟩ <;> rw [hst] <;> decide
        rw [hqueued, afterAppend_of_idle hstays, settle_testHead_of_none hrests (headDue_of_busy hbusy)]
      · have hidle : queued.seq.state ≠ .paused := by
          show s.seq.state ≠ .paused
          rcases hst with hst | hst | hst <;> rw [hst] <;> decide
        rw [hqueued, afterAppend_of_idle (.inl hidle)]
        exact (done_of_running (s := queued) testHead hheld).symm
      · have happend : queued.seq.queue = e :: (rest ++ [⟨m', tag, false⟩]) := by
          show queue ++ _ = _
          rw [he]
          rfl
        rw [hqueued, afterAppend_of_pause (s := queued) hst happend hprog]
        refine (done_of_running testHead (by exact hheld)).symm.trans (congrArg (done testHead) ?_)
        rw [State.resumed, show queued.seek = s.seek from awake_seek s]
        rfl

end Sys2Proof.Machine
end

