-- ==== Sys2Proof/Proofs/FaultAndHold.lean ====
section
/-! SUPPORT. DRIVER_FAULT (R147, R155, R177, R178, R180), with the hold of the spindle and its release (R104). -/

namespace Sys2Proof.Machine

section
variable {s : State}

/-! ## The hold of the spindle and its release (R104) -/

/-- The spindle as an entry to COAST leaves it. -/
def Spindle.coasting (x : Spindle) : Spindle := { x with state := .coast, drive := 0, lockRun := 0, unlockRun := 0 }

/-- The SPINDLE notice of a spindle that leaves LOCKED to coast. -/
def State.coastNotices (s : State) : List Notice := if s.spindle.state = .locked then [⟨.spindle, [4]⟩] else []

/-- A spindle that turns or brakes coasts (R104). -/
theorem spindleHold_of_moving (h : s.turning ∨ s.spindle.state = .braking) :
    spindleHold s = ((s.setSpindle s.spindle.coasting).setLink (s.link.postAll s.coastNotices)).setSignals
      (s.signals ++ [.spindleMoved]) := by
  have hcoast : spindleHold s = enterCoast s := by
    unfold spindleHold
    rcases h with (h | h | h) | h <;> rw [h]
  have hne : s.spindle.state ≠ .coast := by rcases h with (h | h | h) | h <;> rw [h] <;> decide
  rw [hcoast, enterCoast, setSpindleState_moved (by exact hne), spindleNotice_leave SpindleState.noConfusion]
  rfl

/-- The spindle as its release leaves it: kicked where the run demand stands, else braking. -/
def Spindle.freed (x : Spindle) : Spindle :=
  if x.run then { x with state := .kick, drive := 2047, lockRun := 0, unlockRun := 0, timer := 0 }
  else { x with state := .braking, drive := -1024, lockRun := 0, unlockRun := 0, timer := 0 }

theorem freed_state (x : Spindle) : x.freed.state = if x.run then .kick else .braking := by
  unfold Spindle.freed
  split_ifs <;> rfl

theorem freed_ne_stopped (x : Spindle) : x.freed.state ≠ .stopped := by
  rw [freed_state]
  split_ifs <;> decide

/-- A coasting spindle that nothing holds any longer (R104). -/
theorem spindleRelease_of_coast (hm : s.motorsHeld = false) (hc : s.spindle.state = .coast) :
    spindleRelease s = (s.setSpindle s.spindle.freed).setSignals (s.signals ++ [.spindleMoved]) := by
  have hleaves (x : Spindle) (hx : x.state = .kick ∨ x.state = .braking) :
      setSpindleState x s = (s.setSpindle x).setSignals (s.signals ++ [.spindleMoved]) := by
    have hne : s.spindle.state ≠ x.state := by rcases hx with hx | hx <;> rw [hc, hx] <;> decide
    have hquiet : spindleNotice s.spindle.state x.state = [] := by
      rw [spindleNotice_leave (by rcases hx with hx | hx <;> rw [hx] <;> decide), if_neg (by rw [hc]; decide)]
    rw [setSpindleState_moved hne, hquiet]
    rfl
  rw [spindleRelease, if_neg (by rw [hm]; exact Bool.false_ne_true), if_pos hc, Spindle.freed]
  by_cases hr : s.spindle.run = true
  · rw [if_pos hr, if_pos hr]
    exact hleaves _ (.inl rfl)
  · rw [if_neg hr, if_neg hr]
    exact hleaves _ (.inr rfl)

/-! ## The fault order (R147) -/

theorem disengageSteps_of_coast (h : s.spindle.state = .coast) : disengageSteps s
    = ((cancelTask s).loopsOpened.unlit.setSpindle { s.spindle with run := false }).shockEnded.unread := by
  have hbrake : brakeOrder (cancelTask s).loopsOpened.unlit
      = (cancelTask s).loopsOpened.unlit.setSpindle { s.spindle with run := false } := by
    have hcoast : (cancelTask s).loopsOpened.unlit.spindle.state = .coast := h
    unfold brakeOrder
    simp only [setSpindle_spindle, hcoast]
    rw [← h]
    rfl
  calc disengageSteps s
      = (endShock (brakeOrder (openFocus (cancelTask s)).unlit)).unread := rfl
    _ = (endShock (brakeOrder (cancelTask s).loopsOpened.unlit)).unread := by rw [openFocus_eq]
    _ = _ := by rw [hbrake, endShock_of_open rfl rfl]

/-- The fault order of an engaged part whose spindle coasts already. -/
theorem faultOrder_of_coast (hq : queueLaw s.seq.queue) (hc : s.spindle.state = .coast) (hi : s.seq.state ≠ .idle)
    (hst : s.seq.state ≠ .standby) : faultOrder s =
    (((((cancelTask (abandonAll s)).loopsOpened.unlit.setSpindle { s.spindle with run := false }).shockEnded.unread).bound false).entered
      .idle) := by
  have habandon := abandonAll_eq hq
  have hengaged : (abandonAll s).seq.state.engaged = true := by rw [abandonAll_state]; simp [SeqState.engaged, hi, hst]
  have hspindle : (abandonAll s).spindle = s.spindle := by rw [habandon]; rfl
  rw [faultOrder]
  dsimp only
  rw [if_pos hengaged, disengageSteps_of_coast (by rw [hspindle]; exact hc), setSeqState_eq (by decide) (by decide), hspindle]
  rfl

/-! ## The end of a step with the motors held (R159) -/

/-- The spindle's own change, taken last by a part whose motor permit is not given. -/
theorem settle_spindleMoved_of_held {t : State} (hne : t.seq.state ≠ .engaging) (hs : t.signals = []) (hp : t.motorPermit = false) :
    settle (t.setSignals [.spindleMoved]) = t.setLoader { t.loader with drive := 0 } := by
  have hdemand : t.loaderDemand = 0 := by
    rw [loaderDemand_eq, hp]
    rfl
  have hstays : ejectRelease t = t := ejectRelease_of_not_due fun h => Bool.false_ne_true (hp.symm.trans h.2.2)
  rw [settle, drain_spindleMoved 63 hne, setSignals_nil hs, loaderTest, hstays, hdemand]

end

section
variable {s : State}

/-- The part as the asserting edge of DRIVER_FAULT leaves it, before the loader's drive follows its permit. -/
def State.faulted (s : State) : State :=
  { s.disengaged false [] with
    spindle := { (s.disengaged false []).spindle with state := .coast, drive := 0, timer := s.spindle.timer }
    seq := { (s.disengaged false []).seq with state := .idle }
    sup := { s.sup with faultPin := true, faultLatch := true, mute := true, idleTimer := none }
    link := s.link.postAll (s.coastNotices ++ s.abandons
      ++ (if s.groups.shockMode then [⟨.shock, [0, byte s.groups.base.val]⟩] else []) ++ [⟨.fault, [1, 1]⟩]) }

theorem faultAssert_of_turning (hs : s.signals = []) (hq : queueLaw s.seq.queue) (hp : s.sup.faultPin = false) (ht : s.turning)
    (hi : s.seq.state ≠ .idle) (hst : s.seq.state ≠ .standby) : faultAssert s = s.faulted.setSignals [.spindleMoved] := by
  have hunfold : faultAssert s = postFault (faultOrder (spindleHold
      (s.setSup { s.sup with faultPin := true, faultLatch := true, mute := true }))) :=
    if_neg (by rw [hp]; exact Bool.false_ne_true)
  rw [hunfold, spindleHold_of_moving (by exact .inl ht), faultOrder_of_coast (by exact hq) rfl (by exact hi) (by exact hst),
    abandonAll_eq (by exact hq)]
  simp only [State.faulted, State.disengaged, State.entered, State.bound, State.unread, State.shockEnded, Groups.unshocked,
    State.loopsOpened, State.unlit, cancelTask, Spindle.coasting, postAll_append, hs, State.setSeq, State.setSup, State.setSeek,
    State.setLink, State.setSignals, State.setSpindle, Seek.dropTask, State.ownTarget, postFault, post]
  rfl

end

/-- Settles O45. -/
theorem driverFaultMutes : Obligations.DriverFaultMutes := by
  unfold Obligations.DriverFaultMutes
  intro s hs hq
  refine ⟨fun hpin => ?_, fun hpin => ?_, fun hpin ht hi hst => ?_, fun hpin hcrank hc hl he => ?_⟩
  · have hsame : faultAssert s = s := if_pos hpin
    exact (done_of_atRest faultAssert hs.2 (hsame.symm ▸ hs.1)).trans (congrArg _ hsame)
  · have hsame : faultDrop s = s := if_neg (by rw [hpin]; exact Bool.false_ne_true)
    exact (done_of_atRest faultDrop hs.2 (hsame.symm ▸ hs.1)).trans (congrArg _ hsame)
  · intro u
    have hmuted : s.faulted.motorPermit = false := by
      have hmute : s.faulted.sup.mute = true := rfl
      simp [State.motorPermit, hmute]
    rw [show exec .driverFaultAssert s = done faultAssert s from rfl, done_of_running _ hs.2,
      faultAssert_of_turning hs.1.1 hq hpin ht hi hst, settle_spindleMoved_of_held (t := s.faulted) SeqState.noConfusion hs.1.1 hmuted]
    rfl
  · let t : State := ((s.setSup { s.sup with faultPin := false, mute := false }).setSpindle s.spindle.freed).setLink
      (s.link.post .fault [flagByte s.sup.faultLatch, 0])
    have hdrop : faultDrop s = t.setSignals [.spindleMoved] := by
      have hunfold : faultDrop s = postFault (loaderFreed (spindleRelease (s.setSup { s.sup with faultPin := false, mute := false }))) :=
        if_pos hpin
      have hfull (x : State) (hx : x.loader.state ≠ .empty) : loaderFreed x = x := if_neg (by simp [hx])
      rw [hunfold, spindleRelease_of_coast (by simp [State.motorsHeld, hcrank]) (by exact hc), hfull _ (by exact hl),
        show (s.setSup { s.sup with faultPin := false, mute := false }).signals = [] from hs.1.1]
      rfl
    have hrest : t.atRest :=
      atRest_of_not_stopped (by rw [hc]; decide) (freed_ne_stopped s.spindle) hs.1 hs.1.1 rfl
    rw [show exec .driverFaultDrop s = done faultDrop s from rfl, done_of_running _ hs.2, hdrop, settle_spindleMoved (t := t) he hrest]
    rfl

end Sys2Proof.Machine
end

