-- ==== Sys2Proof/Proofs/SeekEnds.lean ====
section
/-! SUPPORT. The Seek Engine's orders and the ends of its tasks (R47, R49, R121 to R125, R130, R136), with what the sequencer makes of an
outcome. -/

namespace Sys2Proof.Machine

section
variable {s : State}

/-! ## The orders of a leg (R47, R49, R123) -/

/-- Outside a sample that counts a crossing, the crossing count starts at 0. -/
theorem restartCrossings_eq (h : s.fe.crossingNow = false) : restartCrossings s = s.setFe { s.fe with crossings := 0 } := by
  rw [restartCrossings, h]
  rfl

/-- The tracking loop as a jump order leaves it. -/
def TrackLoop.kicked (t : TrackLoop) (n : Int) (byPause : Bool) : TrackLoop :=
  { t with state := .jumping, phase := .kick, jumpLen := n, stall := 0, offCount := 0, goal := .jumpDone, byPause := byPause }

/-- The tracking loop as a move order leaves it. -/
def TrackLoop.moving (t : TrackLoop) (count : Nat) : TrackLoop :=
  { t with state := .openSeek, stall := 0, offCount := 0, moveCount := count, goal := .trackLocked, byPause := false }

theorem jumpOrder_of_held {n : Int} (byPause : Bool) (hn : n ≠ 0) (ht : s.trackHeld = true) (hx : s.fe.crossingNow = false) :
    jumpOrder n byPause s = (true, (s.setTrack (s.track.kicked n byPause)).setFe { s.fe with crossings := 0 }) := by
  rw [jumpOrder, if_pos ht, if_neg hn]
  exact congrArg (Prod.mk true) (restartCrossings_eq (by exact hx))

theorem moveOrder_of_held {out : Bool} {count : Nat} (ht : s.trackHeld = true) (hx : s.fe.crossingNow = false) :
    moveOrder out count s
      = (true, ((s.setTrack (s.track.moving count)).setSled { s.sled with move := some out }).setFe { s.fe with crossings := 0 }) := by
  rw [moveOrder, if_pos ht]
  exact congrArg (Prod.mk true) (restartCrossings_eq (by exact hx))

theorem orderLeg_of_jump {n : Int} (hl : s.seek.leg = .jump n) (hn : n ≠ 0) (ht : s.trackHeld = true) (hx : s.fe.crossingNow = false) :
    orderLeg s = ((s.setTrack (s.track.kicked n false)).setFe { s.fe with crossings := 0 }).setSeek { s.seek with retry := false } := by
  rw [orderLeg, hl]
  dsimp only
  rw [jumpOrder_of_held false hn ht hx]
  rfl

theorem orderLeg_of_move {out landed : Bool} {count : Nat} (hl : s.seek.leg = .move out count landed) (ht : s.trackHeld = true)
    (hx : s.fe.crossingNow = false) : orderLeg s =
      (((s.setTrack (s.track.moving count)).setSled { s.sled with move := some out }).setFe { s.fe with crossings := 0 }).setSeek
        { s.seek with retry := false } := by
  rw [orderLeg, hl]
  dsimp only
  rw [moveOrder_of_held ht hx]
  rfl

/-! ## The end of a task (R121, R136) -/

/-- A task's outcome is taken before anything else. -/
theorem drain_endTask (n : Nat) (o : EndOutcome) : drain (n + 1) (endTask o s) = drain n (seqOutcome o (s.setSeek s.seek.dropTask)) := by
  rw [endTask, emitNow_eq, drain_cons n rfl]
  rfl

theorem settle_endTask (o : EndOutcome) : settle (endTask o s) = loaderTest (drain 63 (seqOutcome o (s.setSeek s.seek.dropTask))) :=
  congrArg loaderTest (drain_endTask 63 o)

/-- The one entry of the queue ends and the part goes on in FOLLOWING, its task dropped. -/
theorem endFollowing_dropped {e : Entry} (o : EndOutcome) (hq : s.seq.queue = [e]) (he : e.inProgress = true)
    (hr : s.seq.state ≠ .following) :
    endFollowing o (s.setSeek s.seek.dropTask) = testHead (s.followed (endNotices o.code [e])) := by
  have hend : endEntry o (s.setSeek s.seek.dropTask)
      = ((s.setSeek s.seek.dropTask).setSeq { s.seq with queue := [] }).setLink (s.link.postAll (endNotices o.code [e])) := by
    rw [endEntry, show (s.setSeek s.seek.dropTask).seq.queue = [e] from hq]
    exact if_pos he
  rw [endFollowing, hend, setSeqState_eq (by decide) (by decide), State.entered]
  refine congrArg testHead ?_
  cases h : s.seq.state <;>
    simp_all [State.followed, SeqState.reading, Sequencer.enter, Seek.dropTask, State.ownTarget]

/-- The end of a seek or a jump whose outcome is no TRACK_FAIL, with nothing behind its entry. -/
theorem drain_endTask_following {e : Entry} (n : Nat) (o : EndOutcome) (hs : s.signals = []) (hq : s.seq.queue = [e])
    (he : e.inProgress = true) (hr : s.seq.state ≠ .following)
    (ho : seqOutcome o (s.setSeek s.seek.dropTask) = endFollowing o (s.setSeek s.seek.dropTask)) :
    drain (n + 2) (endTask o s) = s.followed (endNotices o.code [e]) := by
  rw [drain_endTask, ho, endFollowing_dropped o hq he hr, drain_testHead n (headDue_of_empty rfl), drain_of_quiet n (by exact hs)]

theorem settle_endTask_following {e : Entry} (o : EndOutcome) (hs : s.atRest) (hq : s.seq.queue = [e]) (he : e.inProgress = true)
    (hr : s.seq.state ≠ .following) (ho : seqOutcome o (s.setSeek s.seek.dropTask) = endFollowing o (s.setSeek s.seek.dropTask)) :
    settle (endTask o s) = s.followed (endNotices o.code [e]) := by
  rw [settle, drain_endTask_following 62 o hs.1 hq he hr ho, loaderTest_of_atRest]
  exact hs

/-- An outcome that ends the entry: any of a seek or jump but TRACK_FAIL, and one that ends a suspended entry's return seek not DONE. -/
theorem seqOutcome_ends {o : EndOutcome} (hf : o ≠ .trackFail)
    (hst : s.seq.state = .seeking ∨ s.seq.state = .jumping ∨ s.seq.state = .engaging ∨ (s.seq.state = .suspended ∧ o ≠ .done)) :
    seqOutcome o s = endFollowing o s := by
  unfold seqOutcome
  rcases hst with h | h | h | ⟨h, hd⟩ <;> rw [h] <;> dsimp only
  · rw [if_neg hf]
  · rw [if_neg hf]
  · rw [if_neg hf]
  · rw [if_neg hd, if_neg hf]

end

/-- Settles O37. -/
theorem waitsAndReorders : Obligations.WaitsAndReorders := by
  unfold Obligations.WaitsAndReorders
  intro s hs hx
  refine ⟨fun hl hc => ?_, fun e hq he hl hc hst => ?_, fun k hl hk hr ht => ?_, fun out count landed hl hr ht => ?_⟩
  · have hwait : addressWaitTimeout s = s.setSeek
        { s.seek with leg := .wait, corrections := s.seek.corrections + 1, waitTimer := 0, retry := false, limitStop := false } := by
      rw [addressWaitTimeout, if_pos hl, countCorrection, if_neg (by omega)]
      rfl
    rw [← hl] at hwait
    refine (done_of_atRest addressWaitTimeout hs.2 ?_).trans (congrArg _ hwait)
    rw [hwait]
    exact hs.1
  · have hmiss : addressWaitTimeout s = endTask .seekMiss s := by
      rw [addressWaitTimeout, if_pos hl, countCorrection, if_pos hc]
    have hstate : s.seq.state ≠ .following ∧ s.seq.state ≠ .paused := by
      rcases hst with h | ⟨h, _⟩ <;> rw [h] <;> decide
    have hends : seqOutcome .seekMiss (s.setSeek s.seek.dropTask) = endFollowing .seekMiss (s.setSeek s.seek.dropTask) :=
      seqOutcome_ends (by decide) (hst.elim .inl fun h => .inr (.inr (.inr ⟨h.1, by decide⟩)))
    rw [show exec .addressWaitTimeout s = done addressWaitTimeout s from rfl, done_of_running _ hs.2, hmiss,
      settle_endTask_following .seekMiss hs.1 hq he hstate.1 hends, State.followed, if_neg hstate.2]
    rfl
  · have hheld := trackHeld_iff.mpr ht
    have horder : seekReorder s = _ := (if_pos (by rw [hr, hheld]; rfl)).trans (orderLeg_of_jump hl hk hheld hx)
    refine (done_of_atRest seekReorder hs.2 ?_).trans (congrArg _ horder)
    rw [horder]
    exact hs.1
  · have hheld := trackHeld_iff.mpr ht
    have horder : seekReorder s = _ := (if_pos (by rw [hr, hheld]; rfl)).trans (orderLeg_of_move hl hheld hx)
    refine (done_of_atRest seekReorder hs.2 ?_).trans (congrArg _ horder)
    rw [horder]
    exact hs.1

end Sys2Proof.Machine
end

