-- ==== Sys2Proof/Proofs/TaskStarts.lean ====
section
/-! SUPPORT. How a seek and a jump task start, and what a check decides (R97, R121 to R123, R125, R127). -/

namespace Sys2Proof.Machine

section
variable {s : State}

/-! ## The entry to SEEKING (R97) -/

/-- The machine with a SEEK in progress: T follows its target's zone. -/
def State.seeking (s : State) (t : Nat) : State :=
  { s with
    spindle := { s.spindle with target := (zoneAt s.seek.zones (zoneOf s.seek.zones t)).interval }
    seq := s.seq.enter .seeking s.seek
    sup := { s.sup with idleTimer := none } }

theorem setSeqState_seeking {e : Entry} {rest : List Entry} {t : Nat} (hq : s.seq.queue = e :: rest) (he : e.inProgress = true)
    (hm : e.motion.argument = some t) : setSeqState .seeking s = s.seeking t := by
  have hset : setSeqState .seeking s = evalTarget ((s.setSeq (s.seq.enter .seeking s.seek)).setSup { s.sup with idleTimer := none }) := by
    unfold setSeqState
    dsimp only
    rw [if_neg (by decide), if_pos (by simp), if_neg (by simp [SeqState.reading])]
    rfl
  have htarget : ((s.setSeq (s.seq.enter .seeking s.seek)).setSup { s.sup with idleTimer := none }).seekTarget = some t := by
    have hcurrent : ((s.setSeq (s.seq.enter .seeking s.seek)).setSup { s.sup with idleTimer := none }).current = some e := by
      show (match s.seq.queue with | e :: _ => if e.inProgress then some e else none | [] => none) = some e
      rw [hq]
      exact if_pos he
    rw [State.seekTarget, hcurrent]
    dsimp only
    cases hmotion : e.motion <;> rw [hmotion] at hm <;> cases hm
    rfl
  have hzone : ((s.setSeq (s.seq.enter .seeking s.seek)).setSup { s.sup with idleTimer := none }).referenceZone = zoneOf s.seek.zones t := by
    rw [State.referenceZone]
    dsimp only
    rw [if_pos (by rfl), htarget]
    rfl
  rw [hset, evalTarget, hzone]
  rfl

/-- An entry to a state that reads no address, out of another state than SEEKING: only the sequencer and the idle timer change. -/
theorem setSeqState_quiet {st : SeqState} (hr : st.reading = false) (hstand : st ≠ .standby) (hseek : st ≠ .seeking)
    (hs : s.seq.state ≠ .seeking) :
    setSeqState st s = (s.setSeq (s.seq.enter st s.seek)).setSup { s.sup with idleTimer := none } := by
  have hp : st ≠ .paused := by rintro rfl; cases hr
  rw [setSeqState_eq hstand hseek, State.entered, hr, if_neg hs, if_neg hp]
  rfl

/-! ## The legs (R47, R49, R123) -/

/-- A jump leg whose order is taken. -/
def State.jumpLeg (s : State) (n : Int) : State :=
  { s with
    fe := { s.fe with crossings := 0 }
    track := s.track.kicked n false
    seek := { s.seek with leg := .jump n, madeLeg := true, retry := false, limitStop := false } }

/-- A move leg whose order is taken. -/
def State.moveLeg (s : State) (out : Bool) (count : Nat) : State :=
  { s with
    fe := { s.fe with crossings := 0 }
    track := s.track.moving count
    sled := { s.sled with move := some out }
    seek := { s.seek with leg := .move out count false, madeLeg := true, retry := false, limitStop := false } }

theorem atRest_moveLeg {out : Bool} {count : Nat} (h : s.atRest) : (s.moveLeg out count).atRest := h

theorem atRest_jumpLeg {n : Int} (h : s.atRest) : (s.jumpLeg n).atRest := h

/-- A move in the direction of a negative distance runs inward. -/
theorem inward_move {d : Int} (hd : d < 0) (count : Nat) : (Leg.move (decide (0 < d)) count false).inward = true := by
  have hout : ¬0 < d := by omega
  simp [Leg.inward, hout]

/-- A distance beyond a limit is none of 0. -/
theorem ne_zero_of_far {d : Int} {limit : Nat} (h : limit < d.natAbs) : d ≠ 0 := by
  rintro rfl
  simp at h

theorem orderTested_limit {leg : Leg} (hin : leg.inward = true) (hl : s.sup.innerLimit.level = true) :
    orderTested leg s = endTask .limit s := by
  rw [orderTested, if_pos (by rw [hin, hl]; rfl)]

theorem orderTested_of_passes {leg : Leg} (h : (leg.inward && s.sup.innerLimit.level) = false) :
    orderTested leg s = orderLeg (s.setSeek { s.seek with leg := leg, madeLeg := true, limitStop := false }) :=
  if_neg (by rw [h]; exact Bool.false_ne_true)

theorem inward_jump_iff {n : Int} : (Leg.jump n).inward = true ↔ n < 0 := by simp [Leg.inward]

/-- An outward leg, or any leg off the inner limit. -/
theorem jump_passes {n : Int} (h : s.sup.innerLimit.level = false ∨ ¬n < 0) : ((Leg.jump n).inward && s.sup.innerLimit.level) = false := by
  rcases h with h | h
  · rw [h, Bool.and_false]
  · rw [Bool.eq_false_iff.mpr (fun hin => h (inward_jump_iff.mp hin)), Bool.false_and]

theorem orderTested_jump {n : Int} (hn : n ≠ 0) (h : s.sup.innerLimit.level = false ∨ ¬n < 0) (ht : s.trackHeld = true)
    (hx : s.fe.crossingNow = false) : orderTested (.jump n) s = s.jumpLeg n := by
  rw [orderTested_of_passes (jump_passes h), orderLeg_of_jump rfl hn (by exact ht) (by exact hx)]
  rfl

theorem orderTested_move {d : Int} {count : Nat} (hd : d ≠ 0) (h : s.sup.innerLimit.level = false ∨ ¬d < 0) (ht : s.trackHeld = true)
    (hx : s.fe.crossingNow = false) : orderTested (.move (decide (0 < d)) count false) s = s.moveLeg (decide (0 < d)) count := by
  have hpass : ((Leg.move (decide (0 < d)) count false).inward && s.sup.innerLimit.level) = false := by
    rcases h with h | h
    · rw [h, Bool.and_false]
    · have hout : 0 < d := by omega
      simp [Leg.inward, hout]
  rw [orderTested_of_passes hpass, orderLeg_of_move rfl (by exact ht) (by exact hx)]
  rfl

/-! ## The check of a seek (R122) -/

/-- The distance of a target from an address, in tracks. -/
def State.away (s : State) (target a : Nat) : Int := (s.seek.track target : Int) - (s.seek.track a : Int)

theorem seekCheck_there {target a : Nat} (hd : s.away target a = 0) (ha : a ≤ target) : seekCheck target a s = endTask .done s := by
  rw [seekCheck, checkStep, if_pos (by exact hd), if_pos ha]

theorem seekCheck_back {target a : Nat} (hd : s.away target a = 0) (ha : target < a) :
    seekCheck target a s = seekLeg (.jump (-1)) s := by
  rw [seekCheck, checkStep, if_pos (by exact hd), if_neg (by omega)]

theorem seekCheck_near {target a : Nat} (hd : s.away target a ≠ 0) (hn : (s.away target a).natAbs ≤ s.active[26]) :
    seekCheck target a s = seekLeg (.jump (s.away target a)) s := by
  rw [seekCheck, checkStep, if_neg (by exact hd), if_pos (by exact hn)]
  rfl

theorem seekCheck_far {target a : Nat} (hn : s.active[26] < (s.away target a).natAbs) : seekCheck target a s
    = seekLeg (.move (decide (0 < s.away target a)) (2 * ((s.away target a).natAbs - s.active[26] / 2)) false) s := by
  have hd : s.away target a ≠ 0 := by rintro h; rw [h] at hn; simp at hn
  rw [seekCheck, checkStep, if_neg (by exact hd), if_neg (by exact Nat.not_le.mpr hn)]
  rfl

/-- The first leg of a seek is no correction (R123). -/
theorem seekLeg_of_first {leg : Leg} (h : s.seek.madeLeg = false) : seekLeg leg s = orderTested leg s :=
  if_neg (by rw [h]; exact Bool.false_ne_true)

/-! ## The start of a task (R121, R127) -/

/-- The Seek Engine at the start of a task. -/
def Seek.fresh (x : Seek) (task : Task) : Seek := { x.dropTask with task := some task }

theorem startSeek_of_valid (t : Nat) (h : s.seek.valid = true) :
    startSeek t s = seekCheck t s.seek.aCur (s.setSeek (s.seek.fresh (.seek t))) := if_pos h

theorem startSeek_of_invalid (t : Nat) (h : s.seek.valid = false) :
    startSeek t s = s.setSeek { s.seek.fresh (.seek t) with leg := .wait } :=
  if_neg (by show ¬s.seek.valid = true; rw [h]; exact Bool.false_ne_true)

theorem startJump_near {n : Int} (hn : n ≠ 0) (hl : n.natAbs ≤ s.active[26]) :
    startJump n s = orderTested (.jump n) (s.setSeek (s.seek.fresh (.jump n))) := by
  rw [startJump]
  dsimp only
  rw [if_neg hn]
  exact if_pos hl

theorem startJump_far {n : Int} (hl : s.active[26] < n.natAbs) : startJump n s
    = orderTested (.move (decide (0 < n)) (2 * (n.natAbs - s.active[26] / 2)) false)
        (s.setSeek { s.seek.fresh (.jump n) with remainder := signedTracks n (s.active[26] / 2) }) := by
  have hn : n ≠ 0 := by rintro rfl; simp at hl
  rw [startJump]
  dsimp only
  rw [if_neg hn]
  exact if_neg (Nat.not_le.mpr hl)

end

end Sys2Proof.Machine
end

