-- ==== Sys2Proof/Proofs/FollowingStarts.lean ====
section
/-! SUPPORT. The start of an entry in FOLLOWING (R97, R121 to R123, R127, R136, R142, R144). -/

namespace Sys2Proof.Machine

section
variable {s : State} {e : Entry} {rest : List Entry}

/-- The head in progress. -/
def State.begun (s : State) (e : Entry) (rest : List Entry) : State :=
  s.setSeq { s.seq with queue := { e with inProgress := true } :: rest }

/-- The start of an entry that hands nothing on. -/
theorem exec_entryStart_of_atRest {t : State} (hs : s.settled) (h : startHead s = t) (ht : t.atRest) : exec .entryStart s = .next t := by
  rw [exec_entryStart hs, h, drain_of_quiet 63 ht.1, loaderTest_of_atRest ht]

/-- The start of a SEEK or JUMP that ends at once with nothing behind it. -/
theorem exec_entryStart_of_end {u : State} {o : EndOutcome} (hs : s.settled) (h : startHead s = endTask o u) (hu : u.atRest)
    (hq : u.seq.queue = [{ e with inProgress := true }]) (hst : u.seq.state = .seeking ∨ u.seq.state = .jumping) (ho : o ≠ .trackFail) :
    exec .entryStart s = .next (u.followed (endNotices o.code [e])) := by
  have hends := seqOutcome_ends (s := u.setSeek u.seek.dropTask) ho (hst.elim .inl fun h => .inr (.inl h))
  have hr : u.seq.state ≠ .following := by rcases hst with hst | hst <;> rw [hst] <;> decide
  rw [exec_entryStart hs, h, drain_endTask_following 61 o hu.1 hq rfl hr hends, loaderTest_of_atRest (by exact hu)]
  rfl

/-! ## PAUSE (R142) -/

theorem pauseRun_of_last (h : s.waitsBehind = false) : pauseRun s = s.entered .paused := by
  rw [pauseRun, if_neg (by rw [h]; exact Bool.false_ne_true), setSeqState_eq (by decide) (by decide)]

theorem entered_paused (hst : s.seq.state = .following) : s.entered .paused = { s with
    seq := { s.seq with
      state := .paused, resume := if s.seek.valid then some s.seek.aCur else s.seq.resume
      step := .none, addrTimer := none, loopWait := none, recTimer := 0, cause := .none, attempts := 0 }
    sup := { s.sup with idleTimer := some 0 } } := by
  have hread : (SeqState.paused.reading && !s.seq.state.reading) = false := by rw [hst]; rfl
  rw [State.entered, hread, if_neg (by rw [hst]; decide)]
  rfl

theorem entered_following (hst : s.seq.state = .following) : s.entered .following = { s with
    seq := { s.seq with
      state := .following, resume := if s.seek.valid then some s.seek.aCur else s.seq.resume
      step := .none, addrTimer := none, loopWait := none, recTimer := 0, cause := .none, attempts := 0 }
    sup := { s.sup with idleTimer := none } } := by
  have hread : (SeqState.following.reading && !s.seq.state.reading) = false := by rw [hst]; rfl
  rw [State.entered, hread, if_neg (by rw [hst]; decide)]
  rfl

/-- The test of the head is taken before anything else. -/
theorem drain_testHead_eq (n : Nat) (s : State) : drain (n + 1) (testHead s) = drain n (startHead s) := by
  rw [testHead, emitNow_eq, drain_cons n rfl]
  rfl

/-- An address taken twice over is taken once. -/
theorem ite_ite_same {α : Type} (b : Bool) (x y : α) : (if b then x else if b then x else y) = if b then x else y := by
  cases b <;> rfl

/-! ## DISENGAGE (R144) -/

theorem disengage_begun (ht : s.turning) (hs : s.signals = []) : disengage false (s.begun e rest)
    = ((s.disengaged false []).setSeq
        { (s.disengaged false []).seq with queue := { e with inProgress := true } :: rest }).setSignals [.spindleMoved] := by
  rw [disengage_eq_of_turning false (by exact ht)]
  simp only [State.disengaged, State.enteredDisengaging, State.bound, State.opened, State.unread, State.begun,
    State.shockEnded, Groups.unshocked, State.unlit, State.loopsOpened, cancelTask, State.setSeq, State.setSeek, State.setLink,
    State.setSignals, State.setSpindle, Spindle.braked, Seek.dropTask, State.ownTarget, hs, postAll_append]
  rfl

/-! ## The head of a part in FOLLOWING, with its track held -/

/-- A head that starts. -/
structure Starting (s : State) (e : Entry) (rest : List Entry) : Prop where
  settled : s.settled
  following : s.seq.state = .following
  queue : s.seq.queue = e :: rest
  waits : e.inProgress = false
  uncranked : s.sup.crankHold = false
  held : s.trackHeld = true
  calm : s.fe.crossingNow = false

/-- The part with a SEEK's task begun. -/
def State.seekBegun (s : State) (e : Entry) (rest : List Entry) (a : Nat) : State :=
  ((s.begun e rest).seeking a).setSeek (s.seek.fresh (.seek a))

/-- The part with a JUMP's task begun. -/
def State.jumpBegun (s : State) (e : Entry) (rest : List Entry) (n remainder : Int) : State :=
  { s with
    seq := (s.begun e rest).seq.enter .jumping s.seek
    sup := { s.sup with idleTimer := none }
    seek := { s.seek.fresh (.jump n) with remainder := remainder } }

/-- The part in FOLLOWING again, the one entry ended at its start. -/
def State.startEnds (s : State) (e : Entry) (o : EndOutcome) (target : Nat) : State :=
  { s with
    seek := { s.seek.dropTask with watch := 0 }
    spindle := { s.spindle with target := target }
    seq := { s.seq with
      state := .following, queue := [], resume := if s.seek.valid then some s.seek.aCur else s.seq.resume, step := .none
      addrTimer := none, loopWait := none, recTimer := 0, cause := .none, attempts := 0 }
    sup := { s.sup with idleTimer := none }
    link := s.link.postAll (endNotices o.code [e]) }

namespace Starting

variable {a : Nat} {n : Int}

theorem start (h : Starting s e rest) : startHead s = startFollowing e.motion s :=
  startHead_of_following h.queue h.waits h.uncranked h.following

theorem mark (h : Starting s e rest) : markHead s = s.begun e rest := markHead_eq h.queue

/-! ### SEEK (R97, R121, R122) -/

theorem seek (h : Starting s e rest) (ha : e.motion.argument = some a) : startHead s = startSeek a ((s.begun e rest).seeking a) := by
  have hmotion : e.motion = .seek a := by cases hm : e.motion <;> rw [hm] at ha <;> cases ha; rfl
  rw [h.start, hmotion]
  show startSeek a (setSeqState .seeking (markHead s)) = _
  rw [h.mark, setSeqState_seeking (e := { e with inProgress := true }) rfl rfl ha]

theorem seekBegun_atRest (h : Starting s e rest) (a : Nat) : (s.seekBegun e rest a).atRest := h.settled.1

/-- Without a valid address the seek waits for one. -/
theorem seek_waits (h : Starting s e rest) (ha : e.motion.argument = some a) (hv : s.seek.valid = false) : exec .entryStart s
    = .next ((s.seekBegun e rest a).setSeek { s.seek.fresh (.seek a) with leg := .wait }) :=
  exec_entryStart_of_atRest h.settled ((h.seek ha).trans (startSeek_of_invalid a hv)) (h.seekBegun_atRest a)

theorem check (h : Starting s e rest) (ha : e.motion.argument = some a) (hv : s.seek.valid = true) :
    startHead s = seekCheck a s.seek.aCur (s.seekBegun e rest a) := (h.seek ha).trans (startSeek_of_valid a hv)

theorem check_back (h : Starting s e rest) (ha : e.motion.argument = some a) (hv : s.seek.valid = true) (hd : s.away a s.seek.aCur = 0)
    (hlt : a < s.seek.aCur) : startHead s = orderTested (.jump (-1)) (s.seekBegun e rest a) :=
  (h.check ha hv).trans ((seekCheck_back (s := s.seekBegun e rest a) hd hlt).trans (seekLeg_of_first rfl))

theorem check_near (h : Starting s e rest) (ha : e.motion.argument = some a) (hv : s.seek.valid = true) (hd : s.away a s.seek.aCur ≠ 0)
    (hn : (s.away a s.seek.aCur).natAbs ≤ s.active[26]) :
    startHead s = orderTested (.jump (s.away a s.seek.aCur)) (s.seekBegun e rest a) :=
  (h.check ha hv).trans ((seekCheck_near (s := s.seekBegun e rest a) hd hn).trans (seekLeg_of_first rfl))

theorem check_far (h : Starting s e rest) (ha : e.motion.argument = some a) (hv : s.seek.valid = true)
    (hn : s.active[26] < (s.away a s.seek.aCur).natAbs) : startHead s
      = orderTested (.move (decide (0 < s.away a s.seek.aCur)) (2 * ((s.away a s.seek.aCur).natAbs - s.active[26] / 2)) false)
          (s.seekBegun e rest a) :=
  (h.check ha hv).trans ((seekCheck_far (s := s.seekBegun e rest a) hn).trans (seekLeg_of_first rfl))

theorem jumps (h : Starting s e rest) {u : State} (hs : startHead s = orderTested (.jump n) u) (hu : u.atRest) (hn : n ≠ 0)
    (hp : u.sup.innerLimit.level = false ∨ ¬n < 0) (ht : u.trackHeld = true) (hx : u.fe.crossingNow = false) :
    exec .entryStart s = .next (u.jumpLeg n) :=
  exec_entryStart_of_atRest h.settled (hs.trans (orderTested_jump hn hp ht hx)) (atRest_jumpLeg hu)

theorem moves (h : Starting s e rest) {u : State} {count : Nat} (hs : startHead s = orderTested (.move (decide (0 < n)) count false) u)
    (hu : u.atRest) (hn : n ≠ 0) (hp : u.sup.innerLimit.level = false ∨ ¬n < 0) (ht : u.trackHeld = true)
    (hx : u.fe.crossingNow = false) : exec .entryStart s = .next (u.moveLeg (decide (0 < n)) count) :=
  exec_entryStart_of_atRest h.settled (hs.trans (orderTested_move hn hp ht hx)) (atRest_moveLeg hu)

theorem seek_ends {o : EndOutcome} (h : Starting s e []) (hs : startHead s = endTask o (s.seekBegun e [] a)) (ho : o ≠ .trackFail) :
    exec .entryStart s = .next (s.startEnds e o s.ownTarget) := by
  rw [exec_entryStart_of_end (e := e) h.settled hs (h.seekBegun_atRest a) rfl (.inl rfl) ho]
  rfl

/-- INNER_LIMIT active before an inward leg (R123). -/
theorem seek_limit (h : Starting s e []) (ha : e.motion.argument = some a) (hv : s.seek.valid = true)
    (hinward : s.away a s.seek.aCur < 0 ∨ (s.away a s.seek.aCur = 0 ∧ a < s.seek.aCur)) (hin : s.sup.innerLimit.level = true) :
    exec .entryStart s = .next (s.startEnds e .limit s.ownTarget) := by
  refine h.seek_ends (a := a) ?_ (by decide)
  rcases hinward with hd | ⟨hd, hlt⟩
  · by_cases hn : (s.away a s.seek.aCur).natAbs ≤ s.active[26]
    · exact (h.check_near ha hv (ne_of_lt hd) hn).trans (orderTested_limit (inward_jump_iff.mpr hd) hin)
    · exact (h.check_far ha hv (Nat.lt_of_not_le hn)).trans (orderTested_limit (inward_move hd _) hin)
  · exact (h.check_back ha hv hd hlt).trans (orderTested_limit rfl hin)

/-! ### JUMP (R127) -/

theorem jump (h : Starting s e rest) (hn : e.motion.tracks = some n) : startHead s = startJump n
    (((s.begun e rest).setSeq ((s.begun e rest).seq.enter .jumping s.seek)).setSup { s.sup with idleTimer := none }) := by
  have hmotion : e.motion = .jump n := by cases hm : e.motion <;> rw [hm] at hn <;> cases hn; rfl
  rw [h.start, hmotion]
  show startJump n (setSeqState .jumping (markHead s)) = _
  rw [h.mark, setSeqState_quiet rfl (by decide) (by decide) (by show s.seq.state ≠ _; rw [h.following]; decide)]
  rfl

theorem jumpBegun_atRest (h : Starting s e rest) (n r : Int) : (s.jumpBegun e rest n r).atRest := h.settled.1

theorem jump_near (h : Starting s e rest) (hn : e.motion.tracks = some n) (hn0 : n ≠ 0) (hl : n.natAbs ≤ s.active[26]) :
    startHead s = orderTested (.jump n) (s.jumpBegun e rest n 0) := (h.jump hn).trans (startJump_near hn0 (by exact hl))

theorem jump_far (h : Starting s e rest) (hn : e.motion.tracks = some n) (hl : s.active[26] < n.natAbs) : startHead s
    = orderTested (.move (decide (0 < n)) (2 * (n.natAbs - s.active[26] / 2)) false)
        (s.jumpBegun e rest n (signedTracks n (s.active[26] / 2))) := (h.jump hn).trans (startJump_far (by exact hl))

theorem jump_limit (h : Starting s e []) (hn : e.motion.tracks = some n) (hneg : n < 0) (hin : s.sup.innerLimit.level = true) :
    exec .entryStart s = .next (s.startEnds e .limit s.spindle.target) := by
  have hends (r : Int) (hs : startHead s = endTask .limit (s.jumpBegun e [] n r)) :
      exec .entryStart s = .next (s.startEnds e .limit s.spindle.target) := by
    rw [exec_entryStart_of_end (e := e) h.settled hs (h.jumpBegun_atRest n r) rfl (.inr rfl) (by decide)]
    rfl
  by_cases hl : n.natAbs ≤ s.active[26]
  · exact hends _ ((h.jump_near hn (ne_of_lt hneg) hl).trans (orderTested_limit (inward_jump_iff.mpr hneg) hin))
  · exact hends _ ((h.jump_far hn (Nat.lt_of_not_le hl)).trans (orderTested_limit (inward_move hneg _) hin))

/-! ### PAUSE, DISENGAGE and ENGAGE (R136, R142, R144) -/

theorem pauses (h : Starting s e []) (hm : e.motion = .pause) : exec .entryStart s = .next ((s.begun e []).entered .paused) := by
  refine exec_entryStart_of_atRest h.settled ?_ h.settled.1
  rw [h.start, hm]
  show pauseRun (markHead s) = _
  rw [h.mark, pauseRun_of_last rfl]

/-- The part in FOLLOWING with a PAUSE ended for the entry behind it. -/
def pausedFor (s : State) (e x : Entry) : State :=
  ((s.setSeq { s.seq with queue := [x] }).setLink (s.link.postAll (endNotices 0 [e]))).entered .following

theorem pauses_for {x : Entry} (h : Starting s e [x]) (hm : e.motion = .pause) (hx : x.motion = .pause) (hw : x.inProgress = false) :
    exec .entryStart s = .next (((pausedFor s e x).begun x []).entered .paused) := by
  have hwaits : (s.begun e [x]).waitsBehind = true := by
    show [{ e with inProgress := true }, x].any (fun e => !e.inProgress) = true
    simp [hw]
  have hfirst : startHead s = testHead (pausedFor s e x) := by
    rw [h.start, hm]
    show pauseRun (markHead s) = _
    rw [h.mark, pauseRun, if_pos hwaits, endFollowing, setSeqState_eq (by decide) (by decide)]
    rfl
  have hsecond : startHead (pausedFor s e x) = ((pausedFor s e x).begun x []).entered .paused := by
    have hhead : (pausedFor s e x).seq.queue = [x] := rfl
    rw [startHead_of_following hhead hw h.uncranked rfl, hx]
    show pauseRun (markHead (pausedFor s e x)) = _
    rw [markHead_eq hhead]
    exact pauseRun_of_last rfl
  have hrest : (((pausedFor s e x).begun x []).entered .paused).atRest := h.settled.1
  rw [exec_entryStart h.settled, hfirst, drain_testHead_eq, hsecond, drain_of_quiet 62 hrest.1, loaderTest_of_atRest hrest]

theorem disengages (h : Starting s e rest) (hm : e.motion = .disengage) (ht : s.turning) : exec .entryStart s
    = .next ((s.disengaged false []).setSeq
        { (s.disengaged false []).seq with queue := { e with inProgress := true } :: rest }) := by
  let t : State := (s.disengaged false []).setSeq
    { (s.disengaged false []).seq with queue := { e with inProgress := true } :: rest }
  have hleaves : startHead s = t.setSignals [.spindleMoved] :=
    (h.start.trans (by rw [hm]; exact congrArg (disengage false) h.mark)).trans (disengage_begun ht h.settled.1.1)
  have hrest : t.atRest := atRest_of_not_stopped (turning_ne_stopped ht) SpindleState.noConfusion h.settled.1 h.settled.1.1 rfl
  rw [exec_entryStart h.settled, hleaves, drain_spindleMoved 62 (t := t) SeqState.noConfusion, setSignals_nil hrest.1,
    loaderTest_of_atRest hrest]

end Starting

end

/-- Settles O38. -/
theorem entryStartsSeek : Obligations.EntryStartsSeek := by
  unfold Obligations.EntryStartsSeek
  intro s e rest hs hst hq he hcrank htrack hx limit started jumps moves fresh passes ends pauses
  have h : Starting s e rest := ⟨hs, hst, hq, he, hcrank, trackHeld_iff.mpr htrack, hx⟩
  have hends (o : EndOutcome) (target : Nat) : s.startEnds e o target = ends o.code target := by
    dsimp only [ends]
    rw [hst]
    rfl
  refine ⟨fun a ha => ⟨h.seek_waits ha, fun hv hd hlt hin => ?_, fun hv hd hn hp => ?_, fun hv hn hp => ?_, fun hv hd hle hrest => ?_,
      fun hv hinward hin hrest => ?_⟩,
    fun hm => ⟨fun hrest => ?_, fun x hrest hx' hxp => ?_⟩, fun hm ht => h.disengages hm ht, fun hm hrest => ?_,
    fun n hn hn0 => ⟨fun hneg hin hrest => ?_, fun hl hp => ?_, fun hl hp => ?_⟩⟩
  · exact h.jumps (h.check_back ha hv hd hlt) (h.seekBegun_atRest a) (by decide) (.inl hin) h.held hx
  · exact h.jumps (h.check_near ha hv hd hn) (h.seekBegun_atRest a) hd hp h.held hx
  · exact h.moves (h.check_far ha hv hn) (h.seekBegun_atRest a) (ne_zero_of_far hn) hp h.held hx
  · subst hrest
    exact (h.seek_ends ((h.check ha hv).trans (seekCheck_there (s := s.seekBegun e [] a) hd hle)) (by decide)).trans
      (congrArg Host.Outcome.next (hends .done _))
  · subst hrest
    exact (h.seek_limit ha hv hinward hin).trans (congrArg Host.Outcome.next (hends .limit _))
  · subst hrest
    rw [h.pauses hm, entered_paused (by exact hst)]
    rfl
  · subst hrest
    rw [h.pauses_for hm hx' hxp, entered_paused rfl,
      show Starting.pausedFor s e x = _ from entered_following (by exact hst)]
    exact congrArg (fun r => Host.Outcome.next (((pauses (endNotices 0 [e]) x).setSeek s.seek).setSeq
      { (pauses (endNotices 0 [e]) x).seq with resume := r })) (ite_ite_same s.seek.valid _ s.seq.resume)
  · refine exec_endsAtOnce .done hs (hrest ▸ hq) (h.start.trans ?_)
    rw [hm]
    rfl
  · subst hrest
    exact (h.jump_limit hn hneg hin).trans (congrArg Host.Outcome.next (hends .limit _))
  · exact h.jumps (h.jump_near hn hn0 hl) (h.jumpBegun_atRest n 0) hn0 hp h.held hx
  · have hmove := h.moves (h.jump_far hn hl) (h.jumpBegun_atRest n _) hn0 hp h.held hx
    exact hmove

end Sys2Proof.Machine
end

