-- ==== Sys2Proof/Proofs/RecoveryStarts.lean ====
section
/-! SUPPORT. FOCUS_LOST and OFF_TRACK up to the first wait of the recovery they start (R51, R53, R55, R90, R91, R150, R151). -/

namespace Sys2Proof.Machine

section
variable {s : State}

/-! ## Which parts recover (R150) -/

theorem incident_of_recovering {c : Cause} (h : s.seq.state = .engaging ∨ s.seq.state = .following ∨ s.seq.state = .seeking
    ∨ s.seq.state = .jumping ∨ s.seq.state = .paused ∨ s.seq.state = .suspended) : incident c s = recoveryStart c s := by
  unfold incident
  rcases h with h | h | h | h | h | h <;> rw [h]

/-- Only a part left without an entry by HALT waits for its track (R145). -/
theorem haltWait_of_current (h : s.seq.state = .engaging ∨ s.seq.state = .following ∨ s.current ≠ none) : s.haltWait = false := by
  rcases h with h | h | h
  · simp [State.haltWait, h]
  · simp [State.haltWait, h]
  · simp [State.haltWait, Option.isSome_iff_ne_none.mpr h]

/-! ## A lost focus (R55, R150, R151) -/

/-- Both loops open and the sled stopped. -/
def State.focusLost (s : State) : State := s.loopsOpened.setSled { s.loopsOpened.sled with drive := 0 }

theorem raiseFocusLost_of_held (h : s.focusHeld = true) : raiseFocusLost s = emit .focusLost s.focusLost := by
  rw [raiseFocusLost, if_pos h, openFocus_eq]
  rfl

/-- The focus loop as a search order leaves it. -/
def searching : FocusLoop := ⟨.search, ⟨0, 0, 0, 0, 0⟩, 0, 1, 0, none⟩

/-- The sequencer in RECOVERING with a lost focus, in the search of its first attempt. -/
def Sequencer.refocusing (x : Sequencer) (k : Seek) : Sequencer :=
  { x.enter .recovering k with cause := .focusLost, attempts := 1, step := .recoverFocus, loopWait := none }

theorem openTrack_of_off (ht : s.track = trackOff) : openTrack s = s := by
  have hopen : ¬s.track.state = .openSeek := by rw [ht]; exact TrackState.noConfusion
  rw [openTrack, if_neg hopen]
  show (s.setTrack trackOff).setSled s.sled = s
  rw [← ht]
  rfl

theorem stopOrder_of_off (ht : s.track = trackOff) : stopOrder s = s := by
  have hopen : ¬s.track.state = .openSeek ∧ ¬stalls s.track = true := by rw [ht]; exact ⟨TrackState.noConfusion, Bool.noConfusion⟩
  rw [stopOrder_eq, if_neg hopen.1, if_neg hopen.2]
  rfl

theorem recoverFocus_of_opened (hf : s.focus = focusOff) (ht : s.track = trackOff) :
    recoverFocus s = (s.setSeq { s.seq with step := .recoverFocus, loopWait := none }).setFocus searching := by
  have hloose : ¬s.focusHeld = true := by rw [State.focusHeld, hf]; decide
  rw [recoverFocus, openTrack_of_off ht]
  dsimp only
  rw [if_neg hloose, searchOrder, setSeq_focus, hf]
  rfl

theorem recoveryStart_of_opened (hs : s.signals = []) (hf : s.focus = focusOff) (ht : s.track = trackOff) :
    recoveryStart .focusLost s = { s with
      focus := searching
      spindle := { s.spindle with target := if s.seq.state = .seeking then s.ownTarget else s.spindle.target }
      seek := s.seek.dropTask
      seq := s.seq.refocusing s.seek
      sup := { s.sup with idleTimer := none } } := by
  let u : State := (s.setSeek s.seek.dropTask).entered .recovering
  rw [recoveryStart, cancelTask_of_quiet hs, stopOrder_of_off (by exact ht), setSeqState_eq (by decide) (by decide)]
  show recoverFocus (u.setSeq { u.seq with cause := .focusLost, attempts := 1 }) = _
  rw [recoverFocus_of_opened (by exact hf) (by exact ht)]
  rfl

theorem disturb_eq (s : State) : disturb s = s.setGroups { s.groups with disturbed := s.groups.shockMode || s.groups.disturbed } := by
  unfold disturb
  cases hm : s.groups.shockMode with
  | true =>
    rw [if_pos rfl, Bool.true_or]
  | false =>
    rw [if_neg Bool.false_ne_true, Bool.false_or]
    rfl

/-- A part that recovers from a lost focus, up to the search it waits in. -/
def State.refocuses (s : State) : State :=
  { s with
    focus := searching
    track := trackOff
    det := { s.det with inHold := false }
    defects := { s.defects with
      entries := s.defects.entries.map (fun d => d.map (fun d => if d.pass = .hit then d else { d with pass := .none })) }
    groups := { s.groups with disturbed := s.groups.shockMode || s.groups.disturbed }
    spindle := { s.spindle with target := if s.seq.state = .seeking then s.ownTarget else s.spindle.target }
    sled := { s.sled with drive := 0, move := if s.track.state = .openSeek then none else s.sled.move }
    seek := s.seek.dropTask
    seq := s.seq.refocusing s.seek
    sup := { s.sup with idleTimer := none } }

theorem settle_raiseFocusLost (hs : s.atRest) (hf : s.focusHeld = true)
    (hst : s.seq.state = .engaging ∨ s.seq.state = .following ∨ s.seq.state = .seeking ∨ s.seq.state = .jumping ∨ s.seq.state = .paused
      ∨ s.seq.state = .suspended) (hw : s.haltWait = false) : settle (raiseFocusLost s) = s.refocuses := by
  have hincident : handle .focusLost s.focusLost = recoveryStart .focusLost
      (s.focusLost.setGroups { s.groups with disturbed := s.groups.shockMode || s.groups.disturbed }) := by
    show seqFocusLost (disturb s.focusLost) = _
    rw [disturb_eq, seqFocusLost, if_neg (by show ¬s.haltWait = true; rw [hw]; exact Bool.false_ne_true)]
    exact incident_of_recovering (by exact hst)
  have hopened : s.focusLost.setGroups { s.groups with disturbed := s.groups.shockMode || s.groups.disturbed } = { s with
      focus := focusOff
      track := trackOff
      det := { s.det with inHold := false }
      defects := { s.defects with
        entries := s.defects.entries.map (fun d => d.map (fun d => if d.pass = .hit then d else { d with pass := .none })) }
      groups := { s.groups with disturbed := s.groups.shockMode || s.groups.disturbed }
      sled := { s.sled with drive := 0, move := if s.track.state = .openSeek then none else s.sled.move } } := by
    rw [State.focusLost, State.loopsOpened, if_pos (focusHeld_iff.mp hf)]
    by_cases hm : s.track.state = .openSeek
    · rw [if_pos hm, if_pos hm]
      rfl
    · rw [if_neg hm, if_neg hm]
      rfl
  rw [raiseFocusLost_of_held hf, settle_emit (by exact hs.1), hincident, hopened,
    recoveryStart_of_opened (by exact hs.1) rfl rfl, drain_of_quiet 63 (by exact hs.1), loaderTest_of_atRest (by exact hs)]
  rfl

end

/-- Settles O24. -/
theorem focusLostRecovers : Obligations.FocusLostRecovers := by
  unfold Obligations.FocusLostRecovers
  intro s hs hf hst
  have hheld : s.focusHeld = true := focusHeld_iff.mpr hf
  have hwait : s.haltWait = false := haltWait_of_current (hst.imp_right (Or.imp_right And.right))
  have hrecovers : s.seq.state = .engaging ∨ s.seq.state = .following ∨ s.seq.state = .seeking ∨ s.seq.state = .jumping
      ∨ s.seq.state = .paused ∨ s.seq.state = .suspended := hst.imp_right (Or.imp_right And.left)
  refine ⟨s.refocuses, ?_, fun hin => ?_, rfl, fun i => ?_⟩
  · rw [show exec .focusLost s = done raiseFocusLost s from rfl, done_of_running _ hs.2, settle_raiseFocusLost hs.1 hheld hrecovers hwait]
  · have hlimit : holdLimit s = raiseFocusLost (s.setDet { s.det with inHold := false }) := if_pos hin
    rw [show exec .holdLimit s = done holdLimit s from rfl, done_of_running _ hs.2, hlimit,
      settle_raiseFocusLost (by exact hs.1) (by exact hheld) (by exact hrecovers) (by exact hwait)]
    rfl
  · exact Vector.getElem_map _ i.isLt

end Sys2Proof.Machine
end

