-- ==== Sys2Proof/Proofs/OffTrack.lean ====
section
/-! SUPPORT. OFF_TRACK: the shock trigger and the recovery it starts (R51, R53, R90, R91, R150, R151). -/

namespace Sys2Proof.Machine

section
variable {s : State}

/-- A group switch with the track not held and the focus-lost count below its limit moves the coefficient and its level alone (R81). -/
theorem groupSwitch_of_loose (ht : s.trackHeld = false) (hl : s.focus.lost < s.active[25]) :
    groupSwitch s = s.setFe (s.fe.underGroup s.active) := by
  let u : State := s.setFe (s.fe.switchGroup s.active)
  have hoff : u.offTrackDue = false := by rw [State.offTrackDue, show u.trackHeld = false from ht, Bool.false_and]
  have hlost : u.focusLostDue = false := by
    rw [State.focusLostDue, decide_eq_false (by exact Nat.not_le.mpr hl), Bool.and_false]
  show raiseDue u = _
  simp only [raiseDue, hoff, hlost]
  rfl

/-- The machine in shock mode, entered or gone on in, where no counter stands at its limit under the shock group (R81, R90, R91). -/
def State.shocked (s : State) : State :=
  { s with
    fe := if s.groups.shockMode = true ∨ s.groups.shock = s.groups.base then s.fe
      else s.fe.underGroup (s.groups.recs[s.groups.shock])
    groups := { s.groups with shockMode := true, clean := 0, disturbed := true }
    link := if s.groups.shockMode then s.link else s.link.post .shock [1, byte s.groups.shock.val] }

theorem shockTrigger_of_loose (hst : s.seq.state.engaged = true) (hd : s.seq.state ≠ .disengaging) (ht : s.trackHeld = false)
    (hl : s.focus.lost < (s.groups.recs[s.groups.shock])[25]) : shockTrigger s = s.shocked := by
  have hcounts : (s.seq.state.engaged && !decide (s.seq.state = .disengaging)) = true := by simp [hst, hd]
  rw [shockTrigger, if_pos hcounts, State.shocked]
  cases hm : s.groups.shockMode with
  | true =>
    rw [if_pos rfl, if_pos (.inl rfl), if_pos rfl, ← hm]
    rfl
  | false =>
    have hregroup : regroup { s.groups with shockMode := true, clean := 0, disturbed := true } s
        = (s.setGroups { s.groups with shockMode := true, clean := 0, disturbed := true }).setFe
            (if s.groups.shock = s.groups.base then s.fe else s.fe.underGroup (s.groups.recs[s.groups.shock])) := by
      by_cases hsame : s.groups.shock = s.groups.base
      · rw [regroup_same (by simp [activeId, hm, hsame]), if_pos hsame]
        rfl
      · rw [regroup_switch (by simp [activeId, hm, hsame]), if_neg hsame]
        exact groupSwitch_of_loose (by exact ht) (by exact hl)
    rw [if_neg Bool.false_ne_true, if_neg Bool.false_ne_true]
    dsimp only
    rw [hregroup]
    simp only [Bool.false_eq_true, false_or]
    rfl

/-! ## The recovery (R150, R151) -/

/-- The sequencer in RECOVERING, in the wait of an attempt for LOCKED. -/
def Sequencer.relocking (x : Sequencer) (c : Cause) (k : Seek) : Sequencer :=
  { x.enter .recovering k with cause := c, attempts := 1, step := .recoverLock, loopWait := some 0 }

/-- The part in the recovery of an incident, its task dropped, in that wait. -/
def State.relocks (s : State) (c : Cause) : State :=
  { s with
    spindle := { s.spindle with target := if s.seq.state = .seeking then s.ownTarget else s.spindle.target }
    seek := s.seek.dropTask
    seq := s.seq.relocking c s.seek
    sup := { s.sup with idleTimer := none } }

/-- An incident other than FOCUS_LOST, with the tracking loop in a procedure that no order stops, waits for LOCKED. -/
theorem recoveryStart_of_closing {c : Cause} (hs : s.signals = []) (hc : c ≠ .focusLost)
    (ht : s.track.state = .settling ∨ s.track.state = .pullin) :
    recoveryStart c s = s.relocks c := by
  let u : State := s.setSeek s.seek.dropTask
  have hloose : ¬u.trackHeld = true ∧ ¬u.track.state = .off ∧ ¬u.track.state = .openSeek ∧ ¬stalls u.track = true := by
    have hut : u.track.state = .settling ∨ u.track.state = .pullin := ht
    rcases hut with h | h <;> simp [State.trackHeld, stalls, h]
  obtain ⟨hheld, hoff, hopen, hmoves⟩ := hloose
  have hstop : stopOrder u = u := by
    rw [stopOrder_eq, if_neg hopen, if_neg hmoves]
    rfl
  let v : State := (u.entered .recovering).setSeq { (u.entered .recovering).seq with cause := c, attempts := 0 }
  have hbegin : attemptBegin v = recoverLoops (v.setSeq { v.seq with attempts := 1 }) := by
    unfold attemptBegin
    cases c with
    | focusLost => exact absurd rfl hc
    | _ => rfl
  rw [recoveryStart, cancelTask_of_quiet hs, hstop, setSeqState_eq (by decide) (by decide)]
  show attemptBegin v = _
  rw [hbegin, recoverLoops, if_neg (by exact hheld), if_neg (by exact hoff)]
  rfl

end

/-- Settles O26. -/
theorem offTrackRecovers : Obligations.OffTrackRecovers := by
  unfold Obligations.OffTrackRecovers
  intro s hs hst hlost r switched
  have htakes (track : TrackLoop) (sled : Sled) (ht : track.state = .settling ∨ track.state = .pullin) :
      settle (emit .offTrack ((s.setSled sled).setTrack track)) = switched track sled := by
    let u : State := (s.setSled sled).setTrack track
    have hrecovers : s.seq.state ≠ .recovering := by
      rcases hst with h | h | h | h | h | h <;> rw [h] <;> decide
    have hloose : u.trackHeld = false := by
      have hut : u.track.state = .settling ∨ u.track.state = .pullin := ht
      rcases hut with h | h <;> simp [State.trackHeld, h]
    have hhandle : handle .offTrack u = shockTrigger (incident .offTrack u) := if_neg (by simp [u, hrecovers])
    rw [settle_emit (by exact hs.1.1), hhandle, incident_of_recovering (by exact hst),
      recoveryStart_of_closing (by exact hs.1.1) (by decide) ht,
      shockTrigger_of_loose (s := u.relocks .offTrack) rfl SeqState.noConfusion hloose hlost,
      drain_of_quiet 63 (by exact hs.1.1), loaderTest_of_atRest (by exact hs.1)]
    rfl
  refine ⟨fun ht => ?_, fun ht => ?_⟩
  · have hraise : raiseOffTrack s = emit .offTrack ((s.setSled s.sled).setTrack { s.track with
        state := .settling, settleRun := 0, timer := 0, offCount := 0, fromPullin := false, goal := .none, byPause := false }) :=
      if_pos (trackHeld_iff.mpr ht)
    rw [show exec .offTrack s = done raiseOffTrack s from rfl, done_of_running _ hs.2, hraise, htakes _ _ (.inl rfl)]
  · have hmoves : stalls s.track = true := by
      rcases ht with h | ⟨h, hp⟩
      · simp [stalls, h]
      · rcases hp with hp | hp | hp <;> simp [stalls, h, hp]
    have hstall : moveStall s = emit .offTrack ((leaveMove s).setTrack
        { s.track.pullIn 1 with goal := .trackLocked, byPause := false }) := by
      have htrack : (leaveMove s).track = s.track := by rw [leaveMove_eq]; rfl
      rw [moveStall, if_pos hmoves]
      dsimp only
      rw [htrack]
    rw [show exec .moveStall s = done moveStall s from rfl, done_of_running _ hs.2, hstall, leaveMove_eq, htakes _ _ (.inr rfl)]
    rfl

end Sys2Proof.Machine
end

