-- ==== Sys2Proof/Proofs/TrackFail.lean ====
section
/-! SUPPORT. The limits of PULLIN, SETTLING and CLOSE, and what TRACK_FAIL ends (R45, R46, R50, R124, R136, R140, R142, R145, R151, R152). -/

namespace Sys2Proof.Machine

section
variable {s : State}

/-! ## A failed attempt (R46) -/

theorem settleTimeout_of_attempt (h : s.track.state = .pullin ∨ (s.track.state = .settling ∧ s.track.fromPullin = true)) :
    settleTimeout s = attemptFails s := by
  unfold settleTimeout
  rcases h with h | ⟨h, hp⟩
  · rw [h]
  · rw [h]
    exact if_pos hp

/-- After the third failed attempt the loop goes OFF and hands TRACK_FAIL on. -/
theorem attemptFails_of_third (h3 : 3 ≤ s.track.attempt) (hm : s.track.state ≠ .openSeek) :
    attemptFails s = emit (.trackFail s.track.byPause) (s.setTrack trackOff) := by
  rw [attemptFails, if_pos h3, openTrack, if_neg hm]
  rfl

/-! ## What TRACK_FAIL ends (R124, R136, R140, R142, R145) -/

theorem drain_failureEnd (n : Nat) (o : EndOutcome) (hs : s.signals = []) (hq : queueLaw s.seq.queue) (ht : s.turning) :
    drain (n + 1) (failureEnd o s) = s.disengaged false (allEnd o.code s.seq.queue) := by
  rw [failureEnd_of_settled o hs hq ht, drain_disengaged n hs]

/-- A task that TRACK_FAIL ends takes its entry with it. -/
theorem drain_seekTrackFail (n : Nat) (hs : s.signals = []) (hq : queueLaw s.seq.queue) (ht : s.turning)
    (hst : s.seq.state = .engaging ∨ s.seq.state = .seeking ∨ s.seq.state = .jumping) (htask : s.seek.task ≠ none) :
    drain (n + 2) (seekTrackFail s) = s.disengaged false (allEnd 3 s.seq.queue) := by
  have hends : seqOutcome .trackFail (s.setSeek s.seek.dropTask) = failureEnd .trackFail (s.setSeek s.seek.dropTask) := by
    unfold seqOutcome
    rcases hst with h | h | h <;> rw [setSeek_seq, h] <;> exact if_pos rfl
  rw [seekTrackFail, if_pos (Option.isSome_iff_ne_none.mpr htask), drain_endTask, hends,
    drain_failureEnd n .trackFail (by exact hs) (by exact hq) (by exact ht)]
  rfl

theorem drain_trackFail (n : Nat) {byPause : Bool} (hs : s.signals = []) (hq : queueLaw s.seq.queue) (ht : s.turning)
    (h : s.seq.state = .engaging ∨ ((s.seq.state = .seeking ∨ s.seq.state = .jumping) ∧ s.current ≠ none ∧ s.seek.task ≠ none)
      ∨ (s.seq.state = .paused ∧ s.current ≠ none ∧ byPause = true)) :
    drain (n + 2) (seqTrackFail byPause s) = s.disengaged false (allEnd 3 s.seq.queue) := by
  have hstate : s.seq.state ≠ .recovering ∧ s.seq.state.engaged = true ∧ s.seq.state ≠ .disengaging := by
    rcases h with h | ⟨h | h, _⟩ | ⟨h, _⟩ <;> rw [h] <;> decide
  obtain ⟨hr, hengaged, hd⟩ := hstate
  have hwait : ¬s.haltWait = true := by
    rw [haltWait_of_current (h.imp_right fun h => .inr (h.elim (·.2.1) (·.2.1)))]
    exact Bool.false_ne_true
  have hfails : drain (n + 2) (failureEnd .trackFail s) = s.disengaged false (allEnd 3 s.seq.queue) :=
    drain_failureEnd (n + 1) .trackFail hs hq ht
  rw [seqTrackFail, if_neg hr, if_neg hwait]
  cases hb : byPause with
  | true => rwa [if_pos (by simp [hengaged, hd])]
  | false =>
    rw [if_neg (by simp)]
    by_cases htask : s.seek.task = none
    · have he : s.seq.state = .engaging := by
        rcases h with h | ⟨_, _, h⟩ | ⟨_, _, h⟩
        · exact h
        · exact absurd htask h
        · exact absurd (hb.symm.trans h) Bool.false_ne_true
      rw [if_neg (by rw [htask]; exact Bool.false_ne_true), if_pos he]
      exact hfails
    · have hst : s.seq.state = .engaging ∨ s.seq.state = .seeking ∨ s.seq.state = .jumping := by
        rcases h with h | ⟨h, _⟩ | ⟨_, _, h⟩
        · exact .inl h
        · exact .inr h
        · exact absurd (hb.symm.trans h) Bool.false_ne_true
      rw [if_pos (Option.isSome_iff_ne_none.mpr htask)]
      exact drain_seekTrackFail n hs hq ht hst htask

/-- A part left without an entry by HALT disengages (R145). -/
theorem seqTrackFail_of_haltWait {byPause : Bool} (hs : s.signals = []) (hq : queueLaw s.seq.queue) (ht : s.turning)
    (hc : s.current = none)
    (hst : s.seq.state = .seeking ∨ s.seq.state = .jumping ∨ s.seq.state = .paused ∨ s.seq.state = .suspended) :
    seqTrackFail byPause s = (s.disengaged false (allEnd 1 s.seq.queue)).setSignals [.spindleMoved] := by
  have hr : s.seq.state ≠ .recovering := by rcases hst with h | h | h | h <;> rw [h] <;> decide
  have hwait : s.haltWait = true := by rcases hst with h | h | h | h <;> simp [State.haltWait, hc, h]
  have hnone : endEntry .abandoned s = s := by
    unfold endEntry
    unfold State.current at hc
    split
    · next e rest hqueue =>
      rw [hqueue] at hc
      refine if_neg fun he => ?_
      simp [he] at hc
    · rfl
  have hflush : flush s = (s.setSeq { s.seq with queue := [] }).setLink (s.link.postAll (allEnd 1 s.seq.queue)) :=
    (congrArg flush hnone.symm).trans (flush_endEntry_eq .abandoned hq)
  rw [seqTrackFail, if_neg hr, if_pos hwait, hflush, disengage_of_turning false ht, hs]
  rfl

/-! ## A failed attempt of a recovery (R151, R152) -/

theorem attemptBegin_of_focusLost (hc : s.seq.cause = .focusLost) :
    attemptBegin s = recoverFocus (s.setSeq { s.seq with attempts := s.seq.attempts + 1 }) := by
  unfold attemptBegin
  simp only [setSeq_seq, hc]

theorem attemptBegin_of_other (hc : s.seq.cause ≠ .focusLost) :
    attemptBegin s = recoverLoops (s.setSeq { s.seq with attempts := s.seq.attempts + 1 }) := by
  unfold attemptBegin
  cases h : s.seq.cause with
  | focusLost => exact absurd h hc
  | _ => simp only [setSeq_seq, h]

/-- With the loop OFF and focus held the next attempt opens with a pull-in, whatever the incident. -/
theorem attemptFail_of_off (hs : s.signals = []) (ht : s.track = trackOff) (hf : s.focusHeld = true) (h3 : s.seq.attempts < 3) :
    attemptFail s = { s with
      track := trackOff.pulledIn
      seek := s.seek.dropTask
      seq := { s.seq with attempts := s.seq.attempts + 1, step := .recoverLock, loopWait := none } } := by
  let u : State := (s.setSeek s.seek.dropTask).setSeq { s.seq with attempts := s.seq.attempts + 1 }
  have hoff : u.track = trackOff := ht
  have hpull : recoverPullIn u = { s with
      track := trackOff.pulledIn
      seek := s.seek.dropTask
      seq := { s.seq with attempts := s.seq.attempts + 1, step := .recoverLock, loopWait := none } } := by
    have hstill : ¬(u.setSeq { u.seq with step := .recoverLock, loopWait := none }).track.state = .openSeek := by
      show ¬u.track.state = .openSeek
      rw [hoff]
      exact TrackState.noConfusion
    rw [recoverPullIn, pullInOrder_of_focusHeld (by exact hf), if_neg hstill, show (u.setSeq _).track = trackOff from ht]
    rfl
  have hloops : recoverLoops u = recoverPullIn u := by
    rw [recoverLoops, State.trackHeld, hoff]
    rfl
  have hfocus : recoverFocus u = recoverPullIn u := by
    rw [recoverFocus, openTrack_of_off hoff]
    exact if_pos hf
  have hbegin : attemptBegin (s.setSeek s.seek.dropTask) = recoverPullIn u := by
    by_cases hc : s.seq.cause = .focusLost
    · exact (attemptBegin_of_focusLost (by exact hc)).trans hfocus
    · exact (attemptBegin_of_other (by exact hc)).trans hloops
  rw [attemptFail, cancelTask_of_quiet hs, stopOrder_of_off (by exact ht)]
  exact (if_pos h3).trans (hbegin.trans hpull)

end

/-- Settles O25. -/
theorem settleAndCloseTimeouts : Obligations.SettleAndCloseTimeouts := by
  unfold Obligations.SettleAndCloseTimeouts
  intro s hs hq again
  have hexec {t : State} (h : settleTimeout s = t) (ht : t.atRest) : exec .settleTimeout s = .next t :=
    (done_of_atRest settleTimeout hs.2 (h.symm ▸ ht)).trans (congrArg _ h)
  refine ⟨fun hst => ?_, fun hst hp => ?_, fun hst hp => ?_⟩
  · have htimeout := settleTimeout_of_attempt hst
    have hmove : s.track.state ≠ .openSeek := by rcases hst with h | ⟨h, _⟩ <;> rw [h] <;> decide
    let u : State := s.setTrack trackOff
    have hopened (posts : List Notice) : u.disengaged false posts = s.disengaged false posts :=
      disengaged_setTrack (y := s.sled) (z := trackOff) false posts (if_neg hmove).symm
    have hfails {t : State} (h3 : 3 ≤ s.track.attempt) (ht : t.atRest) (hdrain : drain 63 (seqTrackFail s.track.byPause u) = t) :
        exec .settleTimeout s = .next t := by
      rw [show exec .settleTimeout s = done settleTimeout s from rfl, done_of_running _ hs.2, htimeout, attemptFails_of_third h3 hmove,
        settle_emit (by exact hs.1.1)]
      exact congrArg Host.Outcome.next ((congrArg loaderTest hdrain).trans (loaderTest_of_atRest ht))
    refine ⟨fun h3 => ?_, fun h3 hf hb htask => ?_,
      fun h3 hturn h => ?_, fun h3 hturn hc h => ?_, fun h3 hr => ⟨fun ha hf => ?_, fun ha hturn => ?_⟩⟩
    · exact hexec (htimeout.trans (if_neg (Nat.not_le.mpr h3))) hs.1
    · refine hfails h3 hs.1 ?_
      have hstays : seqTrackFail s.track.byPause u = u := by
        simp [seqTrackFail, State.haltWait, u, hf, hb, htask]
      rw [hstays, drain_of_quiet 63 (by exact hs.1.1)]
    · refine hfails h3 (disengaged_atRest hs.1 hturn false _) ?_
      rw [drain_trackFail 61 (s := u) (by exact hs.1.1) (by exact hq) (by exact hturn) (by exact h), hopened]
      rfl
    · refine hfails h3 (disengaged_atRest hs.1 hturn false _) ?_
      rw [seqTrackFail_of_haltWait (s := u) (by exact hs.1.1) (by exact hq) (by exact hturn) (by exact hc) (by exact h),
        drain_disengaged 62 (by exact hs.1.1), hopened]
      rfl
    · refine hfails h3 hs.1 ?_
      have hretry : seqTrackFail s.track.byPause u = attemptFail u := if_pos hr
      rw [hretry, attemptFail_of_off (s := u) (by exact hs.1.1) rfl (focusHeld_iff.mpr hf) (by exact ha), drain_of_quiet 63 (by exact hs.1.1)]
      rfl
    · refine hfails h3 (disengaged_atRest hs.1 hturn false _) ?_
      have hretry : seqTrackFail s.track.byPause u = attemptFail u := if_pos hr
      rw [hretry, attemptFail_of_third (s := u) (by exact hs.1.1) (by exact hq) (by exact hturn) (by exact Nat.not_lt.mpr ha.ge),
        drain_disengaged 62 (by exact hs.1.1), hopened, show u.seq.attempts = 3 from ha]
      rfl
  · refine hexec ?_ hs.1
    unfold settleTimeout
    rw [hst]
    exact if_neg (by rw [hp]; exact Bool.false_ne_true)
  · have hclose : closeTimeout s = s.setTrack (s.track.closeJump s.fe.eT) := if_pos (by simp [hst, hp])
    exact (done_of_atRest closeTimeout hs.2 (hclose.symm ▸ hs.1)).trans (congrArg _ hclose)

end Sys2Proof.Machine
end

