-- ==== Sys2Proof/Proofs/LineChanges.lean ====
section
/-! SUPPORT. What a changed level of a debounced line does (R109, R128, R157, R161, R164, R167, R168, R170). -/

namespace Sys2Proof.Machine

section
variable {s : State}

/-- The machine with a line's level changed and its run at 0. -/
def State.lined (s : State) (line : DebLine) : State := s.setSup (s.sup.setLine line ⟨!(s.sup.line line).level, 0⟩)

theorem atRest_lined (h : s.atRest) (line : DebLine) : (s.lined line).atRest := by
  cases line <;> exact h

theorem exec_change (hs : s.settled) {line : DebLine} {t : State} (h : lineChanged line (s.lined line) = t) (ht : t.atRest) :
    exec (.debouncedLineChange line) s = .next t := by
  have hchange : changeLine line s = t := h
  exact (done_of_atRest (changeLine line) hs.2 (hchange.symm ▸ ht)).trans (congrArg _ hchange)

/-! ## The loader's lines -/

/-- A change that moves the loader: it takes its drive at the end of the step. -/
theorem exec_change_moves (hs : s.settled) {line : DebLine} {x : Loader} (h : lineChanged line (s.lined line) = (s.lined line).moved x)
    (hp : (s.lined line).motorPermit = true) (hx : x.state ≠ .clamped ∨ x.ejectPending = false) :
    exec (.debouncedLineChange line) s = .next ((s.lined line).moved
      { x with drive := if x.state = .pulling then 1536 else if x.state = .releasing then -1536 else 0 }) := by
  have hchange : changeLine line s = (s.lined line).moved x := h
  have hsig : ((s.lined line).moved x).signals = [] := hs.1.1
  rw [show exec (.debouncedLineChange line) s = done (changeLine line) s from rfl, done_of_running _ hs.2, hchange,
    settle_of_loader hsig hx, loaderDemand_of_permit (by exact hp)]
  rfl

theorem loaderSlot_of_busy (h : s.loader.state ≠ .empty ∧ s.loader.state ≠ .presented ∨ s.loader.state = .empty ∧ s.sup.slot.level = false
    ∨ s.loader.state = .presented ∧ s.sup.slot.level = true) : loaderSlot s = s := by
  unfold loaderSlot
  rcases h with ⟨he, hp⟩ | ⟨he, hl⟩ | ⟨hp, hl⟩
  · cases hst : s.loader.state with
    | empty => exact absurd hst he
    | presented => exact absurd hst hp
    | _ => rfl
  · rw [he]
    exact if_neg (by rw [hl]; exact Bool.false_ne_true)
  · rw [hp]
    exact if_pos hl

/-! ## INNER_LIMIT (R109, R128) -/

/-- The sled kept from an inward drive. -/
def State.limited (s : State) : State := s.setSled { s.sled with drive := max 0 s.sled.drive }

theorem innerLimitActive_eq (s : State) : innerLimitActive s = seekInnerLimit s.limited := by
  have hdrive : (if s.sled.drive < 0 then 0 else s.sled.drive) = max 0 s.sled.drive := by
    split_ifs <;> omega
  rw [innerLimitActive, hdrive]
  rfl

/-- A leg that has been ordered and has not reported, of a task that runs inward (R128). -/
theorem seekInnerLimit_of_inward (ht : s.seek.task ≠ none)
    (h : (∃ n, s.seek.leg = .jump n ∧ n < 0) ∨ ∃ count, s.seek.leg = .move false count false) :
    seekInnerLimit s = stopOrder (s.setSeek { s.seek with limitStop := true }) := by
  have htask := Option.isSome_iff_ne_none.mpr ht
  unfold seekInnerLimit
  rcases h with ⟨n, hl, hn⟩ | ⟨count, hl⟩
  · rw [hl]
    exact if_pos (by simp [Leg.inward, hn, htask])
  · rw [hl]
    exact if_pos (by simp [Leg.inward, htask])

theorem seekInnerLimit_of_other (h : s.seek.task = none ∨ s.seek.leg = .none ∨ s.seek.leg = .wait ∨ (∃ n, s.seek.leg = .jump n ∧ 0 ≤ n)
    ∨ ∃ out count landed, s.seek.leg = .move out count landed ∧ (out = true ∨ landed = true)) : seekInnerLimit s = s := by
  unfold seekInnerLimit
  rcases h with h | h | h | ⟨n, h, hn⟩ | ⟨out, count, landed, h, hout⟩
  · exact if_neg (by rw [h]; simp)
  · rw [h]; rfl
  · rw [h]; rfl
  · rw [h]
    exact if_neg (by simp [Leg.inward]; omega)
  · rw [h]
    exact if_neg (by rcases hout with rfl | rfl <;> simp [Leg.inward])

end

/-- Settles O42. -/
theorem lineChangesAct : Obligations.LineChangesAct := by
  unfold Obligations.LineChangesAct
  intro s hs lined loads stopped limited close
  have hlined (line : DebLine) : (lined line).atRest := atRest_lined hs.1 line
  refine ⟨fun hstop hlaser hcrank hmute hpower => ⟨fun hst hl => ?_, fun hst hl hslot => ?_, fun hst hl ha => ?_, fun hst hl ha hc => ?_,
      fun hst hl => ?_⟩, fun h => ?_, fun h => ?_, fun h => ?_, fun h => ?_, fun h hleg => ?_,
      fun h htask hleg => ⟨fun hj hp => ?_, fun hm => ?_, fun hj hm => ?_⟩⟩
  · have hpermit : (s.lined .clampEnd).motorPermit = true := motorPermit_of hstop hlaser hcrank hmute
    refine exec_change_moves hs (x := { s.loader with state := .clamped, ejectPending := false, jam := false }) ?_ hpermit (.inr rfl)
    exact if_pos (Bool.and_eq_true_iff.mpr ⟨decide_eq_true hst, congrArg not hl⟩)
  · have hpermit : (s.lined .ejectEnd).motorPermit = true := motorPermit_of hstop hlaser hcrank hmute
    have hreload : s.loader.startReload = if s.loader.reloadSetting = 255 ∨ s.loader.jam = true then none
        else some ⟨0, if s.loader.reloadSetting = 0 then 10000 else s.loader.reloadSetting * 1000⟩ := by
      simp [Loader.startReload]
    rw [← hreload]
    refine exec_change_moves hs (x := { s.loader with state := .presented, reload := s.loader.startReload }) ?_ hpermit
      (.inl LoaderState.noConfusion)
    exact (if_pos (Bool.and_eq_true_iff.mpr ⟨decide_eq_true hst, congrArg not hl⟩)).trans (if_pos hslot)
  · have hauto : ¬(s.lined .slot).autoPull = true := by
      show ¬(s.loader.autoLoad && !(s.lined .slot).motorsHeld) = true
      rw [ha, Bool.false_and]
      exact Bool.false_ne_true
    refine exec_change hs ?_ hs.1
    show loaderSlot (s.lined .slot) = _
    unfold loaderSlot
    rw [show (s.lined .slot).loader.state = .empty from hst]
    exact (if_pos (congrArg not hl)).trans (if_neg hauto)
  · have hpermit : (s.lined .slot).motorPermit = true := motorPermit_of hstop hlaser hcrank hmute
    have hauto : (s.lined .slot).autoPull = true := by
      show (s.loader.autoLoad && !(s.sup.crankHold || s.sup.mute)) = true
      rw [ha, hcrank, hmute]
      rfl
    have hawake : wakeTo .active (s.lined .slot) = s.lined .slot :=
      wakeTo_awake fun hsleep => Power.noConfusion (hpower.symm.trans hsleep)
    refine exec_change_moves hs
      (x := { s.loader with state := .pulling, ejectPending := false, jam := false, timer := 0, reload := none }) ?_ hpermit (.inr rfl)
    show loaderSlot (s.lined .slot) = _
    unfold loaderSlot
    rw [show (s.lined .slot).loader.state = .empty from hst]
    refine (if_pos (congrArg not hl)).trans ((if_pos hauto).trans ?_)
    rw [pullIn, hawake]
    exact enterPulling_eq hc
  · have hpermit : (s.lined .slot).motorPermit = true := motorPermit_of hstop hlaser hcrank hmute
    refine exec_change_moves hs (x := { s.loader with state := .empty, jam := false, reload := none }) ?_ hpermit
      (.inl LoaderState.noConfusion)
    show loaderSlot (s.lined .slot) = _
    unfold loaderSlot
    rw [show (s.lined .slot).loader.state = .presented from hst]
    exact if_neg (by show ¬(!s.sup.slot.level) = true; rw [hl]; exact Bool.false_ne_true)
  · refine exec_change hs (if_neg fun hmoves => ?_) (hlined .clampEnd)
    obtain ⟨hp, hl⟩ := Bool.and_eq_true_iff.mp hmoves
    rcases h with h | h
    · exact h (of_decide_eq_true hp)
    · exact Bool.noConfusion (hl.symm.trans (congrArg not h))
  · refine exec_change hs (if_neg fun hmoves => ?_) (hlined .ejectEnd)
    obtain ⟨hr, hl⟩ := Bool.and_eq_true_iff.mp hmoves
    rcases h with h | h
    · exact h (of_decide_eq_true hr)
    · exact Bool.noConfusion (hl.symm.trans (congrArg not h))
  · refine exec_change hs (loaderSlot_of_busy ?_) (hlined .slot)
    exact h.imp_right (Or.imp (And.imp_right (congrArg not)) (And.imp_right (congrArg not)))
  · exact exec_change hs (if_neg fun hl => Bool.noConfusion (hl.symm.trans (congrArg not h))) (hlined .innerLimit)
  · refine exec_change hs ((if_pos (congrArg not h)).trans ((innerLimitActive_eq _).trans ?_)) hs.1
    exact seekInnerLimit_of_other (s := (s.lined .innerLimit).limited) hleg
  all_goals
    have hstops : lineChanged .innerLimit (s.lined .innerLimit) = stopOrder limited :=
      (if_pos (congrArg not h)).trans ((innerLimitActive_eq _).trans
        (seekInnerLimit_of_inward (s := (s.lined .innerLimit).limited) htask hleg))
    have hstop := stopOrder_eq limited
  · have hmoves : stalls limited.track = true := by rcases hp with hp | hp | hp <;> simp [limited, stopped, lined, stalls, hj, hp]
    rw [if_neg (by show ¬s.track.state = .openSeek; rw [hj]; decide), if_pos hmoves] at hstop
    exact exec_change hs (hstops.trans hstop) hs.1
  · have hmoves : stalls limited.track = true := by simp [limited, stopped, lined, stalls, hm]
    rw [if_pos (by exact hm), if_pos hmoves] at hstop
    exact exec_change hs (hstops.trans hstop) hs.1
  · have hmoves : ¬stalls limited.track = true := by simp [limited, stopped, lined, stalls, hj, hm]
    rw [if_neg (by exact hm), if_neg hmoves] at hstop
    exact exec_change hs (hstops.trans hstop) hs.1

end Sys2Proof.Machine
end

