-- ==== Sys2Proof/Proofs/CrankHold.lean ====
section
/-! SUPPORT. The start and the end of crank hold (R104, R110, R149, R159, R176). -/

namespace Sys2Proof.Machine

section
variable {s : State}

/-! ## What a start suspends and cancels (R149) -/

/-- A seek, a jump or an ENGAGE is suspended. -/
def State.suspends (s : State) : Bool := s.seq.state = .seeking ∨ s.seq.state = .jumping ∨ s.seq.state = .engaging

/-- The task, if any, is cancelled. -/
def State.cancels (s : State) : Bool := s.seq.state = .engaging ∨ ((s.seq.state = .seeking ∨ s.seq.state = .jumping) ∧ s.current ≠ none)
  ∨ ((s.seq.state = .recovering ∨ s.seq.state = .suspended) ∧ s.seek.task ≠ none)

/-- A jump or a move of the task is stopped. -/
def State.stops (s : State) : Bool := s.cancels && s.seek.task.isSome

/-- The loops and the sled as a stop order leaves them. -/
def State.halting (s : State) (stops : Bool) : State :=
  (s.setSled (if stops && s.track.state = .openSeek then { s.sled with drive := 0, move := none } else s.sled)).setTrack
    (if stops && stalls s.track then s.track.close s.fe.crossings else s.track)

theorem stopOrder_halting (s : State) : stopOrder s = s.halting true := by
  simp [stopOrder_eq, State.halting]

theorem halting_false (s : State) : s.halting false = s := by
  simp only [State.halting, Bool.false_and, Bool.false_eq_true, if_false]
  rfl

/-- A signal that is no outcome of the Seek Engine stays through a cancel. -/
theorem cancelTask_of_clean (h : s.signals.filter (fun x => !x.isOutcome) = s.signals) : cancelTask s = s.setSeek s.seek.dropTask := by
  rw [cancelTask, h]
  rfl

/-- The sequencer's and the Seek Engine's part of a start. -/
def State.cranked (s : State) (suspends cancels stops : Bool) : State :=
  { s.halting stops with
    spindle := { s.spindle with target := if s.seq.state = .seeking then s.ownTarget else s.spindle.target }
    seek := if cancels then s.seek.dropTask else s.seek
    seq := if suspends then s.seq.enter .suspended s.seek else s.seq
    sup := { s.sup with idleTimer := if suspends then none else s.sup.idleTimer } }

theorem entered_suspended (s : State) : setSeqState .suspended s = s.cranked true false false := by
  rw [setSeqState_eq (by decide) (by decide), State.cranked, halting_false]
  rfl

theorem suspend_eq (h : s.signals.filter (fun x => !x.isOutcome) = s.signals) :
    suspend s = s.cranked true true s.seek.task.isSome := by
  rw [suspend, cancelTask_of_clean h, entered_suspended]
  cases s.seek.task.isSome with
  | true => exact (if_pos rfl).trans (stopOrder_halting _)
  | false => exact if_neg Bool.false_ne_true

theorem cranked_still (hne : s.seq.state ≠ .seeking) : s.cranked false false false = s := by
  rw [State.cranked, halting_false, if_neg hne]
  rfl

theorem crankStart_eq (h : s.signals.filter (fun x => !x.isOutcome) = s.signals) :
    crankStart s = s.cranked s.suspends s.cancels s.stops := by
  have hstill (hst : s.seq.state = .recovering ∨ s.seq.state = .suspended) :
      (if s.seek.task.isSome then stopOrder (cancelTask s) else s) = s.cranked false s.seek.task.isSome s.seek.task.isSome := by
    have hne : s.seq.state ≠ .seeking := by rcases hst with hst | hst <;> rw [hst] <;> decide
    cases htask : s.seek.task.isSome with
    | true =>
      rw [if_pos rfl, cancelTask_of_clean h, stopOrder_halting, State.cranked, if_neg hne]
      rfl
    | false => rw [if_neg Bool.false_ne_true, cranked_still hne]
  have hworks : (if s.current.isSome then suspend s else setSeqState .suspended s)
      = s.cranked true s.current.isSome (s.current.isSome && s.seek.task.isSome) := by
    cases s.current.isSome with
    | true => exact (if_pos rfl).trans (suspend_eq h)
    | false => exact (if_neg Bool.false_ne_true).trans (entered_suspended s)
  have hcurrent : decide (s.current ≠ none) = s.current.isSome := by cases s.current <;> rfl
  have htask : decide (s.seek.task ≠ none) = s.seek.task.isSome := by cases s.seek.task <;> rfl
  have hquiet (hst : s.seq.state = .idle ∨ s.seq.state = .standby ∨ s.seq.state = .following ∨ s.seq.state = .paused
      ∨ s.seq.state = .disengaging) : s = s.cranked s.suspends s.cancels s.stops := by
    have hflags : s.suspends = false ∧ s.cancels = false := by
      rcases hst with hst | hst | hst | hst | hst <;> simp [State.suspends, State.cancels, hst]
    rw [State.stops, hflags.1, hflags.2]
    exact (cranked_still (by rcases hst with hst | hst | hst | hst | hst <;> rw [hst] <;> decide)).symm
  unfold crankStart
  cases hst : s.seq.state with
  | engaging =>
    have hflags : s.suspends = true ∧ s.cancels = true := by simp [State.suspends, State.cancels, hst]
    rw [State.stops, hflags.1, hflags.2, Bool.true_and]
    exact suspend_eq h
  | seeking =>
    have hflags : s.suspends = true ∧ s.cancels = s.current.isSome := by simp [State.suspends, State.cancels, hst, ← hcurrent]
    rw [State.stops, hflags.1, hflags.2]
    exact hworks
  | jumping =>
    have hflags : s.suspends = true ∧ s.cancels = s.current.isSome := by simp [State.suspends, State.cancels, hst, ← hcurrent]
    rw [State.stops, hflags.1, hflags.2]
    exact hworks
  | recovering =>
    have hflags : s.suspends = false ∧ s.cancels = s.seek.task.isSome := by simp [State.suspends, State.cancels, hst, ← htask]
    rw [State.stops, hflags.1, hflags.2, Bool.and_self]
    exact hstill (.inl hst)
  | suspended =>
    have hflags : s.suspends = false ∧ s.cancels = s.seek.task.isSome := by simp [State.suspends, State.cancels, hst, ← htask]
    rw [State.stops, hflags.1, hflags.2, Bool.and_self]
    exact hstill (.inr hst)
  | _ => exact hquiet (by simp [hst])

/-! ## The whole start -/

/-- Whether the spindle turns or brakes. -/
def State.coasts (s : State) : Bool := s.turning ∨ s.spindle.state = .braking

theorem spindleHold_eq (s : State) : spindleHold s
    = ((s.setSpindle (if s.coasts then s.spindle.coasting else s.spindle)).setLink (s.link.postAll s.coastNotices)).setSignals
      (s.signals ++ if s.coasts then [.spindleMoved] else []) := by
  cases hc : s.coasts with
  | true => exact spindleHold_of_moving (of_decide_eq_true hc)
  | false =>
    have hstill : s.spindle.state = .stopped ∨ s.spindle.state = .coast := by
      have hnot : ¬(s.turning ∨ s.spindle.state = .braking) := of_decide_eq_false hc
      unfold State.turning at hnot
      cases hst : s.spindle.state <;> simp [hst] at hnot ⊢
    have hquiet : s.coastNotices = [] := if_neg (by rcases hstill with h | h <;> rw [h] <;> decide)
    have hsame : spindleHold s = s := by
      unfold spindleHold
      rcases hstill with h | h <;> rw [h]
    rw [hsame, hquiet, if_neg Bool.false_ne_true, if_neg Bool.false_ne_true, List.append_nil]
    rfl

/-- A step of a part whose motors are held, after its spindle has changed or not. -/
theorem settle_held {t : State} {moved : Bool} (hne : t.seq.state ≠ .engaging) (hs : t.signals = []) (hp : t.motorPermit = false) :
    settle (t.setSignals (if moved then [.spindleMoved] else [])) = t.setLoader { t.loader with drive := 0 } := by
  cases moved with
  | true => exact settle_spindleMoved_of_held hne hs hp
  | false =>
    have hdemand : t.loaderDemand = 0 := by
      rw [loaderDemand_eq, hp]
      rfl
    have hstays : ejectRelease t = t := ejectRelease_of_not_due fun h => Bool.false_ne_true (hp.symm.trans h.2.2)
    rw [if_neg Bool.false_ne_true, setSignals_nil hs, settle_of_quiet hs, loaderTest, hstays, hdemand]

/-- The part as a start of crank hold leaves it, before the loader's drive follows its permit. -/
def State.heldOff (s : State) : State :=
  let u := (((s.setSup { s.sup with crankHold := true }).setSpindle (if s.coasts then s.spindle.coasting else s.spindle)).setSled
    { s.sled with drive := 0 }).cranked s.suspends s.cancels s.stops
  u.setLink ((s.link.postAll s.coastNotices).post .supply [1])

/-- A start reads nothing of the notices and signals that stand. -/
theorem crankStart_posted (l : Link) {g : List Signal} (hg : g.filter (fun x => !x.isOutcome) = g) :
    crankStart ((s.setLink l).setSignals g) = ((s.cranked s.suspends s.cancels s.stops).setLink l).setSignals g :=
  crankStart_eq hg

/-- Nor does it read the supervisor, the spindle or the sled to know what it suspends, cancels and stops. -/
theorem cranked_moved (x : Supervisor) (y : Spindle) (z : Sled) :
    let u := ((s.setSup x).setSpindle y).setSled z
    u.suspends = s.suspends ∧ u.cancels = s.cancels ∧ u.stops = s.stops := ⟨rfl, rfl, rfl⟩

theorem crankHoldStart_eq (hs : s.signals = []) :
    crankHoldStart s = s.heldOff.setSignals (if s.coasts then [.spindleMoved] else []) := by
  have hclean : (if s.coasts then [Signal.spindleMoved] else []).filter (fun x => !x.isOutcome)
      = if s.coasts then [.spindleMoved] else [] := by cases s.coasts <;> rfl
  have hhold := spindleHold_eq (s.setSup { s.sup with crankHold := true })
  have hsup : (s.setSup { s.sup with crankHold := true }).coasts = s.coasts := rfl
  rw [hsup, show (s.setSup { s.sup with crankHold := true }).signals = [] from hs, List.nil_append] at hhold
  have hstart := crankStart_posted (s := ((s.setSup { s.sup with crankHold := true }).setSpindle
    (if s.coasts then s.spindle.coasting else s.spindle)).setSled { s.sled with drive := 0 }) (s.link.postAll s.coastNotices) hclean
  obtain ⟨hsus, hcan, hsto⟩ := cranked_moved (s := s) { s.sup with crankHold := true }
    (if s.coasts then s.spindle.coasting else s.spindle) { s.sled with drive := 0 }
  rw [hsus, hcan, hsto] at hstart
  rw [crankHoldStart, hhold]
  exact congrArg postSupply hstart

theorem heldOff_ne_engaging (s : State) : s.heldOff.seq.state ≠ .engaging := by
  show (if s.suspends then s.seq.enter .suspended s.seek else s.seq).state ≠ .engaging
  cases hsus : s.suspends with
  | true => exact SeqState.noConfusion
  | false => exact fun he => Bool.false_ne_true (hsus.symm.trans (decide_eq_true (.inr (.inr he))))

theorem cranked_rest (a b c : Bool) : (s.cranked a b c).signals = s.signals ∧ (s.cranked a b c).loader = s.loader
    ∧ (s.cranked a b c).sup.crankHold = s.sup.crankHold := ⟨rfl, rfl, rfl⟩

theorem heldOff_rest (s : State) : s.heldOff.signals = s.signals ∧ s.heldOff.loader = s.loader ∧ s.heldOff.motorPermit = false := by
  let v : State := ((s.setSup { s.sup with crankHold := true }).setSpindle (if s.coasts then s.spindle.coasting else s.spindle)).setSled
    { s.sled with drive := 0 }
  obtain ⟨hsig, hload, hcrank⟩ := cranked_rest (s := v) s.suspends s.cancels s.stops
  refine ⟨hsig, hload, ?_⟩
  have hheld : s.heldOff.sup.crankHold = true := hcrank
  simp [State.motorPermit, hheld]

/-- The change of the supply line, read as it becomes active or not. -/
theorem lined_supplyLow {b : Bool} (h : s.sup.supplyLow.level = !b) :
    s.lined .supplyLow = s.setSup { s.sup with supplyLow := ⟨b, 0⟩ } := by
  have hlevel : (!s.sup.supplyLow.level) = b := by rw [h, Bool.not_not]
  rw [← hlevel]
  rfl

theorem lineChanged_supplyLow {b : Bool} (h : s.sup.supplyLow.level = b) :
    lineChanged .supplyLow s = if b then crankHoldStart s else crankHoldEnd s := by
  subst h
  rfl

/-- The part with crank hold begun. -/
theorem exec_crankHoldStart (hs : s.settled) (h : s.sup.supplyLow.level = false) :
    exec (.debouncedLineChange .supplyLow) s = .next
      ((s.setSup { s.sup with supplyLow := ⟨true, 0⟩ }).heldOff.setLoader { s.loader with drive := 0 }) := by
  let u : State := s.setSup { s.sup with supplyLow := ⟨true, 0⟩ }
  have hchange : changeLine .supplyLow s = u.heldOff.setSignals (if u.coasts then [.spindleMoved] else []) := by
    show lineChanged .supplyLow (s.lined .supplyLow) = _
    rw [lined_supplyLow (b := true) h]
    have hline : lineChanged .supplyLow u = crankHoldStart u := lineChanged_supplyLow (b := true) rfl
    exact hline.trans (crankHoldStart_eq (s := u) hs.1.1)
  obtain ⟨hsig, hload, hpermit⟩ := heldOff_rest u
  rw [show exec (.debouncedLineChange .supplyLow) s = done (changeLine .supplyLow) s from rfl, done_of_running _ hs.2, hchange]
  have hrests := settle_held (moved := u.coasts) (heldOff_ne_engaging u) (hsig.trans hs.1.1) hpermit
  rw [hload] at hrests
  exact congrArg Host.Outcome.next hrests

/-- The start of crank hold, field by field. -/
theorem heldOff_eq (s : State) : s.heldOff = { s with
    spindle := { (if s.coasts then s.spindle.coasting else s.spindle) with
      target := if s.seq.state = .seeking then s.ownTarget else s.spindle.target }
    sled := { s.sled with drive := 0, move := if s.stops && s.track.state = .openSeek then none else s.sled.move }
    track := if s.stops && stalls s.track then s.track.close s.fe.crossings else s.track
    seq := if s.suspends then s.seq.enter .suspended s.seek else s.seq
    seek := if s.cancels then s.seek.dropTask else s.seek
    sup := { s.sup with crankHold := true, idleTimer := if s.suspends then none else s.sup.idleTimer }
    link := (s.link.postAll s.coastNotices).post .supply [1] } := by
  have htarget : (if s.coasts then s.spindle.coasting else s.spindle).target = s.spindle.target := by
    cases s.coasts <;> rfl
  have hsled : (if s.stops && s.track.state = .openSeek then ({ s.sled with drive := 0, move := none } : Sled)
      else { s.sled with drive := 0 })
      = { s.sled with drive := 0, move := if s.stops && s.track.state = .openSeek then none else s.sled.move } := by
    cases (s.stops && decide (s.track.state = .openSeek)) <;> rfl
  rw [← hsled]
  simp only [State.heldOff, State.cranked, State.halting, State.setSup, State.setSpindle, State.setSled, State.setTrack, State.setLink,
    htarget]
  rfl

end

end Sys2Proof.Machine
end

