-- ==== Sys2Proof/Proofs/CrankHoldEnd.lean ====
section
/-! SUPPORT. The end of crank hold: the spindle kicked, and what was suspended replayed (R104, R136, R139, R149, R151, R176). -/

namespace Sys2Proof.Machine

section
variable {s : State}

/-- The part as the end of crank hold leaves it, with its spindle kicked, before what waited goes on. -/
def State.kickedOff (s : State) : State :=
  (s.setSup { s.sup with supplyLow := ⟨false, 0⟩, crankHold := false }).setSpindle
    { s.spindle with state := .kick, run := true, drive := 2047, lockRun := 0, unlockRun := 0, timer := 0 }

/-- What an end of crank hold makes of the part: the command's own work, with its notice, up to the end of the step. -/
theorem exec_crankHoldEnd (hs : s.settled) (h : s.sup.supplyLow.level = true) (hm : s.sup.mute = false) (hc : s.spindle.state = .coast)
    (hr : s.spindle.run = true) (hl : s.loader.state = .clamped) : exec (.debouncedLineChange .supplyLow) s
      = .next (settle (postSupply (crankEnd (s.kickedOff.setSignals [.spindleMoved])))) := by
  let u : State := s.setSup { s.sup with supplyLow := ⟨false, 0⟩ }
  have hfull (x : State) (hx : x.loader.state = .clamped) : loaderFreed x = x := if_neg (by simp [hx])
  have hkick : s.spindle.freed = { s.spindle with state := .kick, run := true, drive := 2047, lockRun := 0, unlockRun := 0, timer := 0 } := by
    rw [Spindle.freed, if_pos hr, ← hr]
  have hrelease : spindleRelease (u.setSup { u.sup with crankHold := false }) = s.kickedOff.setSignals [.spindleMoved] := by
    have hfree : (u.setSup { u.sup with crankHold := false }).motorsHeld = false := by
      show (false || s.sup.mute) = false
      rw [hm]
      rfl
    rw [spindleRelease_of_coast hfree (by exact hc), show (u.setSup { u.sup with crankHold := false }).signals = [] from hs.1.1]
    show (((u.setSup { u.sup with crankHold := false }).setSpindle s.spindle.freed).setSignals [.spindleMoved]) = _
    rw [hkick]
    rfl
  have hchange : changeLine .supplyLow s = postSupply (crankEnd (s.kickedOff.setSignals [.spindleMoved])) := by
    show lineChanged .supplyLow (s.lined .supplyLow) = _
    rw [lined_supplyLow (b := false) h]
    have hline : lineChanged .supplyLow u = crankHoldEnd u := lineChanged_supplyLow (b := false) rfl
    refine hline.trans ?_
    rw [crankHoldEnd]
    dsimp only
    rw [hrelease, hfull _ (by exact hl)]
  rw [show exec (.debouncedLineChange .supplyLow) s = done (changeLine .supplyLow) s from rfl, done_of_running _ hs.2, hchange]

/-- The spindle's own change, taken by a part that goes on as it is. -/
theorem settle_spindleMoved_of_stays {t : State} (h : engageAdvance t = t) (ht : t.atRest) : settle (t.setSignals [.spindleMoved]) = t := by
  rw [settle, drain_cons 63 rfl]
  show loaderTest (drain 63 (engageAdvance (t.setSignals []))) = t
  rw [setSignals_nil ht.1, h, drain_of_quiet 63 ht.1, loaderTest_of_atRest ht]

/-- The spindle evaluates its target at a start order it need not act on (R96, R97). -/
theorem startOrder_of_kick (hk : s.spindle.state = .kick) (hst : s.seq.state ≠ .seeking) :
    startOrder s = s.setSpindle { s.spindle with run := true, target := s.ownTarget } := by
  have hstays : startOrder s = evalTarget (s.setSpindle { s.spindle with run := true }) := by
    have hkick : (evalTarget (s.setSpindle { s.spindle with run := true })).spindle.state = .kick := hk
    unfold startOrder
    dsimp only
    rw [hkick]
  rw [hstays, evalTarget_eq (by exact hst)]
  rfl

/-! ## An ENGAGE that goes on while the spindle is in KICK (R139, R149) -/

/-- Steps that pass: focus held, and the tracking loop held, but the spindle not LOCKED. -/
theorem engageReady_of_kick (hk : s.spindle.state = .kick) :
    engageReady s = if s.seek.valid then s.setSeq { s.seq with addrTimer := none } else s := by
  have hnot (u : State) (hu : u.spindle.state = .kick) : (u.trackHeld && u.spindle.state = .locked && u.seek.valid) = false := by
    simp [hu]
  unfold engageReady
  dsimp only
  cases hv : s.seek.valid with
  | true =>
    rw [if_pos rfl]
    exact if_neg (by rw [hnot _ (by exact hk)]; exact Bool.false_ne_true)
  | false =>
    rw [if_neg Bool.false_ne_true]
    exact if_neg (by rw [hnot _ hk]; exact Bool.false_ne_true)

theorem engageFocus_of_open (hf : s.focusHeld = false) (hk : s.spindle.state = .kick) : engageFocus s = s := by
  have hslow : s.spinning = false := by simp [State.spinning, hk]
  rw [engageFocus, hf, hslow]
  rfl

theorem engageTrack_of_held (ht : s.trackHeld = true) (hk : s.spindle.state = .kick) : engageTrack s
    = s.setSeq { s.seq with step := .engageReady, addrTimer := if s.seek.valid then none else some 0 } := by
  rw [engageTrack, if_pos ht, engageReady_of_kick (by exact hk)]
  cases hv : s.seek.valid with
  | true =>
    rw [if_pos (by exact hv)]
    rfl
  | false =>
    rw [if_neg (by show ¬s.seek.valid = true; rw [hv]; exact Bool.false_ne_true)]
    rfl

theorem engageTrack_of_off (hoff : s.track.state = .off) (hf : s.focusHeld = true) :
    engageTrack s = s.setTrack s.track.pulledIn := by
  have hloose : ¬s.trackHeld = true := by simp [State.trackHeld, hoff]
  rw [engageTrack, if_neg hloose, if_pos hoff, pullInOrder_of_focusHeld hf, if_neg (by rw [hoff]; decide)]
  rfl

/-- The part with an ENGAGE begun again: its spindle turns already. -/
def State.reengaged (s : State) : State :=
  { s with
    fe := s.fe.engage s.active
    spindle := { s.spindle with run := true, target := s.ownTarget }
    seq := { s.seq.enter .engaging s.seek with laser := true, step := .engageFocus }
    sup := { s.sup with idleTimer := none } }

theorem engageRun_of_kick (hk : s.spindle.state = .kick) (hst : s.seq.state ≠ .seeking) :
    engageRun s = engageFocus s.reengaged := by
  rw [engageRun, setSeqState_quiet rfl (by decide) (by decide) hst]
  dsimp only
  rw [startOrder_of_kick (by exact hk) (by exact SeqState.noConfusion)]
  rfl

/-! ## The replay of a JUMP (R149, R153) -/

/-- A seek of a place that is there already. -/
theorem startSeek_there {b : Nat} (hv : s.seek.valid = true) (hd : s.away b s.seek.aCur = 0) (hle : s.seek.aCur ≤ b) :
    startSeek b s = endTask .done (s.setSeek (s.seek.fresh (.seek b))) :=
  (startSeek_of_valid b hv).trans (seekCheck_there (by exact hd) hle)


/-- The part with a JUMP's task begun anew. -/
def State.rejumped (s : State) (n : Int) : State :=
  { s with
    seek := s.seek.fresh (.jump n)
    seq := s.seq.enter .jumping s.seek
    sup := { s.sup with idleTimer := none } }

theorem replayJump_near {n : Int} (hst : s.seq.state ≠ .seeking) (hn : n ≠ 0) (hl : n.natAbs ≤ s.active[26])
    (hp : s.sup.innerLimit.level = false ∨ ¬n < 0) (ht : s.trackHeld = true) (hx : s.fe.crossingNow = false) :
    replayJump n s = (s.rejumped n).jumpLeg n := by
  rw [replayJump, setSeqState_quiet rfl (by decide) (by decide) hst, startJump_near hn (by exact hl),
    orderTested_jump hn (by exact hp) (by exact ht) (by exact hx)]
  rfl

/-! ## The end, by what waited -/

/-- A part whose crank hold may end with its spindle coasting and its run demand standing. -/
structure Held (s : State) : Prop where
  settled : s.settled
  low : s.sup.supplyLow.level = true
  mute : s.sup.mute = false
  coasts : s.spindle.state = .coast
  run : s.spindle.run = true
  clamped : s.loader.state = .clamped

/-- The part with crank hold over and the spindle kicked. -/
def State.unheld (s : State) (seq : Sequencer) (seek : Seek) (target : Nat) : State :=
  { s with
    spindle := { s.spindle with state := .kick, run := true, drive := 2047, lockRun := 0, unlockRun := 0, timer := 0, target := target }
    seq := seq, seek := seek
    sup := { s.sup with supplyLow := ⟨false, 0⟩, crankHold := false }
    link := s.link.post .supply [0] }

/-- The idle timer stopped by a change of state. -/
def State.stirred (s : State) : State := { s with sup := { s.sup with idleTimer := none } }

/-- The part as its suspended entry is replayed, its spindle's target evaluated again. -/
def State.replaying (s : State) : State :=
  { s with
    spindle := { s.spindle with
      state := .kick, run := true, drive := 2047, lockRun := 0, unlockRun := 0, timer := 0, target := s.ownTarget }
    sup := { s.sup with supplyLow := ⟨false, 0⟩, crankHold := false }
    signals := [.spindleMoved] }

variable {e : Entry}

theorem Held.atRest {t : State} (h : Held s) (hk : t.spindle.state = .kick) (hsig : t.signals = s.signals) (hload : t.loader = s.loader) :
    t.atRest :=
  atRest_of_not_stopped (by rw [h.coasts]; decide) (by rw [hk]; decide) h.settled.1 (hsig.trans h.settled.1.1) hload

theorem Held.exec (h : Held s) : Machine.exec (.debouncedLineChange .supplyLow) s
    = .next (settle (postSupply (crankEnd (s.kickedOff.setSignals [.spindleMoved])))) :=
  exec_crankHoldEnd h.settled h.low h.mute h.coasts h.run h.clamped

theorem Held.goes {t : State} (h : Held s) (ht : t.atRest) (hne : t.seq.state ≠ .engaging)
    (hend : postSupply (crankEnd (s.kickedOff.setSignals [.spindleMoved])) = t.setSignals [.spindleMoved]) :
    Machine.exec (.debouncedLineChange .supplyLow) s = .next t := by
  rw [h.exec, hend, settle_spindleMoved hne ht]

theorem Held.unheld_atRest (h : Held s) (seq : Sequencer) (seek : Seek) (target : Nat) : (s.unheld seq seek target).atRest :=
  h.atRest rfl rfl rfl

theorem crankEnd_of_suspended (hst : s.seq.state = .suspended) :
    crankEnd (s.kickedOff.setSignals [.spindleMoved]) = replay s.replaying :=
  (if_pos (by exact hst)).trans (congrArg replay
    (startOrder_of_kick (s := s.kickedOff.setSignals [.spindleMoved]) rfl (by show s.seq.state ≠ _; rw [hst]; decide)))

theorem replaying_motion (hq : s.seq.queue = [e]) (he : e.inProgress = true) : s.replaying.motion = some e.motion := by
  have hcurrent : s.replaying.current = some e := by
    show (match s.seq.queue with | e :: _ => if e.inProgress then some e else none | [] => none) = some e
    rw [hq]
    exact if_pos he
  rw [State.motion, hcurrent]

theorem postSupply_eq (h : s.sup.crankHold = false) : postSupply s = s.setLink (s.link.post .supply [0]) := by
  rw [postSupply, h]
  rfl

/-- The part with notices apart, as `replaying` leaves what it does not touch. -/
theorem postSupply_replaying (seq : Sequencer) (seek : Seek) :
    postSupply ((s.replaying.setSeq seq).setSeek seek) = (s.unheld seq seek s.ownTarget).setSignals [.spindleMoved] :=
  postSupply_eq rfl

/-- Nothing waits: the head is tested, and none stands (R136). -/
theorem Held.exec_of_none (h : Held s)
    (hst : s.seq.state = .following ∨ s.seq.state = .paused ∨ s.seq.state = .disengaging
      ∨ (s.seq.state = .recovering ∧ s.seq.step ≠ .recoverReturn)) (hempty : s.seq.state ≠ .following ∨ s.seq.queue = []) :
    Machine.exec (.debouncedLineChange .supplyLow) s = .next (s.unheld s.seq s.seek s.spindle.target) := by
  have hnot : s.seq.state ≠ .suspended ∧ s.seq.state ≠ .engaging := by
    rcases hst with hst | hst | hst | ⟨hst, _⟩ <;> rw [hst] <;> decide
  have hreturn : ¬(decide (s.seq.state = .recovering) && decide (s.seq.step = .recoverReturn)) = true := by
    rcases hst with hst | hst | hst | ⟨_, hstep⟩
    · simp [hst]
    · simp [hst]
    · simp [hst]
    · simp [hstep]
  have htest : crankEnd (s.kickedOff.setSignals [.spindleMoved]) = testHead (s.kickedOff.setSignals [.spindleMoved]) :=
    (if_neg (by exact hnot.1)).trans (if_neg (by exact hreturn))
  have hhead : (s.unheld s.seq s.seek s.spindle.target).headDue = none := by
    rcases hempty with hf | hq
    · refine headDue_of_busy ?_
      show s.seq.state ≠ .idle ∧ s.seq.state ≠ .standby ∧ s.seq.state ≠ .following
      rcases hst with hst | hst | hst | ⟨hst, _⟩
      · exact absurd hst hf
      all_goals rw [hst]; decide
    · exact headDue_of_empty hq
  have hrests := h.unheld_atRest s.seq s.seek s.spindle.target
  have hsettled : settle (testHead ((s.unheld s.seq s.seek s.spindle.target).setSignals [.spindleMoved]))
      = s.unheld s.seq s.seek s.spindle.target := by
    rw [settle, drain_testHead 63 (s := (s.unheld s.seq s.seek s.spindle.target).setSignals [.spindleMoved]) hhead,
      drain_spindleMoved 62 (t := s.unheld s.seq s.seek s.spindle.target) hnot.2, setSignals_nil hrests.1, loaderTest_of_atRest hrests]
  rw [h.exec, htest]
  exact congrArg Host.Outcome.next hsettled

/-- A part left SUSPENDED by HALT waits on (R145). -/
theorem Held.exec_of_halted (h : Held s) (hst : s.seq.state = .suspended) (hcur : s.current = none) :
    Machine.exec (.debouncedLineChange .supplyLow) s = .next (s.unheld s.seq s.seek s.ownTarget) := by
  have hnone : s.replaying.motion = none := by
    show (match s.current with | some e => some e.motion | none => none) = none
    rw [hcur]
  refine h.goes (h.unheld_atRest _ _ _) (by show s.seq.state ≠ _; rw [hst]; decide) ?_
  rw [crankEnd_of_suspended hst, replay, hnone]
  exact postSupply_replaying s.seq s.seek

/-- The return seek of a recovery begins, and waits for its address (R151). -/
theorem Held.exec_of_return (h : Held s) {b : Nat} (hb : s.seq.resume = some b) (hst : s.seq.state = .recovering)
    (hstep : s.seq.step = .recoverReturn) (hv : s.seek.valid = false) : Machine.exec (.debouncedLineChange .supplyLow) s
      = .next (s.unheld s.seq { s.seek.fresh (.seek b) with leg := .wait } s.spindle.target) := by
  let x : State := s.kickedOff.setSignals [.spindleMoved]
  have hreturn : crankEnd x = recoverReturn x :=
    (if_neg (by show ¬s.seq.state = .suspended; rw [hst]; decide)).trans (if_pos (by simp [x, State.kickedOff, hst, hstep]))
  have hsame : { s.seq with step := .recoverReturn } = s.seq := by rw [← hstep]
  have hseek : recoverReturn x = startSeek b (x.setSeq { s.seq with step := .recoverReturn }) := by
    rw [recoverReturn, show x.seq.resume = some b from hb]
    exact if_neg Bool.false_ne_true
  refine h.goes (h.unheld_atRest _ _ _) (by show s.seq.state ≠ _; rw [hst]; decide) ?_
  show postSupply (crankEnd x) = _
  rw [hreturn, hseek, hsame, startSeek_of_invalid b (by exact hv)]
  rfl

/-- A suspended SEEK starts again and waits for its address (R149). -/
theorem Held.exec_of_seek (h : Held s) (hq : s.seq.queue = [e]) (he : e.inProgress = true) (hst : s.seq.state = .suspended) {a : Nat}
    (ha : e.motion.argument = some a) (hv : s.seek.valid = false) : Machine.exec (.debouncedLineChange .supplyLow) s
      = .next (s.unheld (s.seq.enter .seeking s.seek) { s.seek.fresh (.seek a) with leg := .wait }
          (zoneAt s.seek.zones (zoneOf s.seek.zones a)).interval).stirred := by
  have hmotion : e.motion = .seek a := by cases hm : e.motion <;> rw [hm] at ha <;> cases ha; rfl
  have hstart : replay s.replaying = startSeek a (s.replaying.seeking a) := by
    rw [replay, replaying_motion hq he, hmotion]
    exact congrArg (startSeek a) (setSeqState_seeking (s := s.replaying) hq he ha)
  refine h.goes (h.atRest rfl rfl rfl) SeqState.noConfusion ?_
  rw [crankEnd_of_suspended hst, hstart, startSeek_of_invalid a (by exact hv)]
  rfl

/-- A suspended JUMP begins its return seek, and waits for its address (R149). -/
theorem Held.exec_of_jumpReturn (h : Held s) (hq : s.seq.queue = [e]) (he : e.inProgress = true) (hst : s.seq.state = .suspended) {n : Int}
    (hn : e.motion.tracks = some n) {b : Nat} (hb : s.seq.resume = some b) (hv : s.seek.valid = false) :
    Machine.exec (.debouncedLineChange .supplyLow) s
      = .next (s.unheld { s.seq with step := .jumpReturn } { s.seek.fresh (.seek b) with leg := .wait } s.ownTarget) := by
  have hmotion : e.motion = .jump n := by cases hm : e.motion <;> rw [hm] at hn <;> cases hn; rfl
  have hstart : replay s.replaying = startSeek b (s.replaying.setSeq { s.seq with step := .jumpReturn }) := by
    rw [replay, replaying_motion hq he, hmotion]
    have hresume : s.replaying.seq.resume = some b := hb
    dsimp only
    split
    · next target htarget =>
      cases hresume.symm.trans htarget
      rfl
    · next htarget => cases hresume.symm.trans htarget
  refine h.goes (h.unheld_atRest _ _ _) (by show s.seq.state ≠ _; rw [hst]; decide) ?_
  rw [crankEnd_of_suspended hst, hstart, startSeek_of_invalid b (by exact hv)]
  exact postSupply_replaying _ _

/-- A suspended JUMP replayed at its full count: at once with no resume address, else behind a return seek that is there (R149). -/
theorem Held.exec_of_rejump (h : Held s) (hq : s.seq.queue = [e]) (he : e.inProgress = true) (hst : s.seq.state = .suspended) {n : Int}
    (hn : e.motion.tracks = some n)
    (hres : s.seq.resume = none ∨ (s.seek.valid = true ∧ ∃ b, s.seq.resume = some b ∧ s.away b s.seek.aCur = 0 ∧ s.seek.aCur ≤ b))
    (hn0 : n ≠ 0) (hnear : n.natAbs ≤ s.active[26]) (hpass : s.sup.innerLimit.level = false ∨ ¬n < 0) (ht : s.trackHeld = true)
    (hx : s.fe.crossingNow = false) : Machine.exec (.debouncedLineChange .supplyLow) s
      = .next (((s.unheld s.seq s.seek s.ownTarget).rejumped n).jumpLeg n) := by
  let t : State := ((s.unheld s.seq s.seek s.ownTarget).rejumped n).jumpLeg n
  have hmotion : e.motion = .jump n := by cases hm : e.motion <;> rw [hm] at hn <;> cases hn; rfl
  have hrest : t.atRest := h.atRest rfl rfl rfl
  rcases hres with hnone | ⟨hv, b, hb, hd, hle⟩
  · have hstart : replay s.replaying = (s.replaying.rejumped n).jumpLeg n := by
      have hresume : s.replaying.seq.resume = none := hnone
      rw [replay, replaying_motion hq he, hmotion]
      dsimp only
      split
      · next target htarget => cases hresume.symm.trans htarget
      · exact replayJump_near (by show s.seq.state ≠ _; rw [hst]; decide) hn0 hnear hpass ht hx
    refine h.goes hrest SeqState.noConfusion ?_
    rw [crankEnd_of_suspended hst, hstart, postSupply_eq rfl]
    rfl
  · let z : State := (s.unheld { s.seq with step := .jumpReturn } (s.seek.fresh (.seek b)) s.ownTarget).setSignals [.spindleMoved]
    have hstart : replay s.replaying = startSeek b (s.replaying.setSeq { s.seq with step := .jumpReturn }) := by
      have hresume : s.replaying.seq.resume = some b := hb
      rw [replay, replaying_motion hq he, hmotion]
      dsimp only
      split
      · next target htarget =>
        cases hresume.symm.trans htarget
        rfl
      · next htarget => cases hresume.symm.trans htarget
    have hends : postSupply (crankEnd (s.kickedOff.setSignals [.spindleMoved])) = endTask .done z := by
      rw [crankEnd_of_suspended hst, hstart, startSeek_there (by exact hv) (by exact hd) (by exact hle)]
      exact postSupply_eq rfl
    have hagain : seqOutcome .done (z.setSeek z.seek.dropTask) = t.setSignals [.spindleMoved] := by
      have hjump : seqOutcome .done (z.setSeek z.seek.dropTask) = replayJump n (z.setSeek z.seek.dropTask) := by
        have hzm : (z.setSeek z.seek.dropTask).motion = some (.jump n) := hmotion ▸ replaying_motion hq he
        unfold seqOutcome
        rw [show (z.setSeek z.seek.dropTask).seq.state = .suspended from hst, hzm]
        exact if_pos rfl
      exact hjump.trans (replayJump_near (by show s.seq.state ≠ _; rw [hst]; decide) hn0 hnear hpass ht hx)
    rw [h.exec, hends, settle_endTask, hagain, drain_spindleMoved 62 (t := t) SeqState.noConfusion, setSignals_nil hrest.1,
      loaderTest_of_atRest hrest]

/-! ### A suspended ENGAGE (R139, R149) -/

/-- The part with the ENGAGE begun again, up to the step it waits in. -/
def State.reengages (s : State) (step : SeqStep) (timer : Option Nat) (track : TrackLoop) : State :=
  { s with
    fe := s.fe.engage s.active
    spindle := { s.spindle with
      state := .kick, run := true, drive := 2047, lockRun := 0, unlockRun := 0, timer := 0, target := s.ownTarget }
    track := track
    seq := { s.seq.enter .engaging s.seek with laser := true, step := step, addrTimer := timer }
    sup := { s.sup with supplyLow := ⟨false, 0⟩, crankHold := false, idleTimer := none }
    link := s.link.post .supply [0] }

/-- An ENGAGE goes on to a step that the spindle's change leaves as it is. -/
theorem Held.exec_of_engage (h : Held s) (hq : s.seq.queue = [e]) (he : e.inProgress = true) (hst : s.seq.state = .suspended)
    (hm : e.motion = .engage) {step : SeqStep} {timer : Option Nat} {track : TrackLoop}
    (hgo : postSupply (engageFocus s.replaying.reengaged) = (s.reengages step timer track).setSignals [.spindleMoved])
    (hstay : engageAdvance (s.reengages step timer track) = s.reengages step timer track) :
    Machine.exec (.debouncedLineChange .supplyLow) s = .next (s.reengages step timer track) := by
  have hstart : replay s.replaying = engageFocus s.replaying.reengaged := by
    rw [replay, replaying_motion hq he, hm]
    exact engageRun_of_kick rfl (by show s.seq.state ≠ _; rw [hst]; decide)
  rw [h.exec, crankEnd_of_suspended hst, hstart, hgo, settle_spindleMoved_of_stays hstay (h.atRest rfl rfl rfl)]

theorem engageAdvance_at_focus (he : s.seq.state = .engaging) (hstep : s.seq.step = .engageFocus) : engageAdvance s = engageFocus s := by
  rw [engageAdvance, if_pos he, hstep]

theorem engageAdvance_at_track (he : s.seq.state = .engaging) (hstep : s.seq.step = .engageTrack) : engageAdvance s = engageTrack s := by
  rw [engageAdvance, if_pos he, hstep]

theorem engageAdvance_at_ready (he : s.seq.state = .engaging) (hstep : s.seq.step = .engageReady) : engageAdvance s = engageReady s := by
  rw [engageAdvance, if_pos he, hstep]

theorem Held.exec_of_engage_open (h : Held s) (hq : s.seq.queue = [e]) (he : e.inProgress = true) (hst : s.seq.state = .suspended)
    (hm : e.motion = .engage) (hf : s.focusHeld = false) :
    Machine.exec (.debouncedLineChange .supplyLow) s = .next (s.reengages .engageFocus none s.track) := by
  refine h.exec_of_engage hq he hst hm ?_ ((engageAdvance_at_focus rfl rfl).trans (engageFocus_of_open hf rfl))
  rw [engageFocus_of_open (by exact hf) rfl]
  exact postSupply_eq rfl

theorem Held.exec_of_engage_held (h : Held s) (hq : s.seq.queue = [e]) (he : e.inProgress = true) (hst : s.seq.state = .suspended)
    (hm : e.motion = .engage) (hf : s.focusHeld = true) (ht : s.trackHeld = true) :
    Machine.exec (.debouncedLineChange .supplyLow) s
      = .next (s.reengages .engageReady (if s.seek.valid then none else some 0) s.track) := by
  refine h.exec_of_engage hq he hst hm ?_ ?_
  · rw [engageFocus, if_pos (by exact hf), engageTrack_of_held (by exact ht) rfl]
    exact postSupply_eq rfl
  · refine (engageAdvance_at_ready rfl rfl).trans ((engageReady_of_kick rfl).trans ?_)
    cases hv : s.seek.valid with
    | true => exact if_pos hv
    | false => exact if_neg (by show ¬s.seek.valid = true; rw [hv]; exact Bool.false_ne_true)

theorem Held.exec_of_engage_off (h : Held s) (hq : s.seq.queue = [e]) (he : e.inProgress = true) (hst : s.seq.state = .suspended)
    (hm : e.motion = .engage) (hf : s.focusHeld = true) (ho : s.track.state = .off) :
    Machine.exec (.debouncedLineChange .supplyLow) s = .next (s.reengages .engageTrack none s.track.pulledIn) := by
  refine h.exec_of_engage hq he hst hm ?_ ?_
  · rw [engageFocus, if_pos (by exact hf), engageTrack_of_off (by exact ho) (by exact hf)]
    exact postSupply_eq rfl
  · refine (engageAdvance_at_track rfl rfl).trans ?_
    have hclosing : ¬(s.reengages .engageTrack none s.track.pulledIn).trackHeld = true :=
      fun h => by rcases trackHeld_iff.mp h with h | h <;> exact TrackState.noConfusion h
    rw [engageTrack, if_neg hclosing, if_neg TrackState.noConfusion]

end

/-- Settles O43. -/
theorem crankHoldStartsAndEnds : Obligations.CrankHoldStartsAndEnds := by
  unfold Obligations.CrankHoldStartsAndEnds
  intro s hs entered coasts suspends works cancels stops closes ends stirred interval there wait held jumps
  refine ⟨fun h => ?_, fun h hm hc hr hl => ?_⟩
  · have hworks : s.seek.task.isSome = works := by cases htask : s.seek.task <;> simp [works, htask]
    have hcancels : s.cancels = cancels := by simp [State.cancels, cancels, works]
    have hstops : s.stops = stops := by simp [State.stops, stops, hcancels, hworks]
    have hmove : (s.stops && stalls s.track) = closes := by
      rw [hstops]
      simp [closes, stalls, Bool.or_assoc]
    have hopen : (s.stops && decide (s.track.state = .openSeek)) = decide (closes = true ∧ s.track.state = .openSeek) := by
      rw [← hmove]
      by_cases ho : s.track.state = .openSeek <;> simp [ho, stalls]
    have hspindle : (if s.coasts then s.spindle.coasting else s.spindle) = { s.spindle with
        state := if coasts then .coast else s.spindle.state, drive := if coasts then 0 else s.spindle.drive
        lockRun := if coasts then 0 else s.spindle.lockRun, unlockRun := if coasts then 0 else s.spindle.unlockRun } := by
      show (if coasts then s.spindle.coasting else s.spindle) = _
      cases coasts <;> rfl
    have heq : (s.setSup { s.sup with supplyLow := ⟨true, 0⟩ }).heldOff = { s with
        spindle := { (if s.coasts then s.spindle.coasting else s.spindle) with
          target := if s.seq.state = .seeking then s.ownTarget else s.spindle.target }
        sled := { s.sled with drive := 0, move := if s.stops && s.track.state = .openSeek then none else s.sled.move }
        track := if s.stops && stalls s.track then s.track.close s.fe.crossings else s.track
        seq := if s.suspends then s.seq.enter .suspended s.seek else s.seq
        seek := if s.cancels then s.seek.dropTask else s.seek
        sup := { s.sup with
          supplyLow := ⟨true, 0⟩, crankHold := true, idleTimer := if s.suspends then none else s.sup.idleTimer }
        link := (s.link.postAll s.coastNotices).post .supply [1] } := heldOff_eq _
    rw [exec_crankHoldStart hs h, heq, hcancels, hmove, hopen, hspindle, postAll_append]
    simp only [decide_eq_true_eq]
    rfl
  · intro change
    have hheld : Held s := ⟨hs, h, hm, hc, hr, hl⟩
    refine ⟨hheld.exec_of_none, hheld.exec_of_halted, fun b => hheld.exec_of_return, fun e hq he hst => ⟨fun a => hheld.exec_of_seek hq he hst,
      fun n hn => ⟨fun b => hheld.exec_of_jumpReturn hq he hst hn, fun hres hn0 hnear hpass ht hx => ?_⟩, fun hm => ?_⟩⟩
    · exact hheld.exec_of_rejump hq he hst hn (hres.imp_right (And.imp_right (Exists.imp fun b => And.imp_right
        (And.imp_left fun hd => sub_eq_zero.mpr (congrArg Nat.cast hd))))) hn0 hnear
        (hpass.imp_right (fun h => not_lt.mpr h.le)) (trackHeld_iff.mpr ht) hx
    intro c engages
    refine ⟨fun hf => ?_, fun hf => ⟨fun ht => ?_, fun ho => ?_⟩⟩
    · exact hheld.exec_of_engage_open hq he hst hm (by rcases hf with hf | hf <;> simp [State.focusHeld, hf])
    · exact hheld.exec_of_engage_held hq he hst hm (focusHeld_iff.mpr hf) (trackHeld_iff.mpr ht)
    · exact hheld.exec_of_engage_off hq he hst hm (focusHeld_iff.mpr hf) ho

end Sys2Proof.Machine
end


-- ==== Sys2Proof/Proofs/AddressFrames.lean ====
section
/-! SUPPORT. The address input (R112, R113): which frames are valid, and what a valid report does before anything waits for it. -/

namespace Sys2Proof.Machine

/-! ## The bits of a frame (R112, R208) -/

theorem foldl_bits (bits : List Bool) (n : Nat) :
    bits.foldl (fun acc b => acc * 2 + flag b) n = n * 2 ^ bits.length + bitsNat bits := by
  induction bits generalizing n with
  | nil => simp [bitsNat]
  | cons b rest ih =>
    rw [bitsNat, List.foldl_cons, List.foldl_cons, ih, ih (0 * 2 + flag b), List.length_cons, pow_succ]
    ring

theorem bitsNat_append (x y : List Bool) : bitsNat (x ++ y) = bitsNat x * 2 ^ y.length + bitsNat y := by
  rw [bitsNat, List.foldl_append, foldl_bits]
  rfl

theorem flag_le (b : Bool) : flag b ≤ 1 := by cases b <;> decide

theorem bitsNat_lt (bits : List Bool) : bitsNat bits < 2 ^ bits.length := by
  induction bits with
  | nil => decide
  | cons b rest ih =>
    have hsplit := bitsNat_append [b] rest
    have hfirst : bitsNat [b] = flag b := by simp [bitsNat]
    rw [List.singleton_append, hfirst] at hsplit
    have hle : flag b * 2 ^ rest.length ≤ 2 ^ rest.length := by
      calc flag b * 2 ^ rest.length ≤ 1 * 2 ^ rest.length := Nat.mul_le_mul_right _ (flag_le b)
        _ = 2 ^ rest.length := Nat.one_mul _
    rw [hsplit, List.length_cons, pow_succ]
    omega

/-- The address that a frame's last 24 bits name. -/
def frameAddress (all : List Bool) : Nat := (all.drop 8).foldl (fun n b => 2 * n + flag b) 0

theorem frameAddress_eq (all : List Bool) : frameAddress all = bitsNat (all.drop 8) := by
  rw [frameAddress, bitsNat]
  congr 1
  funext n b
  rw [Nat.mul_comm]

/-- A full frame: its address, and its flag bit. -/
theorem bitsNat_frame {all : List Bool} (h : all.length = 32) :
    bitsNat all % 16777216 = frameAddress all ∧ (128 ≤ bitsNat all / 16777216 ↔ all.head? = some true) := by
  have hdrop : (all.drop 8).length = 24 := by simp [h]
  have hlow : bitsNat (all.drop 8) < 16777216 := by
    have := bitsNat_lt (all.drop 8)
    rwa [hdrop] at this
  have hall : bitsNat all = bitsNat (all.take 8) * 16777216 + bitsNat (all.drop 8) := by
    have := bitsNat_append (all.take 8) (all.drop 8)
    rwa [List.take_append_drop, hdrop] at this
  have hhigh : 128 ≤ bitsNat (all.take 8) ↔ all.head? = some true := by
    cases all with
    | nil => simp at h
    | cons b rest =>
      have hseven : (rest.take 7).length = 7 := by
        rw [List.length_take]
        simp only [List.length_cons] at h
        omega
      have hbits := bitsNat_append [b] (rest.take 7)
      have hfirst : bitsNat [b] = flag b := by simp [bitsNat]
      have hlt := bitsNat_lt (rest.take 7)
      rw [hseven] at hlt hbits
      rw [List.singleton_append, hfirst] at hbits
      rw [List.take_succ_cons, hbits, List.head?_cons]
      cases b with
      | false => simp [flag]; omega
      | true => simp [flag]
  rw [frameAddress_eq, ← hhigh, hall]
  omega

theorem reportAddress_of_valid {all : List Bool} (h : all.length = 32) (hb : all.head? = some true) (ha : frameAddress all ≤ 4194303) :
    reportAddress all = some (frameAddress all) := by
  obtain ⟨hlow, hhigh⟩ := bitsNat_frame h
  rw [reportAddress, if_pos h]
  dsimp only
  rw [hlow, if_pos (by simp [hhigh.mpr hb, maxBlock, ha])]

theorem reportAddress_of_invalid {all : List Bool} (h : all.length ≠ 32 ∨ all.head? = some false ∨ 4194303 < frameAddress all) :
    reportAddress all = none := by
  unfold reportAddress
  split
  · next hlen =>
    obtain ⟨hlow, hhigh⟩ := bitsNat_frame hlen
    dsimp only
    rw [hlow, if_neg]
    rcases h with h | h | h
    · exact absurd hlen h
    · have hflag : ¬128 ≤ bitsNat all / 16777216 := fun h' => by simp [hhigh.mp h'] at h
      simp [hflag]
    · have hout : ¬frameAddress all ≤ 4194303 := Nat.not_le.mpr h
      simp [maxBlock, hout]
  · rfl

section
variable {s : State} {a : Nat}

/-! ## What a valid report writes first (R97, R113, R137) -/

/-- The Seek Engine with a valid report taken. -/
def Seek.reported (x : Seek) (a : Nat) : Seek :=
  { x with aCur := a, tpCur := x.track a, valid := true, known := true, age := 0, watch := 0, frame := .idle }

/-- The interval of an address's zone (R97). -/
def State.intervalAt (s : State) (b : Nat) : Nat := (zoneAt s.seek.zones (zoneOf s.seek.zones b)).interval

/-- The part with a report taken and T evaluated. -/
def State.reports (s : State) (a target : Nat) : State :=
  { s with seek := s.seek.reported a, spindle := { s.spindle with target := target } }

theorem ownTarget_reports (a target : Nat) : (s.reports a target).ownTarget = s.intervalAt a := rfl

/-- What a report does to the part before the sequencer or a waiting seek takes it. -/
def State.heard (s : State) (a : Nat) : State :=
  followAddress a (evalTarget ((s.setSeek { s.seek with frame := .idle }).setSeek (({ s.seek with frame := .idle } : Seek).takeAddress a)))

theorem heard_of_reading (h : s.seq.state.reading = true) :
    s.heard a = (s.reports a (s.intervalAt a)).setSeq { s.seq with resume := some a } := by
  have hne : s.seq.state ≠ .seeking := fun h' => by rw [h'] at h; exact absurd h (by decide)
  rw [State.heard, evalTarget_eq (by exact hne)]
  exact if_pos h

theorem heard_of_other (hr : s.seq.state.reading = false) (hs : s.seq.state ≠ .seeking) : s.heard a = s.reports a (s.intervalAt a) := by
  rw [State.heard, evalTarget_eq (by exact hs)]
  exact if_neg (by show ¬s.seq.state.reading = true; rw [hr]; exact Bool.false_ne_true)

theorem heard_of_seeking {e : Entry} {b : Nat} (hst : s.seq.state = .seeking) (hq : s.seq.queue = [e]) (he : e.inProgress = true)
    (hb : e.motion.argument = some b) : s.heard a = s.reports a (s.intervalAt b) := by
  let x : State := (s.setSeek { s.seek with frame := .idle }).setSeek (({ s.seek with frame := .idle } : Seek).takeAddress a)
  have htarget : x.seekTarget = some b := by
    have hcurrent : x.current = some e := by
      show (match s.seq.queue with | e :: _ => if e.inProgress then some e else none | [] => none) = some e
      rw [hq]
      exact if_pos he
    rw [State.seekTarget, hcurrent]
    dsimp only
    cases hmotion : e.motion <;> rw [hmotion] at hb <;> cases hb
    rfl
  have hzone : x.referenceZone = zoneOf s.seek.zones b := by
    rw [State.referenceZone, if_pos (by exact hst), htarget]
    rfl
  have heval : evalTarget x = s.reports a (s.intervalAt b) := by
    rw [evalTarget, hzone]
    rfl
  show followAddress a (evalTarget x) = _
  rw [heval]
  exact if_neg (by show ¬s.seq.state.reading = true; rw [hst]; decide)

/-! ## The frame's end -/

theorem frame_take (s : State) (bits : List Bool) (h : s.seek.frame ≠ .unseen) :
    s.seek.frame.take bits = .taking ((match s.seek.frame with | .taking old => old | _ => []) ++ bits) := by
  cases hf : s.seek.frame with
  | idle => rfl
  | taking old => rfl
  | unseen => exact absurd hf h

theorem exec_bits {all bits : List Bool} (hs : s.settled) (hf : s.seek.frame.take bits = .taking all) :
    exec (.addressReport bits false) s = .next (s.setSeek { s.seek with frame := .taking all }) := by
  have hbits : addressBits bits false s = s.setSeek { s.seek with frame := .taking all } := by
    rw [addressBits, hf]
    rfl
  have hrun : exec (.addressReport bits false) s = done (addressBits bits false) s :=
    if_neg (by rw [hs.2]; exact Bool.false_ne_true)
  rw [hrun]
  exact (done_of_atRest _ hs.2 (hbits.symm ▸ hs.1)).trans (congrArg _ hbits)

theorem exec_frame {all bits : List Bool} (hs : s.settled) (hf : s.seek.frame.take bits = .taking all) :
    exec (.addressReport bits true) s = .next (settle (match reportAddress all with
      | some a => validReport a (s.setSeek { s.seek with frame := .idle })
      | none => s.setSeek { s.seek with frame := .idle })) := by
  have hbits : addressBits bits true s = match reportAddress all with
      | some a => validReport a (s.setSeek { s.seek with frame := .idle })
      | none => s.setSeek { s.seek with frame := .idle } := by
    rw [addressBits, hf]
    exact if_pos rfl
  have hrun : exec (.addressReport bits true) s = done (addressBits bits true) s :=
    if_neg (by rw [hs.2]; exact Bool.false_ne_true)
  rw [hrun, done_of_running _ hs.2, hbits]

/-- A valid frame, of bits that complete it. -/
structure Framed (s : State) (bits : List Bool) (a : Nat) : Prop where
  settled : s.settled
  frame : exec (.addressReport bits true) s = .next (settle (validReport a (s.setSeek { s.seek with frame := .idle })))

namespace Framed

variable {bits : List Bool}

theorem waits (h : Framed s bits a) (hl : s.seek.leg = .wait) : exec (.addressReport bits true) s = .next (settle (seekFresh a (s.heard a))) := by
  rw [h.frame]
  exact congrArg (fun x => Host.Outcome.next (settle x)) (if_pos (by exact decide_eq_true hl))

theorem passes (h : Framed s bits a) (hl : s.seek.leg ≠ .wait) : exec (.addressReport bits true) s = .next (settle (seqAddress (s.heard a))) := by
  rw [h.frame]
  exact congrArg (fun x => Host.Outcome.next (settle x)) (if_neg (by exact ne_true_of_eq_false (decide_eq_false hl)))

theorem atRest (h : Framed s bits a) (target : Nat) : (s.reports a target).atRest := h.settled.1

/-- In FOLLOWING the report sets the resume address (R137). -/
theorem follows (h : Framed s bits a) (hst : s.seq.state = .following) (hl : s.seek.leg ≠ .wait) : exec (.addressReport bits true) s
    = .next ((s.reports a (s.intervalAt a)).setSeq { s.seq with resume := some a }) := by
  have hnothing (u : State) (hu : u.seq.state = .following) : seqAddress u = u := by
    rw [seqAddress, if_neg (by simp [hu]), engageAdvance_of_not_engaging (by rw [hu]; decide)]
  rw [h.passes hl, heard_of_reading (by rw [hst]; rfl), hnothing _ (by exact hst), settle_of_atRest (by exact h.settled.1)]

end Framed

end

end Sys2Proof.Machine
end


-- ==== Sys2Proof/Proofs/AddressWaits.lean ====
section
/-! SUPPORT. What a valid report ends: the address wait of a seek, the return seek of a suspended JUMP, and step 3 of an ENGAGE (R122,
R123, R125, R126, R139, R149). -/

namespace Sys2Proof.Machine

section
variable {s : State} {a b : Nat} {e : Entry}

/-- The part in FOLLOWING after a report, with its entry ended; the task is dropped where a return seek ended too. -/
def State.follows (s : State) (a : Nat) (returned : Bool) (posts : List Notice) : State :=
  { s with
    seek := if returned then (s.seek.reported a).dropTask else s.seek.reported a
    seq := { s.seq with
      state := .following, queue := [], resume := some a, step := .none, addrTimer := none, loopWait := none, recTimer := 0
      cause := .none, attempts := 0 }
    spindle := { s.spindle with target := s.intervalAt a }
    sup := { s.sup with idleTimer := none }
    link := s.link.postAll posts }

/-- The part in FOLLOWING, the one entry ended by the sequencer itself. -/
def State.closed (s : State) (posts : List Notice) : State :=
  { s with
    seek := { s.seek with watch := 0 }
    seq := { s.seq with
      state := .following, queue := [], resume := if s.seek.valid then some s.seek.aCur else s.seq.resume, step := .none
      addrTimer := none, loopWait := none, recTimer := 0, cause := .none, attempts := 0 }
    sup := { s.sup with idleTimer := none }
    link := s.link.postAll posts }

theorem entered_following_of_other (hr : s.seq.state.reading = false) (hs : s.seq.state ≠ .seeking) : s.entered .following = { s with
    seek := { s.seek with watch := 0 }, seq := s.seq.enter .following s.seek, sup := { s.sup with idleTimer := none } } := by
  rw [State.entered, if_neg hs, if_pos (by rw [hr]; rfl)]
  rfl

theorem endFollowing_of_last (o : EndOutcome) (hq : s.seq.queue = [e]) (he : e.inProgress = true) (hr : s.seq.state.reading = false)
    (hs : s.seq.state ≠ .seeking) : endFollowing o s = testHead (s.closed (endNotices o.code [e])) := by
  have hend : endEntry o s = (s.setSeq { s.seq with queue := [] }).setLink (s.link.postAll (endNotices o.code [e])) := by
    rw [endEntry, hq]
    exact if_pos he
  rw [endFollowing, hend, setSeqState_eq (by decide) (by decide)]
  exact congrArg testHead (entered_following_of_other (by exact hr) (by exact hs))

/-- An entry in progress is the current one. -/
theorem motion_of_queue (hq : s.seq.queue = [e]) (he : e.inProgress = true) : s.motion = some e.motion := by
  have hcurrent : s.current = some e := by
    show (match s.seq.queue with | e :: _ => if e.inProgress then some e else none | [] => none) = some e
    rw [hq]
    exact if_pos he
  rw [State.motion, hcurrent]

theorem followed_reports {target : Nat} {posts : List Notice} (h : s.seq.state = .seeking ∨ target = s.intervalAt a) :
    (s.reports a target).followed posts = s.follows a true posts := by
  have htarget : (if s.seq.state = .seeking then s.intervalAt a else target) = s.intervalAt a := by
    rcases h with h | h
    · exact if_pos h
    · rw [h, ite_self]
  have hfollowed : (s.reports a target).followed posts = { s.follows a true posts with
      seek := { (s.seek.reported a).dropTask with watch := if s.seq.state = .paused then 0 else 0 }
      spindle := { s.spindle with target := if s.seq.state = .seeking then s.intervalAt a else target } } := rfl
  rw [hfollowed, htarget, ite_self]
  rfl

/-! ## The check of a seek (R122, R123) -/

theorem away_eq_zero_iff : s.away b a = 0 ↔ s.seek.track b = s.seek.track a := by
  rw [State.away]
  omega

/-- A seek that is not there has a leg to go. -/
theorem seekCheck_leg (h : ¬(s.seek.track b = s.seek.track a ∧ a ≤ b)) :
    ∃ leg, seekCheck b a s = seekLeg leg s ∧ (s.away b a < 0 ∨ (s.away b a = 0 ∧ b < a) → leg.inward = true) := by
  by_cases hd : s.away b a = 0
  · have hlt : b < a := Nat.lt_of_not_le fun hle => h ⟨away_eq_zero_iff.mp hd, hle⟩
    exact ⟨_, seekCheck_back hd hlt, fun _ => rfl⟩
  · by_cases hn : (s.away b a).natAbs ≤ s.active[26]
    · exact ⟨_, seekCheck_near hd hn, fun hin => inward_jump_iff.mpr (hin.elim id fun h => absurd h.1 hd)⟩
    · exact ⟨_, seekCheck_far (Nat.lt_of_not_le hn), fun hin => inward_move (hin.elim id fun h => absurd h.1 hd) _⟩

/-- A further leg within the limit of corrections is one more of them (R125). -/
theorem seekLeg_of_corrected {leg : Leg} (h : s.seek.madeLeg = false ∨ s.seek.corrections < 4) : seekLeg leg s
    = orderTested leg (s.setSeek { s.seek with
        corrections := if s.seek.madeLeg then s.seek.corrections + 1 else s.seek.corrections }) := by
  cases hm : s.seek.madeLeg with
  | false =>
    rw [seekLeg_of_first hm]
    rfl
  | true =>
    have hlt : ¬4 ≤ s.seek.corrections := by
      rcases h with h | h
      · rw [hm] at h
        cases h
      · omega
    rw [seekLeg, if_pos hm, countCorrection, if_neg hlt]
    rfl

theorem seekLeg_of_missed {leg : Leg} (hm : s.seek.madeLeg = true) (hc : 4 ≤ s.seek.corrections) : seekLeg leg s = endTask .seekMiss s := by
  rw [seekLeg, if_pos hm, countCorrection, if_pos hc]

/-! ## Step 3 of an ENGAGE with the address valid (R139) -/

theorem engageReady_of_passed {u : State} (hv : u.seek.valid = true) (ht : u.trackHeld = true) (hk : u.spindle.state = .locked) :
    engageReady u = engageReturn (u.setSeq { u.seq with addrTimer := none }) := by
  have hpass : (u.trackHeld && decide (u.spindle.state = .locked) && u.seek.valid) = true := by simp [ht, hk, hv]
  rw [engageReady, hv, if_pos rfl]
  exact if_pos hpass

theorem engageReady_of_slow {u : State} (hv : u.seek.valid = true) (hk : u.spindle.state ≠ .locked) :
    engageReady u = u.setSeq { u.seq with addrTimer := none } := by
  have hslow : ¬(u.trackHeld && decide (u.spindle.state = .locked) && u.seek.valid) = true := by simp [hk]
  rw [engageReady, hv, if_pos rfl]
  exact if_neg hslow

namespace Framed

variable {bits : List Bool}

/-! ## The address wait of a seek (R125) -/

/-- A part that waits for an address in a seek. -/
structure Waiting (s : State) (e : Entry) (b : Nat) : Prop where
  queue : s.seq.queue = [e]
  current : e.inProgress = true
  argument : e.motion.argument = some b
  seeking : s.seq.state = .seeking
  task : s.seek.task = some (.seek b)
  leg : s.seek.leg = .wait

theorem checks (h : Framed s bits a) (w : Waiting s e b) :
    exec (.addressReport bits true) s = .next (settle (seekCheck b a (s.reports a (s.intervalAt b)))) := by
  have htask : (s.reports a (s.intervalAt b)).seek.task = some (.seek b) := w.task
  rw [h.waits w.leg, heard_of_seeking w.seeking w.queue w.current w.argument, seekFresh, htask]

theorem check_ends (h : Framed s bits a) (w : Waiting s e b) {o : EndOutcome} {x : State} {k : Nat} (ho : o ≠ .trackFail)
    (hx : x = (s.reports a (s.intervalAt b)).setSeek { s.seek.reported a with corrections := k })
    (hc : seekCheck b a (s.reports a (s.intervalAt b)) = endTask o x) :
    exec (.addressReport bits true) s = .next (s.follows a true (endNotices o.code [e])) := by
  subst hx
  have hends : settle (endTask o ((s.reports a (s.intervalAt b)).setSeek { s.seek.reported a with corrections := k }))
      = ((s.reports a (s.intervalAt b)).setSeek { s.seek.reported a with corrections := k }).followed (endNotices o.code [e]) :=
    settle_endTask_following o (by exact h.settled.1) (by exact w.queue) w.current (by show s.seq.state ≠ _; rw [w.seeking]; decide)
      (seqOutcome_ends ho (.inl (by exact w.seeking)))
  rw [h.checks w, hc, hends, ← followed_reports (target := s.intervalAt b) (.inl w.seeking)]
  rfl

theorem seek_there (h : Framed s bits a) (w : Waiting s e b) (ht : s.seek.track b = s.seek.track a ∧ a ≤ b) :
    exec (.addressReport bits true) s = .next (s.follows a true (endNotices 0 [e])) :=
  h.check_ends w (o := .done) (k := s.seek.corrections) (by decide) rfl
    (seekCheck_there (by exact away_eq_zero_iff.mpr ht.1) ht.2)

theorem seek_missed (h : Framed s bits a) (w : Waiting s e b) (ht : ¬(s.seek.track b = s.seek.track a ∧ a ≤ b))
    (hm : s.seek.madeLeg = true) (hc : 4 ≤ s.seek.corrections) :
    exec (.addressReport bits true) s = .next (s.follows a true (endNotices 6 [e])) := by
  obtain ⟨leg, hleg, -⟩ := seekCheck_leg (s := s.reports a (s.intervalAt b)) ht
  exact h.check_ends w (o := .seekMiss) (k := s.seek.corrections) (by decide) rfl (hleg.trans (seekLeg_of_missed hm hc))

theorem seek_limit (h : Framed s bits a) (w : Waiting s e b) (hm : s.seek.madeLeg = false ∨ s.seek.corrections < 4)
    (hl : s.sup.innerLimit.level = true) (hin : s.away b a < 0 ∨ (s.away b a = 0 ∧ b < a)) :
    exec (.addressReport bits true) s = .next (s.follows a true (endNotices 7 [e])) := by
  have hnot : ¬(s.seek.track b = s.seek.track a ∧ a ≤ b) := by
    rintro ⟨htrack, hle⟩
    have := away_eq_zero_iff.mpr htrack
    omega
  obtain ⟨leg, hleg, hinward⟩ := seekCheck_leg (s := s.reports a (s.intervalAt b)) hnot
  exact h.check_ends w (o := .limit) (by decide) rfl
    (hleg.trans ((seekLeg_of_corrected (s := s.reports a (s.intervalAt b)) hm).trans (orderTested_limit (hinward hin) hl)))

theorem seek_jumps (h : Framed s bits a) (w : Waiting s e b) (hm : s.seek.madeLeg = false ∨ s.seek.corrections < 4)
    (hd : s.away b a ≠ 0) (hn : (s.away b a).natAbs ≤ s.active[26]) (hp : s.sup.innerLimit.level = false ∨ 0 < s.away b a)
    (ht : s.trackHeld = true) (hx : s.fe.crossingNow = false) : exec (.addressReport bits true) s
      = .next (((s.reports a (s.intervalAt b)).setSeek { s.seek.reported a with
          corrections := if s.seek.madeLeg then s.seek.corrections + 1 else s.seek.corrections }).jumpLeg (s.away b a)) := by
  let u : State := (s.reports a (s.intervalAt b)).setSeek { s.seek.reported a with
    corrections := if s.seek.madeLeg then s.seek.corrections + 1 else s.seek.corrections }
  have hleg : seekCheck b a (s.reports a (s.intervalAt b)) = u.jumpLeg (s.away b a) :=
    (seekCheck_near (s := s.reports a (s.intervalAt b)) hd hn).trans ((seekLeg_of_corrected (s := s.reports a (s.intervalAt b)) hm).trans
      (orderTested_jump (s := u) hd (hp.imp id not_lt_of_gt) ht hx))
  rw [h.checks w, hleg, settle_of_atRest (atRest_jumpLeg (by exact h.settled.1))]

/-! ## The return seek of a suspended JUMP (R149) -/

theorem jump_replays (h : Framed s bits a) (hq : s.seq.queue = [e]) (he : e.inProgress = true) {n : Int} (hn : e.motion.tracks = some n)
    (htask : s.seek.task = some (.seek b)) (hst : s.seq.state = .suspended) (hl : s.seek.leg = .wait)
    (hthere : s.seek.track b = s.seek.track a ∧ a ≤ b) (hn0 : n ≠ 0) (hnear : n.natAbs ≤ s.active[26])
    (hp : s.sup.innerLimit.level = false ∨ 0 < n) (ht : s.trackHeld = true) (hx : s.fe.crossingNow = false) :
    exec (.addressReport bits true) s = .next (((s.reports a (s.intervalAt a)).rejumped n).jumpLeg n) := by
  let u : State := s.reports a (s.intervalAt a)
  have hmotion : e.motion = .jump n := by cases hm : e.motion <;> rw [hm] at hn <;> cases hn; rfl
  have hfresh : seekFresh a u = endTask .done u := by
    rw [seekFresh, show u.seek.task = some (.seek b) from htask]
    exact seekCheck_there (by exact away_eq_zero_iff.mpr hthere.1) hthere.2
  have hjump : seqOutcome .done (u.setSeek u.seek.dropTask) = (u.rejumped n).jumpLeg n := by
    have hreplay : seqOutcome .done (u.setSeek u.seek.dropTask) = replayJump n (u.setSeek u.seek.dropTask) := by
      unfold seqOutcome
      rw [show (u.setSeek u.seek.dropTask).seq.state = .suspended from hst,
        show (u.setSeek u.seek.dropTask).motion = some (.jump n) from hmotion ▸ motion_of_queue hq he]
      exact if_pos rfl
    exact hreplay.trans (replayJump_near (by show s.seq.state ≠ _; rw [hst]; decide) hn0 hnear (hp.imp id not_lt_of_gt) ht hx)
  have hrest : ((u.rejumped n).jumpLeg n).atRest := h.settled.1
  rw [h.waits hl, heard_of_other (by rw [hst]; rfl) (by rw [hst]; decide), hfresh, settle_endTask, hjump, drain_of_quiet 63 hrest.1,
    loaderTest_of_atRest hrest]

/-! ## Step 3 of an ENGAGE (R139) -/

/-- A part that waits in step 3 of an ENGAGE. -/
structure Readying (s : State) (e : Entry) : Prop where
  queue : s.seq.queue = [e]
  current : e.inProgress = true
  engaging : s.seq.state = .engaging
  step : s.seq.step = .engageReady
  leg : s.seek.leg ≠ .wait
  held : s.trackHeld = true

/-- The part with the report taken and the address timer stopped. -/
def readied (s : State) (a : Nat) : State := (s.reports a (s.intervalAt a)).setSeq { s.seq with addrTimer := none }

theorem engages (h : Framed s bits a) (r : Readying s e) : exec (.addressReport bits true) s
    = .next (settle (if s.spindle.state = .locked then engageReturn (readied s a) else readied s a)) := by
  have hready : engageReady (s.reports a (s.intervalAt a))
      = if s.spindle.state = .locked then engageReturn (readied s a) else readied s a := by
    by_cases hlock : s.spindle.state = .locked
    · rw [if_pos hlock]
      exact engageReady_of_passed rfl r.held hlock
    · rw [if_neg hlock]
      exact engageReady_of_slow rfl hlock
  have haddress : seqAddress (s.reports a (s.intervalAt a)) = engageReady (s.reports a (s.intervalAt a)) := by
    rw [seqAddress, if_neg (by show ¬(decide (s.seq.state = .recovering) && _) = true; simp [r.engaging])]
    exact engageAdvance_at_ready r.engaging r.step
  rw [h.passes r.leg, heard_of_other (by rw [r.engaging]; rfl) (by rw [r.engaging]; decide), haddress, hready]

theorem engage_waits (h : Framed s bits a) (r : Readying s e) (hl : s.spindle.state ≠ .locked) :
    exec (.addressReport bits true) s = .next (readied s a) := by
  rw [h.engages r, if_neg hl, settle_of_atRest (by exact h.settled.1)]

theorem engage_ends (h : Framed s bits a) (r : Readying s e) (hl : s.spindle.state = .locked)
    (hstay : s.seq.fromStandby = false ∨ s.seq.resume = none) :
    exec (.addressReport bits true) s = .next (s.follows a false (endNotices 0 [e])) := by
  have hreturn : engageReturn (readied s a) = testHead (s.follows a false (endNotices 0 [e])) := by
    have hends : endFollowing .done (readied s a) = testHead (s.follows a false (endNotices 0 [e])) :=
      endFollowing_of_last .done (by exact r.queue) r.current (by show s.seq.state.reading = false; rw [r.engaging]; rfl)
        (by show s.seq.state ≠ _; rw [r.engaging]; decide)
    rw [← hends]
    unfold engageReturn
    split
    · next b hfrom hres => rcases hstay with h' | h' <;> [cases h'.symm.trans hfrom; cases h'.symm.trans hres]
    · rfl
    · rfl
  rw [h.engages r, if_pos hl, hreturn, settle_testHead_of_none (by exact h.settled.1) (headDue_of_empty rfl)]

theorem engage_returns (h : Framed s bits a) (r : Readying s e) (hl : s.spindle.state = .locked) (hfrom : s.seq.fromStandby = true)
    (hres : s.seq.resume = some b) (hthere : s.seek.track b = s.seek.track a ∧ a ≤ b) :
    exec (.addressReport bits true) s = .next (s.follows a true (endNotices 0 [e])) := by
  let x : State := ((readied s a).setSeq { s.seq with addrTimer := none, step := .engageReturn }).setSeek ((s.seek.reported a).fresh (.seek b))
  have hreturn : engageReturn (readied s a) = endTask .done x := by
    have hseek : engageReturn (readied s a) = startSeek b ((readied s a).setSeq { s.seq with addrTimer := none, step := .engageReturn }) := by
      unfold engageReturn
      rw [show (readied s a).seq.fromStandby = true from hfrom, show (readied s a).seq.resume = some b from hres]
      rfl
    exact hseek.trans (startSeek_there rfl (by exact away_eq_zero_iff.mpr hthere.1) hthere.2)
  have hends : settle (endTask .done x) = x.followed (endNotices 0 [e]) :=
    settle_endTask_following .done (by exact h.settled.1) (by exact r.queue) r.current (by show s.seq.state ≠ _; rw [r.engaging]; decide)
      (seqOutcome_ends (by decide) (.inr (.inr (.inl r.engaging))))
  rw [h.engages r, if_pos hl, hreturn, hends, ← followed_reports (target := s.intervalAt a) (.inr rfl)]
  rfl

end Framed

end

end Sys2Proof.Machine
end


-- ==== Sys2Proof/Proofs/AddressRecoveries.lean ====
section
/-! SUPPORT. The report that ends a recovery, and the replay of the suspended entry (R149, R151, R153). -/

namespace Sys2Proof.Machine

section
variable {s : State} {a b : Nat} {e : Entry} {bits : List Bool} {r : Bool}

/-! ## The Seek Engine after the report, behind a return seek or without one -/

/-- The Seek Engine with a report taken, the task dropped where a return seek ended. -/
def Seek.answered (x : Seek) (a : Nat) (r : Bool) : Seek := if r then (x.reported a).dropTask else x.reported a

@[simp] theorem answered_valid (x : Seek) : (x.answered a r).valid = true := by cases r <;> rfl

@[simp] theorem answered_aCur (x : Seek) : (x.answered a r).aCur = a := by cases r <;> rfl

@[simp] theorem answered_known (x : Seek) : (x.answered a r).known = true := by cases r <;> rfl

@[simp] theorem answered_zones (x : Seek) : (x.answered a r).zones = x.zones := by cases r <;> rfl

@[simp] theorem answered_track (x : Seek) : (x.answered a r).track b = x.track b := by cases r <;> rfl

theorem answered_fresh (x : Seek) (t : Task) : (x.answered a r).fresh t = { (x.reported a).dropTask with task := some t } := by
  cases r <;> rfl

theorem answered_unwatched (x : Seek) : { x.answered a r with watch := 0 } = x.answered a r := by cases r <;> rfl

/-! ## The replay of a suspended entry (R153) -/

/-- What an attempt that succeeds does once its notice is given. -/
def replaySuspended (s : State) : State :=
  match s.motion with
  | some .engage => if s.sup.crankHold then setSeqState .suspended s else engageRun s
  | some (.seek t) => if s.sup.crankHold then setSeqState .suspended s else startSeek t (setSeqState .seeking s)
  | some (.jump n) => if s.sup.crankHold then setSeqState .suspended s else replayJump n s
  | some .pause => pauseRun s
  | some .disengage => testHead (setSeqState .following s)
  | none => testHead (setSeqState .following s)

theorem attemptSuccess_eq (s : State) : attemptSuccess s = replaySuspended (postRecovery s.seq.cause .resumed s.seq.attempts s) := rfl

/-- The notice of a recovery that has succeeded (R153). -/
def State.resumption (s : State) : Notice := ⟨.recovery, [byte s.seq.cause.code, 0, byte s.seq.attempts]⟩

/-- The recovery has a resume address to go back to. -/
def State.seeksBack (s : State) : Bool := decide (s.seq.resume ≠ none)

/-- The part with its report taken and the recovery's notice given. -/
def State.resumes (s : State) (a : Nat) (step : SeqStep) : State :=
  { s with
    seek := s.seek.answered a s.seeksBack
    seq := { s.seq with step := step }
    spindle := { s.spindle with target := s.intervalAt a }
    link := s.link.postAll [s.resumption] }

/-- The part with its suspended entry in progress in a state again. -/
def State.goesOn (s : State) (a : Nat) (st : SeqState) (e : Entry) (k : Seek) (target : Nat) : State :=
  { s.follows a false [s.resumption] with
    seek := k
    seq := { (s.follows a false [s.resumption]).seq with state := st, queue := [e], resume := s.seq.resume }
    spindle := { s.spindle with target := target } }

/-- A jump leg of a task begun anew. -/
def State.jumpsOn (s : State) (a : Nat) (st : SeqState) (e : Entry) (task : Task) (n : Int) (target : Nat) : State :=
  { s.goesOn a st e { (s.seek.reported a).dropTask with task := some task, leg := .jump n, madeLeg := true } target with
    fe := { s.fe with crossings := 0 }
    track := s.track.kicked n false }

/-- The part with its ENGAGE ended. -/
def State.reads (s : State) (a : Nat) (e : Entry) : State :=
  let u := s.follows a s.seeksBack (s.resumption :: endNotices 0 [e])
  { u with
    fe := s.fe.engage s.active
    seq := { u.seq with laser := true }
    spindle := { u.spindle with run := true } }

theorem ownTarget_resumes (step : SeqStep) : (s.resumes a step).ownTarget = s.intervalAt a := by
  rw [State.ownTarget, State.resumes]
  simp [State.intervalAt]

theorem away_resumes (step : SeqStep) : (s.resumes a step).away b a = s.away b a := by
  simp [State.away, State.resumes]

/-- A part in the address step of a recovery that the report ends. -/
structure Resuming (s : State) (bits : List Bool) (a : Nat) : Prop extends Framed s bits a where
  recovering : s.seq.state = .recovering
  step : s.seq.step = .recoverAddress
  leg : s.seek.leg ≠ .wait
  back : s.seq.resume = none ∨ (s.sup.crankHold = false ∧ ∃ b, s.seq.resume = some b ∧ s.seek.track b = s.seek.track a ∧ a ≤ b)

namespace Resuming

/-- The report ends the recovery, at once or by a return seek that is there already (R151). -/
theorem exec_eq (h : Resuming s bits a) : ∃ n step, exec (.addressReport bits true) s
    = .next (loaderTest (drain (n + 3) (replaySuspended (s.resumes a step)))) := by
  let u : State := s.reports a (s.intervalAt a)
  have hreturn : exec (.addressReport bits true) s = .next (settle (recoverReturn u)) := by
    have haddress : seqAddress u = recoverReturn u := if_pos (by show (decide (s.seq.state = _) && decide (s.seq.step = _)) = true; simp [h.recovering, h.step])
    rw [h.passes h.leg, heard_of_other (by rw [h.recovering]; rfl) (by rw [h.recovering]; decide), haddress]
  rcases h.back with hnone | ⟨hcrank, b, hb, hthere⟩
  · have hback : s.seeksBack = false := by simp [State.seeksBack, hnone]
    have hsuccess : recoverReturn u = attemptSuccess u := by
      rw [recoverReturn, show u.seq.resume = none from hnone]
    refine ⟨61, s.seq.step, ?_⟩
    rw [hreturn, hsuccess, attemptSuccess_eq, State.resumes, hback]
    rfl
  · have hback : s.seeksBack = true := by simp [State.seeksBack, hb]
    let x : State := (u.setSeq { s.seq with step := .recoverReturn }).setSeek ((s.seek.reported a).fresh (.seek b))
    have hseek : recoverReturn u = endTask .done x := by
      rw [recoverReturn, show u.seq.resume = some b from hb]
      exact (if_neg (by show ¬s.sup.crankHold = true; rw [hcrank]; exact Bool.false_ne_true)).trans
        (startSeek_there rfl (by exact away_eq_zero_iff.mpr hthere.1) hthere.2)
    have hsuccess : seqOutcome .done (x.setSeek x.seek.dropTask) = attemptSuccess (x.setSeek x.seek.dropTask) := by
      unfold seqOutcome
      rw [show (x.setSeek x.seek.dropTask).seq.state = .recovering from h.recovering]
      exact if_pos rfl
    refine ⟨60, .recoverReturn, ?_⟩
    rw [hreturn, hseek, settle_endTask, hsuccess, attemptSuccess_eq, State.resumes, hback]
    rfl

theorem exec_of_atRest {t : State} (h : Resuming s bits a) (hgo : ∀ step, replaySuspended (s.resumes a step) = t) (ht : t.atRest) :
    exec (.addressReport bits true) s = .next t := by
  obtain ⟨n, step, hexec⟩ := h.exec_eq
  rw [hexec, hgo, drain_of_quiet _ ht.1, loaderTest_of_atRest ht]

theorem exec_of_testHead {t : State} (h : Resuming s bits a) (hgo : ∀ step, replaySuspended (s.resumes a step) = testHead t)
    (hq : t.seq.queue = []) (ht : t.atRest) : exec (.addressReport bits true) s = .next t := by
  obtain ⟨n, step, hexec⟩ := h.exec_eq
  rw [hexec, hgo, drain_testHead _ (headDue_of_empty hq), drain_of_quiet _ ht.1, loaderTest_of_atRest ht]

/-- The state and the timers of the recovery go. -/
theorem enter_resumes {st : SeqState} (hst : st.reading = false) (hr : st ≠ .recovering) (k : Seek) (step : SeqStep) :
    (s.resumes a step).seq.enter st k = { s.seq with
      state := st, step := .none, addrTimer := none, loopWait := none, recTimer := 0, cause := .none, attempts := 0 } := by
  rw [Sequencer.enter, if_neg hr, if_neg hr, hst]
  rfl

theorem enter_reading {st : SeqState} (hst : st.reading = true) (step : SeqStep) :
    (s.resumes a step).seq.enter st (s.resumes a step).seek = { s.seq with
      state := st, step := .none, addrTimer := none, loopWait := none, recTimer := 0, cause := .none, attempts := 0, resume := some a } := by
  have hr : st ≠ .recovering := by rintro rfl; exact absurd hst (by decide)
  have hvalid : (s.resumes a step).seek.valid = true := answered_valid s.seek
  have ha : (s.resumes a step).seek.aCur = a := answered_aCur s.seek
  rw [Sequencer.enter, if_neg hr, if_neg hr, hst, hvalid, ha]
  rfl

theorem motion (hq : s.seq.queue = [e]) (he : e.inProgress = true) (step : SeqStep) : (s.resumes a step).motion = some e.motion :=
  motion_of_queue (s := s.resumes a step) hq he

/-- With no entry the part goes on in FOLLOWING. -/
theorem none_waits (h : Resuming s bits a) (hq : s.seq.queue = []) :
    exec (.addressReport bits true) s = .next (s.follows a s.seeksBack [s.resumption]) := by
  refine h.exec_of_testHead (fun step => ?_) rfl (by exact h.settled.1)
  have hnone : (s.resumes a step).motion = none := by
    have hcurrent : (s.resumes a step).current = none := by
      show (match s.seq.queue with | e :: _ => if e.inProgress then some e else none | [] => none) = none
      rw [hq]
    rw [State.motion, hcurrent]
  have hstate : (s.resumes a step).seq.state = .recovering := h.recovering
  rw [replaySuspended, hnone]
  dsimp only
  rw [setSeqState_eq (by decide) (by decide),
    entered_following_of_other (by rw [hstate]; rfl) (by rw [hstate]; decide), enter_reading rfl,
    show (s.resumes a step).seek = s.seek.answered a s.seeksBack from rfl, answered_unwatched, State.follows, ← hq]
  rfl

/-- A PAUSE goes on in PAUSED. -/
theorem pauses (h : Resuming s bits a) (hq : s.seq.queue = [e]) (he : e.inProgress = true) (hm : e.motion = .pause) :
    exec (.addressReport bits true) s = .next { s.follows a s.seeksBack [s.resumption] with
      seq := { (s.follows a s.seeksBack [s.resumption]).seq with state := .paused, queue := [e] }, sup := { s.sup with idleTimer := some 0 } } := by
  refine h.exec_of_atRest (fun step => ?_) (by exact h.settled.1)
  have hstate : (s.resumes a step).seq.state = .recovering := h.recovering
  have hwaits : (s.resumes a step).waitsBehind = false := by
    show s.seq.queue.any (fun e => !e.inProgress) = false
    simp [hq, he]
  rw [replaySuspended, motion hq he, hm]
  dsimp only
  rw [pauseRun_of_last hwaits, State.entered, hstate, if_neg (by decide), if_pos (by rfl), enter_reading rfl,
    show (s.resumes a step).seek = s.seek.answered a s.seeksBack from rfl, answered_unwatched, ← hq]
  rfl

/-- Under crank hold a SEEK, JUMP or ENGAGE waits in SUSPENDED (R149). -/
theorem suspends (h : Resuming s bits a) (hq : s.seq.queue = [e]) (he : e.inProgress = true) (hcrank : s.sup.crankHold = true)
    (hp : e.motion ≠ .pause) (hd : e.motion ≠ .disengage) :
    exec (.addressReport bits true) s = .next (s.goesOn a .suspended e (s.seek.reported a) (s.intervalAt a)) := by
  have hback : s.seeksBack = false := by
    rcases h.back with hnone | ⟨hfree, -⟩
    · simp [State.seeksBack, hnone]
    · rw [hcrank] at hfree
      cases hfree
  refine h.exec_of_atRest (fun step => ?_) (by exact h.settled.1)
  have hstate : (s.resumes a step).seq.state = .recovering := h.recovering
  have hwait : replaySuspended (s.resumes a step) = setSeqState .suspended (s.resumes a step) := by
    rw [replaySuspended, motion hq he]
    cases hm : e.motion with
    | engage => exact if_pos hcrank
    | seek t => exact if_pos hcrank
    | jump n => exact if_pos hcrank
    | pause => exact absurd hm hp
    | disengage => exact absurd hm hd
  rw [hwait, setSeqState_quiet rfl (by decide) (by decide) (by rw [hstate]; decide), enter_resumes rfl (by decide), State.resumes, hback,
    State.goesOn, ← hq]
  rfl

/-! ## SEEK and JUMP replayed -/

theorem seeks (hq : s.seq.queue = [e]) (he : e.inProgress = true) (hcrank : s.sup.crankHold = false)
    (hb : e.motion.argument = some b) (step : SeqStep) : replaySuspended (s.resumes a step)
      = seekCheck b a (((s.resumes a step).seeking b).setSeek { (s.seek.reported a).dropTask with task := some (.seek b) }) := by
  have hmotion : e.motion = .seek b := by cases hm : e.motion <;> rw [hm] at hb <;> cases hb; rfl
  have hstart : replaySuspended (s.resumes a step) = startSeek b ((s.resumes a step).seeking b) := by
    rw [replaySuspended, motion hq he, hmotion]
    dsimp only
    rw [if_neg (by show ¬s.sup.crankHold = true; rw [hcrank]; exact Bool.false_ne_true),
      setSeqState_seeking (s := s.resumes a step) hq he hb]
  have hseek : ((s.resumes a step).seeking b).seek = s.seek.answered a s.seeksBack := rfl
  rw [hstart, startSeek_of_valid b (by rw [hseek, answered_valid]), hseek, answered_aCur, answered_fresh]

theorem seek_jumps (h : Resuming s bits a) (hq : s.seq.queue = [e]) (he : e.inProgress = true) (hcrank : s.sup.crankHold = false)
    (hb : e.motion.argument = some b) (hd : s.away b a ≠ 0) (hn : (s.away b a).natAbs ≤ s.active[26])
    (hp : s.sup.innerLimit.level = false ∨ 0 < s.away b a) (ht : s.trackHeld = true) (hx : s.fe.crossingNow = false) :
    exec (.addressReport bits true) s = .next (s.jumpsOn a .seeking e (.seek b) (s.away b a) (s.intervalAt b)) := by
  refine h.exec_of_atRest (fun step => ?_) (by exact h.settled.1)
  let x : State := ((s.resumes a step).seeking b).setSeek { (s.seek.reported a).dropTask with task := some (.seek b) }
  have hzones : (s.resumes a step).seek.zones = s.seek.zones := answered_zones s.seek
  have hleg : seekCheck b a x = x.jumpLeg (s.away b a) :=
    (seekCheck_near (s := x) hd hn).trans ((seekLeg_of_first rfl).trans
      (orderTested_jump (s := x) hd (hp.imp id not_lt_of_gt) ht hx))
  rw [seeks hq he hcrank hb, hleg]
  show ((((s.resumes a step).seeking b).setSeek _).jumpLeg _) = _
  rw [State.seeking, hzones, enter_resumes rfl (by decide), State.jumpsOn, State.goesOn, ← hq]
  rfl

theorem seek_there (h : Resuming s bits a) (hq : s.seq.queue = [e]) (he : e.inProgress = true) (hcrank : s.sup.crankHold = false)
    (hb : e.motion.argument = some b) (hthere : s.seek.track b = s.seek.track a ∧ a ≤ b) :
    exec (.addressReport bits true) s = .next (s.follows a true (s.resumption :: endNotices 0 [e])) := by
  obtain ⟨n, step, hexec⟩ := h.exec_eq
  let x : State := ((s.resumes a step).seeking b).setSeek { (s.seek.reported a).dropTask with task := some (.seek b) }
  have hends : drain (n + 3) (seekCheck b a x) = x.followed (endNotices 0 [e]) := by
    rw [seekCheck_there (s := x) (away_eq_zero_iff.mpr hthere.1) hthere.2]
    exact drain_endTask_following (n + 1) .done (by exact h.settled.1.1) (by exact hq) he SeqState.noConfusion
      (seqOutcome_ends (by decide) (.inl rfl))
  rw [hexec, seeks hq he hcrank hb, hends, loaderTest_of_atRest (by exact h.settled.1)]
  rfl

theorem jumps (h : Resuming s bits a) (hq : s.seq.queue = [e]) (he : e.inProgress = true) (hcrank : s.sup.crankHold = false) {n : Int}
    (hn : e.motion.tracks = some n) (hn0 : n ≠ 0) (hnear : n.natAbs ≤ s.active[26]) (hp : s.sup.innerLimit.level = false ∨ 0 < n)
    (ht : s.trackHeld = true) (hx : s.fe.crossingNow = false) :
    exec (.addressReport bits true) s = .next (s.jumpsOn a .jumping e (.jump n) n (s.intervalAt a)) := by
  refine h.exec_of_atRest (fun step => ?_) (by exact h.settled.1)
  have hmotion : e.motion = .jump n := by cases hm : e.motion <;> rw [hm] at hn <;> cases hn; rfl
  have hstate : (s.resumes a step).seq.state = .recovering := h.recovering
  have hreplay : replaySuspended (s.resumes a step) = replayJump n (s.resumes a step) := by
    rw [replaySuspended, motion hq he, hmotion]
    exact if_neg (by show ¬s.sup.crankHold = true; rw [hcrank]; exact Bool.false_ne_true)
  rw [hreplay, replayJump_near (s := s.resumes a step) (by rw [hstate]; decide) hn0 hnear (hp.imp id not_lt_of_gt) ht hx,
    State.rejumped, enter_resumes rfl (by decide),
    show (s.resumes a step).seek = s.seek.answered a s.seeksBack from rfl, answered_fresh,
    State.jumpsOn, State.goesOn, ← hq]
  rfl

/-! ## An ENGAGE begun anew, with every step passed (R139, R153) -/

theorem startOrder_of_locked {u : State} (hk : u.spindle.state = .locked) (hst : u.seq.state ≠ .seeking) :
    startOrder u = u.setSpindle { u.spindle with run := true, target := u.ownTarget } := by
  have hstays : startOrder u = evalTarget (u.setSpindle { u.spindle with run := true }) := by
    have hlocked : (evalTarget (u.setSpindle { u.spindle with run := true })).spindle.state = .locked := hk
    unfold startOrder
    dsimp only
    rw [hlocked]
  rw [hstays, evalTarget_eq (by exact hst)]
  rfl

theorem engageRun_of_locked {u : State} (hk : u.spindle.state = .locked) (hst : u.seq.state ≠ .seeking) :
    engageRun u = engageFocus u.reengaged := by
  rw [engageRun, setSeqState_quiet rfl (by decide) (by decide) hst]
  dsimp only
  rw [startOrder_of_locked (by exact hk) (by exact SeqState.noConfusion)]
  rfl

theorem engageFocus_of_passed {u : State} (hq : u.seq.queue = [e]) (he : e.inProgress = true) (hst : u.seq.state = .engaging)
    (hf : u.focusHeld = true) (ht : u.trackHeld = true) (hk : u.spindle.state = .locked) (hv : u.seek.valid = true)
    (hfrom : u.seq.fromStandby = false) : engageFocus u = testHead (u.closed (endNotices 0 [e])) := by
  let y : State := u.setSeq { u.seq with step := .engageReady, addrTimer := none }
  have hready : engageFocus u = engageReturn y := by
    rw [engageFocus, if_pos hf, engageTrack, if_pos (by exact ht)]
    exact engageReady_of_passed (by exact hv) (by exact ht) (by exact hk)
  have hends : engageReturn y = endFollowing .done y := by
    rw [engageReturn, show y.seq.fromStandby = false from hfrom]
  rw [hready, hends]
  exact endFollowing_of_last (s := y) .done hq he (by show u.seq.state.reading = false; rw [hst]; rfl)
    (by show u.seq.state ≠ _; rw [hst]; decide)

theorem engages (h : Resuming s bits a) (hq : s.seq.queue = [e]) (he : e.inProgress = true) (hcrank : s.sup.crankHold = false)
    (hm : e.motion = .engage) (hfrom : s.seq.fromStandby = false) (hf : s.focusHeld = true) (ht : s.trackHeld = true)
    (hk : s.spindle.state = .locked) : exec (.addressReport bits true) s = .next (s.reads a e) := by
  have hturns : s.spindle.state ≠ .stopped := by rw [hk]; decide
  refine h.exec_of_testHead (fun step => ?_) rfl (atRest_of_not_stopped hturns hturns h.settled.1 h.settled.1.1 rfl)
  have hstate : (s.resumes a step).seq.state = .recovering := h.recovering
  have hreplay : replaySuspended (s.resumes a step) = engageRun (s.resumes a step) := by
    rw [replaySuspended, motion hq he, hm]
    exact if_neg (by show ¬s.sup.crankHold = true; rw [hcrank]; exact Bool.false_ne_true)
  have hvalid : (s.resumes a step).seek.valid = true := answered_valid s.seek
  have haddress : (s.resumes a step).reengaged.seek.aCur = a := answered_aCur s.seek
  have hwatch : { (s.resumes a step).reengaged.seek with watch := 0 } = s.seek.answered a s.seeksBack := answered_unwatched s.seek
  have hspindle : (s.resumes a step).reengaged.spindle = { s.spindle with run := true, target := s.intervalAt a } := by
    rw [State.reengaged, ownTarget_resumes]
    rfl
  rw [hreplay, engageRun_of_locked (by exact hk) (by rw [hstate]; decide),
    engageFocus_of_passed (u := (s.resumes a step).reengaged) hq he rfl hf ht hk hvalid hfrom]
  refine congrArg testHead ?_
  rw [State.closed, hwatch, haddress, show (s.resumes a step).reengaged.seek.valid = true from hvalid]
  show ({ (s.resumes a step).reengaged with
    seek := _, seq := _, sup := _, link := _, spindle := (s.resumes a step).reengaged.spindle } : State) = _
  rw [hspindle]
  rfl

end Resuming
end

/-- Settles O36. -/
theorem addressReports : Obligations.AddressReports := by
  unfold Obligations.AddressReports
  intro s bits hs hf all a zones taken interval follows there away jumping
  have htake : s.seek.frame.take bits = .taking all := frame_take s bits hf
  refine ⟨fun hbad => ?_, exec_bits hs htake, fun hlen hhead ha => ?_⟩
  · rw [exec_frame hs htake, reportAddress_of_invalid hbad]
    exact congrArg Host.Outcome.next (settle_of_atRest (by exact hs.1))
  have h : Framed s bits a := ⟨hs, by rw [exec_frame hs htake, reportAddress_of_valid hlen hhead ha]; rfl⟩
  refine ⟨fun hst hl => h.follows hst hl, fun e b hq he hb hst htask hl => ?_,
    fun e hq he n hn b htask hst hl hthere hn0 hnear hp ht hx =>
      h.jump_replays hq he hn htask hst hl hthere hn0 hnear hp (trackHeld_iff.mpr ht) hx,
    fun hst hstep hl hback => ?_, fun e hq he hst hstep hl ht => ?_⟩
  · have w : Framed.Waiting s e b := ⟨hq, he, hb, hst, htask, hl⟩
    exact ⟨h.seek_there w, h.seek_missed w, fun hm => ⟨h.seek_limit w hm,
      fun hd hn hp ht hx => h.seek_jumps w hm hd hn hp (trackHeld_iff.mpr ht) hx⟩⟩
  · have r : Resuming s bits a := ⟨h, hst, hstep, hl, hback⟩
    refine ⟨r.none_waits, fun e hq he => ⟨r.pauses hq he, r.suspends hq he, fun hcrank ht hx => ?_⟩⟩
    have hheld := trackHeld_iff.mpr ht
    exact ⟨fun b hb => ⟨r.seek_there hq he hcrank hb, fun hd hn hp => r.seek_jumps hq he hcrank hb hd hn hp hheld hx⟩,
      fun n hn hn0 hnear hp => r.jumps hq he hcrank hn hn0 hnear hp hheld hx,
      fun hm hfrom hfocus hk => r.engages hq he hcrank hm hfrom (focusHeld_iff.mpr hfocus) hheld hk⟩
  · have r : Framed.Readying s e := ⟨hq, he, hst, hstep, hl, trackHeld_iff.mpr ht⟩
    refine ⟨fun hk hback => ?_, h.engage_waits r⟩
    by_cases hreturns : s.seq.fromStandby = true ∧ s.seq.resume ≠ none
    · obtain ⟨hfrom, hres⟩ := hreturns
      obtain ⟨b, hb, hthere⟩ : ∃ b, s.seq.resume = some b ∧ there b := by
        rcases hback with h' | h' | h'
        · rw [hfrom] at h'
          cases h'
        · exact absurd h' hres
        · exact h'
      rw [decide_eq_true (p := s.seq.fromStandby = true ∧ s.seq.resume ≠ none) ⟨hfrom, hres⟩]
      exact h.engage_returns r hk hfrom hb hthere
    · have hstay : s.seq.fromStandby = false ∨ s.seq.resume = none := by
        cases hfrom : s.seq.fromStandby with
        | false => exact .inl rfl
        | true => exact .inr (not_not.mp fun hres => hreturns ⟨hfrom, hres⟩)
      rw [decide_eq_false hreturns]
      exact h.engage_ends r hk hstay

end Sys2Proof.Machine
end


-- ==== Sys2Proof/Proofs/Consequences.lean ====
section
/-! SUPPORT. What the consequences of a command leave alone: whatever is handed on inside a step reaches the loops, the sequencer, the
tasks and the notices, but no line, no reading of the Front End and no group record. -/

namespace Sys2Proof.Machine

/-- What a sample forms and the offsets it forms it with. -/
def FrontEnd.readings (x : FrontEnd) : Int × Int × Int × Int × Nat := (x.feOff, x.teOff, x.eF, x.eT, x.sumN)

/-- A property that the writes of a command's consequences keep, a launch, which changes the base group, and a release, which changes what
the blocks hold of the disc, apart. -/
structure Steady (P : State → Prop) : Prop where
  fe : ∀ {s : State} {x : FrontEnd}, P s → x.readings = s.fe.readings → (s.fe.crossingNow = false → x.crossingNow = false) →
    P (s.setFe x)
  focus : ∀ {s x}, P s → P (s.setFocus x)
  track : ∀ {s x}, P s → P (s.setTrack x)
  det : ∀ {s x}, P s → P (s.setDet x)
  defects : ∀ {s x}, P s → P (s.setDefects x)
  spindle : ∀ {s x}, P s → P (s.setSpindle x)
  sled : ∀ {s x}, P s → P (s.setSled x)
  seek : ∀ {s x}, P s → P (s.setSeek x)
  seq : ∀ {s x}, P s → P (s.setSeq x)
  link : ∀ {s x}, P s → P (s.setLink x)
  freeCount : ∀ {s x}, P s → P (s.setFreeCount x)
  groups : ∀ {s : State} {g : Groups}, P s → g.recs = s.groups.recs → g.base = s.groups.base → P (s.setGroups g)
  sup : ∀ {s : State} {x : Supervisor}, P s → x.line = s.sup.line → P (s.setSup x)
  drive : ∀ {s : State} {d : Int}, P s → P (s.setLoader { s.loader with drive := d })
  signals : ∀ {s : State} {xs : List Signal}, P s → (∀ x ∈ xs, x = .launchDue → x ∈ s.signals) → P (s.setSignals xs)

/-- One that a launch and a release keep too: the whole end of a step keeps it. -/
structure Settling (P : State → Prop) : Prop extends Steady P where
  launch : ∀ {s : State} {rest : List Signal}, P s → s.signals = .launchDue :: rest → P (takePending (s.setSignals rest))
  release : ∀ {s : State}, P s → P (ejectRelease s)

namespace Steady

section
variable {P : State → Prop} {s : State}

/-! ## Signals, notices and ends of entries -/

theorem emit (hP : Steady P) (h : P s) {x : Signal} (hx : x ≠ .launchDue) : P (emit x s) :=
  hP.signals h fun y hy hl => by
    rcases List.mem_append.mp hy with hy | hy
    · exact hy
    · exact absurd ((List.mem_singleton.mp hy).symm.trans hl) hx

theorem emitNow (hP : Steady P) (h : P s) {x : Signal} (hx : x ≠ .launchDue) : P (emitNow x s) :=
  hP.signals h fun y hy hl => by
    rcases List.mem_cons.mp hy with hy | hy
    · exact absurd (hy.symm.trans hl) hx
    · exact hy

theorem post (hP : Steady P) (h : P s) (k : NoticeKind) (payload : List Byte) : P (post k payload s) := hP.link h

theorem takeOrder (hP : Steady P) (h : P s) : P (takeOrder s).2 := hP.freeCount h

theorem postRecovery (hP : Steady P) (h : P s) (c : Cause) (r : RecoveryResult) (n : Nat) : P (postRecovery c r n s) := hP.post h _ _

theorem postAbandoned (hP : Steady P) (es : List Entry) (h : P s) : P (postAbandoned es s) := by
  induction es generalizing s with
  | nil => exact h
  | cons e es ih => exact ih (hP.post h _ _)

theorem flush (hP : Steady P) (h : P s) : P (flush s) := hP.postAbandoned _ (hP.seq h)

theorem endEntry (hP : Steady P) (h : P s) (o : EndOutcome) : P (endEntry o s) := by
  unfold Machine.endEntry
  split
  · split
    · exact hP.post (hP.seq h) _ _
    · exact h
  · exact h

theorem testHead (hP : Steady P) (h : P s) : P (testHead s) := hP.emitNow h Signal.noConfusion

theorem evalTarget (hP : Steady P) (h : P s) : P (evalTarget s) := hP.spindle h

theorem setPower (hP : Steady P) (h : P s) (m : Power) : P (setPower m s) := by
  unfold Machine.setPower
  split
  · exact h
  · exact hP.post (hP.sup h (by rfl)) _ _

theorem setSeqState (hP : Steady P) (h : P s) (st : SeqState) : P (setSeqState st s) := by
  have hseek (u : State) (c : Bool) (hu : P u) : P (if c then u.setSeek { u.seek with watch := 0 } else u) := by
    split
    · exact hP.seek hu
    · exact hu
  have htarget (u : State) (c : Bool) (hu : P u) : P (if c then Machine.evalTarget u else u) := by
    split
    · exact hP.evalTarget hu
    · exact hu
  unfold Machine.setSeqState
  dsimp only
  split
  · exact hP.setPower (htarget _ _ (hP.sup (hseek _ _ (hP.seq h)) (by rfl))) _
  · exact htarget _ _ (hP.sup (hseek _ _ (hP.seq h)) (by rfl))

theorem endFollowing (hP : Steady P) (h : P s) (o : EndOutcome) : P (endFollowing o s) :=
  hP.testHead (hP.setSeqState (hP.endEntry h o) _)

/-! ## The loops and their incidents (R39 to R56) -/

theorem openTrack (hP : Steady P) (h : P s) : P (openTrack s) := hP.sled (hP.track h)

theorem openFocus (hP : Steady P) (h : P s) : P (openFocus s) := hP.openTrack (hP.defects (hP.det (hP.focus h)))

theorem searchOrder (hP : Steady P) (h : P s) : P (searchOrder s) := by
  unfold Machine.searchOrder
  split
  · exact hP.focus h
  · exact h

theorem leaveMove (hP : Steady P) (h : P s) : P (leaveMove s) := by
  unfold Machine.leaveMove
  split
  · exact hP.sled h
  · exact h

theorem pullInOrder (hP : Steady P) (h : P s) : P (pullInOrder s) := by
  unfold Machine.pullInOrder
  split
  · exact hP.track (hP.leaveMove h)
  · exact hP.emitNow (hP.openTrack h) Signal.noConfusion

theorem restartCrossings (hP : Steady P) (h : P s) : P (restartCrossings s) := by
  unfold Machine.restartCrossings
  split
  · exact hP.fe (hP.takeOrder h) (by rfl) (by exact fun _ => rfl)
  · exact hP.fe h (by rfl) (by exact id)

theorem jumpOrder (hP : Steady P) (h : P s) (n : Int) (byPause : Bool) : P (jumpOrder n byPause s).2 := by
  unfold Machine.jumpOrder
  split
  · split
    · exact hP.track h
    · exact hP.restartCrossings (hP.track h)
  · exact h

theorem moveOrder (hP : Steady P) (h : P s) (out : Bool) (count : Nat) : P (moveOrder out count s).2 := by
  unfold Machine.moveOrder
  split
  · exact hP.restartCrossings (hP.sled (hP.track h))
  · exact h

theorem stopOrder (hP : Steady P) (h : P s) : P (stopOrder s) := by
  unfold Machine.stopOrder
  split
  · exact hP.track (hP.sled h)
  · exact hP.track h
  · exact hP.track h
  · exact hP.track h
  · exact h

theorem raiseOffTrack (hP : Steady P) (h : P s) : P (raiseOffTrack s) := by
  unfold Machine.raiseOffTrack
  split
  · exact hP.emit (hP.track h) Signal.noConfusion
  · exact h

theorem raiseFocusLost (hP : Steady P) (h : P s) : P (raiseFocusLost s) := by
  unfold Machine.raiseFocusLost
  split
  · exact hP.emit (hP.sled (hP.openFocus h)) Signal.noConfusion
  · exact h

theorem loseFocus (hP : Steady P) (h : P s) : P (loseFocus s) := by
  unfold Machine.loseFocus
  split
  · exact hP.emit h Signal.noConfusion
  · exact hP.raiseFocusLost h

theorem raiseDue (hP : Steady P) (h : P s) : P (raiseDue s) := by
  unfold Machine.raiseDue
  split
  · dsimp only
    split
    · exact hP.loseFocus (hP.raiseOffTrack (hP.takeOrder h))
    · exact hP.raiseFocusLost (hP.takeOrder h)
  · split
    · exact hP.raiseOffTrack h
    · split
      · exact hP.loseFocus h
      · exact h

/-! ## The Group Store (R81, R87, R91, R93) -/

theorem regroup (hP : Steady P) {g : Groups} (h : P (s.setGroups g)) : P (regroup g s) := by
  unfold Machine.regroup
  dsimp only
  split
  · exact h
  · exact hP.raiseDue (hP.fe h (by rfl) (by exact id))

theorem endShock (hP : Steady P) (h : P s) : P (endShock s) := by
  unfold Machine.endShock
  split
  · exact hP.post (hP.regroup (hP.groups h (by rfl) (by rfl))) _ _
  · exact h

theorem shockTrigger (hP : Steady P) (h : P s) : P (shockTrigger s) := by
  unfold Machine.shockTrigger
  split
  · split
    · exact hP.groups h (by rfl) (by rfl)
    · exact hP.post (hP.regroup (hP.groups h (by rfl) (by rfl))) _ _
  · exact h

theorem disturb (hP : Steady P) (h : P s) : P (disturb s) := by
  unfold Machine.disturb
  split
  · exact hP.groups h (by rfl) (by rfl)
  · exact h

/-! ## The Spindle Controller's orders (R95, R96, R105) -/

theorem setSpindleState (hP : Steady P) (h : P s) (x : Spindle) : P (setSpindleState x s) := by
  have hpost (u : State) (c : Bool) (hu : P u) : P (if c then Machine.post .spindle [byte x.state.code] u else u) := by
    split
    · exact hP.post hu _ _
    · exact hu
  unfold Machine.setSpindleState
  dsimp only
  split
  · exact hpost _ _ (hP.spindle h)
  · exact hP.emit (hpost _ _ (hP.spindle h)) Signal.noConfusion

theorem startOrder (hP : Steady P) (h : P s) : P (startOrder s) := by
  have ht : P (Machine.evalTarget (s.setSpindle { s.spindle with run := true })) := hP.evalTarget (hP.spindle h)
  unfold Machine.startOrder
  dsimp only
  split
  · split
    · exact hP.setSpindleState ht _
    · exact hP.setSpindleState ht _
  · split
    · exact ht
    · exact hP.setSpindleState ht _
  all_goals exact ht

theorem brakeOrder (hP : Steady P) (h : P s) : P (brakeOrder s) := by
  have hr : P (s.setSpindle { s.spindle with run := false }) := hP.spindle h
  unfold Machine.brakeOrder
  dsimp only
  split
  · exact hP.setSpindleState hr _
  · exact hP.setSpindleState hr _
  · exact hP.setSpindleState hr _
  all_goals exact hr

/-! ## Disengaging (R136, R143) -/

theorem cancelTask (hP : Steady P) (h : P s) : P (cancelTask s) :=
  hP.signals (hP.seek h) fun _ hx _ => (List.mem_filter.mp hx).1

theorem disengageSteps (hP : Steady P) (h : P s) : P (disengageSteps s) :=
  hP.seek (hP.endShock (hP.brakeOrder (hP.seq (hP.openFocus (hP.cancelTask h)))))

theorem arrive (hP : Steady P) (h : P s) : P (arrive s) := hP.testHead (hP.endEntry (hP.seq (hP.setSeqState h _)) _)

theorem disengage (hP : Steady P) (h : P s) (standby : Bool) : P (disengage standby s) := by
  have hd : P ((Machine.disengageSteps s).setSeq { (Machine.disengageSteps s).seq with toStandby := standby }) :=
    hP.seq (hP.disengageSteps h)
  unfold Machine.disengage
  dsimp only
  split
  · exact hP.arrive hd
  · exact hP.setSeqState hd _

theorem failureEnd (hP : Steady P) (h : P s) (o : EndOutcome) : P (failureEnd o s) := hP.disengage (hP.flush (hP.endEntry h o)) _

/-! ## The Seek Engine (R121 to R130) -/

theorem endTask (hP : Steady P) (h : P s) (o : EndOutcome) : P (endTask o s) := hP.emitNow (hP.seek h) Signal.noConfusion

theorem orderLeg (hP : Steady P) (h : P s) : P (orderLeg s) := by
  unfold Machine.orderLeg
  split
  · exact hP.seek (hP.jumpOrder h _ _)
  · exact hP.seek (hP.moveOrder h _ _)
  · exact h
  · exact h

theorem orderTested (hP : Steady P) (h : P s) (leg : Leg) : P (orderTested leg s) := by
  unfold Machine.orderTested
  split
  · exact hP.endTask h _
  · exact hP.orderLeg (hP.seek h)

theorem seekLeg (hP : Steady P) (h : P s) (leg : Leg) : P (seekLeg leg s) := by
  unfold Machine.seekLeg countCorrection
  split
  · split
    · exact hP.endTask h _
    · exact hP.orderTested (hP.seek h) _
  · exact hP.orderTested h _

theorem seekCheck (hP : Steady P) (h : P s) (target a : Nat) : P (seekCheck target a s) := by
  unfold Machine.seekCheck
  dsimp only
  split
  · exact hP.endTask h _
  · exact hP.seekLeg h _

theorem startSeek (hP : Steady P) (h : P s) (target : Nat) : P (startSeek target s) := by
  unfold Machine.startSeek
  dsimp only
  split
  · exact hP.seekCheck (hP.seek h) _ _
  · exact hP.seek (hP.seek h)

theorem payRemainder (hP : Steady P) (h : P s) : P (payRemainder s) := by
  unfold Machine.payRemainder
  split
  · exact hP.endTask h _
  · exact hP.orderTested h _

theorem startJump (hP : Steady P) (h : P s) (n : Int) : P (startJump n s) := by
  unfold Machine.startJump
  dsimp only
  split
  · exact hP.endTask (hP.seek h) _
  · split
    · exact hP.orderTested (hP.seek h) _
    · exact hP.orderTested (hP.seek (hP.seek h)) _

theorem seekJumpDone (hP : Steady P) (h : P s) : P (seekJumpDone s) := by
  unfold Machine.seekJumpDone
  split
  · exact h
  · split
    · exact hP.endTask h _
    · split
      · exact hP.seek h
      · exact hP.payRemainder (hP.seek h)
      · exact h

theorem seekMoveDone (hP : Steady P) (h : P s) : P (seekMoveDone s) := by
  unfold Machine.seekMoveDone
  split
  · exact hP.seek h
  all_goals exact h

theorem seekTrackLocked (hP : Steady P) (h : P s) : P (seekTrackLocked s) := by
  unfold Machine.seekTrackLocked
  split
  · exact hP.seek h
  · exact hP.payRemainder h
  · exact h

theorem seekReorder (hP : Steady P) (h : P s) : P (seekReorder s) := by
  unfold Machine.seekReorder
  split
  · exact hP.orderLeg h
  · exact h

theorem seekTrackFail (hP : Steady P) (h : P s) : P (seekTrackFail s) := by
  unfold Machine.seekTrackFail
  split
  · exact hP.endTask h _
  · exact h

/-! ## ENGAGE (R139, R140) -/

theorem engageReturn (hP : Steady P) (h : P s) : P (engageReturn s) := by
  unfold Machine.engageReturn
  split
  · exact hP.startSeek (hP.seq h) _
  · exact hP.endFollowing h _
  · exact hP.endFollowing h _

theorem engageReady (hP : Steady P) (h : P s) : P (engageReady s) := by
  unfold Machine.engageReady
  by_cases hv : s.seek.valid = true
  · simp only [if_pos hv]
    split
    · exact hP.engageReturn (hP.seq h)
    · exact hP.seq h
  · simp only [if_neg hv]
    split
    · exact hP.engageReturn h
    · exact h

theorem engageTrack (hP : Steady P) (h : P s) : P (engageTrack s) := by
  unfold Machine.engageTrack
  split
  · exact hP.engageReady (hP.seq h)
  · split
    · exact hP.pullInOrder h
    · exact h

theorem engageFocus (hP : Steady P) (h : P s) : P (engageFocus s) := by
  unfold Machine.engageFocus
  split
  · exact hP.engageTrack (hP.seq h)
  · split
    · exact hP.searchOrder h
    · exact h

theorem engageAdvance (hP : Steady P) (h : P s) : P (engageAdvance s) := by
  unfold Machine.engageAdvance
  split
  · split
    · exact hP.engageFocus h
    · exact hP.engageTrack h
    · exact hP.engageReady h
    all_goals exact h
  · exact h

theorem engageRun (hP : Steady P) (h : P s) : P (engageRun s) :=
  hP.engageAdvance (hP.seq (hP.startOrder (hP.seq (hP.fe (hP.setSeqState h _) (by rfl) (by exact id)))))

theorem engageFirst (hP : Steady P) (h : P s) : P (engageFirst s) := by
  unfold Machine.engageFirst
  split
  · exact hP.engageRun (hP.setPower (hP.seq h) _)
  · exact hP.engageRun (hP.seq h)

/-! ## Starting entries (R136) -/

theorem markHead (hP : Steady P) (h : P s) : P (markHead s) := by
  unfold Machine.markHead
  split
  · exact hP.seq h
  · exact h

theorem endsAtOnce (hP : Steady P) (h : P s) (o : EndOutcome) : P (endsAtOnce o s) := hP.testHead (hP.endEntry (hP.markHead h) _)

theorem pauseRun (hP : Steady P) (h : P s) : P (pauseRun s) := by
  unfold Machine.pauseRun
  split
  · exact hP.endFollowing h _
  · exact hP.setSeqState h _

theorem startDisengaged (hP : Steady P) (h : P s) (m : Motion) : P (startDisengaged m s) := by
  unfold Machine.startDisengaged
  split
  · split
    · exact hP.engageFirst (hP.markHead h)
    · exact hP.endsAtOnce h _
  all_goals exact hP.endsAtOnce h _

theorem startFollowing (hP : Steady P) (h : P s) (m : Motion) : P (startFollowing m s) := by
  have hm := hP.markHead h
  unfold Machine.startFollowing
  split
  · exact hP.endsAtOnce h _
  · exact hP.startSeek (hP.setSeqState hm _) _
  · exact hP.startJump (hP.setSeqState hm _) _
  · exact hP.pauseRun hm
  · exact hP.disengage hm _

theorem startHead (hP : Steady P) (h : P s) : P (startHead s) := by
  unfold Machine.startHead
  split
  · split
    · exact hP.startFollowing h _
    · exact hP.startDisengaged h _
  · exact h

/-! ## Recovery (R150 to R153) -/

theorem recoverPullIn (hP : Steady P) (h : P s) : P (recoverPullIn s) := hP.pullInOrder (hP.seq h)

theorem recoverLoops (hP : Steady P) (h : P s) : P (recoverLoops s) := by
  unfold Machine.recoverLoops
  split
  · exact hP.seq h
  · split
    · exact hP.recoverPullIn h
    · exact hP.seq h

theorem recoverFocus (hP : Steady P) (h : P s) : P (recoverFocus s) := by
  unfold Machine.recoverFocus
  dsimp only
  split
  · exact hP.recoverPullIn (hP.openTrack h)
  · exact hP.searchOrder (hP.seq (hP.openTrack h))

theorem attemptBegin (hP : Steady P) (h : P s) : P (attemptBegin s) := by
  unfold Machine.attemptBegin
  dsimp only
  split
  · exact hP.recoverFocus (hP.seq h)
  all_goals exact hP.recoverLoops (hP.seq h)

theorem attemptFail (hP : Steady P) (h : P s) : P (attemptFail s) := by
  have hs := hP.stopOrder (hP.cancelTask h)
  unfold Machine.attemptFail
  dsimp only
  split
  · exact hP.attemptBegin hs
  · exact hP.failureEnd (hP.postRecovery hs _ _ _) _

theorem replayJump (hP : Steady P) (h : P s) (n : Int) : P (replayJump n s) := hP.startJump (hP.setSeqState h _) n

theorem attemptSuccess (hP : Steady P) (h : P s) : P (attemptSuccess s) := by
  have hr := hP.postRecovery h s.seq.cause .resumed s.seq.attempts
  unfold Machine.attemptSuccess
  dsimp only
  split
  · split
    · exact hP.setSeqState hr _
    · exact hP.engageRun hr
  · split
    · exact hP.setSeqState hr _
    · exact hP.startSeek (hP.setSeqState hr _) _
  · split
    · exact hP.setSeqState hr _
    · exact hP.replayJump hr _
  · exact hP.pauseRun hr
  · exact hP.testHead (hP.setSeqState hr _)
  · exact hP.testHead (hP.setSeqState hr _)

theorem recoverReturn (hP : Steady P) (h : P s) : P (recoverReturn s) := by
  unfold Machine.recoverReturn
  split
  · exact hP.attemptSuccess h
  · dsimp only
    split
    · exact hP.seq h
    · exact hP.startSeek (hP.seq h) _

theorem recoveryStart (hP : Steady P) (h : P s) (c : Cause) : P (recoveryStart c s) :=
  hP.attemptBegin (hP.seq (hP.setSeqState (hP.stopOrder (hP.cancelTask h)) _))

theorem incident (hP : Steady P) (h : P s) (c : Cause) : P (incident c s) := by
  unfold Machine.incident
  split
  · exact hP.attemptFail (hP.seq h)
  · exact hP.recoveryStart h c
  · exact hP.recoveryStart h c
  · exact hP.recoveryStart h c
  · exact hP.recoveryStart h c
  · exact hP.recoveryStart h c
  · exact hP.recoveryStart h c
  all_goals exact h

/-! ## Reports to the sequencer (R124, R139 to R154) -/

theorem seqFocusCaptured (hP : Steady P) (h : P s) : P (seqFocusCaptured s) := by
  unfold Machine.seqFocusCaptured
  split
  · exact hP.recoverPullIn h
  · exact hP.engageAdvance h

theorem seqFocusFail (hP : Steady P) (h : P s) : P (seqFocusFail s) := by
  unfold Machine.seqFocusFail
  split
  · exact hP.failureEnd h _
  · split
    · exact hP.attemptFail h
    · exact h

theorem seqLockEntered (hP : Steady P) (h : P s) : P (seqLockEntered s) := by
  unfold Machine.seqLockEntered
  split
  · split
    · exact hP.testHead (hP.setSeqState h _)
    · exact h
  · split
    · split
      · exact hP.seq h
      · exact h
    · exact hP.engageAdvance h

theorem seqTrackFail (hP : Steady P) (h : P s) (byPause : Bool) : P (seqTrackFail byPause s) := by
  unfold Machine.seqTrackFail
  split
  · exact hP.attemptFail h
  · split
    · exact hP.disengage (hP.flush h) _
    · split
      · exact hP.failureEnd h _
      · split
        · exact hP.seekTrackFail h
        · split
          · exact hP.failureEnd h _
          · exact h

theorem seqFocusLost (hP : Steady P) (h : P s) : P (seqFocusLost s) := by
  unfold Machine.seqFocusLost
  split
  · exact hP.disengage (hP.flush h) _
  · exact hP.incident h _

theorem endOrFail (hP : Steady P) (h : P s) (o : EndOutcome) :
    P (if o = .trackFail then Machine.failureEnd o s else Machine.endFollowing o s) := by
  split
  · exact hP.failureEnd h _
  · exact hP.endFollowing h _

theorem seqOutcome (hP : Steady P) (h : P s) (o : EndOutcome) : P (seqOutcome o s) := by
  unfold Machine.seqOutcome
  split
  · exact hP.endOrFail h o
  · exact hP.endOrFail h o
  · exact hP.endOrFail h o
  · split
    · exact hP.attemptSuccess h
    · exact hP.attemptFail h
  · split
    · split
      · exact hP.replayJump h _
      all_goals exact h
    · exact hP.endOrFail h o
  all_goals exact h

theorem seqSpinFail (hP : Steady P) (h : P s) : P (seqSpinFail s) := by
  unfold Machine.seqSpinFail
  dsimp only
  split
  · split
    · exact hP.failureEnd (hP.postRecovery h _ _ _) _
    · split
      · exact hP.failureEnd (hP.postRecovery h _ _ _) _
      · exact hP.failureEnd h _
  · exact h

theorem seqStopped (hP : Steady P) (h : P s) : P (seqStopped s) := by
  unfold Machine.seqStopped
  split
  · exact hP.arrive h
  · exact h

theorem takeOffTrack (hP : Steady P) (h : P s) : P (takeOffTrack s) := by
  unfold Machine.takeOffTrack
  dsimp only
  split
  · split
    · exact hP.incident (hP.shockTrigger (hP.takeOrder h)) _
    · exact hP.shockTrigger (hP.incident (hP.takeOrder h) _)
  · exact hP.shockTrigger (hP.incident h _)

/-- A launch keeps what every choice of groups with the same records keeps. -/
theorem takePending (hP : Steady P) (h : ∀ g : Groups, g.recs = s.groups.recs → P (s.setGroups g)) : P (takePending s) := by
  unfold Machine.takePending takePendingThen
  split
  · exact h s.groups rfl
  · next g _ =>
    exact hP.post (hP.regroup (s := s.setGroups { s.groups with pending := none })
      (g := { { s.groups with pending := none } with base := g }) (h _ (by rfl))) _ _

end

end Steady

namespace Settling

section
variable {P : State → Prop} {s : State}

/-! ## The end of a step (R40, R159) -/

/-- What a signal does keeps the property, a launch apart. -/
theorem handle (hP : Settling P) (h : P s) {x : Signal} (hx : x ≠ .launchDue) : P (handle x s) := by
  cases x with
  | focusCaptured => exact hP.seqFocusCaptured h
  | focusFail => exact hP.seqFocusFail h
  | trackLocked => exact hP.seekTrackLocked h
  | trackFail byPause => exact hP.seqTrackFail h byPause
  | jumpDone byPause =>
    cases byPause with
    | true => exact h
    | false => exact hP.seekJumpDone h
  | moveDone => exact hP.seekMoveDone h
  | lockEntered => exact hP.seqLockEntered (hP.seekReorder h)
  | offTrack => exact hP.takeOffTrack h
  | focusLost => exact hP.seqFocusLost (hP.disturb h)
  | focusLostDue => exact hP.raiseFocusLost h
  | addressLost => exact hP.incident h _
  | spinFail => exact hP.seqSpinFail h
  | spindleMoved => exact hP.engageAdvance h
  | spindleStopped => exact hP.seqStopped h
  | outcome o => exact hP.seqOutcome h o
  | testHead => exact hP.startHead h
  | launchDue => exact absurd rfl hx
  | loaderDue => exact hP.release h

theorem drain (hP : Settling P) (n : Nat) (h : P s) : P (drain n s) := by
  induction n generalizing s with
  | zero => exact hP.signals h fun _ hx => absurd hx List.not_mem_nil
  | succ n ih =>
    cases hs : s.signals with
    | nil =>
      rw [drain_of_quiet _ hs]
      exact h
    | cons x rest =>
      rw [drain_cons n hs]
      by_cases hx : x = .launchDue
      · subst hx
        exact ih (hP.launch h hs)
      · exact ih (hP.handle (hP.signals h fun y hy _ => hs ▸ List.mem_cons_of_mem x hy) hx)

theorem loaderTest (hP : Settling P) (h : P s) : P (loaderTest s) := hP.drive (hP.release h)

theorem settle (hP : Settling P) (h : P s) : P (settle s) := hP.loaderTest (hP.drain 64 h)

end

end Settling

end Sys2Proof.Machine
end


-- ==== Sys2Proof/Proofs/Debouncing.lean ====
section
/-! SUPPORT. The debounced lines (R157): what a change of one hands on touches no line. -/

namespace Sys2Proof.Machine

section
variable {s : State}

/-! ## Crank hold (R104, R149) -/

namespace Steady
variable {P : State → Prop}

theorem wakeTo (hP : Steady P) (h : P s) (m : Power) : P (wakeTo m s) := by
  unfold Machine.wakeTo
  split
  · exact hP.setPower (hP.sup h (by rfl)) m
  · exact h

theorem spindleHold (hP : Steady P) (h : P s) : P (spindleHold s) := by
  unfold Machine.spindleHold
  split
  · exact hP.setSpindleState h _
  · exact hP.setSpindleState h _
  · exact hP.setSpindleState h _
  · exact hP.setSpindleState h _
  all_goals exact h

theorem spindleRelease (hP : Steady P) (h : P s) : P (spindleRelease s) := by
  unfold Machine.spindleRelease
  split
  · exact h
  · split
    · split
      · exact hP.setSpindleState h _
      · exact hP.setSpindleState h _
    · exact h

theorem suspend (hP : Steady P) (h : P s) : P (suspend s) := by
  have hs := hP.setSeqState (hP.cancelTask h) .suspended
  unfold Machine.suspend
  dsimp only
  split
  · exact hP.stopOrder hs
  · exact hs

theorem crankStart (hP : Steady P) (h : P s) : P (crankStart s) := by
  have hstop : P (if s.seek.task.isSome then Machine.stopOrder (Machine.cancelTask s) else s) := by
    split
    · exact hP.stopOrder (hP.cancelTask h)
    · exact h
  have hsuspend : P (if s.current.isSome then Machine.suspend s else Machine.setSeqState .suspended s) := by
    split
    · exact hP.suspend h
    · exact hP.setSeqState h _
  unfold Machine.crankStart
  split
  · exact hP.suspend h
  · exact hsuspend
  · exact hsuspend
  · exact hstop
  · exact hstop
  all_goals exact h

theorem replay (hP : Steady P) (h : P s) : P (replay s) := by
  unfold Machine.replay
  split
  · exact hP.engageRun h
  · exact hP.startSeek (hP.setSeqState h _) _
  · split
    · exact hP.startSeek (hP.seq h) _
    · exact hP.replayJump h _
  all_goals exact h

theorem crankEnd (hP : Steady P) (h : P s) : P (crankEnd s) := by
  unfold Machine.crankEnd
  split
  · exact hP.replay (hP.startOrder h)
  · split
    · exact hP.recoverReturn h
    · exact hP.testHead h

theorem seekInnerLimit (hP : Steady P) (h : P s) : P (seekInnerLimit s) := by
  have hstop (running : Bool) :
      P (if running && s.seek.leg.inward && s.seek.task.isSome then Machine.stopOrder (s.setSeek { s.seek with limitStop := true }) else s) := by
    split
    · exact hP.stopOrder (hP.seek h)
    · exact h
  exact hstop _

end Steady

/-! ## The loader (R161 to R168) -/

/-- A property that the loader's moves keep too. -/
structure Loose (P : State → Prop) : Prop extends Steady P where
  loader : ∀ {s x}, P s → P (s.setLoader x)
  angle : ∀ {s x}, P s → P (s.setAngle x)
  rev : ∀ {s x}, P s → P (s.setRev x)

namespace Loose
variable {P : State → Prop}

theorem setLoaderState (hP : Loose P) (h : P s) (x : Loader) : P (setLoaderState x s) := hP.post (hP.loader h) _ _

theorem enterPulling (hP : Loose P) (h : P s) : P (enterPulling s) := by
  unfold Machine.enterPulling
  dsimp only
  split
  · exact hP.setLoaderState (hP.setLoaderState h _) _
  · exact hP.setLoaderState h _

theorem enterPresented (hP : Loose P) (h : P s) : P (enterPresented s) := by
  unfold Machine.enterPresented
  dsimp only
  split
  · exact hP.setLoaderState h _
  · exact hP.setLoaderState (hP.setLoaderState h _) _

theorem unclamp (hP : Loose P) (h : P s) : P (unclamp s) := hP.evalTarget (hP.seq (hP.seek (hP.defects (hP.rev (hP.angle h)))))

theorem enterReleasing (hP : Loose P) (h : P s) : P (enterReleasing s) := by
  have hr := hP.setLoaderState h { s.loader with state := .releasing, ejectPending := false, timer := 0 }
  unfold Machine.enterReleasing
  dsimp only
  split
  · split
    · exact hP.enterPresented (hP.unclamp hr)
    · exact hP.unclamp hr
  · split
    · exact hP.enterPresented hr
    · exact hr

theorem ejectRelease (hP : Loose P) (h : P s) : P (ejectRelease s) := by
  unfold Machine.ejectRelease
  split
  · exact hP.enterReleasing h
  · exact h

theorem pullIn (hP : Loose P) (h : P s) : P (pullIn s) := hP.enterPulling (hP.wakeTo h .active)

theorem loaderFreed (hP : Loose P) (h : P s) : P (loaderFreed s) := by
  unfold Machine.loaderFreed
  split
  · exact hP.pullIn h
  · exact h

theorem loaderSlot (hP : Loose P) (h : P s) : P (loaderSlot s) := by
  unfold Machine.loaderSlot
  split
  · split
    · split
      · exact hP.pullIn h
      · exact hP.post h _ _
    · exact h
  · split
    · exact h
    · exact hP.setLoaderState h _
  all_goals exact h

/-- What a changed level hands on keeps the property. -/
theorem lineChanged (hP : Loose P) (h : P s) (line : DebLine) : P (lineChanged line s) := by
  cases line with
  | slot => exact hP.loaderSlot h
  | clampEnd =>
    show P (loaderClampEnd s)
    unfold loaderClampEnd
    split
    · exact hP.setLoaderState h _
    · exact h
  | ejectEnd =>
    show P (loaderEjectEnd s)
    unfold loaderEjectEnd
    split
    · exact hP.enterPresented h
    · exact h
  | innerLimit =>
    show P (if s.sup.innerLimit.level then innerLimitActive s else s)
    split
    · exact hP.seekInnerLimit (hP.sled h)
    · exact h
  | supplyLow =>
    show P (if s.sup.supplyLow.level then crankHoldStart s else crankHoldEnd s)
    split
    · exact hP.post (hP.crankStart (hP.sled (hP.spindleHold (hP.sup h (by rfl))))) _ _
    · exact hP.post (hP.crankEnd (hP.loaderFreed (hP.spindleRelease (hP.sup h (by rfl))))) _ _

end Loose

/-! ## The lines at rest -/

theorem loose_lines (lines : DebLine → Debounced) : Loose (fun s => s.sup.line = lines) where
  fe h _ _ := h
  focus h := h
  track h := h
  det h := h
  defects h := h
  spindle h := h
  sled h := h
  seek h := h
  seq h := h
  link h := h
  freeCount h := h
  groups h _ _ := h
  sup h hx := hx.trans h
  drive h := h
  signals h _ := h
  loader h := h
  angle h := h
  rev h := h

theorem settling_lines (lines : DebLine → Debounced) : Settling (fun s => s.sup.line = lines) where
  toSteady := (loose_lines lines).toSteady
  launch h _ := (loose_lines lines).takePending fun _ _ => h
  release h := (loose_lines lines).ejectRelease h

/-! ## A line written -/

theorem line_setLine_same (x : Supervisor) (line : DebLine) (d : Debounced) : (x.setLine line d).line line = d := by
  cases line <;> rfl

theorem line_setLine_other (x : Supervisor) {line other : DebLine} (d : Debounced) (h : other ≠ line) :
    (x.setLine line d).line other = x.line other := by
  cases line <;> cases other <;> simp_all [Supervisor.line, Supervisor.setLine]

theorem atRest_setLine (h : s.atRest) (line : DebLine) (d : Debounced) : (s.setSup (s.sup.setLine line d)).atRest := by
  cases line <;> exact h

end

/-- Settles O41. -/
theorem linesDebounce : Obligations.LinesDebounce := by
  unfold Obligations.LinesDebounce
  intro s line other raw hs d
  have hsample {t : State} (h : sampleLine line raw s = t) (ht : t.atRest) : exec (.senseLineSample line raw) s = .next t :=
    (done_of_atRest (sampleLine line raw) hs.2 (h.symm ▸ ht)).trans (congrArg _ h)
  refine ⟨fun hraw => ?_, fun hraw hrun => ?_, settle (changeLine line s), ?_, ?_, fun hne => ?_, fun hraw hrun => ?_⟩
  · exact hsample (if_pos hraw) (atRest_setLine hs.1 line _)
  · exact hsample ((if_neg hraw).trans (if_neg (Nat.not_le.mpr hrun))) (atRest_setLine hs.1 line _)
  · exact done_of_running (changeLine line) hs.2
  all_goals have hlines := (settling_lines _).settle ((loose_lines _).lineChanged (s := s.lined line) rfl line)
  · exact (congrFun hlines line).trans (line_setLine_same s.sup line _)
  · exact (congrFun hlines other).trans (line_setLine_other s.sup _ hne)
  · have hchange : sampleLine line raw s = changeLine line s := (if_neg hraw).trans (if_pos hrun)
    exact (done_of_running (sampleLine line raw) hs.2).trans (congrArg (fun x => Host.Outcome.next (settle x)) hchange)

end Sys2Proof.Machine
end


-- ==== Sys2Proof/Proofs/SampleReadings.lean ====
section
/-! SUPPORT. What the parts of a servo sample leave alone once the Front End has formed its values (R1, R11, R12). -/

namespace Sys2Proof.Machine

section
variable {P : State → Prop} {s : State}

namespace Steady

/-! ## The procedures of the loops (R41 to R51) -/

theorem enterLocked (hP : Steady P) (h : P s) : P (enterLocked s) := by
  unfold Machine.enterLocked
  dsimp only
  split
  · exact hP.emit (hP.track h) Signal.noConfusion
  · exact hP.emit (hP.emit (hP.track h) Signal.noConfusion) Signal.noConfusion
  · exact hP.emit (hP.emit (hP.track h) Signal.noConfusion) Signal.noConfusion

theorem attemptFails (hP : Steady P) (h : P s) : P (attemptFails s) := by
  unfold Machine.attemptFails
  split
  · exact hP.emit (hP.openTrack h) Signal.noConfusion
  · exact hP.track h

theorem settleTimeout (hP : Steady P) (h : P s) : P (settleTimeout s) := by
  unfold Machine.settleTimeout
  split
  · exact hP.attemptFails h
  · split
    · exact hP.attemptFails h
    · exact hP.track h
  · exact h

theorem closeTimeout (hP : Steady P) (h : P s) : P (closeTimeout s) := by
  unfold Machine.closeTimeout
  split
  · exact hP.track h
  · exact h

theorem moveStall (hP : Steady P) (h : P s) : P (moveStall s) := by
  unfold Machine.moveStall
  split
  · exact hP.emit (hP.track (hP.leaveMove h)) Signal.noConfusion
  · exact h

theorem settlingSample (hP : Steady P) (h : P s) (inHold : Bool) (eT : Int) : P (settlingSample inHold eT s) := by
  unfold Machine.settlingSample
  dsimp only
  split
  · exact hP.enterLocked (hP.track h)
  · split
    · exact hP.settleTimeout (hP.track h)
    · exact hP.track h

theorem pullinSample (hP : Steady P) (h : P s) (crossing : Bool) (eT : Int) : P (pullinSample crossing eT s) := by
  have hlimit (t : TrackLoop) : P (if 1280 ≤ (s.setTrack t).track.timer then Machine.settleTimeout (s.setTrack t) else s.setTrack t) := by
    split
    · exact hP.settleTimeout (hP.track h)
    · exact hP.track h
  exact hlimit _

theorem stallSample (hP : Steady P) (h : P s) (crossing : Bool) : P (stallSample crossing s) := by
  unfold Machine.stallSample
  split
  · exact hP.track h
  · dsimp only
    split
    · exact hP.moveStall (hP.track h)
    · exact hP.track h

theorem closeSample (hP : Steady P) (h : P s) (crossing : Bool) (eT : Int) : P (closeSample crossing eT s) := by
  unfold Machine.closeSample
  split
  · exact hP.track h
  · dsimp only
    split
    · exact hP.closeTimeout (hP.track h)
    · exact hP.track h

theorem jumpSample (hP : Steady P) (h : P s) (crossing : Bool) (eT : Int) : P (jumpSample crossing eT s) := by
  unfold Machine.jumpSample
  split
  · exact hP.track h
  · exact hP.stallSample h crossing

theorem moveSample (hP : Steady P) (h : P s) (crossing : Bool) : P (moveSample crossing s) := by
  unfold Machine.moveSample
  split
  · exact hP.emit (hP.track (hP.sled h)) Signal.noConfusion
  · exact hP.stallSample h crossing

theorem trackSample (hP : Steady P) (h : P s) (crossing inHold : Bool) (eT : Int) : P (trackSample crossing inHold eT s) := by
  unfold Machine.trackSample
  split
  · exact hP.settlingSample h inHold eT
  · exact hP.pullinSample h crossing eT
  · exact hP.moveSample h crossing
  · split
    · exact hP.closeSample h crossing eT
    · exact hP.jumpSample h crossing eT
  all_goals exact h

theorem searchSample (hP : Steady P) (h : P s) (f : Formed) : P (searchSample f s) := by
  unfold Machine.searchSample
  split
  · split
    · exact hP.emit (hP.focus h) Signal.noConfusion
    · split
      · exact hP.focus h
      · split
        · exact hP.emit (hP.focus h) Signal.noConfusion
        · exact hP.focus h
  · exact h

/-! ## The sled, the passes and the holds (R63, R70, R107) -/

theorem sledSample (hP : Steady P) (h : P s) : P (sledSample s) := by
  unfold Machine.sledSample
  split
  · dsimp only
    split
    · exact hP.sled (hP.sled h)
    · exact hP.sled h
  · exact hP.sled h

theorem markPasses (hP : Steady P) (h : P s) (inHold : Bool) : P (markPasses inHold s) := by
  unfold Machine.markPasses
  split
  · exact hP.defects h
  · exact h

theorem putLearned (hP : Steady P) (h : P s) (i : Nat) (d : Option Defect) : P (putLearned i d s) :=
  hP.post (hP.defects (hP.defects h)) _ _

theorem createEntry (hP : Steady P) (h : P s) (r : Region) : P (createEntry r s) := by
  unfold Machine.createEntry
  dsimp only
  split
  · exact hP.putLearned h _ _
  · split
    · exact hP.putLearned (hP.post h _ _) _ _
    · exact hP.post h _ _

theorem takeRegion (hP : Steady P) (h : P s) (r : Region) : P (takeRegion r s) := by
  unfold Machine.takeRegion rearmIfChanged learnRegion
  dsimp only
  split
  · split
    · split
      · exact hP.defects h
      · exact hP.defects (hP.defects h)
    · exact h
  · split
    · split
      · exact hP.putLearned h _ _
      · exact hP.createEntry h r
    · exact h

theorem takeDetection (hP : Steady P) (h : P s) (d : Detection) : P (takeDetection d s) := by
  unfold Machine.takeDetection
  split
  · exact hP.takeRegion h _
  · exact h

theorem sampleIncidents (hP : Steady P) (h : P s) (d : Detection) : P (sampleIncidents d s) := by
  unfold Machine.sampleIncidents
  split
  · exact hP.raiseFocusLost h
  · split
    · exact h
    · exact hP.raiseDue h

end Steady

theorem Settling.sampleEvents (hP : Settling P) (h : P s) (d : Detection) (crossing : Bool) (eT : Int) : P (sampleEvents d crossing eT s) := by
  unfold Machine.sampleEvents
  dsimp only
  split
  · split
    · exact hP.raiseFocusLost (hP.drain 64 (hP.trackSample (hP.takeOrder h) crossing d.inHold eT))
    · exact hP.raiseFocusLost (hP.takeOrder h)
  · exact hP.sampleIncidents (hP.drain 64 (hP.trackSample h crossing d.inHold eT)) d

/-! ## The readings of the Front End, and the groups -/

/-- The Front End's readings and the group records stand as given, and no launch is handed on. -/
def State.readsAs (readings : Int × Int × Int × Int × Nat) (g : Groups) (s : State) : Prop :=
  s.fe.readings = readings ∧ s.groups.recs = g.recs ∧ s.groups.base = g.base ∧ .launchDue ∉ s.signals

variable {readings : Int × Int × Int × Int × Nat} {g : Groups}

theorem loose_readings (readings : Int × Int × Int × Int × Nat) (g : Groups) : Loose (State.readsAs readings g) where
  fe h hx _ := ⟨hx.trans h.1, h.2⟩
  focus h := h
  track h := h
  det h := h
  defects h := h
  spindle h := h
  sled h := h
  seek h := h
  seq h := h
  link h := h
  freeCount h := h
  groups h hr hb := ⟨h.1, hr.trans h.2.1, hb.trans h.2.2.1, h.2.2.2⟩
  sup h _ := h
  drive h := h
  signals h hx := ⟨h.1, h.2.1, h.2.2.1, fun hmem => h.2.2.2 (hx _ hmem rfl)⟩
  loader h := h
  angle h := h
  rev h := h

theorem settling_readings (readings : Int × Int × Int × Int × Nat) (g : Groups) : Settling (State.readsAs readings g) where
  toSteady := (loose_readings readings g).toSteady
  launch h hs := absurd (hs ▸ List.mem_cons_self) h.2.2.2
  release h := (loose_readings readings g).ejectRelease h

/-- The Front End's part of a sample keeps the offsets and takes the values formed. -/
theorem frontEndSample_readings (f : Formed) (inHold accumulates : Bool) (fe : FrontEnd) :
    (frontEndSample f inHold accumulates fe).readings = (fe.feOff, fe.teOff, f.eF, f.eT, f.sumN) := by
  unfold frontEndSample FrontEnd.cross FrontEnd.accumulate
  dsimp only
  split <;> split <;> (try split) <;> rfl

theorem readsAs_sampleBody (fe te sum : Adc) (hs : s.signals = []) : State.readsAs
    (s.fe.feOff, s.fe.teOff, (formSample s.fe fe te sum).eF, (formSample s.fe fe te sum).eT, (formSample s.fe fe te sum).sumN) s.groups
    (sampleBody fe te sum s) := by
  have hP := loose_readings
    (s.fe.feOff, s.fe.teOff, (formSample s.fe fe te sum).eF, (formSample s.fe fe te sum).eT, (formSample s.fe fe te sum).sumN) s.groups
  have hdrives (h : Detection) : State.readsAs
      (s.fe.feOff, s.fe.teOff, (formSample s.fe fe te sum).eF, (formSample s.fe fe te sum).eT, (formSample s.fe fe te sum).sumN) s.groups
      (sampleDrives (formSample s.fe fe te sum) h s) :=
    ⟨frontEndSample_readings _ _ _ _, rfl, rfl, by show Signal.launchDue ∉ s.signals; rw [hs]; exact List.not_mem_nil⟩
  exact (settling_readings _ _).sampleEvents
    (hP.searchSample (hP.takeDetection (hP.markPasses (hP.sledSample (hP.rev (hdrives _))) _) _) _) _ _ _

end

/-- A sample of a running part that does not sleep. -/
theorem exec_servoSample {s : State} (hs : s.settled) (hp : s.sup.power ≠ .sleep) (fe te sum : Adc) :
    exec (.servoSample fe te sum) s = .next (endSample (settle (sampleBody fe te sum s))) :=
  congrArg Host.Outcome.next (if_neg (by simp [hs.2, hp]))

/-- Settles O19. -/
theorem sampleNormalizes : Obligations.SampleNormalizes := by
  unfold Obligations.SampleNormalizes
  intro s fe te sum hs corrected normal
  have hnormal (x : Int) : normalize s.fe.c x = normal x := by
    simp only [normal, normalize, satDrive, sat, mag]
    split <;> omega
  refine ⟨fun hp => congrArg Host.Outcome.next (if_pos (by simp [hp])), fun hp => ⟨_, exec_servoSample hs hp fe te sum, ?_⟩⟩
  obtain ⟨hread, hrecs, hbase, -⟩ := (settling_readings _ _).settle (readsAs_sampleBody fe te sum hs.1.1)
  simp only [FrontEnd.readings, Prod.mk.injEq] at hread
  obtain ⟨hfo, hto, hef, het, hsum⟩ := hread
  exact ⟨hef.trans (hnormal _), het.trans (hnormal _), hsum, hfo, hto, hrecs, hbase⟩

end Sys2Proof.Machine
end


-- ==== Sys2Proof/Proofs/Samples.lean ====
section
/-! SUPPORT. A servo sample part by part: the drives, what is learned, the sled, the passes, and the events that follow (R1, R5, R27 to R29,
R35 to R38, R52, R54, R70, R107). -/

namespace Sys2Proof.Machine

section
variable {s : State} {f : Formed} {h : Detection}

/-! ## The parts of a sample -/

/-- The Front End after its part of a sample. -/
def State.feSampled (s : State) (f : Formed) (h : Detection) : FrontEnd :=
  frontEndSample f h.inHold (!h.inHold && (s.focus.follow h).state = .locked) s.fe

/-- The focus loop after its drive and its count. -/
def State.focusSampled (s : State) (f : Formed) (h : Detection) : FocusLoop :=
  (focusOutput s.active h.inHold f.eF s.bin.focFf (s.focus.follow h)).countLost s.active h.inHold f.sumN

/-- The tracking loop after its drive and its count. -/
def State.trackSampled (s : State) (f : Formed) (h : Detection) : TrackLoop :=
  (trackOutput s.active h.inHold f.eT s.bin.trkFf ((s.track.follow h).advancePhase (s.feSampled f h).crossings)).countOff s.active h.inHold f.eT

/-- The current bin's record after the sample's part of it (R29). -/
def State.recordSampled (s : State) (inHold : Bool) (focus : FocusLoop) (track : TrackLoop) : RevRecord :=
  let locked : Bool := s.spindle.state = .locked && !inHold
  let r := if locked && track.state = .locked && s.seq.state.reading then s.bin.addTrack track.ax.uc else s.bin
  if locked && focus.state = .locked then r.addFocus focus.ax.uc else r

/-- The machine up to the detector's own act and the events. -/
def State.measured (s : State) (f : Formed) (h : Detection) (sled : Sled) : State :=
  { s with
    det := h.det
    fe := s.feSampled f h
    focus := s.focusSampled f h
    track := s.trackSampled f h
    rev := s.rev.set s.angle.bin (s.recordSampled h.inHold (s.focusSampled f h) (s.trackSampled f h))
    sled := sled
    defects := if h.inHold || (s.focusSampled f h).state = .locked then s.defects.markSample s.angle.bin h.inHold else s.defects }

/-- The machine with its drives formed and the bin's record taken. -/
def State.learned (s : State) (f : Formed) (h : Detection) : State :=
  { s with
    det := h.det
    fe := s.feSampled f h
    focus := s.focusSampled f h
    track := s.trackSampled f h
    rev := s.rev.set s.angle.bin (s.recordSampled h.inHold (s.focusSampled f h) (s.trackSampled f h)) }

theorem learnSample_eq (f : Formed) (h : Detection) (s : State) : learnSample h.inHold (sampleDrives f h s) = s.learned f h := rfl

theorem markPasses_eq (inHold : Bool) (s : State) : markPasses inHold s
    = s.setDefects (if inHold || s.focus.state = .locked then s.defects.markSample s.angle.bin inHold else s.defects) := by
  unfold markPasses
  split <;> rfl

theorem sledSample_of_held (ht : s.trackHeld = true) (hc : s.sled.count < 63) :
    sledSample s = s.setSled { s.sled with sum := s.sled.sum + s.track.ax.uc, count := s.sled.count + 1 } := by
  rw [sledSample, if_pos ht]
  exact if_neg (by show ¬64 ≤ s.sled.count + 1; omega)

theorem sledSample_of_loose (ht : s.trackHeld = false) : sledSample s = s.setSled { s.sled with
    sum := 0, count := 0
    drive := if s.track.state = .openSeek then s.forceSled (moveDrive s.active[31] s.sled.move) else 0 } :=
  if_neg (by rw [ht]; exact Bool.false_ne_true)

/-- The sled after a sample with the tracking loop held, before its sum is full. -/
def Sled.sums (x : Sled) (uc : Int) : Sled := { x with sum := x.sum + uc, count := x.count + 1 }

/-- A sample, with what the sled makes of it. -/
theorem sampleBody_eq {fe te sum : Adc} {x : Sled} (hf : formSample s.fe fe te sum = f) (hh : detect s f.sumN = h)
    (hx : sledSample (s.learned f h) = (s.learned f h).setSled x) : sampleBody fe te sum s
      = sampleEvents h (s.feSampled f h).crossingNow f.eT (searchSample f (takeDetection h (s.measured f h x))) := by
  subst hf hh
  let f := formSample s.fe fe te sum
  let h := detect s f.sumN
  have hmeasured : markPasses h.inHold (sledSample (learnSample h.inHold (sampleDrives f h s))) = s.measured f h x := by
    rw [learnSample_eq, hx, markPasses_eq]
    rfl
  exact congrArg (fun u => sampleEvents h (s.feSampled f h).crossingNow f.eT (searchSample f (takeDetection h u))) hmeasured

theorem sampleBody_of_held {fe te sum : Adc} (hf : formSample s.fe fe te sum = f) (hh : detect s f.sumN = h)
    (ht : (s.trackSampled f h).state = .locked ∨ (s.trackSampled f h).state = .hold) (hc : s.sled.count < 63) : sampleBody fe te sum s
      = sampleEvents h (s.feSampled f h).crossingNow f.eT
          (searchSample f (takeDetection h (s.measured f h (s.sled.sums (s.trackSampled f h).ax.uc)))) :=
  sampleBody_eq hf hh (sledSample_of_held (s := s.learned f h) (trackHeld_iff.mpr ht) hc)

/-- A sample whose procedure and counters bring nothing. -/
theorem sampleEvents_of_quiet {crossing : Bool} {eT : Int} (ht : trackSample crossing h.inHold eT s = s) (hs : s.signals = [])
    (hi : sampleIncidents h s = s) : sampleEvents h crossing eT s = s := by
  unfold sampleEvents
  dsimp only
  rw [ht, if_neg (by rw [hs]; exact fun hc => absurd hc.1 List.not_mem_nil), drain_of_quiet 64 hs, hi]

theorem searchSample_of_other (hf : s.focus.state ≠ .search) : searchSample f s = s := if_neg hf

theorem exec_servoSample_of_atRest {u : State} (hs : s.settled) (hp : s.sup.power ≠ .sleep) {fe te sum : Adc}
    (hu : sampleBody fe te sum s = u) (hrest : u.atRest) : exec (.servoSample fe te sum) s = .next (endSample u) := by
  rw [exec_servoSample hs hp, hu, settle_of_atRest hrest]

/-! ## The two compensators (R36, R52, R54) -/

theorem focusSampled_of_locked (hs : s.focus.state = .locked ∨ s.focus.state = .hold) (hb : h.begins = false) (hi : h.inHold = false)
    (hsum : s.active[24] ≤ f.sumN) : s.focusSampled f h = { s.focus with
      state := .locked
      ax := s.focus.ax.compensate s.active[0] s.active[1] s.active[2] f.eF s.rev[s.angle.bin].focFf
      lost := 0 } := by
  have hfollow : s.focus.follow h = { s.focus with state := .locked } := by
    rw [FocusLoop.follow, hb, hi]
    rcases hs with hs | hs
    · rw [hs]
      exact congrArg (fun st => { s.focus with state := st }) rfl
    · rw [hs]
      rfl
  rw [State.focusSampled, hfollow, hi]
  show FocusLoop.countLost _ _ _ _ = _
  rw [FocusLoop.countLost, if_pos (by rfl), if_neg (Nat.not_lt.mpr hsum)]
  rfl

theorem trackSampled_of_locked (hs : s.track.state = .locked ∨ s.track.state = .hold) (hb : h.begins = false) (hi : h.inHold = false) :
    s.trackSampled f h = { s.track with
      state := .locked
      ax := s.track.ax.compensate s.active[4] s.active[5] s.active[6] f.eT s.rev[s.angle.bin].trkFf
      offCount :=
        if s.active[22] < f.eT.natAbs
            ∨ 2047 ≤ (s.track.ax.compensate s.active[4] s.active[5] s.active[6] f.eT s.rev[s.angle.bin].trkFf).u.natAbs then
          countUp 255 s.track.offCount
        else 0 } := by
  have hfollow : (s.track.follow h).advancePhase (s.feSampled f h).crossings = { s.track with state := .locked } := by
    rw [TrackLoop.follow, hb, hi]
    rcases hs with hs | hs <;> rw [hs] <;> rfl
  rw [State.trackSampled, hfollow, hi]
  let ax := s.track.ax.compensate s.active[4] s.active[5] s.active[6] f.eT s.rev[s.angle.bin].trkFf
  have hcount : (if (decide (s.active[22] < mag f.eT) || decide (2047 ≤ mag ax.u)) = true then countUp 255 s.track.offCount else 0)
      = if s.active[22] < f.eT.natAbs ∨ 2047 ≤ ax.u.natAbs then countUp 255 s.track.offCount else 0 :=
    if_congr ((Bool.or_eq_true_iff (x := _) (y := _)).trans (or_congr decide_eq_true_iff decide_eq_true_iff)) rfl rfl
  show TrackLoop.countOff _ _ _ _ = _
  rw [TrackLoop.countOff, if_pos (by rfl)]
  exact congrArg (fun n => ({ s.track with state := .locked, ax := ax, offCount := n } : TrackLoop)) hcount

end

end Sys2Proof.Machine
end


-- ==== Sys2Proof/Proofs/LockedSamples.lean ====
section
/-! SUPPORT. A sample with both loops locked (R5, R28, R29, R35, R36, R52, R54). -/

namespace Sys2Proof.Machine

section
variable {s : State} {f : Formed} {h : Detection}

/-- The lowest field of a lawful group record. -/
theorem field_le (hg : groupLaw s.groups) (n : Fin 33) : (fieldRanges[n]).1 ≤ s.active[n] :=
  ((hg.1 (activeId s.groups)).1 n).1

theorem le_field (hg : groupLaw s.groups) (n : Fin 33) : s.active[n] ≤ (fieldRanges[n]).2 :=
  ((hg.1 (activeId s.groups)).1 n).2

/-! ## The accumulators (R5, R29) -/

/-- What a sample puts into the Front End before the crossing detector. -/
def FrontEnd.taken (x : FrontEnd) (f : Formed) : FrontEnd := { x with eF := f.eF, eT := f.eT, sumN := f.sumN }

/-- The crossing detector leaves c, L and SUM. -/
theorem cross_keeps (x : FrontEnd) (inHold : Bool) (tec : Int) : (x.cross inHold tec).c = x.c ∧ (x.cross inHold tec).level = x.level
    ∧ (x.cross inHold tec).sumAcc = x.sumAcc ∧ (x.cross inHold tec).sumCount = x.sumCount := by
  unfold FrontEnd.cross
  split <;> exact ⟨rfl, rfl, rfl, rfl⟩

theorem accumulate_eq (x : FrontEnd) (sum : Nat) : x.accumulate sum = { x with
    sumAcc := if x.sumCount < 65535 then x.sumAcc + sum else x.sumAcc
    sumCount := if x.sumCount < 65535 then x.sumCount + 1 else x.sumCount } := by
  unfold FrontEnd.accumulate
  by_cases hlt : x.sumCount < 65535
  · rw [if_neg (by omega), if_pos hlt, if_pos hlt]
  · rw [if_pos (by omega), if_neg hlt, if_neg hlt]

theorem frontEndSample_accumulating (f : Formed) (inHold : Bool) (x : FrontEnd) :
    frontEndSample f inHold true x = (x.taken f |>.accumulate f.sumRaw).cross inHold f.tec := rfl

theorem frontEndSample_still (f : Formed) (inHold : Bool) (x : FrontEnd) :
    frontEndSample f inHold false x = (x.taken f).cross inHold f.tec := rfl

/-- What a sample with the focus loop LOCKED adds to SUM (R5). -/
theorem sampled_sum (f : Formed) (inHold : Bool) (x : FrontEnd) :
    (frontEndSample f inHold true x).c = x.c ∧ (frontEndSample f inHold true x).level = x.level
      ∧ (frontEndSample f inHold true x).sumAcc = (if x.sumCount < 65535 then x.sumAcc + f.sumRaw else x.sumAcc)
      ∧ (frontEndSample f inHold true x).sumCount = (if x.sumCount < 65535 then x.sumCount + 1 else x.sumCount) := by
  rw [frontEndSample_accumulating, accumulate_eq]
  exact cross_keeps _ inHold f.tec

theorem addTrack_if (r : RevRecord) (uc : Int) (c : Bool) : (if c = true then r.addTrack uc else r) = { r with
    trkSum := if c = true ∧ r.trkCount < 65535 then r.trkSum + uc else r.trkSum
    trkCount := if c = true ∧ r.trkCount < 65535 then r.trkCount + 1 else r.trkCount } := by
  unfold RevRecord.addTrack
  by_cases hc : c = true ∧ r.trkCount < 65535
  · rw [if_pos hc, if_pos hc, if_pos hc.1, if_neg (Nat.not_le.mpr hc.2)]
  · rw [if_neg hc, if_neg hc]
    split
    · next hcount => rw [if_pos (Nat.not_lt.mp fun hlt => hc ⟨hcount, hlt⟩)]
    · rfl

theorem addFocus_if (r : RevRecord) (uc : Int) (c : Bool) : (if c = true then r.addFocus uc else r) = { r with
    focSum := if c = true ∧ r.focCount < 65535 then r.focSum + uc else r.focSum
    focCount := if c = true ∧ r.focCount < 65535 then r.focCount + 1 else r.focCount } := by
  unfold RevRecord.addFocus
  by_cases hc : c = true ∧ r.focCount < 65535
  · rw [if_pos hc, if_pos hc, if_pos hc.1, if_neg (Nat.not_le.mpr hc.2)]
  · rw [if_neg hc, if_neg hc]
    split
    · next hcount => rw [if_pos (Nat.not_lt.mp fun hlt => hc ⟨hcount, hlt⟩)]
    · rfl

/-- The current bin's record after a sample with both loops LOCKED. -/
def State.recordLocked (s : State) (uc : Int) (focusUc : Int) : RevRecord :=
  let r := s.rev[s.angle.bin]
  let adds (count : Nat) : Prop := s.spindle.state = .locked ∧ count < 65535
  let reads : Bool := s.seq.state = .following ∨ s.seq.state = .paused
  { r with
    trkSum := if adds r.trkCount ∧ reads = true then r.trkSum + uc else r.trkSum
    trkCount := if adds r.trkCount ∧ reads = true then r.trkCount + 1 else r.trkCount
    focSum := if adds r.focCount then r.focSum + focusUc else r.focSum
    focCount := if adds r.focCount then r.focCount + 1 else r.focCount }

theorem recordSampled_of_locked {focus : FocusLoop} {track : TrackLoop} (hf : focus.state = .locked) (ht : track.state = .locked) :
    s.recordSampled false focus track = s.recordLocked track.ax.uc focus.ax.uc := by
  have hreads : s.seq.state.reading = decide (s.seq.state = .following ∨ s.seq.state = .paused) := by
    rw [SeqState.reading, Bool.decide_or]
  unfold State.recordSampled State.recordLocked
  rw [hf, ht, hreads]
  dsimp only
  rw [addTrack_if, addFocus_if]
  by_cases hsp : s.spindle.state = .locked
  · simp [hsp, State.bin, and_comm]
  · simp [hsp, State.bin]

/-! ## The sample that no hold and no incident meets -/

/-- No hold begins on a sample at or above the threshold (R60). -/
theorem detect_of_clear {sumN : Nat} (hd : s.det.inHold = false) (hth : holdThreshold s.active s.fe.level s.defects.armed ≤ sumN) :
    detect s sumN = s.det.quiet := by
  unfold detect Detector.sample
  rw [hd]
  split
  · exact (if_neg Bool.false_ne_true).trans (if_neg (Nat.not_lt.mpr hth))
  · rfl

/-- Counters below their limits raise nothing (R52, R54). -/
theorem raiseDue_of_below (ht : s.track.offCount < s.active[23]) (hf : s.focus.lost < s.active[25]) : raiseDue s = s := by
  have hoff : s.offTrackDue = false := by simp [State.offTrackDue, ht]
  have hlost : s.focusLostDue = false := by simp [State.focusLostDue, hf]
  rw [raiseDue, hoff, hlost]
  rfl

/-- The off-track count after a sample in LOCKED is at most one more. -/
theorem offCount_lt {count limit : Nat} {p : Prop} [Decidable p] (h : count + 1 < limit) : (if p then countUp 255 count else 0) < limit := by
  unfold countUp
  split <;> omega

theorem offCount_eq {count limit : Nat} {p : Prop} [Decidable p] (h : count + 1 < limit) (hl : limit ≤ 255) :
    (if p then countUp 255 count else 0) = if p then count + 1 else 0 := by
  unfold countUp
  split <;> omega

end

end Sys2Proof.Machine
end


-- ==== Sys2Proof/Proofs/LockedSample.lean ====
section
/-! SUPPORT. The sample with both loops LOCKED and no hold (R5, R28, R29, R35, R36, R52, R54). -/

namespace Sys2Proof.Machine

section
variable {s : State} {f : Formed} {h : Detection}

/-- Both loops LOCKED after a sample not in hold. -/
structure Locks (s : State) (f : Formed) (h : Detection) : Prop where
  focus : s.focusSampled f h = { s.focus with
      state := .locked
      ax := s.focus.ax.compensate s.active[0] s.active[1] s.active[2] f.eF s.rev[s.angle.bin].focFf
      lost := 0 }
  track : s.trackSampled f h = { s.track with
      state := .locked
      ax := s.track.ax.compensate s.active[4] s.active[5] s.active[6] f.eT s.rev[s.angle.bin].trkFf
      offCount :=
        if s.active[22] < f.eT.natAbs
            ∨ 2047 ≤ (s.track.ax.compensate s.active[4] s.active[5] s.active[6] f.eT s.rev[s.angle.bin].trkFf).u.natAbs then
          s.track.offCount + 1
        else 0 }
  fe : s.feSampled f h = frontEndSample f false true s.fe
  quiet : h.inHold = false ∧ h.limit = false
  below : s.track.offCount + 1 < s.active[23] ∧ 0 < s.active[25]

theorem locks (hg : groupLaw s.groups) (hf : s.focus.state = .locked ∨ s.focus.state = .hold)
    (ht : s.track.state = .locked ∨ s.track.state = .hold) (hb : h.begins = false) (hi : h.inHold = false) (hl : h.limit = false)
    (hoff : s.track.offCount + 1 < s.active[23]) (hsum : s.active[24] ≤ f.sumN) : Locks s f h := by
  have hlimit : s.active[23] ≤ 255 := le_field hg 23
  have hlost : 1 ≤ s.active[25] := field_le hg 25
  have hfollow : (s.focus.follow h).state = .locked := by
    rw [FocusLoop.follow, hb, hi]
    rcases hf with hf | hf <;> rw [hf] <;> rfl
  refine ⟨focusSampled_of_locked hf hb hi hsum, ?_, ?_, ⟨hi, hl⟩, hoff, hlost⟩
  · rw [trackSampled_of_locked ht hb hi, offCount_eq hoff hlimit]
  · rw [State.feSampled, hi, hfollow]
    rfl

namespace Locks

theorem record (k : Locks s f h) : s.recordSampled h.inHold (s.focusSampled f h) (s.trackSampled f h)
    = s.recordLocked (s.trackSampled f h).ax.uc (s.focusSampled f h).ax.uc := by
  rw [k.quiet.1]
  exact recordSampled_of_locked (by rw [k.focus]) (by rw [k.track])

/-- Nothing follows from the sample once the detector's hold has been taken. -/
theorem events (k : Locks s f h) {u : State} {crossing : Bool} {eT : Int} (hs : u.signals = []) (hf : u.focus = s.focusSampled f h)
    (ht : u.track = s.trackSampled f h) (hg : u.groups = s.groups) : sampleEvents h crossing eT (searchSample f u) = u := by
  have hactive : u.active = s.active := by simp only [State.active, hg]
  have hsearch : searchSample f u = u := searchSample_of_other (by rw [hf, k.focus]; exact FocusState.noConfusion)
  have hprocedure : trackSample crossing h.inHold eT u = u := by
    have hlocked : u.track.state = .locked := by rw [ht, k.track]
    rw [trackSample, hlocked]
  have hincidents : sampleIncidents h u = u := by
    have hoff : u.track.offCount < u.active[23] := by
      have := k.below.1
      rw [hactive, ht, k.track]
      dsimp only
      split <;> omega
    have hlost : u.focus.lost < u.active[25] := by
      rw [hactive, hf, k.focus]
      exact k.below.2
    rw [sampleIncidents, k.quiet.1, k.quiet.2]
    exact raiseDue_of_below hoff hlost
  rw [hsearch, sampleEvents_of_quiet hprocedure hs hincidents]

end Locks

end

/-- Settles O20. -/
theorem lockedSampleCompensates : Obligations.LockedSampleCompensates := by
  unfold Obligations.LockedSampleCompensates
  intro s fe te sum hs hp hf ht hd hg hoff hc g sumN th hth hsum loop
  let f := formSample s.fe fe te sum
  have hdetect : detect s f.sumN = s.det.quiet := detect_of_clear hd hth
  have k : Locks s f s.det.quiet := locks hg (.inl hf) (.inl ht) rfl rfl rfl hoff hsum
  let u : State := s.measured f s.det.quiet (s.sled.sums (s.trackSampled f s.det.quiet).ax.uc)
  have hbody : sampleBody fe te sum s = u := by
    rw [sampleBody_of_held rfl hdetect (.inl (by rw [k.track])) hc]
    exact k.events (u := u) hs.1.1 rfl rfl rfl
  obtain ⟨hcoef, hlevel, hacc, hcount⟩ := sampled_sum f false s.fe
  have hfe : (endSample u).fe = { frontEndSample f false true s.fe with crossingNow := false } := by
    rw [← k.fe]
    rfl
  have heF : (endSample u).fe.eF = f.eF := congrArg (fun r => r.2.2.1) (frontEndSample_readings f _ _ s.fe)
  have heT : (endSample u).fe.eT = f.eT := congrArg (fun r => r.2.2.2.1) (frontEndSample_readings f _ _ s.fe)
  have hfocus : (endSample u).focus = _ := k.focus
  have htrack : (endSample u).track = _ := k.track
  have hrecord : (endSample u).rev = s.rev.set s.angle.bin (s.recordLocked (endSample u).track.ax.uc (endSample u).focus.ax.uc) :=
    congrArg (s.rev.set s.angle.bin) k.record
  have hother (b : Fin 64) (hb : b ≠ s.angle.bin) (r : RevRecord) : (s.rev.set s.angle.bin r)[b] = s.rev[b] := by
    rw [Fin.getElem_fin, Vector.getElem_set_ne _ _ (fun h => hb (Fin.ext h.symm)), Fin.getElem_fin]
  have hsame (r : RevRecord) : (s.rev.set s.angle.bin r)[s.angle.bin] = r := by
    rw [Fin.getElem_fin, Vector.getElem_set_self]
  refine ⟨endSample u, exec_servoSample_of_atRest hs hp hbody hs.1, ?_, ?_, rfl, ?_, ?_, fun hfull => ?_, fun b hb => ?_, ?_, ?_,
    fun hsp hfull => ?_, fun hsp => ?_, rfl, rfl, rfl, rfl, rfl, rfl, rfl, rfl, rfl⟩
  · rw [hfocus, heF, ← hf]
    rfl
  · rw [htrack, heT, ← ht]
    rfl
  · rw [hfe]
    exact hcoef
  · rw [hfe]
    exact hlevel
  · rw [hfe]
    exact ⟨hacc.trans (if_pos hfull), hcount.trans (if_pos hfull)⟩
  · rw [hrecord, hother b hb]
  · rw [hrecord, hsame]
    rfl
  · rw [hrecord, hsame]
    rfl
  · rw [hrecord, hsame]
    exact ⟨if_pos ⟨hsp, hfull⟩, if_pos ⟨hsp, hfull⟩⟩
  · have hkept : s.recordLocked (endSample u).track.ax.uc (endSample u).focus.ax.uc = s.rev[s.angle.bin] := by
      simp [State.recordLocked, hsp]
    rw [hrecord, hkept]
    exact Vector.set_getElem_self _

end Sys2Proof.Machine
end


-- ==== Sys2Proof/Proofs/HoldSamples.lean ====
section
/-! SUPPORT. Samples in hold (R29, R37, R38, R52, R54, R58 to R62, R70). -/

namespace Sys2Proof.Machine

section
variable {s : State} {f : Formed} {h : Detection}

/-- An axis in hold: its output is h, and its drive h and the feedforward (R37). -/
def Axis.heldAt (x : Axis) (h ff : Int) : Axis := { x with h := h, uc := h, u := max (-2047) (min 2047 (h + ff)) }

/-! ## The loops in hold (R37, R38, R52, R54) -/

theorem focusSampled_of_hold (hi : h.inHold = true) (hs : if h.begins then s.focus.state = .locked else s.focus.state = .hold) :
    s.focusSampled f h = { s.focus with
      state := .hold
      ax := s.focus.ax.heldAt (if h.begins then s.focus.ax.uc else s.focus.ax.h) s.rev[s.angle.bin].focFf } := by
  have hfollow : s.focus.follow h = { s.focus with
      state := .hold, ax := { s.focus.ax with h := if h.begins then s.focus.ax.uc else s.focus.ax.h } } := by
    rw [FocusLoop.follow]
    cases hb : h.begins with
    | true =>
      rw [hb] at hs
      rw [if_pos rfl, if_pos (by exact hs)]
      rfl
    | false =>
      rw [hb] at hs
      rw [if_neg Bool.false_ne_true, if_pos hi, ← show s.focus.state = .hold from hs]
      rfl
  rw [State.focusSampled, hfollow]
  show FocusLoop.countLost _ _ _ _ = _
  rw [FocusLoop.countLost, hi, if_neg (by simp)]
  rfl

theorem trackSampled_of_hold (hi : h.inHold = true) (hs : if h.begins then s.track.state = .locked else s.track.state = .hold) :
    s.trackSampled f h = { s.track with
      state := .hold
      ax := s.track.ax.heldAt (if h.begins then s.track.ax.uc else s.track.ax.h) s.rev[s.angle.bin].trkFf } := by
  have hfollow : (s.track.follow h).advancePhase (s.feSampled f h).crossings = { s.track with
      state := .hold, ax := { s.track.ax with h := if h.begins then s.track.ax.uc else s.track.ax.h } } := by
    rw [TrackLoop.follow]
    cases hb : h.begins with
    | true =>
      rw [hb] at hs
      have hlocked : s.track.state = .locked := hs
      rw [if_pos rfl, if_pos hlocked, if_neg (by simp [TrackLoop.keepsHeld, hlocked])]
      rfl
    | false =>
      rw [hb] at hs
      have hhold : s.track.state = .hold := hs
      rw [if_neg Bool.false_ne_true, if_pos hi, TrackLoop.advancePhase, if_neg (by simp [hhold]), ← hhold]
      rfl
  rw [State.trackSampled, hfollow]
  show TrackLoop.countOff _ _ _ _ = _
  rw [TrackLoop.countOff, hi, if_neg (by simp)]
  rfl

/-- A pass under way over the current bin is HIT on a sample in hold (R70). -/
theorem markSample_true (t : DefectTable) (b : Fin 64) : t.markSample b true = { t with
    entries := t.entries.map (fun x => x.map (fun x =>
      if binOf x.first x.span b ∧ (x.pass = .watching ∨ x.pass = .clean) then { x with pass := .hit } else x)) } := by
  have hmark (d : Defect) : (if inSpan d.first d.span b = true then { d with pass := d.pass.onSample true } else d)
      = if binOf d.first d.span b ∧ (d.pass = .watching ∨ d.pass = .clean) then { d with pass := .hit } else d := by
    have hsame (p : Pass) (hp : d.pass = p) : { d with pass := p } = d := by rw [← hp]
    by_cases hb : binOf d.first d.span b
    · rw [if_pos ((inSpan_iff _ _ _).mpr hb)]
      cases hp : d.pass with
      | none =>
        rw [if_neg (by simp)]
        exact hsame _ hp
      | watching =>
        rw [if_pos ⟨hb, .inl rfl⟩]
        rfl
      | clean =>
        rw [if_pos ⟨hb, .inr rfl⟩]
        rfl
      | hit =>
        rw [if_neg (by simp)]
        exact hsame _ hp
    · rw [if_neg (fun h => hb ((inSpan_iff _ _ _).mp h)), if_neg (fun h => hb h.1)]
  rw [DefectTable.markSample, DefectTable.update, mapTable_eq_map]
  simp only [hmark]

/-- A sample in hold learns nothing (R29). -/
theorem recordSampled_of_hold (focus : FocusLoop) (track : TrackLoop) : s.recordSampled true focus track = s.rev[s.angle.bin] := by
  simp [State.recordSampled, State.bin]

/-- The machine after a sample in hold, up to its incident. -/
def State.holding (s : State) (f : Formed) (h : Detection) : State :=
  { s with
    det := h.det
    fe := { s.fe with eF := f.eF, eT := f.eT, sumN := f.sumN, crossingNow := false }
    focus := s.focusSampled f h
    track := s.trackSampled f h
    sled := s.sled.sums (s.trackSampled f h).ax.uc
    defects := s.defects.markSample s.angle.bin true }

theorem measured_of_hold (hi : h.inHold = true) : s.measured f h (s.sled.sums (s.trackSampled f h).ax.uc) = s.holding f h := by
  have hrev (focus : FocusLoop) (track : TrackLoop) : s.rev.set s.angle.bin (s.recordSampled h.inHold focus track) = s.rev := by
    rw [hi, recordSampled_of_hold]
    exact Vector.set_getElem_self _
  have hfe : s.feSampled f h = { s.fe with eF := f.eF, eT := f.eT, sumN := f.sumN, crossingNow := false } := by
    rw [State.feSampled, hi]
    rfl
  rw [State.measured, hrev, hfe, hi]
  rfl

/-- A sample in hold with both loops in it. -/
theorem sampleBody_of_hold {fe te sum : Adc} (hs : s.signals = []) (hf : formSample s.fe fe te sum = f) (hh : detect s f.sumN = h)
    (hi : h.inHold = true) (hr : h.region = none) (hfo : if h.begins then s.focus.state = .locked else s.focus.state = .hold)
    (htr : if h.begins then s.track.state = .locked else s.track.state = .hold) (hc : s.sled.count < 63) :
    sampleBody fe te sum s = if h.limit then raiseFocusLost (s.holding f h) else s.holding f h := by
  have htrack : (s.trackSampled f h).state = .hold := by rw [trackSampled_of_hold hi htr]
  have hsearch : searchSample f (s.holding f h) = s.holding f h :=
    searchSample_of_other (by
      show (s.focusSampled f h).state ≠ _
      rw [focusSampled_of_hold hi hfo]
      exact FocusState.noConfusion)
  have hprocedure (crossing : Bool) (eT : Int) : trackSample crossing h.inHold eT (s.holding f h) = s.holding f h := by
    rw [trackSample, show (s.holding f h).track.state = .hold from htrack]
  have hnone : takeDetection h (s.holding f h) = s.holding f h := by rw [takeDetection, hr]
  rw [sampleBody_of_held hf hh (.inr htrack) hc, measured_of_hold hi, hnone, hsearch]
  unfold sampleEvents
  dsimp only
  rw [hprocedure, if_neg (by rw [show (s.holding f h).signals = [] from hs]; exact fun hm => absurd hm.1 List.not_mem_nil),
    drain_of_quiet 64 (by exact hs), sampleIncidents, if_pos hi]

/-! ## The limit of a hold (R55, R62) -/

/-- What follows a lost focus does not ask whether the hold stands. -/
theorem raiseFocusLost_setDet {d : Detector} (hf : s.focusHeld = true) (hd : { d with inHold := false } = { s.det with inHold := false }) :
    raiseFocusLost (s.setDet d) = raiseFocusLost s := by
  rw [raiseFocusLost_of_held (s := s.setDet d) hf, raiseFocusLost_of_held hf]
  refine congrArg (emit .focusLost) ?_
  show { s.focusLost with det := { d with inHold := false } } = s.focusLost
  rw [hd]
  rfl

/-- Nothing that follows a command finds a crossing of a sample (R14). -/
theorem loose_calm : Loose (fun s => s.fe.crossingNow = false) where
  fe h _ hx := hx h
  focus h := h
  track h := h
  det h := h
  defects h := h
  spindle h := h
  sled h := h
  seek h := h
  seq h := h
  link h := h
  freeCount h := h
  groups h _ _ := h
  sup h _ := h
  drive h := h
  signals h _ := h
  loader h := h
  angle h := h
  rev h := h

theorem settling_calm : Settling (fun s => s.fe.crossingNow = false) where
  toSteady := loose_calm.toSteady
  launch h _ := loose_calm.takePending fun _ _ => h
  release h := loose_calm.ejectRelease h

theorem endSample_of_calm (h : s.fe.crossingNow = false) : endSample s = s := by
  have hfe : { s.fe with crossingNow := false } = s.fe := by rw [← h]
  rw [endSample, hfe]
  rfl

/-! ## What the detector finds (R60 to R62) -/

/-- The limit of a hold (R59). -/
theorem detect_of_begin {sumN : Nat} (hf : s.focusHeld = true) (hd : s.det.inHold = false)
    (hth : sumN < holdThreshold s.active s.fe.level s.defects.armed) : detect s sumN
      = (Detector.start s.defects.armed s.angle.bin sumN).limitTest (holdLimitOf s.active s.defects.armed) true := by
  rw [detect, if_pos hf, Detector.sample, hd]
  exact (if_neg Bool.false_ne_true).trans (if_pos hth)

theorem detect_of_more {sumN : Nat} (hf : s.focusHeld = true) (hd : s.det.inHold = true)
    (hgood : (if holdExit s.active s.fe.level s.det.entryArmed ≤ sumN then s.det.goodRun + 1 else 0) < 4) : detect s sumN
      = (s.det.more (if holdExit s.active s.fe.level s.det.entryArmed ≤ sumN then s.det.goodRun + 1 else 0) sumN).limitTest
          (holdLimitOf s.active s.det.entryArmed) false := by
  rw [detect, if_pos hf, Detector.sample, if_pos hd]
  exact if_neg (Nat.not_le.mpr hgood)

/-- The errors that a sample leaves are those it has formed. -/
theorem sampled_errors (hs : s.signals = []) (fe te sum : Adc) :
    (endSample (settle (sampleBody fe te sum s))).fe.eF = (formSample s.fe fe te sum).eF
      ∧ (endSample (settle (sampleBody fe te sum s))).fe.eT = (formSample s.fe fe te sum).eT := by
  obtain ⟨hread, -⟩ := (settling_readings _ _).settle (readsAs_sampleBody fe te sum hs)
  exact ⟨congrArg (fun r => r.2.2.1) hread, congrArg (fun r => r.2.2.2.1) hread⟩

/-- The machine after a sample in hold, its loops written out. -/
theorem holding_eq (hi : h.inHold = true) (hfo : if h.begins then s.focus.state = .locked else s.focus.state = .hold)
    (htr : if h.begins then s.track.state = .locked else s.track.state = .hold) (d : Detector) :
    let focus := s.focus.ax.heldAt (if h.begins then s.focus.ax.uc else s.focus.ax.h) s.rev[s.angle.bin].focFf
    let track := s.track.ax.heldAt (if h.begins then s.track.ax.uc else s.track.ax.h) s.rev[s.angle.bin].trkFf
    (s.holding f h).setDet d = { s with
      det := d
      fe := { s.fe with eF := f.eF, eT := f.eT, sumN := f.sumN, crossingNow := false }
      focus := { s.focus with state := .hold, ax := focus }
      track := { s.track with state := .hold, ax := track }
      sled := s.sled.sums track.uc
      defects := s.defects.markSample s.angle.bin true } := by
  intro focus track
  rw [State.holding, focusSampled_of_hold hi hfo, trackSampled_of_hold hi htr]
  rfl

/-- A sample in hold, as one that stays in it or that reaches its limit. -/
theorem exec_of_hold {fe te sum : Adc} {d : Detector} {limit : Nat} {begins : Bool} (hs : s.settled) (hp : s.sup.power ≠ .sleep)
    (hf : formSample s.fe fe te sum = f) (hd : d.inHold = true) (hh : detect s f.sumN = d.limitTest limit begins)
    (hfo : if begins then s.focus.state = .locked else s.focus.state = .hold)
    (htr : if begins then s.track.state = .locked else s.track.state = .hold) (hc : s.sled.count < 63) :
    let u := (s.holding f (d.limitTest limit begins)).setDet d
    ∃ t, exec (.servoSample fe te sum) s = .next t ∧ (t.fe.eF = f.eF ∧ t.fe.eT = f.eT) ∧ (d.length < limit → t = u)
      ∧ (limit ≤ d.length → exec .focusLost u = .next t) := by
  intro u
  let h := d.limitTest limit begins
  have hbody := sampleBody_of_hold hs.1.1 hf hh rfl rfl hfo htr hc
  have hrest : (s.holding f h).atRest := hs.1
  have hheld : (s.holding f h).focusHeld = true := focusHeld_iff.mpr (.inr (by
    show (s.focusSampled f h).state = .hold
    rw [focusSampled_of_hold rfl hfo]))
  refine ⟨_, exec_servoSample hs hp fe te sum, hf ▸ sampled_errors hs.1.1 fe te sum, fun hlt => ?_, fun hle => ?_⟩
  · have hstays : h.limit = false := decide_eq_false (Nat.not_le.mpr hlt)
    have hdet : h.det = d := by
      show { d with inHold := !decide (limit ≤ d.length) } = d
      rw [decide_eq_false (Nat.not_le.mpr hlt), Bool.not_false, ← hd]
    have hu : s.holding f h = u := by
      show s.holding f h = (s.holding f h).setDet d
      rw [← hdet]
      rfl
    rw [hbody, if_neg (by rw [hstays]; exact Bool.false_ne_true), settle_of_atRest hrest, endSample_of_calm rfl, hu]
  · have hreached : h.limit = true := decide_eq_true hle
    have hraise : raiseFocusLost u = raiseFocusLost (s.holding f h) := raiseFocusLost_setDet hheld rfl
    have hcalm : (settle (raiseFocusLost (s.holding f h))).fe.crossingNow = false :=
      settling_calm.settle (settling_calm.raiseFocusLost (P := fun s => s.fe.crossingNow = false) (by rfl))
    rw [hbody, if_pos hreached, endSample_of_calm hcalm, ← hraise]
    exact done_of_running raiseFocusLost hs.2

end

/-- Settles O22. -/
theorem holdBegins : Obligations.HoldBegins := by
  unfold Obligations.HoldBegins
  intro s fe te sum hs hp hc g d armed sumN th good record held track u hcase hlen
  let f := formSample s.fe fe te sum
  rcases hcase with ⟨hd, hfo, htr, hth⟩ | ⟨hd, hfo, htr, hgood⟩
  · have hnot : ¬s.det.inHold = true := by rw [hd]; exact Bool.false_ne_true
    have harmed : armed = s.defects.armed := if_neg hnot
    have hrecord : record = Detector.start s.defects.armed s.angle.bin sumN := by rw [← harmed]; exact if_neg hnot
    have hu (h : Detection) (hb : h.begins = true) (hi : h.inHold = true) :
        (s.holding f h).setDet record = u f.eF f.eT := by
      have hheld (x : Axis) (ff : Int) : held x ff = x.heldAt x.uc ff := by
        simp only [held, Axis.heldAt, d, hd]
        rfl
      rw [holding_eq hi (by rw [hb]; exact hfo) (by rw [hb]; exact htr), markSample_true, hb]
      simp only [u, track, hheld]
      rfl
    obtain ⟨t, ht, ⟨heF, heT⟩, hstay, hlimit⟩ := exec_of_hold (f := f) (d := record)
      (limit := if armed then g[21] else g[20]) (begins := true) hs hp rfl (by rw [hrecord]; rfl)
      (by rw [hrecord, harmed]; exact detect_of_begin (focusHeld_iff.mpr (.inl hfo)) hd (harmed ▸ hth)) hfo htr hc
    rw [hu _ rfl rfl] at hstay hlimit
    exact ⟨t, ht, by rw [heF, heT]; exact hstay, by rw [heF, heT]; exact hlimit⟩
  · have harmed : armed = s.det.entryArmed := if_pos hd
    have hrun : good = if holdExit s.active s.fe.level s.det.entryArmed ≤ sumN then s.det.goodRun + 1 else 0 := by
      rw [← harmed]
      rfl
    have hrecord : record = s.det.more (if holdExit s.active s.fe.level s.det.entryArmed ≤ sumN then s.det.goodRun + 1 else 0) sumN := by
      rw [← hrun]
      exact if_pos hd
    have hu (h : Detection) (hb : h.begins = false) (hi : h.inHold = true) :
        (s.holding f h).setDet record = u f.eF f.eT := by
      have hheld (x : Axis) (ff : Int) : held x ff = x.heldAt x.h ff := by
        simp only [held, Axis.heldAt, d, hd]
        rfl
      rw [holding_eq hi (by rw [hb]; exact hfo) (by rw [hb]; exact htr), markSample_true, hb]
      simp only [u, track, hheld]
      rfl
    obtain ⟨t, ht, ⟨heF, heT⟩, hstay, hlimit⟩ := exec_of_hold (f := f) (d := record)
      (limit := if armed then g[21] else g[20]) (begins := false) hs hp rfl (by rw [hrecord]; exact hd)
      (by rw [hrecord, harmed]; exact detect_of_more (focusHeld_iff.mpr (.inr hfo)) hd (hrun ▸ hgood)) hfo htr hc
    rw [hu _ rfl rfl] at hstay hlimit
    exact ⟨t, ht, by rw [heF, heT]; exact hstay, by rw [heF, heT]; exact hlimit⟩

end Sys2Proof.Machine
end


-- ==== Sys2Proof/Proofs/BinRuns.lean ====
section
/-! SUPPORT. Runs of bins modulo 64: when two meet, and the run that unites them (section 4.2, R67, R68). -/

namespace Sys2Proof.Machine

section
variable {f1 f2 b : Fin 64} {n1 n2 : Nat}

/-- Two runs meet where they share a bin. -/
theorem spansMeet_iff (h1 : 1 ≤ n1) (h2 : 1 ≤ n2) : spansMeet f1 n1 f2 n2 = true ↔ ∃ b : Fin 64, binOf f1 n1 b ∧ binOf f2 n2 b := by
  rw [spansMeet, Bool.or_eq_true, inSpan_iff, inSpan_iff]
  constructor
  · rintro (h | h)
    · exact ⟨f2, h, by simp only [binOf]; omega⟩
    · exact ⟨f1, by simp only [binOf]; omega, h⟩
  · rintro ⟨b, hb1, hb2⟩
    simp only [binOf] at hb1 hb2 ⊢
    omega

/-- The united run holds the bins of both. -/
theorem mem_unionSpan_iff (h1 : 1 ≤ n1) (h1' : n1 ≤ 16) (h2 : 1 ≤ n2) (h2' : n2 ≤ 16) (hm : spansMeet f1 n1 f2 n2 = true) :
    binOf (unionSpan f1 n1 f2 n2).1 (unionSpan f1 n1 f2 n2).2 b ↔ binOf f1 n1 b ∨ binOf f2 n2 b := by
  have hval (x y : Fin 64) : (x - y).val = (x.val + 64 - y.val) % 64 := by
    rw [Fin.val_sub]
    congr 1
    omega
  rw [spansMeet, Bool.or_eq_true] at hm
  unfold unionSpan
  by_cases hin : inSpan f1 n1 f2 = true
  · rw [if_pos hin]
    rw [inSpan_iff] at hin
    simp only [binOf, hval] at hin ⊢
    omega
  · rw [if_neg hin]
    have hback : binOf f2 n2 f1 := (inSpan_iff _ _ _).mp (hm.resolve_left hin)
    rw [inSpan_iff] at hin
    simp only [binOf, hval] at hin hback ⊢
    omega

theorem unionSpan_le (h1 : n1 ≤ 16) (h2 : n2 ≤ 16) (hm : spansMeet f1 n1 f2 n2 = true) : (unionSpan f1 n1 f2 n2).2 ≤ 64 := by
  have hval (x y : Fin 64) : (x - y).val = (x.val + 64 - y.val) % 64 := by
    rw [Fin.val_sub]
    congr 1
    omega
  rw [spansMeet, Bool.or_eq_true] at hm
  unfold unionSpan
  by_cases hin : inSpan f1 n1 f2 = true
  · rw [if_pos hin]
    rw [inSpan_iff] at hin
    simp only [binOf, hval] at hin ⊢
    omega
  · rw [if_neg hin]
    have hback : binOf f2 n2 f1 := (inSpan_iff _ _ _).mp (hm.resolve_left hin)
    simp only [binOf, hval] at hback ⊢
    omega

/-- A run of `n` bins has `n` of the 64. -/
theorem length_filter_binOf (f : Fin 64) {n : Nat} (h : n ≤ 64) :
    ((List.finRange 64).filter (fun b => decide (binOf f n b))).length = n := by
  have hcard : ((List.finRange 64).filter (fun b => decide (binOf f n b))).length
      = (Finset.univ.filter (fun b : Fin 64 => binOf f n b)).card := rfl
  have hshift : (Finset.univ.filter (fun b : Fin 64 => binOf f n b)).card = (Finset.univ.filter (fun x : Fin 64 => x.val < n)).card := by
    refine Finset.card_nbij' (fun b => b - f) (fun x => x + f) (fun b hb => ?_) (fun x hx => ?_) (fun b _ => sub_add_cancel b f)
      (fun x _ => add_sub_cancel_right x f)
    · simp only [Finset.coe_filter, Finset.mem_univ, true_and, Set.mem_ofPred_eq, binOf, Fin.val_sub] at hb ⊢
      omega
    · simp only [Finset.coe_filter, Finset.mem_univ, true_and, Set.mem_ofPred_eq, binOf, Fin.val_add] at hx ⊢
      omega
  rw [hcard, hshift, Fin.card_filter_val_lt]
  exact min_eq_right h

end

end Sys2Proof.Machine
end


-- ==== Sys2Proof/Proofs/HoldRegions.lean ====
section
/-! SUPPORT. What the Defect Window Table makes of a hold that ends: hits, a merge, a new entry, an eviction, or nothing (R63, R65 to
R69, R75). -/

namespace Sys2Proof.Machine

/-! ## A region against an entry (R67, R68) -/

/-- The entry and the region have a bin in common. -/
abbrev Region.shares (r : Region) (d : Defect) : Prop := ∃ b : Fin 64, binOf d.first d.span b ∧ binOf r.first r.span b

/-- How many bins the entry and the region cover together. -/
def Region.bins (r : Region) (d : Defect) : Nat :=
  ((List.finRange 64).filter (fun b => decide (binOf d.first d.span b ∨ binOf r.first r.span b))).length

/-- The entry takes the region in (R68). -/
def Region.merges (r : Region) (tp : Nat) (d : Defect) : Prop :=
  d.origin = .learned ∧ r.shares d ∧ d.inner ≤ tp + 64 ∧ tp ≤ d.outer + 64 ∧ r.bins d ≤ 16

section
variable {r : Region} {d : Defect} {tp : Nat}

/-- The test of the merge on an index (R68). -/
def mergeTest (r : Region) (tp : Nat) (d : Option Defect) : Bool := d.any (·.merges r tp)

theorem learnRegion_eq (r : Region) (s : State) : learnRegion r s = (firstIndex (mergeTest r s.seek.tpCur) s.defects.entries.toList 0).elim
    (createEntry r s) (fun i => putLearned i ((s.defects.entry i).map (·.merge r s.seek.tpCur)) s) := by
  unfold learnRegion
  dsimp only
  split <;> next hfound =>
    refine .trans ?_ (congrArg (Option.elim · _ _) (Eq.symm ((congrArg (firstIndex · _ 0) (funext fun d => ?_)).trans hfound)))
    · rfl
    · cases d <;> rfl

/-- A region and an entry of bin counts the table can hold. -/
structure Spans (r : Region) (d : Defect) : Prop where
  region : 1 ≤ r.span ∧ r.span ≤ 16
  entry : 1 ≤ d.span ∧ d.span ≤ 16

namespace Spans

theorem meet_iff (h : Spans r d) : spansMeet d.first d.span r.first r.span = true ↔ r.shares d := spansMeet_iff h.entry.1 h.region.1

theorem mem_union_iff (h : Spans r d) (hs : r.shares d) (b : Fin 64) :
    binOf (unionSpan d.first d.span r.first r.span).1 (unionSpan d.first d.span r.first r.span).2 b
      ↔ binOf d.first d.span b ∨ binOf r.first r.span b :=
  mem_unionSpan_iff h.entry.1 h.entry.2 h.region.1 h.region.2 (h.meet_iff.mpr hs)

theorem bins_eq (h : Spans r d) (hs : r.shares d) : r.bins d = (unionSpan d.first d.span r.first r.span).2 := by
  have hbins : r.bins d = ((List.finRange 64).filter (fun b =>
      decide (binOf (unionSpan d.first d.span r.first r.span).1 (unionSpan d.first d.span r.first r.span).2 b))).length := by
    rw [Region.bins]
    congr 2
    funext b
    exact decide_eq_decide.mpr (h.mem_union_iff hs b).symm
  rw [hbins]
  exact length_filter_binOf _ (unionSpan_le h.entry.2 h.region.2 (h.meet_iff.mpr hs))

theorem merges_iff (h : Spans r d) : d.merges r tp = true ↔ r.merges tp d := by
  simp only [Defect.merges, Region.merges, Bool.and_eq_true, decide_eq_true_iff, h.meet_iff]
  constructor
  · rintro ⟨⟨⟨⟨ho, hs⟩, hi⟩, hou⟩, hb⟩
    exact ⟨ho, hs, hi, hou, by rw [h.bins_eq hs]; exact hb⟩
  · rintro ⟨ho, hs, hi, hou, hb⟩
    exact ⟨⟨⟨⟨ho, hs⟩, hi⟩, hou⟩, by rw [← h.bins_eq hs]; exact hb⟩

theorem hitBy_iff (h : Spans r d) : d.hitBy r tp = true ↔ r.shares d ∧ d.inner ≤ tp ∧ tp ≤ d.outer := by
  simp only [Defect.hitBy, Defect.inRange, Bool.and_eq_true, decide_eq_true_iff, h.meet_iff]

end Spans

end

/-! ## What the table does with a region -/

section
variable {s : State} {r : Region}

/-- The table of a lawful machine, with a region of bins that it can hold. -/
structure Offers (s : State) (r : Region) : Prop where
  region : 1 ≤ r.span ∧ r.span ≤ 16
  entries : entriesLaw s.defects.entries

namespace Offers

theorem spans (h : Offers s r) {i : Fin 32} {d : Defect} (hd : s.defects.entries[i] = some d) : Spans r d :=
  ⟨h.region, (h.entries i d hd).1, (h.entries i d hd).2.1⟩

/-- The hits of an armed hold (R67). -/
theorem hitEntries_eq (h : Offers s r) : hitEntries r s = s.setDefects ⟨s.defects.entries.map (fun x => x.map (fun d =>
    if r.shares d ∧ d.inner ≤ s.seek.tpCur ∧ s.seek.tpCur ≤ d.outer then d.hit r.depth s.seek.tpCur else d)), s.defects.armed⟩ := by
  refine congrArg (fun e => s.setDefects ⟨e, s.defects.armed⟩) (Vector.ext fun i hi => ?_)
  rw [mapTable_getElem, Vector.getElem_map]
  cases hd : s.defects.entries[i] with
  | none => rfl
  | some d =>
    have hiff := (h.spans (i := ⟨i, hi⟩) hd).hitBy_iff (tp := s.seek.tpCur)
    exact congrArg some (if_congr hiff rfl rfl)

/-- The merge into the qualifying entry of lowest index (R68). -/
theorem learnRegion_of_merge (h : Offers s r) {i : Fin 32} {d : Defect} (hd : s.defects.entries[i] = some d) (hm : r.merges s.seek.tpCur d)
    (hfirst : ∀ j : Fin 32, j < i → ∀ y, s.defects.entries[j] = some y → ¬r.merges s.seek.tpCur y) :
    learnRegion r s = putLearned i.val (some (d.merge r s.seek.tpCur)) s := by
  let test := mergeTest r s.seek.tpCur
  have hlen : i.val < s.defects.entries.toList.length := by simp
  have hget (j : Nat) (hj : j < s.defects.entries.toList.length) :
      s.defects.entries.toList[j] = s.defects.entries[(⟨j, by simpa using hj⟩ : Fin 32)] := by simp
  have hfound : firstIndex test s.defects.entries.toList 0 = some (0 + i.val) := by
    refine firstIndex_eq_some hlen ?_ fun j hj => ?_
    · rw [hget]
      show test s.defects.entries[i] = true
      rw [hd]
      exact (h.spans hd).merges_iff.mpr hm
    · have hj32 : j < 32 := hj.trans i.isLt
      rw [hget]
      cases hy : s.defects.entries[(⟨j, hj32⟩ : Fin 32)] with
      | none => rfl
      | some y => exact Bool.eq_false_iff.mpr fun ht => hfirst ⟨j, hj32⟩ hj y hy ((h.spans hy).merges_iff.mp ht)
  have hentry : s.defects.entry i.val = some d := by
    rw [DefectTable.entry, Vector.getElem?_eq_getElem i.isLt]
    exact hd
  rw [learnRegion_eq, hfound, Nat.zero_add, Option.elim_some, hentry]
  rfl

theorem learnRegion_of_new (h : Offers s r) (hnone : ∀ (j : Fin 32) (y : Defect), s.defects.entries[j] = some y → ¬r.merges s.seek.tpCur y) :
    learnRegion r s = createEntry r s := by
  have hfound : firstIndex (mergeTest r s.seek.tpCur) s.defects.entries.toList 0 = none := by
    refine (firstIndex_eq_none_iff _ _ _).mpr fun x hx => ?_
    obtain ⟨j, rfl⟩ := mem_entries_iff.mp hx
    cases hy : s.defects.entries[j] with
    | none => rfl
    | some y => exact Bool.eq_false_iff.mpr fun ht => hnone j y hy ((h.spans hy).merges_iff.mp ht)
  rw [learnRegion_eq, hfound]
  rfl

end Offers

theorem createEntry_of_free {i : Fin 32} (hi : s.defects.entries[i] = none) (hmin : ∀ j : Fin 32, j < i → s.defects.entries[j] ≠ none) :
    createEntry r s = putLearned i.val (some (r.entry s.seek.tpCur)) s := by
  unfold createEntry
  dsimp only
  rw [freeIndex_eq_some hi hmin]

theorem createEntry_of_weakest {i : Fin 32} {y : Defect} (hfull : ∀ j : Fin 32, s.defects.entries[j] ≠ none)
    (hi : s.defects.entries[i] = some y) (hy : y.origin = .learned)
    (hmin : ∀ (j : Fin 32) (x : Defect), s.defects.entries[j] = some x → x.origin = .learned →
      y.hits < x.hits ∨ (y.hits = x.hits ∧ i ≤ j)) :
    createEntry r s = putLearned i.val (some (r.entry s.seek.tpCur)) (postDefect .evicted i.val s) := by
  unfold createEntry
  dsimp only
  rw [freeIndex_eq_none hfull, evictIndex_eq_some hi hy hmin]

theorem createEntry_of_hosts (hall : ∀ j : Fin 32, s.defects.entries[j].map Defect.origin = some .host) :
    createEntry r s = postDefect .full 255 s := by
  have hsome (j : Fin 32) : ∃ y, s.defects.entries[j] = some y ∧ y.origin = .host := by
    obtain ⟨y, hy, ho⟩ := Option.map_eq_some_iff.mp (hall j)
    exact ⟨y, hy, ho⟩
  have hfull (j : Fin 32) : s.defects.entries[j] ≠ none := by
    obtain ⟨y, hy, -⟩ := hsome j
    rw [hy]
    exact Option.some_ne_none y
  have hnone : s.defects.evictIndex = none := evictIndex_eq_none fun j x hx => by
    obtain ⟨y, hy, ho⟩ := hsome j
    cases hx.symm.trans hy
    rw [ho]
    exact Origin.noConfusion
  unfold createEntry
  dsimp only
  rw [freeIndex_eq_none hfull, hnone]

/-- A table of HOST entries alone takes nothing from a hold (R69). -/
theorem Offers.learnRegion_of_hosts (h : Offers s r) (hall : ∀ j : Fin 32, s.defects.entries[j].map Defect.origin = some .host) :
    learnRegion r s = postDefect .full 255 s := by
  refine (h.learnRegion_of_new fun j y hy hm => ?_).trans (createEntry_of_hosts hall)
  have hhost := hall j
  rw [hy, Option.map_some, hm.1] at hhost
  exact Origin.noConfusion (Option.some.inj hhost)

/-- What learning writes: the entry, the flag and the notice (R66, R75). -/
theorem putLearned_eq (i : Fin 32) (d : Option Defect) : ∃ armed, putLearned i.val d s
      = (s.setDefects ⟨s.defects.entries.set i d, armed⟩).setLink (s.link.post .defect [0, byte i.val])
    ∧ (armed = true ↔ covered (s.defects.entries.set i d) s.angle.bin s.seek.tpCur) := by
  obtain ⟨heq, hiff⟩ := arm_put s.defects i d s.angle.bin s.seek.tpCur
  refine ⟨_, ?_, hiff⟩
  rw [← heq]
  rfl

/-- A LEARNED entry can always be evicted. -/
theorem weakest_ne_none {l : List (Option Defect)} {n : Nat} {best : Option (Nat × Nat)}
    (h : best ≠ none ∨ ∃ x, some x ∈ l ∧ x.origin = .learned) : weakest l n best ≠ none := by
  induction l generalizing n best with
  | nil => exact h.resolve_right fun ⟨x, hx, _⟩ => absurd hx List.not_mem_nil
  | cons d ds ih =>
    rw [weakest.eq_def]
    refine ih ?_
    have hbest (b : Nat × Nat) (x : Defect) :
        (if (decide (x.origin = .learned) && decide (x.hits < b.2)) = true then some (n, x.hits) else some b) ≠ none := by
      split <;> exact Option.some_ne_none _
    rcases h with h | ⟨x, hx, ho⟩
    · obtain ⟨b, rfl⟩ := Option.ne_none_iff_exists'.mp h
      cases d with
      | none => exact .inl (Option.some_ne_none b)
      | some y => exact .inl (hbest b y)
    · rcases List.mem_cons.mp hx with rfl | hx
      · cases best with
        | none => exact .inl ((if_pos ho).trans_ne (Option.some_ne_none (n, x.hits)))
        | some b => exact .inl (hbest b x)
      · exact .inr ⟨x, hx, ho⟩

end

end Sys2Proof.Machine
end


-- ==== Sys2Proof/Proofs/ArmedHold.lean ====
section
/-! SUPPORT. The fourth good sample, which ends a hold (R59, R61, R63 to R69). -/

namespace Sys2Proof.Machine

section
variable {s : State} {r : Region}

/-! ## What becomes of the region (R63) -/

/-- The region is learned (R63). -/
def Region.learns (r : Region) (s : State) : Bool :=
  r.armed = false ∧ 8 ≤ r.length ∧ s.groups.shockMode = false ∧ (s.seq.state = .following ∨ s.seq.state = .paused) ∧ s.seek.valid = true

theorem offered_iff : offered r s = true
    ↔ 8 ≤ r.length ∧ s.groups.shockMode = false ∧ (s.seq.state = .following ∨ s.seq.state = .paused) ∧ s.seek.valid = true := by
  simp only [offered, Bool.and_eq_true, decide_eq_true_iff, Bool.not_eq_true', Bool.or_eq_true, and_assoc]

theorem takeRegion_of_learns (h : r.learns s = true) : takeRegion r s = learnRegion r s := by
  obtain ⟨harmed, hoffer⟩ := of_decide_eq_true h
  rw [takeRegion, if_neg (by rw [harmed]; exact Bool.false_ne_true), if_pos (offered_iff.mpr hoffer)]

theorem takeRegion_of_hits (ha : r.armed = true) (hv : s.seek.valid = true) :
    takeRegion r s = rearmIfChanged s (hitEntries r s) := by
  rw [takeRegion, if_pos ha, if_pos hv]

theorem takeRegion_of_other (h : r.learns s = false) (ho : r.armed = false ∨ s.seek.valid = false) : takeRegion r s = s := by
  have hno := of_decide_eq_false h
  unfold takeRegion
  split
  next ha =>
    have hv : s.seek.valid = false := ho.resolve_left (fun hf => Bool.false_ne_true (hf.symm.trans ha))
    rw [if_neg (by rw [hv]; exact Bool.false_ne_true)]
  next ha => rw [if_neg fun hoffer => hno ⟨Bool.eq_false_iff.mpr ha, offered_iff.mp hoffer⟩]

theorem not_learns_of_armed (h : r.armed = true) : r.learns s = false :=
  decide_eq_false fun hl => Bool.false_ne_true (hl.1.symm.trans h)

/-- Only the table and the Notice Queue take anything from a hold. -/
theorem takeRegion_eq (r : Region) (s : State) :
    takeRegion r s = (s.setDefects (takeRegion r s).defects).setLink (takeRegion r s).link := by
  unfold takeRegion learnRegion createEntry rearmIfChanged
  dsimp only
  split
  · split
    · split <;> rfl
    · rfl
  · split
    · split
      · rfl
      · split
        · rfl
        · split <;> rfl
    · rfl

/-! ## The armed flag after it (R66) -/

theorem rearm_armed (s : State) : (rearm s).defects.armed = true ↔ covered s.defects.entries s.angle.bin s.seek.tpCur :=
  armed_arm_iff _ _ _

theorem learnRegion_cases (r : Region) (s : State) : (∃ i d L, learnRegion r s = putLearned i d (s.setLink L))
    ∨ (learnRegion r s = postDefect .full 255 s ∧ s.defects.freeIndex = none ∧ s.defects.evictIndex = none) := by
  unfold learnRegion createEntry
  dsimp only
  split
  · exact .inl ⟨_, _, s.link, rfl⟩
  · split
    · exact .inl ⟨_, _, s.link, rfl⟩
    · split
      · exact .inl ⟨_, _, _, rfl⟩
      next hfree _ hnone => exact .inr ⟨rfl, hfree, hnone⟩

/-- A table that has no room for a new entry holds HOST entries alone. -/
theorem hosts_of_no_room (hf : s.defects.freeIndex = none) (he : s.defects.evictIndex = none) (j : Fin 32) :
    s.defects.entries[j].map Defect.origin = some .host := by
  have hmem : s.defects.entries[j] ∈ s.defects.entries.toList := mem_entries_iff.mpr ⟨j, rfl⟩
  have htaken := (firstIndex_eq_none_iff _ _ _).mp hf _ hmem
  cases hd : s.defects.entries[j] with
  | none =>
    rw [hd] at htaken
    exact absurd htaken (by simp)
  | some d =>
    have hhost : d.origin ≠ .learned := fun ho =>
      weakest_ne_none (.inr ⟨d, hd ▸ hmem, ho⟩) (Option.map_eq_none_iff.mp he)
    cases ho : d.origin with
    | host => rw [Option.map_some, ho]
    | learned => exact absurd ho hhost

theorem learned_armed (hl : r.learns s = true) (hroom : ¬∀ j : Fin 32, s.defects.entries[j].map Defect.origin = some .host) :
    (takeRegion r s).defects.armed = true ↔ covered (takeRegion r s).defects.entries s.angle.bin s.seek.tpCur := by
  rw [takeRegion_of_learns hl]
  rcases learnRegion_cases r s with ⟨i, d, L, heq⟩ | ⟨-, hf, he⟩
  · rw [heq]
    exact rearm_armed ((s.setLink L).setDefects ((s.setLink L).defects.put i d))
  · exact absurd (hosts_of_no_room hf he) hroom

theorem hit_armed (hl : r.learns s = false) (he : (takeRegion r s).defects.entries ≠ s.defects.entries) :
    (takeRegion r s).defects.armed = true ↔ covered (takeRegion r s).defects.entries s.angle.bin s.seek.tpCur := by
  by_cases hhit : r.armed = true ∧ s.seek.valid = true
  · rw [takeRegion_of_hits hhit.1 hhit.2] at he ⊢
    unfold rearmIfChanged at he ⊢
    split
    next hsame => exact absurd hsame (by rw [if_pos hsame] at he; exact he)
    · exact rearm_armed (hitEntries r s)
  · refine absurd ?_ he
    rw [takeRegion_of_other hl (by simpa only [not_and_or, Bool.not_eq_true] using hhit)]

theorem unhit_armed (hl : r.learns s = false) (he : (takeRegion r s).defects.entries = s.defects.entries) :
    (takeRegion r s).defects.armed = s.defects.armed := by
  by_cases hhit : r.armed = true ∧ s.seek.valid = true
  · rw [takeRegion_of_hits hhit.1 hhit.2] at he ⊢
    unfold rearmIfChanged at he ⊢
    split
    · rfl
    next hchanged => exact absurd (by rw [if_neg hchanged] at he; exact he) hchanged
  · rw [takeRegion_of_other hl (by simpa only [not_and_or, Bool.not_eq_true] using hhit)]

/-! ## The entries and notices after it -/

theorem takeRegion_entries_of_hits (h : Offers s r) (ha : r.armed = true) (hv : s.seek.valid = true) (i : Fin 32) :
    (takeRegion r s).defects.entries[i] = s.defects.entries[i].map (fun d =>
      if r.shares d ∧ d.inner ≤ s.seek.tpCur ∧ s.seek.tpCur ≤ d.outer then d.hit r.depth s.seek.tpCur else d) := by
  have hentries : (takeRegion r s).defects.entries = (hitEntries r s).defects.entries := by
    rw [takeRegion_of_hits ha hv, rearmIfChanged]
    split <;> rfl
  rw [hentries, h.hitEntries_eq]
  exact Vector.getElem_map ..

theorem takeRegion_link_of_unlearned (hl : r.learns s = false) : (takeRegion r s).link = s.link := by
  by_cases hhit : r.armed = true ∧ s.seek.valid = true
  · rw [takeRegion_of_hits hhit.1 hhit.2, rearmIfChanged]
    split <;> rfl
  · rw [takeRegion_of_other hl (by simpa only [not_and_or, Bool.not_eq_true] using hhit)]

/-- What learning writes: the entry alone, and its notice (R75). -/
theorem putLearned_entries (i : Fin 32) (d : Option Defect) (s : State) :
    (∀ j : Fin 32, j ≠ i → (putLearned i.val d s).defects.entries[j] = s.defects.entries[j])
      ∧ (putLearned i.val d s).defects.entries[i] = d ∧ (putLearned i.val d s).link = s.link.post .defect [0, byte i.val] := by
  obtain ⟨armed, heq, -⟩ := putLearned_eq (s := s) i d
  rw [heq]
  refine ⟨fun j hj => ?_, ?_, rfl⟩
  · show (s.defects.entries.set i d)[j] = _
    rw [Fin.getElem_fin, Vector.getElem_set_ne _ _ (fun h => hj (Fin.ext h.symm)), Fin.getElem_fin]
  · show (s.defects.entries.set i d)[i] = _
    rw [Fin.getElem_fin, Vector.getElem_set_self]

/-- The merged entry (R68). -/
theorem merge_eq {d : Defect} {tp : Nat} (h : Spans r d) (hs : r.shares d) :
    d.merge r tp = { d.hit r.depth tp with first := (d.merge r tp).first, span := r.bins d, pass := .none }
      ∧ ∀ b : Fin 64, binOf (d.merge r tp).first (d.merge r tp).span b ↔ binOf d.first d.span b ∨ binOf r.first r.span b := by
  refine ⟨?_, h.mem_union_iff hs⟩
  rw [h.bins_eq hs]
  rfl

/-! ## The sample that ends the hold (R61) -/

/-- A pass under way over the current bin is CLEAN on a sample not in hold (R70). -/
theorem markSample_false (t : DefectTable) (b : Fin 64) : t.markSample b false = { t with
    entries := t.entries.map (fun x => x.map (fun x =>
      if binOf x.first x.span b ∧ x.pass = .watching then { x with pass := .clean } else x)) } := by
  have hmark (d : Defect) : (if inSpan d.first d.span b = true then { d with pass := d.pass.onSample false } else d)
      = if binOf d.first d.span b ∧ d.pass = .watching then { d with pass := .clean } else d := by
    have hsame (p : Pass) (hp : d.pass = p) : { d with pass := p } = d := by rw [← hp]
    by_cases hb : binOf d.first d.span b
    · rw [if_pos ((inSpan_iff _ _ _).mpr hb)]
      cases hp : d.pass with
      | watching =>
        rw [if_pos ⟨hb, rfl⟩]
        rfl
      | none =>
        rw [if_neg (fun h => Pass.noConfusion h.2)]
        exact hsame _ hp
      | clean =>
        rw [if_neg (fun h => Pass.noConfusion h.2)]
        exact hsame _ hp
      | hit =>
        rw [if_neg (fun h => Pass.noConfusion h.2)]
        exact hsame _ hp
    · rw [if_neg (fun h => hb ((inSpan_iff _ _ _).mp h)), if_neg (fun h => hb h.1)]
  rw [DefectTable.markSample, DefectTable.update, mapTable_eq_map]
  simp only [hmark]

/-- What the detector finds on the sample that ends a hold (R61). -/
def Detector.ends (d : Detector) : Detection := ⟨{ d with inHold := false, goodRun := 4 }, false, false, some d.region, false⟩

theorem detect_of_end {sumN : Nat} (hf : s.focusHeld = true) (hd : s.det.inHold = true) (hg : s.det.goodRun = 3)
    (hexit : holdExit s.active s.fe.level s.det.entryArmed ≤ sumN) : detect s sumN = s.det.ends := by
  rw [detect, if_pos hf, Detector.sample, if_pos hd]
  dsimp only
  rw [if_pos hexit, hg]
  rfl

/-- The machine after the sample that ends a hold. -/
theorem sampleBody_of_end {fe te sum : Adc} {f : Formed} (hs : s.signals = []) (hf : formSample s.fe fe te sum = f)
    (hh : detect s f.sumN = s.det.ends) (k : Locks s f s.det.ends) (hc : s.sled.count < 63) : sampleBody fe te sum s
      = takeRegion s.det.region (s.measured f s.det.ends (s.sled.sums (s.trackSampled f s.det.ends).ax.uc)) := by
  rw [sampleBody_of_held hf hh (.inl (by rw [k.track])) hc]
  have heq := takeRegion_eq s.det.region (s.measured f s.det.ends (s.sled.sums (s.trackSampled f s.det.ends).ax.uc))
  exact k.events (u := takeRegion s.det.region _) ((congrArg State.signals heq).trans hs) (congrArg State.focus heq)
    (congrArg State.track heq) ((congrArg State.groups heq).trans rfl)

end

/-- Settles O23. -/
theorem armedHoldEnds : Obligations.ArmedHoldEnds := by
  unfold Obligations.ArmedHoldEnds
  intro s fe te sum hs hp hf ht hd hgood hg hlaw hoff hc g tp sumN armed th hexit hsum span marked shares hit learns bins merges fresh
    alone full changed r loop adds reads
  let f := formSample s.fe fe te sum
  let h := s.det.ends
  let region := s.det.region
  have hdetect : detect s f.sumN = h := detect_of_end (focusHeld_iff.mpr (.inr hf)) hd hgood hexit
  have k : Locks s f h := locks hg (.inr hf) (.inr ht) rfl rfl rfl hoff hsum
  let S : State := s.measured f h (s.sled.sums (s.trackSampled f h).ax.uc)
  let u : State := takeRegion region S
  have hS : S.defects = ⟨marked, s.defects.armed⟩ := by
    have hlocked : (s.focusSampled f h).state = .locked := by rw [k.focus]
    show (if h.inHold || (s.focusSampled f h).state = .locked then s.defects.markSample s.angle.bin h.inHold else s.defects) = _
    rw [if_pos (by rw [hlocked]; rfl)]
    exact markSample_false s.defects s.angle.bin
  have hmarked : S.defects.entries = marked := congrArg DefectTable.entries hS
  have heq : u = (S.setDefects u.defects).setLink u.link := takeRegion_eq region S
  have hbody : sampleBody fe te sum s = u := sampleBody_of_end hs.1.1 rfl hdetect k hc
  have hoffers : Offers S region := by
    refine ⟨⟨Nat.succ_pos _, Nat.succ_le_succ hlaw.1⟩, ?_⟩
    have hlawful : entriesLaw (s.defects.markSample s.angle.bin false).entries :=
      entriesLaw_update _ (fun d hd => by split <;> exact hd) hlaw.2
    rw [hmarked]
    rw [markSample_false] at hlawful
    exact hlawful
  have hrest : u.atRest := by
    rw [heq]
    exact hs.1
  have hfe : (endSample u).fe = { frontEndSample f false true s.fe with crossingNow := false } := by
    rw [heq, ← k.fe]
    rfl
  obtain ⟨hcoef, hlevel, hacc, hcount⟩ := sampled_sum f false s.fe
  have hread := frontEndSample_readings f false true s.fe
  have heF : (endSample u).fe.eF = f.eF := by rw [hfe]; exact congrArg (fun r => r.2.2.1) hread
  have heT : (endSample u).fe.eT = f.eT := by rw [hfe]; exact congrArg (fun r => r.2.2.2.1) hread
  have hfocus : (endSample u).focus = s.focusSampled f h := by rw [heq]; rfl
  have htrack : (endSample u).track = s.trackSampled f h := by rw [heq]; rfl
  have hrecord : (endSample u).rev = s.rev.set s.angle.bin (s.recordLocked (endSample u).track.ax.uc (endSample u).focus.ax.uc) := by
    rw [hfocus, htrack, ← k.record, heq]
    rfl
  refine ⟨endSample u, exec_servoSample_of_atRest hs hp hbody hrest, by rw [heq]; rfl, ?_, ?_, by rw [htrack, heq]; rfl,
    ?_, ?_, ?_, ?_, ?_, fun b hb => ?_, ?_, fun ha hv i => ?_, fun hl ho => ?_, fun hl => ?_, fun hl => ?_, fun hch => ?_, fun hch => ?_,
    by rw [heq]; rfl, by rw [heq]; rfl, by rw [heq]; rfl, by rw [heq]; rfl, by rw [heq]; rfl, by rw [heq]; rfl, by rw [heq]; rfl⟩
  · rw [hfocus, k.focus, heF]
    rfl
  · rw [htrack, k.track, heT]
    rfl
  · rw [hfe]
    exact hcoef
  · rw [hfe]
    exact hlevel
  · rw [hfe]
    exact congrArg (fun x => x.2.2.2.2) hread
  · rw [hfe]
    exact hacc
  · rw [hfe]
    exact hcount
  · rw [hrecord, Fin.getElem_fin, Vector.getElem_set_ne _ _ (fun h => hb (Fin.ext h.symm)), Fin.getElem_fin]
  · rw [hrecord, Fin.getElem_fin, Vector.getElem_set_self]
    rfl
  · have hi := takeRegion_entries_of_hits hoffers ha hv i
    rw [hmarked] at hi
    exact hi
  · have hkept : u = S := takeRegion_of_other hl ho
    show u.defects.entries = marked
    rw [hkept, hmarked]
  · exact (takeRegion_link_of_unlearned hl : u.link = S.link)
  · have hlearn : u = learnRegion region S := takeRegion_of_learns hl
    have hput (i : Fin 32) (d : Option Defect) (L : Link) (hu : u = putLearned i.val d (S.setLink L)) :
        alone i (endSample u).defects.entries ∧ (endSample u).defects.entries[i] = d
          ∧ (endSample u).link = L.post .defect [0, byte i.val] := by
      have hentries := putLearned_entries i d (S.setLink L)
      rw [← hu, show (S.setLink L).defects = _ from hS] at hentries
      exact hentries
    refine ⟨fun i d hi hm hfirst => ?_, fun hnone => ⟨fun i hi hmin => ?_, fun hfull => ⟨fun i d hi ho hmin => ?_, fun hall => ?_⟩⟩⟩
    · have hmerge := hoffers.learnRegion_of_merge (hmarked ▸ hi) hm (hmarked ▸ hfirst)
      obtain ⟨halone, hentry, hlink⟩ := hput i _ s.link (hlearn.trans hmerge)
      obtain ⟨hm', hbins⟩ := merge_eq (tp := tp) (hoffers.spans (hmarked ▸ hi)) hm.2.1
      exact ⟨halone, hlink, d.merge region tp, hentry, hm', hbins⟩
    · have hnew := (hoffers.learnRegion_of_new (hmarked ▸ hnone)).trans (createEntry_of_free (hmarked ▸ hi) (hmarked ▸ hmin))
      exact hput i _ s.link (hlearn.trans hnew)
    · have hnew := (hoffers.learnRegion_of_new (hmarked ▸ hnone)).trans
        (createEntry_of_weakest (hmarked ▸ hfull) (hmarked ▸ hi) ho (hmarked ▸ hmin))
      exact hput i _ (s.link.post .defect [1, byte i.val]) (hlearn.trans hnew)
    · have hu : u = postDefect .full 255 S := hlearn.trans (hoffers.learnRegion_of_hosts (hmarked ▸ hall))
      show u.defects.entries = marked ∧ u.link = _
      rw [hu]
      exact ⟨hmarked, rfl⟩
  · show u.defects.armed = true ↔ covered u.defects.entries s.angle.bin tp
    rcases hch with ⟨hl, hroom⟩ | ⟨hl, hne⟩
    · exact learned_armed (r := region) (s := S) hl (hmarked.symm ▸ hroom)
    · exact hit_armed (r := region) (s := S) hl (hmarked.symm ▸ hne)
  · show u.defects.armed = s.defects.armed
    refine .trans ?_ (show S.defects.armed = s.defects.armed by rw [hS])
    cases hl : learns with
    | true =>
      have hall : full := not_not.mp fun hroom => hch (.inl ⟨hl, hroom⟩)
      have hu : u = postDefect .full 255 S :=
        (takeRegion_of_learns hl : u = learnRegion region S).trans (hoffers.learnRegion_of_hosts (hmarked ▸ hall))
      rw [hu]
      rfl
    | false =>
      have hsame : u.defects.entries = marked := not_not.mp fun hne => hch (.inr ⟨hl, hne⟩)
      exact unhit_armed (r := region) (s := S) hl (hmarked ▸ hsame)

end Sys2Proof.Machine
end


-- ==== Sys2Proof/Proofs/OpenSamples.lean ====
section
/-! SUPPORT. A sample with the tracking loop in none of its held states (R13, R35, R43 to R51, R107, R108). -/

namespace Sys2Proof.Machine

section
variable {s : State} {f : Formed} {h : Detection}

/-! ## The crossing detector (R13) -/

/-- A sample makes a crossing (R13). -/
def FrontEnd.crosses (x : FrontEnd) (tec : Int) : Bool := (x.side = .negative ∧ 128 ≤ tec) ∨ (x.side = .positive ∧ tec ≤ -128)

/-- The crossing count after a sample. -/
def FrontEnd.counted (x : FrontEnd) (tec : Int) : Nat := if x.crosses tec then min 16777215 (x.crossings + 1) else x.crossings

/-- The side after a sample. -/
def FrontEnd.sided (x : FrontEnd) (tec : Int) : Side := if tec ≤ -128 then .negative else if 128 ≤ tec then .positive else x.side

theorem crossingStep_eq (x : FrontEnd) (tec : Int) : crossingStep x.side tec = (x.sided tec, x.crosses tec) := by
  unfold crossingStep FrontEnd.sided FrontEnd.crosses
  cases x.side <;> dsimp only <;> split_ifs <;> simp <;> omega

theorem cross_counts (x : FrontEnd) (tec : Int) :
    x.cross false tec = { x with side := x.sided tec, crossingNow := x.crosses tec, crossings := x.counted tec } := by
  unfold FrontEnd.cross
  dsimp only
  rw [if_neg Bool.false_ne_true, crossingStep_eq]
  rfl

/-- The crossing detector's part of a sample does not turn on whether SUM is accumulated. -/
theorem frontEndSample_counts (f : Formed) (accumulates : Bool) (x : FrontEnd) :
    (frontEndSample f false accumulates x).crossingNow = x.crosses f.tec ∧ (frontEndSample f false accumulates x).crossings = x.counted f.tec := by
  have hcounts (y : FrontEnd) (hs : y.side = x.side) (hc : y.crossings = x.crossings) :
      (y.cross false f.tec).crossingNow = x.crosses f.tec ∧ (y.cross false f.tec).crossings = x.counted f.tec := by
    have hcrosses : y.crosses f.tec = x.crosses f.tec := by simp only [FrontEnd.crosses, hs]
    rw [cross_counts]
    exact ⟨hcrosses, by simp only [FrontEnd.counted, hcrosses, hc]⟩
  cases accumulates with
  | false => exact hcounts (x.taken f) rfl rfl
  | true =>
    refine hcounts ((x.taken f).accumulate f.sumRaw) ?_ ?_ <;> rw [accumulate_eq] <;> rfl

/-! ## The sample up to its procedure (R35, R107, R108) -/

/-- The sled with the tracking loop not held (R107, R108). -/
def State.sledLoose (s : State) : Sled :=
  { s.sled with
    sum := 0, count := 0
    drive := if s.track.state = .openSeek then s.forceSled (moveDrive s.active[31] s.sled.move) else 0 }

/-- The tracking loop is neither LOCKED nor HOLD. -/
theorem not_held_iff : s.trackHeld = false ↔ s.track.state ≠ .locked ∧ s.track.state ≠ .hold := by
  simp [State.trackHeld]

theorem advancePhase_state (t : TrackLoop) (n : Nat) : (t.advancePhase n).state = t.state := by
  unfold TrackLoop.advancePhase
  split <;> rfl

theorem trackOutput_state (g : GroupRec) (inHold : Bool) (eT ff : Int) (t : TrackLoop) : (trackOutput g inHold eT ff t).state = t.state := by
  unfold trackOutput
  split
  · rfl
  · rfl
  · rfl
  · rfl
  · rfl
  · split <;> rfl
  · split <;> rfl

/-- The tracking loop's drive while it is not held: no hold follows, and the off-track count stands. -/
theorem trackSampled_of_loose (ht : s.trackHeld = false) : s.trackSampled f s.det.quiet
    = trackOutput s.active false f.eT s.rev[s.angle.bin].trkFf (s.track.advancePhase (s.fe.counted f.tec)) := by
  obtain ⟨hl, hh⟩ := not_held_iff.mp ht
  have hfollow : s.track.follow s.det.quiet = s.track := by
    show (if false = true then _ else if false = true then _ else _) = _
    rw [if_neg Bool.false_ne_true, if_neg Bool.false_ne_true, if_neg hh]
  have hcrossings : (s.feSampled f s.det.quiet).crossings = s.fe.counted f.tec := (frontEndSample_counts f _ s.fe).2
  have hstate (inHold : Bool) (ff : Int) :
      (trackOutput s.active inHold f.eT ff (s.track.advancePhase (s.fe.counted f.tec))).state ≠ .locked := by
    rw [trackOutput_state, advancePhase_state]
    exact hl
  rw [State.trackSampled, hfollow, hcrossings]
  show TrackLoop.countOff _ _ _ _ = _
  rw [TrackLoop.countOff, if_neg (by simp [hstate])]
  rfl

/-- The machine before the procedures of a sample with the tracking loop not held. -/
def State.unlocked (s : State) (f : Formed) : State := s.measured f s.det.quiet s.sledLoose

theorem unlocked_track (ht : s.trackHeld = false) : (s.unlocked f).track
    = trackOutput s.active false f.eT s.rev[s.angle.bin].trkFf (s.track.advancePhase (s.fe.counted f.tec)) := trackSampled_of_loose ht

theorem unlocked_not_held (ht : s.trackHeld = false) : (s.unlocked f).trackHeld = false := by
  obtain ⟨hl, hh⟩ := not_held_iff.mp ht
  refine not_held_iff.mpr ?_
  rw [unlocked_track ht, trackOutput_state, advancePhase_state]
  exact ⟨hl, hh⟩

theorem sampleBody_of_loose {fe te sum : Adc} (hf : formSample s.fe fe te sum = f) (hh : detect s f.sumN = s.det.quiet)
    (ht : s.trackHeld = false) : sampleBody fe te sum s
      = sampleEvents s.det.quiet (s.fe.crosses f.tec) f.eT (searchSample f (s.unlocked f)) := by
  have hstate : (s.learned f s.det.quiet).track.state = s.track.state := by
    show (s.trackSampled f s.det.quiet).state = _
    rw [trackSampled_of_loose ht, trackOutput_state, advancePhase_state]
  have hheld : (s.learned f s.det.quiet).trackHeld = false := by
    rw [State.trackHeld, hstate]
    exact ht
  have hsled : sledSample (s.learned f s.det.quiet) = (s.learned f s.det.quiet).setSled s.sledLoose := by
    rw [sledSample_of_loose hheld, hstate]
    rfl
  rw [sampleBody_eq hf hh hsled]
  exact congrArg (fun c => sampleEvents s.det.quiet c f.eT (searchSample f (s.unlocked f))) (frontEndSample_counts f _ s.fe).1

/-- Nothing counts towards an incident with the tracking loop not held and the focus-lost count below its limit. -/
theorem raiseDue_of_loose (ht : s.trackHeld = false) (hf : s.focusHeld = false ∨ s.focus.lost < s.active[25]) : raiseDue s = s := by
  have hoff : s.offTrackDue = false := by rw [State.offTrackDue, ht, Bool.false_and]
  have hlost : s.focusLostDue = false := by
    rcases hf with hf | hf
    · rw [State.focusLostDue, hf, Bool.false_and]
    · rw [State.focusLostDue, decide_eq_false (by exact Nat.not_le.mpr hf), Bool.and_false]
  simp only [raiseDue, hoff, hlost]
  rfl

/-- A sample not in hold that loses no focus: the procedure, what it hands on, and the counters. -/
theorem sampleEvents_of_kept {d : Detector} {crossing : Bool} {eT : Int} (hl : s.focusLostDue = false) :
    sampleEvents d.quiet crossing eT s = raiseDue (drain 64 (trackSample crossing false eT s)) := by
  unfold sampleEvents
  dsimp only
  rw [if_neg (fun h => by simp [losesFocus, Detector.quiet, hl] at h)]
  rfl

end

end Sys2Proof.Machine
end


-- ==== Sys2Proof/Proofs/ClosingSamples.lean ====
section
/-! SUPPORT. A sample with focus LOCKED and the tracking loop in a procedure: PULLIN, SETTLING, a jump or a move (R43 to R51). -/

namespace Sys2Proof.Machine

section
variable {s v : State} {f : Formed} {x : TrackLoop} {fe te sum : Adc}

/-- A good sample with focus LOCKED and the tracking loop not held. -/
structure Lit (s : State) (f : Formed) : Prop where
  focus : s.focus.state = .locked
  loose : s.trackHeld = false
  detect : Machine.detect s f.sumN = s.det.quiet
  sum : s.active[24] ≤ f.sumN
  groups : groupLaw s.groups
  quiet : s.atRest

/-- What a sample of a procedure leaves as it is, the crossing count at `n`. -/
abbrev Stands (s : State) (n : Nat) (t : State) : Prop := t.angle = s.angle ∧ t.groups = s.groups ∧ t.spindle = s.spindle
  ∧ t.loader = s.loader ∧ t.sup = s.sup ∧ t.fe.crossings = n ∧ t.focus.state = s.focus.state

namespace Lit

theorem lost (k : Lit s f) : (s.unlocked f).focus.state = s.focus.state ∧ (s.unlocked f).focus.lost < s.active[25] := by
  have hfocus : (s.unlocked f).focus = _ := focusSampled_of_locked (.inl k.focus) (h := s.det.quiet) rfl rfl k.sum
  have hlimit : 1 ≤ s.active[25] := field_le k.groups 25
  rw [hfocus]
  exact ⟨k.focus.symm, hlimit⟩

theorem focusLostDue (k : Lit s f) : (s.unlocked f).focusLostDue = false := by
  rw [State.focusLostDue, decide_eq_false (by exact Nat.not_le.mpr k.lost.2), Bool.and_false]

/-- The sample with its procedure, where nothing that it hands on moves the focus loop or the group. -/
theorem exec (k : Lit s f) (hs : s.settled) (hp : s.sup.power ≠ .sleep) (hf : formSample s.fe fe te sum = f)
    (hv : drain 64 (trackSample (s.fe.crosses f.tec) false f.eT (s.unlocked f)) = v) (hfocus : v.focus = (s.unlocked f).focus)
    (hgroups : v.groups = s.groups) (hoff : v.trackHeld = false ∨ v.track.offCount < s.active[23]) (hrest : v.atRest) :
    Machine.exec (.servoSample fe te sum) s = .next (endSample v) := by
  have hactive : v.active = s.active := by simp only [State.active, hgroups]
  have hlost : v.focus.lost < v.active[25] := by
    rw [hfocus, hactive]
    exact k.lost.2
  have hdue : raiseDue v = v := by
    rcases hoff with hoff | hoff
    · exact raiseDue_of_loose hoff (.inr hlost)
    · exact raiseDue_of_below (by rw [hactive]; exact hoff) hlost
  have hsearch : searchSample f (s.unlocked f) = s.unlocked f :=
    searchSample_of_other (by rw [k.lost.1, k.focus]; exact FocusState.noConfusion)
  refine exec_servoSample_of_atRest hs hp ?_ hrest
  rw [sampleBody_of_loose hf k.detect k.loose, hsearch, sampleEvents_of_kept k.focusLostDue, hv, hdue]

theorem errors (_ : Lit s f) : (s.unlocked f).fe.eT = f.eT :=
  congrArg (fun r => r.2.2.2.1) (frontEndSample_readings f false (!false && (s.focus.follow s.det.quiet).state = .locked) s.fe)

theorem stands (k : Lit s f) (x : TrackLoop) : Stands s (s.fe.counted f.tec) (endSample ((s.unlocked f).setTrack x)) :=
  ⟨rfl, rfl, rfl, rfl, rfl, (frontEndSample_counts f _ s.fe).2, k.lost.1⟩

/-- The sample of a procedure that hands nothing on. -/
theorem exec_of_quiet (k : Lit s f) (hs : s.settled) (hp : s.sup.power ≠ .sleep) (hf : formSample s.fe fe te sum = f)
    (hx : trackSample (s.fe.crosses f.tec) false f.eT (s.unlocked f) = (s.unlocked f).setTrack x)
    (hl : ((s.unlocked f).setTrack x).trackHeld = false) :
    Machine.exec (.servoSample fe te sum) s = .next (endSample ((s.unlocked f).setTrack x)) :=
  k.exec (v := (s.unlocked f).setTrack x) hs hp hf (by rw [hx]; exact drain_of_quiet 64 (by exact hs.1.1)) rfl rfl (.inl hl) hs.1

end Lit

/-! ## The drive of a procedure (R35) -/

theorem trackOutput_of_open {g : GroupRec} {eT ff : Int} (h : x.state = .pullin ∨ x.state = .openSeek) :
    trackOutput g false eT ff x = { x with ax := x.ax.output 0 ff } := by
  rcases h with h | h <;> simp only [trackOutput, h]

theorem trackOutput_of_settling {g : GroupRec} {eT ff : Int} (h : x.state = .settling) :
    trackOutput g false eT ff x = { x with ax := x.ax.compensate g[4] g[5] g[6] eT ff } := by
  simp only [trackOutput, h, Bool.false_eq_true, if_false]

theorem trackOutput_of_jumping {g : GroupRec} {eT ff : Int} (h : x.state = .jumping) :
    trackOutput g false eT ff x = { x with ax := x.ax.output (jumpOutput g[32] x.jumpLen x.phase) ff } := by
  simp only [trackOutput, h]

theorem advancePhase_of_other {n : Nat} (h : x.state ≠ .jumping) : x.advancePhase n = x := if_neg (by simp [h])

/-! ## PULLIN (R43, R45) -/

theorem pullinSample_eq {crossing : Bool} {eT : Int} (ht : s.track.timer + 1 < 1280) :
    pullinSample crossing eT s = s.setTrack
      (if crossing then { s.track with timer := s.track.timer + 1 }.closePullIn eT else { s.track with timer := s.track.timer + 1 }) := by
  have htimer : countUp 1280 s.track.timer = s.track.timer + 1 := Nat.min_eq_right ht.le
  rw [pullinSample, htimer]
  exact if_neg (Nat.not_le.mpr (by cases crossing <;> exact ht))

theorem Lit.pullin (k : Lit s f) (hst : s.track.state = .pullin) (ht : s.track.timer + 1 < 1280) :
    let ax := s.track.ax.output 0 s.rev[s.angle.bin].trkFf
    trackSample (s.fe.crosses f.tec) false f.eT (s.unlocked f) = (s.unlocked f).setTrack
      (if s.fe.crosses f.tec then { s.track with
          state := .settling, ax := { ax with a := 0, ePrev := f.eT }, settleRun := 0, fromPullin := true, timer := s.track.timer + 1 }
        else { s.track with ax := ax, timer := s.track.timer + 1 }) := by
  intro ax
  have htrack : (s.unlocked f).track = { s.track with ax := ax } := by
    rw [unlocked_track k.loose, advancePhase_of_other (by rw [hst]; exact TrackState.noConfusion), trackOutput_of_open (.inl hst)]
  have hstate : (s.unlocked f).track.state = .pullin := by rw [htrack, ← hst]
  rw [trackSample, hstate]
  refine (pullinSample_eq (by rw [htrack]; exact ht)).trans (congrArg _ ?_)
  rw [htrack]
  rfl

/-! ## SETTLING (R45, R128, R139) -/

/-- The settle run after a sample. -/
def State.settleRunAt (s : State) (eT : Int) : Nat := if eT.natAbs < 256 then s.track.settleRun + 1 else 0

/-- The tracking loop settling one sample more. -/
def State.settled1 (s : State) (f : Formed) : TrackLoop :=
  { s.track with
    ax := s.track.ax.compensate s.active[4] s.active[5] s.active[6] f.eT s.rev[s.angle.bin].trkFf
    settleRun := s.settleRunAt f.eT, timer := s.track.timer + 1 }

theorem Lit.settling (k : Lit s f) (hst : s.track.state = .settling) (ht : s.track.timer + 1 < 1280) :
    trackSample (s.fe.crosses f.tec) false f.eT (s.unlocked f)
      = if 64 ≤ s.settleRunAt f.eT then enterLocked ((s.unlocked f).setTrack (s.settled1 f)) else (s.unlocked f).setTrack (s.settled1 f) := by
  have htrack : (s.unlocked f).track
      = { s.track with ax := s.track.ax.compensate s.active[4] s.active[5] s.active[6] f.eT s.rev[s.angle.bin].trkFf } := by
    rw [unlocked_track k.loose, advancePhase_of_other (by rw [hst]; exact TrackState.noConfusion), trackOutput_of_settling hst]
  have hstate : (s.unlocked f).track.state = .settling := by rw [htrack, ← hst]
  have htimer : countUp 1280 s.track.timer = s.track.timer + 1 := Nat.min_eq_right ht.le
  have hnext : { (s.unlocked f).track with
      settleRun := settleRunNext (s.unlocked f).track.settleRun false f.eT
      timer := countUp 1280 (s.unlocked f).track.timer } = s.settled1 f := by
    rw [htrack]
    show ({ s.track with ax := _, settleRun := _, timer := countUp 1280 s.track.timer } : TrackLoop) = _
    rw [htimer]
    rfl
  rw [trackSample, hstate]
  show settlingSample false f.eT (s.unlocked f) = _
  unfold settlingSample
  dsimp only
  rw [hnext]
  exact if_congr (by rw [htrack]; rfl) rfl (if_neg (Nat.not_le.mpr ht))

/-- The machine as its tracking loop enters LOCKED (R45). -/
def State.locksIn (s : State) : State := s.setTrack { s.track with state := .locked, offCount := 0, goal := .none, byPause := false }

/-- What a tracking loop that enters LOCKED reports (R45). -/
def TrackLoop.reports (t : TrackLoop) : List Signal :=
  match t.goal with
  | .none => [.lockEntered]
  | .trackLocked => [.trackLocked, .lockEntered]
  | .jumpDone => [.jumpDone t.byPause, .lockEntered]

theorem enterLocked_eq (hs : s.signals = []) : enterLocked s = s.locksIn.setSignals s.track.reports := by
  unfold enterLocked TrackLoop.reports
  dsimp only
  cases s.track.goal with
  | none => exact congrArg (fun l => s.locksIn.setSignals (l ++ [.lockEntered])) hs
  | trackLocked => exact congrArg (fun l => s.locksIn.setSignals (l ++ [.trackLocked] ++ [.lockEntered])) hs
  | jumpDone => exact congrArg (fun l => s.locksIn.setSignals (l ++ [.jumpDone s.track.byPause] ++ [.lockEntered])) hs

/-- A report is nothing to a Seek Engine with no task. -/
theorem handle_report_of_idle {y : Signal} (htask : s.seek.task = none) (hr : s.seek.retry = false) (hl : s.seek.limitStop = false)
    (hy : y = .trackLocked ∨ ∃ b, y = .jumpDone b) : handle y s = s := by
  rcases hy with rfl | ⟨b, rfl⟩
  · show seekTrackLocked s = s
    unfold seekTrackLocked
    rw [htask]
    cases s.seek.leg with
    | move _ _ landed => cases landed <;> rfl
    | none => rfl
    | jump _ => rfl
    | wait => rfl
  · cases b with
    | true => rfl
    | false =>
      show seekJumpDone s = s
      unfold seekJumpDone
      rw [hr, hl, htask]
      cases s.seek.leg <;> rfl

theorem handle_lockEntered_of_idle (hr : s.seek.retry = false) (hst : s.seq.state = .following ∨ s.seq.state = .engaging) :
    handle .lockEntered s = engageAdvance s := by
  have hreorder : seekReorder s = s := by
    rw [seekReorder, hr]
    rfl
  show seqLockEntered (seekReorder s) = _
  rw [hreorder, seqLockEntered]
  rcases hst with h | h <;> simp [State.haltWait, h]

/-- With no task in the Seek Engine what the tracking loop reports goes to the sequencer alone. -/
theorem drain_enterLocked (n : Nat) (hs : s.signals = []) (htask : s.seek.task = none) (hr : s.seek.retry = false)
    (hl : s.seek.limitStop = false) (hst : s.seq.state = .following ∨ s.seq.state = .engaging)
    (hq : (engageAdvance s.locksIn).signals = []) : drain (n + 2) (enterLocked s) = engageAdvance s.locksIn := by
  have hrest (n : Nat) : drain (n + 1) (s.locksIn.setSignals [.lockEntered]) = engageAdvance s.locksIn := by
    have hback : (s.locksIn.setSignals [.lockEntered]).setSignals [] = s.locksIn := setSignals_nil (s := s.locksIn) hs
    rw [drain_cons n rfl, hback, handle_lockEntered_of_idle (by exact hr) (by exact hst), drain_of_quiet n hq]
  rw [enterLocked_eq hs, TrackLoop.reports]
  cases s.track.goal with
  | none => exact hrest (n + 1)
  | trackLocked =>
    rw [drain_cons (n + 1) rfl, handle_report_of_idle (by exact htask) (by exact hr) (by exact hl) (.inl rfl)]
    exact hrest n
  | jumpDone =>
    rw [drain_cons (n + 1) rfl, handle_report_of_idle (by exact htask) (by exact hr) (by exact hl) (.inr ⟨_, rfl⟩)]
    exact hrest n

/-- A task stopped at the inner limit ends LIMIT at its jump done (R128). -/
theorem drain_enterLocked_of_limit {e : Entry} (n : Nat) (hs : s.signals = []) (hq : s.seq.queue = [e]) (he : e.inProgress = true)
    (hst : s.seq.state = .seeking ∨ s.seq.state = .jumping) (hg : s.track.goal = .jumpDone) (hb : s.track.byPause = false)
    (hl : s.seek.limitStop = true) (hr : s.seek.retry = false) :
    drain (n + 4) (enterLocked s) = s.locksIn.followed (endNotices 7 [e]) := by
  let u : State := s.locksIn.setSignals [.lockEntered]
  have henter : enterLocked s = u.setSignals [.jumpDone false, .lockEntered] := by
    rw [enterLocked_eq hs, TrackLoop.reports, hg, hb]
    rfl
  have hjump : handle (.jumpDone false) u = endTask .limit u := by
    show seekJumpDone u = _
    rw [seekJumpDone, show u.seek.retry = false from hr, show u.seek.limitStop = true from hl]
    rfl
  have hout : seqOutcome .limit (u.setSeek u.seek.dropTask) = endFollowing .limit (u.setSeek u.seek.dropTask) :=
    seqOutcome_ends EndOutcome.noConfusion (hst.imp id .inl)
  have hstate : u.seq.state ≠ .following := by
    rcases hst with h | h <;> rw [show u.seq.state = _ from h] <;> exact SeqState.noConfusion
  have hlocked : handle .lockEntered (s.locksIn.followed (endNotices 7 [e])) = s.locksIn.followed (endNotices 7 [e]) := rfl
  rw [henter, drain_cons (n + 3) rfl]
  show drain (n + 3) (handle (.jumpDone false) u) = _
  rw [hjump, drain_endTask, hout, endFollowing_dropped (s := u) .limit hq he hstate, drain_testHead (n + 1) (headDue_of_empty rfl),
    drain_cons n rfl]
  have hback : (u.followed (endNotices 7 [e])).setSignals [] = s.locksIn.followed (endNotices 7 [e]) := by
    show { s.locksIn.followed (endNotices 7 [e]) with signals := [] } = _
    rw [← show (s.locksIn.followed (endNotices 7 [e])).signals = [] from hs]
  show drain n (handle .lockEntered ((u.followed (endNotices 7 [e])).setSignals [])) = _
  rw [hback, hlocked, drain_of_quiet n (by exact hs)]

end

end Sys2Proof.Machine
end


-- ==== Sys2Proof/Proofs/CrossingSamples.lean ====
section
/-! SUPPORT. A sample of a jump or of a move, with focus LOCKED (R44, R47 to R49, R51, R108). -/

namespace Sys2Proof.Machine

section
variable {s : State} {f : Formed}

/-! ## A jump (R47, R48, R51) -/

/-- The stall count after a sample (R51). -/
def State.stallAt (s : State) (tec : Int) : Nat := if s.fe.crosses tec then 0 else s.track.stall + 1

theorem stallSample_eq {crossing : Bool} (ht : s.track.stall + 1 < 1280) :
    stallSample crossing s = s.setTrack { s.track with stall := if crossing then 0 else s.track.stall + 1 } := by
  have hstall : countUp 1280 s.track.stall = s.track.stall + 1 := Nat.min_eq_right ht.le
  unfold stallSample
  cases crossing with
  | true => rfl
  | false =>
    dsimp only
    rw [if_neg Bool.false_ne_true, hstall, if_neg (by exact Nat.not_le.mpr ht), if_neg Bool.false_ne_true]

/-- The tracking loop of a jump on a sample, before the count closes it. -/
def State.jumpedAt (s : State) (f : Formed) : TrackLoop :=
  let phase := jumpPhaseAt s.track.jumpLen.natAbs (s.fe.counted f.tec)
  { s.track with phase := phase, ax := s.track.ax.output (jumpOutput s.active[32] s.track.jumpLen phase) s.rev[s.angle.bin].trkFf }

theorem jumpPhaseAt_ne_close (n crossings : Nat) : jumpPhaseAt n crossings ≠ .close := by
  unfold jumpPhaseAt
  split
  · exact JumpPhase.noConfusion
  · split <;> exact JumpPhase.noConfusion

theorem unlocked_jump (k : Lit s f) (hst : s.track.state = .jumping) (hp : s.track.phase ≠ .close) :
    (s.unlocked f).track = s.jumpedAt f := by
  have hphase : s.track.advancePhase (s.fe.counted f.tec)
      = { s.track with phase := jumpPhaseAt s.track.jumpLen.natAbs (s.fe.counted f.tec) } := if_pos (by simp [hst, hp])
  rw [unlocked_track k.loose, hphase]
  exact trackOutput_of_jumping hst

theorem Lit.jumping (k : Lit s f) (hst : s.track.state = .jumping) (hp : s.track.phase ≠ .close) (ht : s.track.stall + 1 < 1280) :
    trackSample (s.fe.crosses f.tec) false f.eT (s.unlocked f) = (s.unlocked f).setTrack
      (if 2 * s.track.jumpLen.natAbs ≤ s.fe.counted f.tec then { (s.jumpedAt f).closeJump f.eT with stall := 0 }
        else { s.jumpedAt f with stall := s.stallAt f.tec }) := by
  have htrack := unlocked_jump k hst hp
  have hstate : (s.unlocked f).track.state = .jumping := by rw [htrack]; exact hst
  have hopen : (s.unlocked f).track.phase ≠ .close := by rw [htrack]; exact jumpPhaseAt_ne_close _ _
  have hcount : (s.unlocked f).fe.crossings = s.fe.counted f.tec := (frontEndSample_counts f _ s.fe).2
  have hdone : (s.unlocked f).track.jumpComplete (s.unlocked f).fe.crossings = true
      ↔ 2 * s.track.jumpLen.natAbs ≤ s.fe.counted f.tec := by
    have hlen : (s.unlocked f).track.jumpLen = s.track.jumpLen := by rw [htrack]; rfl
    simp only [TrackLoop.jumpComplete, hstate, hopen, hcount, hlen, mag, decide_true, decide_false, Bool.not_false, Bool.true_and,
      decide_eq_true_iff]
  rw [trackSample, hstate]
  refine (if_neg hopen).trans ?_
  unfold jumpSample
  rw [stallSample_eq (s := s.unlocked f) (by rw [htrack]; exact ht), htrack]
  rw [htrack] at hdone
  exact (if_congr hdone rfl rfl).trans (apply_ite (s.unlocked f).setTrack _ _ _).symm

/-- The phase and the drive of a jump by its count (R35, R47). -/
theorem jumpPhaseAt_eq (n crossings : Nat) : jumpPhaseAt n crossings
    = if crossings < n then .kick else if crossings < 2 * n - 1 then .brake else .coast := by
  unfold jumpPhaseAt
  by_cases hkick : crossings < n
  · rw [if_neg (by omega), if_neg (by omega), if_pos hkick]
  · rw [if_neg hkick]
    by_cases hbrake : crossings < 2 * n - 1
    · rw [if_neg (by omega), if_pos (by omega), if_pos hbrake]
    · rw [if_pos (by omega), if_neg hbrake]

theorem jumpOutput_eq (kick : Nat) (len : Int) (p : JumpPhase) :
    jumpOutput kick len p = if p = .kick then (if len < 0 then -(kick : Int) else kick)
      else if p = .brake then -(if len < 0 then -(kick : Int) else kick) else 0 := by
  cases p <;> rfl

/-! ## A move (R49, R51, R108) -/

/-- The tracking loop of a move on a sample. -/
def State.movedAt (s : State) : TrackLoop := { s.track with ax := s.track.ax.output 0 s.rev[s.angle.bin].trkFf }

theorem unlocked_move (k : Lit s f) (hst : s.track.state = .openSeek) : (s.unlocked f).track = s.movedAt := by
  rw [unlocked_track k.loose, advancePhase_of_other (by rw [hst]; exact TrackState.noConfusion), trackOutput_of_open (.inr hst)]
  rfl

/-- The leg of a move whose count is reached (R124). -/
def Leg.landed (l : Leg) : Leg :=
  match l with
  | .move out count _ => .move out count true
  | l => l

theorem seekMoveDone_eq (s : State) : seekMoveDone s = s.setSeek { s.seek with leg := s.seek.leg.landed } := by
  unfold seekMoveDone Leg.landed
  cases hl : s.seek.leg with
  | move _ _ _ => rfl
  | none =>
    show s = s.setSeek { s.seek with leg := .none }
    rw [← hl]
    rfl
  | jump _ =>
    show s = s.setSeek { s.seek with leg := .jump _ }
    rw [← hl]
    rfl
  | wait =>
    show s = s.setSeek { s.seek with leg := .wait }
    rw [← hl]
    rfl

/-- The machine whose move has reached its count (R44, R49). -/
def State.moveEnded (s : State) : State :=
  ((s.setSled s.sled.endMove).setTrack { s.track.pullIn 1 with stall := 0, goal := .trackLocked, byPause := false }).setSeek
    { s.seek with leg := s.seek.leg.landed }

theorem drain_moveComplete (n : Nat) (hs : s.signals = []) : drain (n + 1) (moveComplete s) = s.moveEnded := by
  rw [moveComplete, drain_emit n (by exact hs)]
  show drain n (seekMoveDone _) = _
  rw [seekMoveDone_eq, drain_of_quiet n (by exact hs)]
  rfl

theorem Lit.moving (k : Lit s f) (hst : s.track.state = .openSeek) (ht : s.track.stall + 1 < 1280) :
    trackSample (s.fe.crosses f.tec) false f.eT (s.unlocked f)
      = if s.fe.crosses f.tec = true ∧ s.track.moveCount ≤ s.fe.counted f.tec then moveComplete (s.unlocked f)
        else (s.unlocked f).setTrack { s.movedAt with stall := s.stallAt f.tec } := by
  have htrack := unlocked_move k hst
  have hstate : (s.unlocked f).track.state = .openSeek := by rw [htrack]; exact hst
  have hcount : (s.unlocked f).fe.crossings = s.fe.counted f.tec := (frontEndSample_counts f _ s.fe).2
  have hgoal : (s.unlocked f).track.moveCount = s.track.moveCount := by rw [htrack]; rfl
  rw [trackSample, hstate]
  show moveSample (s.fe.crosses f.tec) (s.unlocked f) = _
  unfold moveSample
  rw [stallSample_eq (s := s.unlocked f) (by rw [htrack]; exact ht), hcount, hgoal]
  refine if_congr (by simp only [Bool.and_eq_true, decide_eq_true_iff]) rfl ?_
  rw [htrack]
  rfl

/-- The drive of an open move with the force in effect (R108 to R110). -/
theorem forceSled_eq (s : State) (drive : Int) :
    s.forceSled drive = if s.sup.crankHold = true ∨ (s.sup.innerLimit.level = true ∧ drive < 0) then 0 else drive := by
  unfold State.forceSled sledForce
  cases s.sup.crankHold with
  | true => exact (if_pos (.inl rfl)).symm
  | false => exact (if_neg Bool.false_ne_true).trans (if_congr (by simp) rfl rfl)

end

end Sys2Proof.Machine
end


-- ==== Sys2Proof/Proofs/OpenLoops.lean ====
section
/-! SUPPORT. A sample with both loops OFF, and one of the search (R5, R35, R41, R107, R139, R151). -/

namespace Sys2Proof.Machine

section
variable {s : State} {f : Formed} {fe te sum : Adc}

/-! ## Nothing is driven (R35, R107) -/

/-- With focus in none of its held states the detector does not run. -/
theorem detect_of_not_held {n : Nat} (h : s.focusHeld = false) : detect s n = s.det.quiet := if_neg (by rw [h]; exact Bool.false_ne_true)

/-- The Front End of a sample that accumulates no SUM. -/
def FrontEnd.sees (x : FrontEnd) (f : Formed) : FrontEnd :=
  { x with
    eF := f.eF, eT := f.eT, sumN := f.sumN, side := x.sided f.tec, crossings := x.counted f.tec, crossingNow := x.crosses f.tec }

/-- Both loops as a sample leaves them that neither holds. -/
structure Dark (s : State) (f : Formed) : Prop where
  focus : s.focus.state = .off ∨ s.focus.state = .search
  track : s.track.state = .off

namespace Dark

theorem focusHeld (k : Dark s f) : s.focusHeld = false := by
  rcases k.focus with h | h <;> simp [State.focusHeld, h]

theorem loose (k : Dark s f) : s.trackHeld = false := not_held_iff.mpr (by
  rw [k.track]
  exact ⟨TrackState.noConfusion, TrackState.noConfusion⟩)

/-- The focus loop of a sample: nothing in OFF, the ramp in SEARCH (R35, R41). -/
def drives (s : State) : FocusLoop :=
  { s.focus with ax := { s.focus.ax with uc := 0, u := if s.focus.state = .search then searchRamp s.focus.pos else 0 } }

theorem focus_eq (k : Dark s f) : s.focusSampled f s.det.quiet = drives s := by
  have hfollow : s.focus.follow s.det.quiet = s.focus := by
    show (if false = true then _ else if false = true then _ else _) = _
    rw [if_neg Bool.false_ne_true, if_neg Bool.false_ne_true, if_neg]
    rcases k.focus with h | h <;> rw [h] <;> exact FocusState.noConfusion
  have hout (ff : Int) : focusOutput s.active false f.eF ff s.focus = drives s := by
    unfold drives
    rcases k.focus with h | h <;> simp [focusOutput, h]
  have hstate : (drives s).state ≠ .locked := by
    show s.focus.state ≠ _
    rcases k.focus with h | h <;> rw [h] <;> exact FocusState.noConfusion
  rw [State.focusSampled, hfollow]
  show FocusLoop.countLost _ _ _ _ = _
  rw [show focusOutput s.active s.det.quiet.inHold f.eF s.bin.focFf s.focus = drives s from hout _, FocusLoop.countLost, if_neg (by simp [hstate])]

theorem fe_eq (k : Dark s f) : s.feSampled f s.det.quiet = s.fe.sees f := by
  have hfollow : (s.focus.follow s.det.quiet).state ≠ .locked := by
    show (if s.focus.state = .hold then _ else s.focus.state) ≠ _
    rcases k.focus with h | h <;> rw [h] <;> exact FocusState.noConfusion
  rw [State.feSampled, decide_eq_false hfollow, Bool.and_false]
  show frontEndSample f false false s.fe = _
  rw [frontEndSample_still, cross_counts]
  rfl

/-- The machine before the search of the sample. -/
theorem unlocked_eq (k : Dark s f) : s.unlocked f = { s with
    fe := s.fe.sees f
    focus := drives s
    track := { s.track with ax := { s.track.ax with uc := 0, u := 0 } }
    sled := { s.sled with sum := 0, count := 0, drive := 0 } } := by
  have htrack : s.trackSampled f s.det.quiet = { s.track with ax := { s.track.ax with uc := 0, u := 0 } } := by
    rw [trackSampled_of_loose k.loose, advancePhase_of_other (by rw [k.track]; exact TrackState.noConfusion)]
    simp only [trackOutput, k.track]
  have hfocus : (drives s).state ≠ .locked := by
    show s.focus.state ≠ _
    rcases k.focus with h | h <;> rw [h] <;> exact FocusState.noConfusion
  have hrecord : s.recordSampled false (drives s) { s.track with ax := { s.track.ax with uc := 0, u := 0 } } = s.rev[s.angle.bin] := by
    simp [State.recordSampled, hfocus, k.track, State.bin]
  have hsled : s.sledLoose = { s.sled with sum := 0, count := 0, drive := 0 } := by
    rw [State.sledLoose, k.track]
    rfl
  have hrev : s.rev.set s.angle.bin s.rev[s.angle.bin] = s.rev := Vector.set_getElem_self _
  rw [State.unlocked, State.measured, k.fe_eq, k.focus_eq, htrack, hsled]
  show { s with
    fe := _, focus := _, track := _, sled := _
    rev := s.rev.set s.angle.bin (s.recordSampled false (drives s) { s.track with ax := { s.track.ax with uc := 0, u := 0 } })
    defects := if (false || decide ((drives s).state = FocusState.locked)) = true then _ else s.defects } = _
  rw [hrecord, hrev, if_neg (by simp [hfocus])]

end Dark

/-- The sample of a part with both loops OFF, up to what follows from it. -/
theorem sampleBody_of_off (hs : s.atRest) (hf : s.focus.state = .off) (ht : s.track.state = .off) :
    sampleBody fe te sum s = { s with
      fe := s.fe.sees (formSample s.fe fe te sum)
      focus := { s.focus with ax := { s.focus.ax with uc := 0, u := 0 } }
      track := { s.track with ax := { s.track.ax with uc := 0, u := 0 } }
      sled := { s.sled with sum := 0, count := 0, drive := 0 } } := by
  let f := formSample s.fe fe te sum
  have k : Dark s f := ⟨.inl hf, ht⟩
  have hdrives : Dark.drives s = { s.focus with ax := { s.focus.ax with uc := 0, u := 0 } } := by
    rw [Dark.drives, if_neg (by rw [hf]; exact FocusState.noConfusion)]
  rw [← hdrives, ← k.unlocked_eq, sampleBody_of_loose rfl (detect_of_not_held k.focusHeld) k.loose]
  have hfocus : (s.unlocked f).focus.state = .off := by rw [k.unlocked_eq]; exact hf
  have htrack : (s.unlocked f).track.state = .off := by rw [k.unlocked_eq]; exact ht
  have hheld : (s.unlocked f).focusHeld = false := by simp [State.focusHeld, hfocus]
  have hprocedure : trackSample (s.fe.crosses f.tec) false f.eT (s.unlocked f) = s.unlocked f := by rw [trackSample, htrack]
  rw [searchSample_of_other (by rw [hfocus]; exact FocusState.noConfusion),
    sampleEvents_of_kept (by rw [State.focusLostDue, hheld, Bool.false_and]), hprocedure, drain_of_quiet 64 (by exact hs.1),
    raiseDue_of_loose (unlocked_not_held k.loose) (.inl hheld)]

/-! ## The search (R41, R42) -/

theorem captures_eq (level : Nat) (prev : Option Int) (fec : Int) (sumN : Nat) :
    captures level prev fec sumN = (decide (2 * level ≤ sumN) && prev.any (fun q => decide (q < 0 ↔ 0 ≤ fec))) := by
  cases prev with
  | none => exact (Bool.and_false _).symm
  | some q =>
    refine congrArg (decide (2 * level ≤ sumN) && ·) ?_
    by_cases hq : q < 0 <;> by_cases hf : fec < 0 <;> simp [hq, hf, Int.not_lt.mp, Int.not_le.mpr]

/-- The ramp of the search (R41). -/
theorem searchRamp_eq (p : Nat) : searchRamp p = if p < 8192 then -1024 + (p : Int) / 4 else 1024 - ((p : Int) - 8192) / 4 := by
  unfold searchRamp
  split <;> omega

theorem searchSample_of_sweep (hf : s.focus.state = .search) (hc : captures s.active[24] s.focus.prevFec f.fec f.sumN = false)
    (hp : s.focus.pos < 16383 ∨ s.focus.sweep < 3) : searchSample f s = s.setFocus { s.focus with
      pos := if s.focus.pos < 16383 then s.focus.pos + 1 else 0
      sweep := if s.focus.pos < 16383 then s.focus.sweep else s.focus.sweep + 1
      prevFec := some f.fec } := by
  rw [searchSample, if_pos hf, hc, if_neg Bool.false_ne_true]
  by_cases hpos : s.focus.pos < 16383
  · rw [if_pos hpos, if_pos hpos, if_pos hpos]
  · rw [if_neg hpos, if_neg hpos, if_neg hpos, if_neg (Nat.not_le.mpr (hp.resolve_left hpos))]

/-- A sample of the search that captures nothing (R41). -/
theorem sampleBody_of_sweep (hs : s.atRest) (hf : s.focus.state = .search) (ht : s.track.state = .off)
    (hc : captures s.active[24] s.focus.prevFec (formSample s.fe fe te sum).fec (formSample s.fe fe te sum).sumN = false)
    (hp : s.focus.pos < 16383 ∨ s.focus.sweep < 3) : sampleBody fe te sum s = { s with
      fe := s.fe.sees (formSample s.fe fe te sum)
      focus := { s.focus with
        ax := { s.focus.ax with uc := 0, u := searchRamp s.focus.pos }
        pos := if s.focus.pos < 16383 then s.focus.pos + 1 else 0
        sweep := if s.focus.pos < 16383 then s.focus.sweep else s.focus.sweep + 1
        prevFec := some (formSample s.fe fe te sum).fec }
      track := { s.track with ax := { s.track.ax with uc := 0, u := 0 } }
      sled := { s.sled with sum := 0, count := 0, drive := 0 } } := by
  let f := formSample s.fe fe te sum
  have k : Dark s f := ⟨.inr hf, ht⟩
  have hdrives : Dark.drives s = { s.focus with ax := { s.focus.ax with uc := 0, u := searchRamp s.focus.pos } } := by
    rw [Dark.drives, if_pos hf]
  have hfocus : (s.unlocked f).focus = Dark.drives s := by rw [k.unlocked_eq]
  have hactive : (s.unlocked f).active = s.active := rfl
  have hsearch := searchSample_of_sweep (s := s.unlocked f) (f := f) (by rw [hfocus]; exact hf)
    (by rw [hactive, hfocus]; exact hc) (by rw [hfocus]; exact hp)
  let u := searchSample f (s.unlocked f)
  have hu : u = (s.unlocked f).setFocus _ := hsearch
  have hstate : u.focus.state = .search := by
    rw [hu, hfocus]
    exact hf
  have hheld : u.focusHeld = false := by simp [State.focusHeld, hstate]
  have hloose : u.trackHeld = false := by
    rw [hu]
    exact unlocked_not_held k.loose
  have htrack : u.track.state = .off := by
    rw [hu, k.unlocked_eq]
    exact ht
  have hprocedure : trackSample (s.fe.crosses f.tec) false f.eT u = u := by rw [trackSample, htrack]
  have hsignals : u.signals = [] := by rw [hu]; exact hs.1
  rw [sampleBody_of_loose rfl (detect_of_not_held k.focusHeld) k.loose]
  show sampleEvents s.det.quiet (s.fe.crosses f.tec) f.eT u = _
  rw [sampleEvents_of_kept (by rw [State.focusLostDue, hheld, Bool.false_and]), hprocedure, drain_of_quiet 64 hsignals,
    raiseDue_of_loose hloose (.inl hheld), hu, k.unlocked_eq, hdrives]
  rfl

/-- A pull-in order under a captured focus, with the tracking loop OFF. -/
theorem pullInOrder_of_off (hf : s.focusHeld = true) (ht : s.track.state = .off) (q : Sequencer) :
    pullInOrder (s.setSeq q) = (s.setSeq q).setTrack s.track.pulledIn := by
  rw [pullInOrder_of_focusHeld (by exact hf), if_neg (by show s.track.state ≠ _; rw [ht]; exact TrackState.noConfusion)]
  rfl

/-- What waits for the capture goes on to a pull-in (R139, R151). -/
theorem seqFocusCaptured_of_waiting (hf : s.focusHeld = true) (ht : s.track.state = .off)
    (hw : (s.seq.state = .engaging ∧ s.seq.step = .engageFocus) ∨ (s.seq.state = .recovering ∧ s.seq.step = .recoverFocus)) :
    seqFocusCaptured s = (s.setSeq { s.seq with
      step := if s.seq.state = .engaging then .engageTrack else .recoverLock
      loopWait := if s.seq.state = .engaging then s.seq.loopWait else none }).setTrack s.track.pulledIn := by
  rcases hw with ⟨hst, hstep⟩ | ⟨hst, hstep⟩
  · rw [seqFocusCaptured, if_neg (by simp [hst]), engageAdvance_at_focus hst hstep, engageFocus, if_pos hf, if_pos hst, if_pos hst]
    exact engageTrack_of_off (s := s.setSeq _) ht hf
  · rw [seqFocusCaptured, if_pos (by simp [hst, hstep]), if_neg (by rw [hst]; exact SeqState.noConfusion),
      if_neg (by rw [hst]; exact SeqState.noConfusion)]
    exact pullInOrder_of_off hf ht _

/-- A capture moves nothing but the sequencer and the tracking loop, which it does not close. -/
theorem seqFocusCaptured_keeps (hf : s.focusHeld = true) (ht : s.track.state = .off) :
    ∃ step loopWait addrTimer x, seqFocusCaptured s
        = (s.setSeq { s.seq with step := step, loopWait := loopWait, addrTimer := addrTimer }).setTrack x
      ∧ x.state ≠ .locked ∧ x.state ≠ .hold := by
  have hoff : s.track.state ≠ .locked ∧ s.track.state ≠ .hold := by
    rw [ht]
    exact ⟨TrackState.noConfusion, TrackState.noConfusion⟩
  have hpulled : s.track.pulledIn.state ≠ .locked ∧ s.track.pulledIn.state ≠ .hold := ⟨TrackState.noConfusion, TrackState.noConfusion⟩
  by_cases hw : (s.seq.state = .engaging ∧ s.seq.step = .engageFocus) ∨ (s.seq.state = .recovering ∧ s.seq.step = .recoverFocus)
  · exact ⟨_, _, s.seq.addrTimer, _, seqFocusCaptured_of_waiting hf ht hw, hpulled⟩
  · obtain ⟨hnot, hr⟩ := not_or.mp hw
    have hadvance : seqFocusCaptured s = engageAdvance s := if_neg (by simpa using hr)
    rw [hadvance]
    by_cases he : s.seq.state = .engaging
    · unfold engageAdvance
      rw [if_pos he]
      cases hstep : s.seq.step with
      | engageFocus => exact absurd ⟨he, hstep⟩ hnot
      | engageTrack => exact ⟨s.seq.step, s.seq.loopWait, s.seq.addrTimer, _, engageTrack_of_off ht hf, hpulled⟩
      | engageReady =>
        refine ⟨s.seq.step, s.seq.loopWait, if s.seek.valid then none else s.seq.addrTimer, s.track, ?_, hoff⟩
        have hloose (q : Sequencer) : (s.setSeq q).trackHeld = false := by simp [State.trackHeld, State.setSeq, ht]
        unfold engageReady
        cases s.seek.valid with
        | true =>
          dsimp only
          rw [if_pos rfl, hloose, if_pos rfl]
          rfl
        | false =>
          dsimp only
          rw [if_neg Bool.false_ne_true, show s.trackHeld = false from hloose s.seq, if_neg Bool.false_ne_true]
          rfl
      | none | engageReturn | recoverFocus | recoverLock | recoverAddress | recoverReturn | jumpReturn =>
        exact ⟨s.seq.step, s.seq.loopWait, s.seq.addrTimer, s.track, rfl, hoff⟩
    · exact ⟨s.seq.step, s.seq.loopWait, s.seq.addrTimer, s.track, engageAdvance_of_not_engaging he, hoff⟩

/-- A sample of the search that captures the focus (R41). -/
theorem sampleBody_of_capture (hs : s.atRest) (hf : s.focus.state = .search) (ht : s.track.state = .off) (hg : groupLaw s.groups)
    (hc : captures s.active[24] s.focus.prevFec (formSample s.fe fe te sum).fec (formSample s.fe fe te sum).sumN = true) :
    ∃ u : State, sampleBody fe te sum s = seqFocusCaptured u ∧ (seqFocusCaptured u).atRest ∧ u.seq = s.seq ∧ u.focusHeld = true
      ∧ u.track.state = .off
      ∧ u.focus = ⟨.locked, ⟨0, (formSample s.fe fe te sum).eF, 0, 0, searchRamp s.focus.pos⟩, 0, 0, 0, none⟩ := by
  let f := formSample s.fe fe te sum
  have k : Dark s f := ⟨.inr hf, ht⟩
  have hfocus : (s.unlocked f).focus = { s.focus with ax := { s.focus.ax with uc := 0, u := searchRamp s.focus.pos } } := by
    rw [k.unlocked_eq]
    exact congrArg (fun u : Int => ({ s.focus with ax := { s.focus.ax with uc := 0, u := u } } : FocusLoop)) (if_pos hf)
  let u : State := (s.unlocked f).setFocus ((s.unlocked f).focus.capture f.eF)
  have hsearch : searchSample f (s.unlocked f) = emit .focusCaptured u := by
    rw [searchSample, if_pos (by rw [hfocus]; exact hf), if_pos (by rw [hfocus]; exact hc)]
  have hcapture : u.focus = ⟨.locked, ⟨0, f.eF, 0, 0, searchRamp s.focus.pos⟩, 0, 0, 0, none⟩ := by
    show (s.unlocked f).focus.capture f.eF = _
    rw [hfocus]
    rfl
  have hheld : u.focusHeld = true := focusHeld_iff.mpr (.inl (by rw [hcapture]))
  have htrack : u.track.state = .off := by
    show (s.unlocked f).track.state = _
    rw [k.unlocked_eq]
    exact ht
  have hlost : u.focus.lost < s.active[25] := by
    rw [hcapture]
    exact field_le hg 25
  have hdue : (emit .focusCaptured u).focusLostDue = false := by
    rw [State.focusLostDue, decide_eq_false (by exact Nat.not_le.mpr hlost), Bool.and_false]
  have hprocedure : trackSample (s.fe.crosses f.tec) false f.eT (emit .focusCaptured u) = emit .focusCaptured u := by
    rw [trackSample, show (emit .focusCaptured u).track.state = .off from htrack]
  obtain ⟨step, loopWait, addrTimer, x, hseq, hloose⟩ := seqFocusCaptured_keeps hheld htrack
  refine ⟨u, ?_, by rw [hseq]; exact hs, rfl, hheld, htrack, hcapture⟩
  rw [sampleBody_of_loose rfl (detect_of_not_held k.focusHeld) k.loose, hsearch, sampleEvents_of_kept hdue, hprocedure,
    drain_emit 63 (by exact hs.1)]
  show raiseDue (drain 63 (seqFocusCaptured u)) = _
  rw [hseq, drain_of_quiet 63 (by exact hs.1)]
  exact raiseDue_of_loose (not_held_iff.mpr hloose) (.inr hlost)

end

end Sys2Proof.Machine
end


-- ==== Sys2Proof/Proofs/OpenLoopSample.lean ====
section
/-! SUPPORT. The samples of closing loops (R13, R35, R41 to R51, R139, R151). -/

namespace Sys2Proof.Machine

section
variable {s : State} {fe te sum : Adc}

/-- A sample leaves the errors it has formed, where it has no crossing of its own left. -/
theorem endSample_eq {u : State} (h : u.fe = s.fe.sees (formSample s.fe fe te sum)) :
    endSample u = u.setFe { s.fe.sees (formSample s.fe fe te sum) with crossingNow := false } := by
  rw [endSample, h]

/-- The sample of a part with both loops OFF. -/
theorem sample_of_off (hs : s.settled) (hp : s.sup.power ≠ .sleep) (hf : s.focus.state = .off) (ht : s.track.state = .off) :
    exec (.servoSample fe te sum) s = .next { s with
      fe := { s.fe.sees (formSample s.fe fe te sum) with crossingNow := false }
      focus := { s.focus with ax := { s.focus.ax with uc := 0, u := 0 } }
      track := { s.track with ax := { s.track.ax with uc := 0, u := 0 } }
      sled := { s.sled with sum := 0, count := 0, drive := 0 } } :=
  exec_servoSample_of_atRest hs hp (sampleBody_of_off hs.1 hf ht) hs.1

/-- A capture, with what it lets go on (R41, R139, R151). -/
theorem sample_of_capture (hs : s.settled) (hp : s.sup.power ≠ .sleep) (hf : s.focus.state = .search) (ht : s.track.state = .off)
    (hg : groupLaw s.groups)
    (hc : captures s.active[24] s.focus.prevFec (formSample s.fe fe te sum).fec (formSample s.fe fe te sum).sumN = true) :
    ∃ t, exec (.servoSample fe te sum) s = .next t ∧ t.focus = ⟨.locked, ⟨0, t.fe.eF, 0, 0, searchRamp s.focus.pos⟩, 0, 0, 0, none⟩
      ∧ ((s.seq.state = .engaging ∧ s.seq.step = .engageFocus) ∨ (s.seq.state = .recovering ∧ s.seq.step = .recoverFocus) →
        t.track.state = .pullin ∧ t.track.attempt = 1 ∧ t.seq = { s.seq with
          step := if s.seq.state = .engaging then .engageTrack else .recoverLock
          loopWait := if s.seq.state = .engaging then s.seq.loopWait else none }) := by
  obtain ⟨u, hbody, hrest, hseq, hheld, htrack, hfocus⟩ := sampleBody_of_capture (fe := fe) (te := te) (sum := sum) hs.1 hf ht hg hc
  obtain ⟨step, loopWait, addrTimer, x, heq, -⟩ := seqFocusCaptured_keeps hheld htrack
  have heF := (sampled_errors hs.1.1 fe te sum).1
  rw [hbody, settle_of_atRest hrest] at heF
  refine ⟨_, exec_servoSample_of_atRest hs hp hbody hrest, ?_, fun hw => ?_⟩
  · rw [heF, ← hfocus, heq]
    rfl
  · rw [← hseq] at hw ⊢
    rw [seqFocusCaptured_of_waiting hheld htrack hw]
    exact ⟨rfl, rfl, rfl⟩

/-! ## Focus LOCKED (R43 to R51) -/

variable {f : Formed} {x : TrackLoop}

theorem not_held_of_state {y : TrackState} (hx : x.state = y) (hl : y ≠ .locked) (hh : y ≠ .hold) : (s.setTrack x).trackHeld = false :=
  not_held_iff.mpr ⟨hx ▸ hl, hx ▸ hh⟩

/-- The tracking loop enters LOCKED in FOLLOWING with no task (R45). -/
theorem Lit.exec_of_locked (k : Lit s f) (hs : s.settled) (hp : s.sup.power ≠ .sleep) (hf : formSample s.fe fe te sum = f)
    (hst : s.track.state = .settling) (ht : s.track.timer + 1 < 1280) (hrun : 64 ≤ s.settleRunAt f.eT) (hq : s.seq.state = .following)
    (htask : s.seek.task = none) (hr : s.seek.retry = false) (hl : s.seek.limitStop = false) :
    Machine.exec (.servoSample fe te sum) s = .next (endSample ((s.unlocked f).setTrack (s.settled1 f)).locksIn) := by
  have hadvance : engageAdvance ((s.unlocked f).setTrack (s.settled1 f)).locksIn = ((s.unlocked f).setTrack (s.settled1 f)).locksIn :=
    engageAdvance_of_not_engaging (by show s.seq.state ≠ _; rw [hq]; exact SeqState.noConfusion)
  have hpos : 0 < s.active[23] := field_le k.groups 23
  refine k.exec (v := ((s.unlocked f).setTrack (s.settled1 f)).locksIn) hs hp hf ?_ rfl rfl (.inr hpos) (by exact hs.1)
  rw [k.settling hst ht, if_pos hrun, drain_enterLocked 62 (s := (s.unlocked f).setTrack (s.settled1 f)) hs.1.1 htask hr hl (.inl hq)
    (by rw [hadvance]; exact hs.1.1), hadvance]

/-- In step 2 of an ENGAGE the loop's entry to LOCKED begins step 3 (R139). -/
theorem Lit.exec_of_engaging (k : Lit s f) (hs : s.settled) (hp : s.sup.power ≠ .sleep) (hf : formSample s.fe fe te sum = f)
    (hst : s.track.state = .settling) (ht : s.track.timer + 1 < 1280) (hrun : 64 ≤ s.settleRunAt f.eT) (hq : s.seq.state = .engaging)
    (hstep : s.seq.step = .engageTrack) (htask : s.seek.task = none) (hr : s.seek.retry = false) (hl : s.seek.limitStop = false)
    (hv : s.seek.valid = false) : Machine.exec (.servoSample fe te sum) s = .next (endSample
      (((s.unlocked f).setTrack (s.settled1 f)).locksIn.setSeq { s.seq with step := .engageReady, addrTimer := some 0 })) := by
  let u : State := ((s.unlocked f).setTrack (s.settled1 f)).locksIn
  have hadvance : engageAdvance u = u.setSeq { s.seq with step := .engageReady, addrTimer := some 0 } := by
    rw [engageAdvance_at_track (by exact hq) (by exact hstep), engageTrack, if_pos (by rfl), engageReady]
    dsimp only
    have hinvalid : (u.setSeq { u.seq with step := .engageReady, addrTimer := some 0 }).seek.valid = false := hv
    rw [hinvalid, if_neg Bool.false_ne_true, hinvalid, Bool.and_false, if_neg Bool.false_ne_true]
    rfl
  have hpos : 0 < s.active[23] := field_le k.groups 23
  refine k.exec (v := u.setSeq { s.seq with step := .engageReady, addrTimer := some 0 }) hs hp hf ?_ rfl rfl (.inr hpos) (by exact hs.1)
  rw [k.settling hst ht, if_pos hrun, drain_enterLocked 62 (s := (s.unlocked f).setTrack (s.settled1 f)) hs.1.1 htask hr hl (.inr hq)
    (by rw [hadvance]; exact hs.1.1), hadvance]

/-- A task stopped at the inner limit ends LIMIT (R128). -/
theorem Lit.exec_of_limit {e : Entry} (k : Lit s f) (hs : s.settled) (hp : s.sup.power ≠ .sleep) (hf : formSample s.fe fe te sum = f)
    (hst : s.track.state = .settling) (ht : s.track.timer + 1 < 1280) (hrun : 64 ≤ s.settleRunAt f.eT) (hq : s.seq.queue = [e])
    (he : e.inProgress = true) (hwork : s.seq.state = .seeking ∨ s.seq.state = .jumping) (hg : s.track.goal = .jumpDone)
    (hb : s.track.byPause = false) (hl : s.seek.limitStop = true) (hr : s.seek.retry = false) :
    Machine.exec (.servoSample fe te sum) s
      = .next (endSample (((s.unlocked f).setTrack (s.settled1 f)).locksIn.followed (endNotices 7 [e]))) := by
  have hpos : 0 < s.active[23] := field_le k.groups 23
  refine k.exec (v := ((s.unlocked f).setTrack (s.settled1 f)).locksIn.followed (endNotices 7 [e])) hs hp hf ?_ rfl rfl (.inr hpos)
    (by exact hs.1)
  rw [k.settling hst ht, if_pos hrun]
  exact drain_enterLocked_of_limit (s := (s.unlocked f).setTrack (s.settled1 f)) 60 hs.1.1 hq he hwork hg hb hl hr

end

/-- Settles O21. -/
theorem openLoopSample : Obligations.OpenLoopSample := by
  unfold Obligations.OpenLoopSample
  intro s fe te sum hs hp g x y sumN crosses crossings out stands waits
  let f := formSample s.fe fe te sum
  have hcrosses : crosses = s.fe.crosses f.tec := rfl
  have hcounted : crossings = s.fe.counted f.tec := rfl
  refine ⟨fun hf ht => ?_, fun hf ht hg hpos => ?_, fun hf hd hg hth hsum => ?_⟩
  · exact ⟨_, sample_of_off hs hp hf ht, rfl, rfl, rfl⟩
  · intro pos ramp captures'
    have hcaptures : captures s.active[24] s.focus.prevFec f.fec f.sumN = captures' := captures_eq ..
    have hramp : searchRamp s.focus.pos = ramp := searchRamp_eq _
    cases hc : captures' with
    | true =>
      rw [hc] at hcaptures
      obtain ⟨t, hexec, hfocus, hnext⟩ := sample_of_capture hs hp hf ht hg hcaptures
      exact ⟨t, hexec, fun h => absurd h.symm Bool.false_ne_true, fun _ => ⟨hramp ▸ hfocus, hnext⟩⟩
    | false =>
      rw [hc] at hcaptures
      refine ⟨_, exec_servoSample hs hp fe te sum, fun _ hsweep => ?_, fun h => absurd h Bool.false_ne_true⟩
      rw [sampleBody_of_sweep hs.1 hf ht hcaptures hsweep, settle_of_atRest (by exact hs.1), hramp]
      rfl
  · have hquiet : detect s f.sumN = s.det.quiet := detect_of_clear hd hth
    have lit (hl : s.trackHeld = false) : Lit s f := ⟨hf, hl, hquiet, hsum, hg, hs.1⟩
    refine ⟨fun hst htimer => ?_, fun hst htimer => ?_, fun hst hphase hlen hstall => ?_, fun hst hstall => ?_⟩
    · have k := lit (not_held_iff.mpr (by rw [hst]; exact ⟨TrackState.noConfusion, TrackState.noConfusion⟩))
      refine ⟨_, k.exec_of_quiet hs hp rfl (k.pullin hst htimer) ?_, k.stands _, ⟨rfl, rfl, rfl⟩, ?_⟩
      · split
        · exact not_held_of_state rfl TrackState.noConfusion TrackState.noConfusion
        · exact not_held_of_state hst TrackState.noConfusion TrackState.noConfusion
      · rw [show (endSample ((s.unlocked f).setTrack _)).fe.eT = f.eT from k.errors]
        rfl
    · have k := lit (not_held_iff.mpr (by rw [hst]; exact ⟨TrackState.noConfusion, TrackState.noConfusion⟩))
      have hrun (t : State) (h : t.fe.eT = f.eT) : (if t.fe.eT.natAbs < 256 then s.track.settleRun + 1 else 0) = s.settleRunAt f.eT := by
        rw [h]
        rfl
      refine ⟨_, exec_servoSample hs hp fe te sum, ?_⟩
      rw [hrun _ (sampled_errors hs.1.1 fe te sum).2]
      have hnext {t : State} (h : exec (.servoSample fe te sum) s = .next t) : endSample (settle (sampleBody fe te sum s)) = t :=
        Host.Outcome.next.inj ((exec_servoSample hs hp fe te sum).symm.trans h)
      refine ⟨fun hlt => ?_, fun hle hq htask hr hl => ?_, fun hle hq hstep htask hr hl hv => ?_,
        fun e hq he hwork hle hgoal hb hl hr _ => ?_⟩
      · have hquiet := k.settling hst htimer
        rw [if_neg (Nat.not_le.mpr hlt)] at hquiet
        rw [hnext (k.exec_of_quiet hs hp rfl hquiet (not_held_of_state hst TrackState.noConfusion TrackState.noConfusion))]
        exact ⟨k.stands _, ⟨rfl, rfl, rfl⟩, rfl⟩
      · rw [hnext (k.exec_of_locked hs hp rfl hst htimer hle hq htask hr hl)]
        exact ⟨k.stands _, ⟨rfl, rfl, rfl⟩, rfl⟩
      · rw [hnext (k.exec_of_engaging hs hp rfl hst htimer hle hq hstep htask hr hl hv)]
        exact ⟨k.stands (s.settled1 f), rfl, rfl⟩
      · rw [hnext (k.exec_of_limit hs hp rfl hst htimer hle hq he hwork hgoal hb hl hr)]
        exact ⟨rfl, rfl, rfl⟩
    · intro n phase kick uc stall
      have k := lit (not_held_iff.mpr (by rw [hst]; exact ⟨TrackState.noConfusion, TrackState.noConfusion⟩))
      have hopen : s.track.phase ≠ .close := by
        rcases hphase with h | h | h <;> rw [h] <;> exact JumpPhase.noConfusion
      have hjump := k.jumping hst hopen hstall
      have hp' : jumpPhaseAt n (s.fe.counted f.tec) = phase := jumpPhaseAt_eq n crossings
      have hat : s.jumpedAt f = { s.track with phase := phase, ax := out s.track.ax uc } := by
        unfold State.jumpedAt
        dsimp only
        rw [show jumpPhaseAt s.track.jumpLen.natAbs (s.fe.counted f.tec) = phase from hp', jumpOutput_eq]
        rfl
      refine ⟨_, k.exec_of_quiet hs hp rfl hjump ?_, k.stands _, ⟨rfl, rfl, rfl⟩, fun hlt => ?_, fun hle => ?_⟩
      · split
        · exact not_held_of_state rfl TrackState.noConfusion TrackState.noConfusion
        · exact not_held_of_state hst TrackState.noConfusion TrackState.noConfusion
      · refine (if_neg (Nat.not_le.mpr hlt)).trans ?_
        rw [hat]
        rfl
      · have hlast : phase = .coast := by
          have hle' : 2 * n ≤ crossings := hle
          exact (if_neg (by omega)).trans (if_neg (by omega))
        have huc : uc = 0 := by
          show (if phase = .kick then kick else if phase = .brake then -kick else 0) = 0
          rw [hlast]
          rfl
        refine (if_pos hle).trans ?_
        rw [hat, huc, show (endSample ((s.unlocked f).setTrack _)).fe.eT = f.eT from k.errors]
        rfl
    · have k := lit (not_held_iff.mpr (by rw [hst]; exact ⟨TrackState.noConfusion, TrackState.noConfusion⟩))
      have hmove := k.moving hst hstall
      by_cases hdone : s.fe.crosses f.tec = true ∧ s.track.moveCount ≤ s.fe.counted f.tec
      · rw [if_pos hdone] at hmove
        have hexec := k.exec (v := (s.unlocked f).moveEnded) hs hp rfl (by rw [hmove, drain_moveComplete 63 (by exact hs.1.1)]) rfl rfl
          (.inl (not_held_of_state (s := s.unlocked f) rfl TrackState.noConfusion TrackState.noConfusion)) hs.1
        refine ⟨_, hexec, k.stands s.track, rfl, rfl, fun _ => ⟨?_, rfl, ?_⟩, fun h => absurd hdone h⟩
        · show ({ (s.unlocked f).track.pullIn 1 with stall := 0, goal := .trackLocked, byPause := false } : TrackLoop) = _
          rw [unlocked_move k hst]
          rfl
        · show { s.seek with leg := s.seek.leg.landed } = _
          unfold Leg.landed
          cases s.seek.leg <;> rfl
      · rw [if_neg hdone] at hmove
        refine ⟨_, k.exec_of_quiet hs hp rfl hmove (not_held_of_state hst TrackState.noConfusion TrackState.noConfusion), k.stands _, rfl, rfl,
          fun h => absurd h hdone, fun _ => ⟨rfl, rfl, ?_⟩⟩
        show s.sledLoose = _
        rw [State.sledLoose, if_pos hst, forceSled_eq]
        cases s.sled.move with
        | none => rfl
        | some out => cases out <;> rfl

end Sys2Proof.Machine
end


-- ==== Sys2Proof/Proofs/BinBoundaries.lean ====
section
/-! SUPPORT. What a bin boundary does to the Defect Window Table, the Front End and the Revolution Table (R6, R7, R23, R30, R61, R66, R70,
R71). -/

namespace Sys2Proof.Machine

section
variable {s : State}

/-! ## The Defect Window Table at a boundary (R66, R70, R71) -/

/-- The last bin of an entry ends at the boundary that ends `ending`. -/
def Defect.ends (d : Defect) (ending : Fin 64) : Bool := (d.first.val + d.span + 63) % 64 = ending.val

/-- An entry ages at the boundary that ends `ending` (R71). -/
def Defect.ages (d : Defect) (ending : Fin 64) (tp : Nat) : Bool :=
  d.ends ending = true ∧ d.pass = .clean ∧ d.inner ≤ tp ∧ tp ≤ d.outer

/-- An entry after a boundary, where it does not expire (R70, R71). -/
def Defect.bounded (d : Defect) (ending beginning : Fin 64) (tp : Nat) (held : Bool) : Defect :=
  { d with
    hits := if d.ages ending tp then d.hits - 1 else d.hits
    pass :=
      if d.first = beginning then (if held then .watching else .none)
      else if d.ends ending then .none else d.pass }

/-- An entry expires at the boundary that ends `ending` (R71). -/
abbrev Defect.expires (d : Defect) (ending : Fin 64) (tp : Nat) : Prop := d.ages ending tp = true ∧ d.origin = .learned ∧ d.hits ≤ 1

theorem lastBin_iff (d : Defect) (ending : Fin 64) : d.lastBin = ending ↔ d.ends ending = true := by
  rw [Defect.lastBin, Fin.ext_iff, Defect.ends, decide_eq_true_iff]
  exact Iff.of_eq (congrArg (· = ending.val) (by simp [Fin.val_add, Nat.add_assoc]))

theorem ages_iff (d : Defect) (ending : Fin 64) (tp : Nat) :
    d.ages ending tp = true ↔ d.lastBin = ending ∧ d.pass = .clean ∧ d.inRange tp = true := by
  rw [Defect.ages, decide_eq_true_iff, lastBin_iff, Defect.inRange, Bool.and_eq_true, decide_eq_true_iff, decide_eq_true_iff]

/-- What ageing makes of an entry whose last bin ends (R71). -/
theorem age_eq (d : Defect) (tp : Nat) : d.age tp
    = if (d.pass = .clean ∧ d.inRange tp = true) ∧ d.origin = .learned ∧ d.hits ≤ 1 then none
      else some { d with hits := if d.pass = .clean ∧ d.inRange tp = true then d.hits - 1 else d.hits, pass := .none } := by
  unfold Defect.age
  by_cases ha : d.pass = .clean ∧ d.inRange tp = true
  · rw [if_pos (by simp [ha.1, ha.2]), if_pos ha]
    dsimp only
    exact if_congr (by simp only [ha, and_self, true_and, Bool.and_eq_true, decide_eq_true_iff, Nat.sub_eq_zero_iff_le]) rfl rfl
  · rw [if_neg (by simpa using ha), if_neg fun h => ha h.1, if_neg ha]

/-- An entry after a boundary (R70, R71). -/
theorem begin_ageEntry (ending beginning : Fin 64) (tp : Nat) (held : Bool) (d : Option Defect) :
    (ageEntry ending tp d).map (·.begin beginning held)
      = d.bind (fun d => if d.expires ending tp then none else some (d.bounded ending beginning tp held)) := by
  cases d with
  | none => rfl
  | some d =>
    have hexpires : d.expires ending tp ↔ d.ages ending tp = true ∧ d.origin = .learned ∧ d.hits ≤ 1 := Iff.rfl
    have hages := ages_iff d ending tp
    show (if d.lastBin = ending then d.age tp else some d).map _ = if d.expires ending tp then none else _
    by_cases hl : d.lastBin = ending
    · have hlast := (lastBin_iff d ending).mp hl
      rw [if_pos hl, age_eq]
      simp only [hl, true_and] at hages
      by_cases he : d.expires ending tp
      · rw [if_pos he, if_pos (by rw [← hages]; exact hexpires.mp he)]
        rfl
      · rw [if_neg he, if_neg (by rw [← hages]; exact fun h => he (hexpires.mpr h))]
        refine congrArg some ?_
        unfold Defect.begin Defect.bounded
        simp only [hlast, if_true, hages]
        split <;> rfl
    · have hnot : ¬d.ages ending tp = true := fun h => hl (hages.mp h).1
      rw [if_neg hl, if_neg fun h => hnot (hexpires.mp h).1]
      refine congrArg some ?_
      unfold Defect.begin Defect.bounded
      rw [if_neg hnot, if_neg fun h => hl ((lastBin_iff d ending).mpr h)]
      by_cases hb : d.first = beginning
      · rw [if_pos hb]
        exact if_pos hb
      · rw [if_neg hb]
        exact if_neg hb

/-! ### The notices of entries that expire (R71, R75) -/

/-- An entry of a table expires. -/
def expiresAt (ending : Fin 64) (tp : Nat) (d : Option Defect) : Bool := d.isSome && (ageEntry ending tp d).isNone

theorem expiring_eq_nil {ending : Fin 64} {tp : Nat} {l : List (Option Defect)} (h : ∀ d ∈ l, expiresAt ending tp d = false) (n : Nat) :
    expiring ending tp l n = [] := by
  induction l generalizing n with
  | nil => rfl
  | cons d ds ih =>
    have hd := h d List.mem_cons_self
    rw [expiring]
    exact (if_neg (by rw [expiresAt] at hd; rw [hd]; exact Bool.false_ne_true)).trans (ih (fun x hx => h x (List.mem_cons_of_mem d hx)) _)

theorem expiring_eq_singleton {ending : Fin 64} {tp : Nat} {l : List (Option Defect)} {i : Nat} (hi : i < l.length)
    (hone : expiresAt ending tp l[i] = true) (hothers : ∀ (j : Nat) (hj : j < l.length), j ≠ i → expiresAt ending tp l[j] = false) (n : Nat) :
    expiring ending tp l n = [n + i] := by
  induction l generalizing i n with
  | nil => exact absurd hi (Nat.not_lt_zero i)
  | cons d ds ih =>
    rw [expiring]
    cases i with
    | zero =>
      refine (if_pos hone).trans (congrArg (n :: ·) (expiring_eq_nil (fun x hx => ?_) (n + 1)))
      obtain ⟨j, hj, rfl⟩ := List.mem_iff_getElem.mp hx
      exact hothers (j + 1) (Nat.succ_lt_succ hj) (Nat.succ_ne_zero j)
    | succ i =>
      have hhead : ¬expiresAt ending tp d = true := by
        rw [show expiresAt ending tp d = false from hothers 0 (Nat.succ_pos _) (Nat.succ_ne_zero i).symm]
        exact Bool.false_ne_true
      rw [show n + (i + 1) = n + 1 + i by omega]
      exact (if_neg hhead).trans (ih (Nat.lt_of_succ_lt_succ hi) hone
        (fun j hj hne => hothers (j + 1) (Nat.succ_lt_succ hj) (fun h => hne (Nat.succ.inj h))) (n + 1))

/-- The notices of entries that have expired, in order. -/
def expiredNotices (gone : List Nat) : List Notice := gone.map (fun i => ⟨.defect, [2, byte i]⟩)

theorem foldl_postExpired (gone : List Nat) (s : State) :
    gone.foldl (fun s i => postDefect .expired i s) s = s.setLink (s.link.postAll (expiredNotices gone)) := by
  induction gone generalizing s with
  | nil => rfl
  | cons i is ih =>
    rw [List.foldl_cons, ih]
    rfl

/-- The Defect Window Table at a boundary: the table and the notices alone. -/
theorem defectBoundary_eq (ending beginning : Fin 64) (s : State) : ∃ armed, defectBoundary ending beginning s
      = (s.setDefects ⟨mapTable (fun d => (ageEntry ending s.seek.tpCur d).map (·.begin beginning s.focusHeld)) s.defects.entries,
          armed⟩).setLink
          (s.link.postAll (expiredNotices (expiring ending s.seek.tpCur s.defects.entries.toList 0)))
    ∧ (armed = true ↔ covered
        (mapTable (fun d => (ageEntry ending s.seek.tpCur d).map (·.begin beginning s.focusHeld)) s.defects.entries) beginning s.seek.tpCur) := by
  let aged : DefectTable := { s.defects with entries := mapTable (ageEntry ending s.seek.tpCur) s.defects.entries }
  let begun : DefectTable := aged.update (fun d => d.begin beginning s.focusHeld)
  have hentries : begun.entries
      = mapTable (fun d => (ageEntry ending s.seek.tpCur d).map (·.begin beginning s.focusHeld)) s.defects.entries :=
    Vector.ext fun i hi => by
      show (mapTable _ (mapTable _ s.defects.entries))[i] = _
      rw [mapTable_getElem, mapTable_getElem, mapTable_getElem]
  refine ⟨(begun.arm beginning s.seek.tpCur).armed, ?_, ?_⟩
  · unfold defectBoundary
    dsimp only
    rw [foldl_postExpired, ← hentries]
    rfl
  · rw [← hentries]
    exact armed_arm_iff begun beginning s.seek.tpCur

end

end Sys2Proof.Machine
end


-- ==== Sys2Proof/Proofs/BoundaryClosesBin.lean ====
section
/-! SUPPORT. A timed boundary within a revolution (R6, R7, R20, R23, R30, R61). -/

namespace Sys2Proof.Machine

section
variable {s : State}

/-- The hold record at a boundary (R61). -/
def Detector.passes (d : Detector) : Detector := if d.inHold then { d with boundaries := min 15 (d.boundaries + 1) } else d

theorem passes_inHold (d : Detector) : d.passes.inHold = d.inHold := by
  unfold Detector.passes
  split <;> rfl

/-- The machine at a boundary within a revolution, before the Defect Window Table's part of it (R6, R23, R30, R61). -/
def State.turned (s : State) : State :=
  { s with
    fe := s.fe.closeBin s.active s.det.inHold
    angle := { s.angle with bin := s.angle.bin + 1 }
    rev := s.rev.set s.angle.bin (s.rev[s.angle.bin].close s.active[3] s.active[7])
    det := s.det.passes }

theorem advanceBin_eq (s : State) : advanceBin s = (s.setAngle { s.angle with bin := s.angle.bin + 1 }).setDet s.det.passes := by
  unfold advanceBin Detector.passes
  dsimp only
  by_cases h : s.det.inHold = true
  · rw [if_pos h]
    exact if_pos h
  · rw [if_neg h]
    exact if_neg h

theorem closed_eq_turned (s : State) : closeRevolution s.angle.bin (closeFrontEnd (advanceBin s)) = s.turned := by
  rw [advanceBin_eq]
  show { s with fe := s.fe.closeBin s.active s.det.passes.inHold, angle := _, rev := _, det := s.det.passes } = s.turned
  rw [passes_inHold]
  rfl

theorem next_bin_eq_zero_iff (b : Fin 64) : b + 1 = 0 ↔ b = 63 := by
  revert b
  decide

theorem boundary_of_inner (hb : s.angle.bin ≠ 63) : boundary s = defectBoundary s.angle.bin (s.angle.bin + 1) s.turned := by
  have hbin : (advanceBin s).angle.bin = s.angle.bin + 1 := by rw [advanceBin_eq]; rfl
  unfold boundary
  dsimp only
  rw [hbin, if_neg fun h => hb ((next_bin_eq_zero_iff _).mp h), closed_eq_turned]

/-- The coefficient at a boundary, and its level (R6, R7, R9, R10). -/
theorem closeBin_eq (x : FrontEnd) (g : GroupRec) (inHold : Bool) :
    let mean := x.sumAcc / x.sumCount
    let c := max g[9] (min g[10] (if x.sumCount = 0 then x.c else if mean = 0 then g[10] else (2048 * g[8] + mean) / (2 * mean)))
    x.closeBin g inHold = if inHold then { x with sumAcc := 0, sumCount := 0 }
      else { x with c := c, level := levelOf g c, sumAcc := 0, sumCount := 0 } := by
  intro mean c
  unfold FrontEnd.closeBin
  split <;> rfl

/-- No entry that expires: no notice (R75). -/
theorem expired_of_none {ending : Fin 64} {tp : Nat} {es : Vector (Option Defect) 32}
    (h : ∀ i : Fin 32, es[i] ≠ none → ageEntry ending tp es[i] ≠ none) : expiring ending tp es.toList 0 = [] := by
  refine expiring_eq_nil (fun d hd => ?_) 0
  obtain ⟨i, rfl⟩ := mem_entries_iff.mp hd
  cases he : es[i] with
  | none => rfl
  | some d =>
    have hkept := h i (by rw [he]; exact Option.some_ne_none d)
    rw [he] at hkept
    exact (congrArg (true && ·) (Option.isNone_eq_false_iff.mpr (Option.isSome_iff_ne_none.mpr hkept)) : _)

/-- One entry that expires (R75). -/
theorem expired_of_one {ending : Fin 64} {tp : Nat} {es : Vector (Option Defect) 32} {i : Fin 32} (hi : es[i] ≠ none)
    (hgone : ageEntry ending tp es[i] = none) (h : ∀ j : Fin 32, j ≠ i → es[j] ≠ none → ageEntry ending tp es[j] ≠ none) :
    expiring ending tp es.toList 0 = [i.val] := by
  have hlen : es.toList.length = 32 := by simp
  have hget (j : Nat) (hj : j < es.toList.length) : es.toList[j] = es[(⟨j, hlen ▸ hj⟩ : Fin 32)] := by simp
  refine (expiring_eq_singleton (i := i.val) (hlen.symm ▸ i.isLt) ?_ (fun j hj hne => ?_) 0).trans (congrArg (fun n => [n]) (Nat.zero_add _))
  · rw [hget, expiresAt, Bool.and_eq_true]
    exact ⟨Option.isSome_iff_ne_none.mpr hi, Option.isNone_iff_eq_none.mpr hgone⟩
  · rw [hget, expiresAt, Bool.and_eq_false_iff]
    have hj32 : (⟨j, hlen ▸ hj⟩ : Fin 32) ≠ i := fun h => hne (congrArg Fin.val h)
    by_cases he : es[(⟨j, hlen ▸ hj⟩ : Fin 32)] = none
    · exact .inl (by rw [he]; rfl)
    · exact .inr (Option.isNone_eq_false_iff.mpr (Option.isSome_iff_ne_none.mpr (h _ hj32 he)))

end

/-- Settles O30. -/
theorem boundaryClosesBin : Obligations.BoundaryClosesBin := by
  unfold Obligations.BoundaryClosesBin
  intro s next spacing hs hsched hbin g mean c learned r tp held
  let u : State := s.setAngle { s.angle with schedule := if next < 7 then some ⟨next + 1, spacing⟩ else none }
  obtain ⟨armed, heq, harmed⟩ := defectBoundary_eq s.angle.bin (s.angle.bin + 1) u.turned
  let es := mapTable (fun d => (ageEntry s.angle.bin tp d).map (·.begin (s.angle.bin + 1) s.focusHeld)) s.defects.entries
  let gone := expiring s.angle.bin tp s.defects.entries.toList 0
  let t : State := (u.turned.setDefects ⟨es, armed⟩).setLink (s.link.postAll (expiredNotices gone))
  have hbody : timedBoundary s = t := by
    rw [timedBoundary, hsched]
    exact (boundary_of_inner (s := u) hbin).trans heq
  have hheld : s.focusHeld = held := Bool.eq_iff_iff.mpr (focusHeld_iff.trans decide_eq_true_iff.symm)
  have hentry (i : Fin 32) : t.defects.entries[i] = (ageEntry s.angle.bin tp s.defects.entries[i]).map (·.begin (s.angle.bin + 1) held) := by
    show (mapTable _ s.defects.entries)[i] = _
    rw [Fin.getElem_fin, mapTable_getElem, hheld]
    rfl
  have hkept (i : Fin 32) : t.defects.entries[i] = none ↔ ageEntry s.angle.bin tp s.defects.entries[i] = none := by
    rw [hentry]
    exact Option.map_eq_none_iff
  refine ⟨t, (done_of_atRest _ hs.2 (hbody.symm ▸ hs.1)).trans (congrArg _ hbody), ?_, fun i => ?_, harmed, fun hall => ?_,
    fun i hi hnone hothers => ?_⟩
  · show { u with
      fe := s.fe.closeBin s.active s.det.inHold
      angle := { u.angle with bin := s.angle.bin + 1 }
      rev := s.rev.set s.angle.bin (s.rev[s.angle.bin].close s.active[3] s.active[7])
      det := s.det.passes, defects := t.defects, link := t.link } = _
    rw [closeBin_eq]
    rfl
  · rw [hentry, begin_ageEntry]
    rfl
  · have hgone : gone = [] := expired_of_none fun i hi h => hall i hi ((hkept i).mpr h)
    show s.link.postAll (expiredNotices gone) = s.link
    rw [hgone]
    rfl
  · have hgone : gone = [i.val] :=
      expired_of_one hi ((hkept i).mp hnone) fun j hj hjs h => hothers j hj hjs ((hkept j).mpr h)
    show s.link.postAll (expiredNotices gone) = _
    rw [hgone]
    rfl

end Sys2Proof.Machine
end


-- ==== Sys2Proof/Proofs/EdgeBoundaries.lean ====
section
/-! SUPPORT. The boundaries an FG edge delivers: what they leave alone, and the index event among them (R17, R23, R24, R87, R92, R93,
R142). -/

namespace Sys2Proof.Machine

section
variable {s t u : State} {G : Groups} {T : TrackLoop} {posts : List Notice} {n : Nat}

/-! ## What the boundaries leave alone -/

/-- The blocks that no boundary touches, the Front End's crossing detector apart. -/
def State.aside (s : State) : FocusLoop × Sled × Seek × Sequencer × Loader × Supervisor × Bool × Spindle × List Signal :=
  (s.focus, s.sled, s.seek, s.seq, s.loader, s.sup, s.held, s.spindle, s.signals)

theorem aside_iff : t.aside = s.aside ↔ t.focus = s.focus ∧ t.sled = s.sled ∧ t.seek = s.seek ∧ t.seq = s.seq ∧ t.loader = s.loader
    ∧ t.sup = s.sup ∧ t.held = s.held ∧ t.spindle = s.spindle ∧ t.signals = s.signals := by
  simp only [State.aside, Prod.mk.injEq]

/-- A machine on the way through the boundaries of an edge: the group settings, the tracking loop, the crossing count, and in a part with
no window in its table the notices. -/
structure Turning (s : State) (G : Groups) (T : TrackLoop) (n : Nat) (posts : List Notice) (t : State) : Prop where
  aside : t.aside = s.aside
  groups : t.groups = G
  track : t.track = T
  crossings : t.fe.crossings = n
  calm : s.fe.crossingNow = false → t.fe.crossingNow = false
  empty : (∀ i : Fin 32, s.defects.entries[i] = none) →
    (∀ i : Fin 32, t.defects.entries[i] = none) ∧ t.link = s.link.postAll posts

theorem turning_start (s : State) : Turning s s.groups s.track s.fe.crossings [] s :=
  ⟨rfl, rfl, rfl, rfl, id, fun h => ⟨h, rfl⟩⟩

/-- Only the Revolution Table, the angle, the hold record and the count of free orders change. -/
theorem Turning.write (h : Turning s G T n posts t) (a : Angle) (r : Vector RevRecord 64) (d : Detector) (k : Nat) :
    Turning s G T n posts { t with angle := a, rev := r, det := d, freeCount := k } :=
  ⟨h.aside, h.groups, h.track, h.crossings, h.calm, h.empty⟩

theorem Turning.closeFrontEnd (h : Turning s G T n posts t) : Turning s G T n posts (closeFrontEnd t) := by
  have hkeeps : (t.fe.closeBin t.active t.inHold).crossings = t.fe.crossings
      ∧ (t.fe.closeBin t.active t.inHold).crossingNow = t.fe.crossingNow := by
    unfold FrontEnd.closeBin FrontEnd.setC
    split <;> exact ⟨rfl, rfl⟩
  exact ⟨h.aside, h.groups, h.track, hkeeps.1.trans h.crossings, fun hc => hkeeps.2.trans (h.calm hc), h.empty⟩

theorem Turning.closeRevolution (h : Turning s G T n posts t) (b : Fin 64) : Turning s G T n posts (closeRevolution b t) :=
  h.write t.angle _ t.det t.freeCount

theorem Turning.defectBoundary (h : Turning s G T n posts t) (ending beginning : Fin 64) :
    Turning s G T n posts (defectBoundary ending beginning t) := by
  obtain ⟨armed, heq, -⟩ := defectBoundary_eq ending beginning t
  rw [heq]
  refine ⟨h.aside, h.groups, h.track, h.crossings, h.calm, fun hnone => ?_⟩
  obtain ⟨hentries, hlink⟩ := h.empty hnone
  have hgone : expiring ending t.seek.tpCur t.defects.entries.toList 0 = [] :=
    expired_of_none fun i hi => absurd (hentries i) hi
  refine ⟨fun i => ?_, ?_⟩
  · show (mapTable _ t.defects.entries)[i] = none
    rw [Fin.getElem_fin, mapTable_getElem, ← Fin.getElem_fin, hentries i]
    rfl
  · rw [hgone]
    exact hlink

theorem Turning.advanceBin (h : Turning s G T n posts t) : Turning s G T n posts (advanceBin t) := by
  rw [advanceBin_eq]
  exact h.write _ t.rev _ t.freeCount

theorem Turning.takeOrder (h : Turning s G T n posts t) : Turning s G T n posts (takeOrder t).2 := h.write t.angle t.rev t.det _

/-! ## The PAUSE jump (R142) -/

/-- The tracking loop after the sequencer's part of an index event. -/
def State.jumpedTrack (s : State) : TrackLoop :=
  if s.seq.state = .paused ∧ (s.track.state = .locked ∨ s.track.state = .hold) then s.track.kicked (-1) true else s.track

theorem pauseJump_of_quiet (h : ¬(s.seq.state = .paused ∧ (s.track.state = .locked ∨ s.track.state = .hold))) : pauseJump s = s := by
  unfold pauseJump
  split
  next hp =>
    rw [jumpOrder, if_neg (fun ht => h ⟨hp, trackHeld_iff.mp ht⟩)]
  · rfl

/-- In any part the PAUSE jump moves the tracking loop and the crossing count alone. -/
theorem Turning.pauseJump (h : Turning s G T n posts t) :
    ∃ T' n, (T.offCount = 0 → T'.offCount = 0) ∧ Turning s G T' n posts (pauseJump t) := by
  by_cases hj : t.seq.state = .paused ∧ (t.track.state = .locked ∨ t.track.state = .hold)
  · have heq : Machine.pauseJump t = restartCrossings (t.setTrack (t.track.kicked (-1) true)) := by
      rw [Machine.pauseJump, if_pos hj.1, jumpOrder, if_pos (trackHeld_iff.mpr hj.2)]
      rfl
    rw [heq, restartCrossings]
    split
    · exact ⟨_, _, fun _ => rfl, h.aside, h.groups, rfl, rfl, fun _ => rfl, h.empty⟩
    · exact ⟨_, _, fun _ => rfl, h.aside, h.groups, rfl, rfl, h.calm, h.empty⟩
  · rw [pauseJump_of_quiet hj]
    exact ⟨T, n, id, h⟩

/-- Where no crossing is being counted, the crossing count starts again with the jump (R14, R142). -/
theorem Turning.pauseJump_of_calm (h : Turning s G s.track s.fe.crossings posts t) (hc : s.fe.crossingNow = false) :
    Turning s G s.jumpedTrack (if s.seq.state = .paused ∧ (s.track.state = .locked ∨ s.track.state = .hold) then 0 else s.fe.crossings) posts
      (Machine.pauseJump t) := by
  have hsame : (t.seq.state = .paused ∧ (t.track.state = .locked ∨ t.track.state = .hold))
      ↔ (s.seq.state = .paused ∧ (s.track.state = .locked ∨ s.track.state = .hold)) := by
    obtain ⟨-, -, -, hseq, -⟩ := aside_iff.mp h.aside
    rw [hseq, h.track]
  unfold State.jumpedTrack
  by_cases hj : s.seq.state = .paused ∧ (s.track.state = .locked ∨ s.track.state = .hold)
  · have hjt := hsame.mpr hj
    have heq : Machine.pauseJump t = (t.setTrack (s.track.kicked (-1) true)).setFe { t.fe with crossings := 0 } := by
      rw [Machine.pauseJump, if_pos hjt.1, jumpOrder_of_held true (by decide) (trackHeld_iff.mpr hjt.2) (h.calm hc), h.track]
    rw [if_pos hj, if_pos hj, heq]
    exact ⟨h.aside, h.groups, rfl, rfl, h.calm, h.empty⟩
  · rw [if_neg hj, if_neg hj, pauseJump_of_quiet (fun h => hj (hsame.mp h))]
    exact h

/-! ## The Group Store (R87, R92, R93) -/

/-- No group's limit lets a clear counter raise an incident (R52, R54, R77). -/
abbrev limitsLaw (recs : Vector GroupRec 4) : Prop := ∀ i : GroupId, 1 ≤ recs[i][23] ∧ 1 ≤ recs[i][25]

theorem limitsLaw_of_groupLaw {g : Groups} (h : groupLaw g) : limitsLaw g.recs := fun i => ⟨((h.1 i).1 23).1, ((h.1 i).1 25).1⟩

theorem Turning.setGroups (h : Turning s G T n posts t) (g : Groups) : Turning s g T n posts (t.setGroups g) :=
  ⟨h.aside, rfl, h.track, h.crossings, h.calm, h.empty⟩

theorem Turning.post (h : Turning s G T n posts t) (k : NoticeKind) (p : List Byte) :
    Turning s G T n (posts ++ [⟨k, p⟩]) (post k p t) := by
  refine ⟨h.aside, h.groups, h.track, h.crossings, h.calm, fun hnone => ⟨(h.empty hnone).1, ?_⟩⟩
  rw [postAll_append, ← (h.empty hnone).2]
  rfl

/-- With the counters clear a change of group moves the coefficient alone (R81). -/
theorem Turning.regroup (h : Turning s G T n posts t) {g : Groups} (hc : T.offCount = 0 ∧ s.focus.lost = 0) (hl : limitsLaw g.recs) :
    Turning s g T n posts (regroup g t) := by
  have hset := h.setGroups g
  by_cases hid : activeId g = activeId t.groups
  · rw [regroup_same hid]
    exact hset
  · have hclear : (t.setGroups g).countersClear := by
      refine ⟨?_, ?_⟩
      · rw [hset.track]
        exact hc.1
      · obtain ⟨hfocus, -⟩ := aside_iff.mp hset.aside
        rw [hfocus]
        exact hc.2
    obtain ⟨h23, h25⟩ := hl (activeId g)
    rw [regroup_switch hid, groupSwitch_of_clear hclear h23 h25]
    exact ⟨hset.aside, hset.groups, hset.track, hset.crossings, hset.calm, hset.empty⟩

/-- The settings after a revolution counted in shock mode (R92, R93). -/
def Groups.counted (g : Groups) : Groups :=
  if g.shockMode then if g.exitDue then g.unshocked else { g with clean := g.cleanNext, disturbed := false } else g

/-- The settings after a launch (R88). -/
def Groups.launched (g : Groups) : Groups := { g with base := g.pending.getD g.base, pending := none }

/-- The notice of the end of shock mode, if it ends, with the group that becomes active (R93). -/
def Groups.exitPosts (g : Groups) (base : GroupId) : List Notice := if g.exitDue then [⟨.shock, [0, byte base.val]⟩] else []

/-- The notice of a pending launch (R87). -/
def Groups.launchPosts (g : Groups) : List Notice := g.pending.elim [] (fun p => [⟨.launch, [byte p.val]⟩])

theorem counted_of_open {g : Groups} (h : ¬g.shockMode = true) : g.counted = g := if_neg h

theorem counted_of_exit {g : Groups} (hm : g.shockMode = true) (he : g.exitDue = true) : g.counted = g.unshocked :=
  (if_pos hm).trans (if_pos he)

theorem counted_of_stay {g : Groups} (hm : g.shockMode = true) (he : ¬g.exitDue = true) :
    g.counted = { g with clean := g.cleanNext, disturbed := false } := (if_pos hm).trans (if_neg he)

theorem exitDue_of_open {g : Groups} (h : ¬g.shockMode = true) : ¬g.exitDue = true := fun he => h (Bool.and_eq_true_iff.mp he).1

theorem Turning.countRevolution (h : Turning s G T n posts t) (hc : T.offCount = 0 ∧ s.focus.lost = 0) (hl : limitsLaw G.recs) :
    Turning s G.counted T n (posts ++ G.exitPosts G.base) (countRevolution t) := by
  unfold Machine.countRevolution Groups.exitPosts endShock
  rw [h.groups]
  by_cases hm : G.shockMode = true
  · rw [if_pos hm]
    by_cases he : G.exitDue = true
    · rw [counted_of_exit hm he, if_pos he, if_pos he, if_pos hm]
      have hswitch := h.regroup (g := G.unshocked) hc hl
      have hbase : (Machine.regroup G.unshocked t).groups.base = G.base := by
        rw [hswitch.groups]
        rfl
      have hposted := hswitch.post .shock [0, byte G.base.val]
      rw [← hbase] at hposted ⊢
      exact hposted
    · rw [counted_of_stay hm he, if_neg he, if_neg he, List.append_nil]
      exact h.setGroups _
  · rw [counted_of_open hm, if_neg hm, if_neg (exitDue_of_open hm), List.append_nil]
    exact h

theorem launched_of_none {g : Groups} (h : g.pending = none) : g.launched = g := by
  obtain ⟨recs, base, shock, shockRevs, shockMode, clean, disturbed, pending⟩ := g
  cases h
  rfl

/-- A launch with what comes between it and its notice (R87). -/
theorem Turning.takePendingThen {f : State → State} {G' : Groups} {more : List Notice} (h : Turning s G T n posts t)
    (hc : T.offCount = 0 ∧ s.focus.lost = 0) (hl : limitsLaw G.recs)
    (hf : ∀ u, Turning s G.launched T n posts u → Turning s G' T n (posts ++ more) (f u)) :
    Turning s G' T n (posts ++ more ++ G.launchPosts) (takePendingThen f t) := by
  unfold Machine.takePendingThen Groups.launchPosts
  rw [h.groups]
  cases hp : G.pending with
  | none =>
    have hsame : G.launched = G := launched_of_none hp
    rw [hsame] at hf
    exact (List.append_nil _).symm ▸ hf t h
  | some g =>
    have hlaunched : G.launched = { G with base := g, pending := none } := by rw [Groups.launched, hp]; rfl
    rw [hlaunched] at hf
    exact (hf _ ((h.setGroups { G with pending := none }).regroup (g := { G with base := g, pending := none }) hc hl)).post _ _

theorem Turning.takePending (h : Turning s G T n posts t) (hc : T.offCount = 0 ∧ s.focus.lost = 0) (hl : limitsLaw G.recs) :
    Turning s G.launched T n (posts ++ G.launchPosts) (takePending t) := by
  have hnone := h.takePendingThen (f := id) (more := []) hc hl (fun u hu => (List.append_nil posts).symm ▸ hu)
  rwa [List.append_nil] at hnone

theorem counted_launched (g : Groups) : g.counted.launched = g.launched.counted := by
  by_cases hm : g.shockMode = true
  · by_cases he : g.exitDue = true
    · rw [counted_of_exit hm he, counted_of_exit (g := g.launched) hm he]
      rfl
    · rw [counted_of_stay hm he, counted_of_stay (g := g.launched) hm he]
      rfl
  · rw [counted_of_open hm, counted_of_open (g := g.launched) hm]

theorem counted_pending (g : Groups) : g.counted.pending = g.pending := by
  unfold Groups.counted
  split
  · split <;> rfl
  · rfl

/-- The Group Store at an index event: the launch and the clean count, with the SHOCK notice before the LAUNCH notice (R87, R92, R93). -/
theorem Turning.groupIndex (h : Turning s G T n posts t) (hc : T.offCount = 0 ∧ s.focus.lost = 0) (hl : limitsLaw G.recs) :
    ∃ b, (b = G.base ∨ G.pending = some b) ∧ (G.pending = none → b = G.base)
      ∧ Turning s G.launched.counted T n (posts ++ G.exitPosts b ++ G.launchPosts) (groupIndex t) := by
  have hbase : G.launched.base = G.base ∨ G.pending = some G.launched.base := by
    show G.pending.getD G.base = _ ∨ G.pending = some (G.pending.getD G.base)
    cases G.pending with
    | none => exact .inl rfl
    | some g => exact .inr rfl
  have hnone (hp : G.pending = none) : G.launched.base = G.base := by rw [Groups.launched, hp]; rfl
  have hfirst : Turning s G.launched.counted T n (posts ++ G.exitPosts G.launched.base ++ G.launchPosts)
      (Machine.takePendingThen Machine.countRevolution (Machine.takeOrder t).2) :=
    h.takeOrder.takePendingThen hc hl fun u hu => hu.countRevolution hc hl
  have hlast : Turning s G.launched.counted T n (posts ++ G.exitPosts G.base ++ G.launchPosts)
      (Machine.takePending (Machine.countRevolution (Machine.takeOrder t).2)) := by
    have hcounted := h.takeOrder.countRevolution hc hl
    have hrecs : limitsLaw G.counted.recs := by
      unfold Groups.counted
      split
      · split <;> exact hl
      · exact hl
    have hdone := hcounted.takePending hc hrecs
    rw [counted_launched, show G.counted.launchPosts = G.launchPosts by rw [Groups.launchPosts, counted_pending]; rfl] at hdone
    exact hdone
  unfold Machine.groupIndex
  rw [h.groups]
  split
  · dsimp only
    split
    · exact ⟨_, hbase, hnone, hfirst⟩
    · exact ⟨_, .inl rfl, fun _ => rfl, hlast⟩
  next hnot =>
    refine ⟨_, hbase, hnone, ?_⟩
    have hseq := (h.takePending hc hl).countRevolution hc hl
    have hone : G.launchPosts = [] ∨ G.exitPosts G.launched.base = [] := by
      rw [Bool.and_eq_true, not_and_or] at hnot
      rcases hnot with hp | he
      · refine .inl ?_
        rw [Groups.launchPosts, Option.not_isSome_iff_eq_none.mp hp]
        rfl
      · exact .inr (if_neg he)
    have hswap : posts ++ G.launchPosts ++ G.launched.exitPosts G.launched.base = posts ++ G.exitPosts G.launched.base ++ G.launchPosts := by
      rw [show G.launched.exitPosts G.launched.base = G.exitPosts G.launched.base from rfl]
      rcases hone with h | h <;> rw [h, List.append_nil, List.append_nil]
    rw [← hswap]
    exact hseq

/-- With no launch pending and out of shock mode the Group Store does nothing at an index event. -/
theorem groupIndex_of_still (hp : s.groups.pending = none) (hm : s.groups.shockMode = false) : groupIndex s = s := by
  have hexit : s.groups.exitDue = false := by rw [Groups.exitDue, hm, Bool.false_and]
  have htake : takePending s = s := by rw [takePending, takePendingThen, hp]; rfl
  rw [groupIndex, hexit, Bool.and_false, if_neg Bool.false_ne_true, htake, countRevolution, hm, if_neg Bool.false_ne_true]

end

end Sys2Proof.Machine
end


-- ==== Sys2Proof/Proofs/EdgeAngle.lean ====
section
/-! SUPPORT. The boundaries of an edge in turn: what each keeps, the index event, and the angle they leave (R17, R23, R24). -/

namespace Sys2Proof.Machine

section
variable {s t u : State} {w : Bool}

/-! ## Properties that the boundaries keep -/

/-- A property that a boundary's own parts keep, the acts of an index event apart. -/
structure Bounds (P : State → Prop) : Prop where
  frontEnd : ∀ {u : State}, P u → P (closeFrontEnd u)
  revolution : ∀ {u : State} {a : Fin 64}, P u → P (closeRevolution a u)
  defects : ∀ {u : State} {a b : Fin 64}, P u → P (defectBoundary a b u)

/-- A property that turns neither on the angle nor on the hold record. -/
abbrev Moves (P : State → Prop) : Prop := ∀ (u : State) (a : Angle) (d : Detector), P u → P ((u.setAngle a).setDet d)

theorem Moves.advance {P : State → Prop} (hP : Moves P) (h : P u) : P (advanceBin u) := by
  rw [advanceBin_eq]
  exact hP u _ _ h

theorem Bounds.boundary {P : State → Prop} (hP : Bounds P) (hm : Moves P) (h : P u) (hb : u.angle.bin ≠ 63) : P (boundary u) := by
  rw [boundary_of_inner hb, ← closed_eq_turned]
  exact hP.defects (hP.revolution (hP.frontEnd (hm.advance h)))

/-- A property of two stages that the index event keeps: whether the PAUSE jump, and whether the Group Store's part, has been taken. -/
structure Indexes (Q : Bool → Bool → State → Prop) : Prop where
  bounds : ∀ j g, Bounds (Q j g)
  order : ∀ {j g : Bool} {u : State}, Q j g u → Q j g (takeOrder u).2
  jump : ∀ {g : Bool} {u : State}, Q false g u → Q true g (pauseJump u)
  group : ∀ {j : Bool} {u : State}, Q j false u → Q j true (groupIndex u)

theorem when_keeps {P : State → Prop} {f : State → State} (hf : ∀ {u}, P u → P (f u)) (b : Bool) (h : P u) : P (when b f u) := by
  cases b with
  | true => exact hf h
  | false => exact h

theorem Indexes.indexBoundary {Q : Bool → Bool → State → Prop} (hQ : Indexes Q) (ending : Fin 64)
    
    (h : Q false false (u.setAngle { u.angle with revs := (u.angle.revs + 1) % 65536 })) : Q true true (indexBoundary ending u) := by
  unfold Machine.indexBoundary
  dsimp only
  split
  · have horder := hQ.order (hQ.order (hQ.order (hQ.order h)))
    have hparts (j g x y z : Bool) (v : State) (hv : Q j g v) :
        Q j g (when z (defectBoundary ending 0) (when y (closeRevolution ending) (when x closeFrontEnd v))) :=
      when_keeps (P := Q j g) (hQ.bounds j g).defects z
        (when_keeps (P := Q j g) (hQ.bounds j g).revolution y (when_keeps (P := Q j g) (hQ.bounds j g).frontEnd x hv))
    have hjump (d : Bool) {v : State} (hv : Q false false v) : Q d false (when d pauseJump v) := by
      cases d with
      | true => exact hQ.jump hv
      | false => exact hv
    have hlast (d : Bool) {v : State} (hv : Q d true v) : Q true true (when (!d) pauseJump v) := by
      cases d with
      | true => exact hv
      | false => exact hQ.jump hv
    exact hlast _ (hparts _ _ _ _ _ _ (hQ.group (hjump _ (hparts _ _ _ _ _ _ horder))))
  · exact hQ.group (hQ.jump ((hQ.bounds false false).defects ((hQ.bounds false false).revolution ((hQ.bounds false false).frontEnd h))))

theorem boundary_of_index (hb : s.angle.bin = 63) : boundary s = indexBoundary s.angle.bin (advanceBin s) := by
  have hbin : (advanceBin s).angle.bin = 0 := by
    rw [advanceBin_eq]
    show s.angle.bin + 1 = 0
    exact (next_bin_eq_zero_iff _).mpr hb
  unfold boundary
  dsimp only
  rw [if_pos hbin]

theorem boundaries_succ (n : Nat) (s : State) : boundaries (n + 1) s = boundary (boundaries n s) := by
  induction n generalizing s with
  | zero => rfl
  | succ n ih => exact ih (boundary s)

/-! ## The angle (R17, R23, R24) -/

/-- The angle after a boundary. -/
def Angle.advance (a : Angle) : Angle :=
  { a with bin := a.bin + 1, revs := if a.bin = 63 then (a.revs + 1) % 65536 else a.revs }

/-- A part whose angle stands, and the eject that waits. -/
abbrev AtAngle (w : Bool) (a : Angle) (s : State) : Prop := s.angle = a ∧ s.loader.ejectPending = w

/-- A part whose angle stands, with no eject that waits. -/
abbrev At (a : Angle) (s : State) : Prop := AtAngle false a s

theorem steady_at (a : Angle) : Steady (AtAngle w a) where
  fe h _ _ := h
  focus h := h
  track h := h
  det h := h
  defects h := h
  spindle h := h
  sled h := h
  seek h := h
  seq h := h
  link h := h
  freeCount h := h
  groups h _ _ := h
  sup h _ := h
  drive h := h
  signals h _ := h

/-- What follows from a command leaves the angle, where no eject waits. -/
theorem settling_at (a : Angle) : Settling (At a) where
  toSteady := steady_at a
  launch h _ := (steady_at a).takePending fun _ _ => h
  release {s} h := by rwa [ejectRelease_of_not_due fun hd => Bool.false_ne_true (h.2.symm.trans hd.2.1)]

theorem at_defectBoundary {a : Angle} {b c : Fin 64} (h : AtAngle w a u) : AtAngle w a (defectBoundary b c u) := by
  obtain ⟨_, heq, -⟩ := defectBoundary_eq b c u
  rw [heq]
  exact h

theorem at_countRevolution {a : Angle} (h : AtAngle w a u) : AtAngle w a (countRevolution u) := by
  unfold countRevolution
  split
  · split
    · exact (steady_at a).endShock h
    · exact h
  · exact h

theorem at_takePendingThen {a : Angle} {f : State → State} (hf : ∀ {v}, AtAngle w a v → AtAngle w a (f v)) (h : AtAngle w a u) :
    AtAngle w a (takePendingThen f u) := by
  unfold takePendingThen
  split
  · exact hf h
  next g _ =>
    have hswitch := (steady_at a).regroup (s := u.setGroups { u.groups with pending := none })
      (g := { { u.groups with pending := none } with base := g }) (by exact h)
    exact (steady_at a).post (hf hswitch) _ _

theorem at_groupIndex {a : Angle} (h : AtAngle w a u) : AtAngle w a (groupIndex u) := by
  unfold groupIndex
  dsimp only
  split
  · split
    · exact at_takePendingThen at_countRevolution h
    · exact at_takePendingThen (f := id) (fun h => h) (at_countRevolution h)
  · exact at_countRevolution (at_takePendingThen (f := id) (fun h => h) h)

theorem at_pauseJump {a : Angle} (h : AtAngle w a u) : AtAngle w a (pauseJump u) := by
  unfold pauseJump
  split
  · exact (steady_at a).jumpOrder h _ _
  · exact h

theorem indexes_at (a : Angle) : Indexes (fun _ _ => AtAngle w a) where
  bounds _ _ := ⟨fun h => h, fun h => h, at_defectBoundary⟩
  order h := h
  jump := at_pauseJump
  group := at_groupIndex

/-- A boundary moves the angle on, whatever else it does (R23, R24). -/
theorem at_boundary {a : Angle} (h : AtAngle w a u) : AtAngle w a.advance (boundary u) := by
  by_cases hb : u.angle.bin = 63
  · have hstart : AtAngle w a.advance ((advanceBin u).setAngle { (advanceBin u).angle with revs := ((advanceBin u).angle.revs + 1) % 65536 }) := by
      rw [advanceBin_eq]
      refine ⟨?_, h.2⟩
      rw [← h.1, Angle.advance, if_pos hb]
      rfl
    rw [boundary_of_index hb]
    exact (indexes_at a.advance).indexBoundary u.angle.bin hstart
  · rw [boundary_of_inner hb]
    refine at_defectBoundary ⟨?_, h.2⟩
    rw [← h.1, Angle.advance, if_neg hb]
    rfl

theorem at_boundaries {a : Angle} (n : Nat) (h : AtAngle w a u) : AtAngle w (Angle.advance^[n] a) (boundaries n u) := by
  induction n with
  | zero => exact h
  | succ n ih =>
    rw [boundaries_succ, Function.iterate_succ_apply']
    exact at_boundary ih

/-- Boundaries within a revolution count the bin alone. -/
theorem advance_inner (a : Angle) {n : Nat} (h : a.bin.val + n ≤ 63) :
    Angle.advance^[n] a = { a with bin := ⟨a.bin.val + n, by omega⟩ } := by
  induction n with
  | zero => rfl
  | succ n ih =>
    have hne : (⟨a.bin.val + n, by omega⟩ : Fin 64) ≠ 63 := fun hb => by
      have := congrArg Fin.val hb
      simp at this
      omega
    rw [Function.iterate_succ_apply', ih (by omega), Angle.advance, if_neg hne]
    refine congrArg (fun b => ({ a with bin := b } : Angle)) (Fin.ext ?_)
    show (a.bin.val + n + 1) % 64 = a.bin.val + (n + 1)
    omega

/-- The boundaries owed at an edge end the sector of the bin they find (R17). -/
theorem advance_owed {a : Angle} {e : Fin 8} (h : e.val = a.bin.val / 8) : Angle.advance^[owed a.bin] a
    = { a with bin := Fin.ofNat 64 (8 * (e + 1).val), revs := if e + 1 = 0 then (a.revs + 1) % 65536 else a.revs } := by
  obtain ⟨n, hn⟩ : ∃ n, owed a.bin = n + 1 := ⟨7 - a.bin.val % 8, by unfold owed; omega⟩
  have hlast : a.bin.val + n = 8 * e.val + 7 := by
    unfold owed at hn
    omega
  have he : e.val ≤ 7 := by omega
  rw [hn, Function.iterate_succ_apply', advance_inner a (by omega), Angle.advance]
  have hindex : (⟨a.bin.val + n, by omega⟩ : Fin 64) = 63 ↔ e + 1 = 0 := by
    rw [Fin.ext_iff, Fin.ext_iff, Fin.val_add]
    show a.bin.val + n = 63 ↔ (e.val + 1) % 8 = 0
    omega
  have hbin : (⟨a.bin.val + n, by omega⟩ : Fin 64) + 1 = Fin.ofNat 64 (8 * (e + 1).val) := by
    refine Fin.ext ?_
    rw [Fin.val_add, Fin.val_add]
    show (a.bin.val + n + 1) % 64 = 8 * ((e.val + 1) % 8) % 64
    omega
  rw [hbin]
  exact congrArg (fun r => ({ a with bin := _, revs := r } : Angle)) (if_congr hindex rfl rfl)

end

end Sys2Proof.Machine
end


-- ==== Sys2Proof/Proofs/FgEdges.lean ====
section
/-! SUPPORT. An FG edge: its boundaries, its schedule and what it leaves aside (R17 to R20, R24, R103). -/

namespace Sys2Proof.Machine

section
variable {s t u : State} {w : Bool}

/-! ## The boundaries an edge delivers (R17) -/

theorem Bounds.boundaries {P : State → Prop} (hP : Bounds P) (hm : Moves P) {a : Angle} {n : Nat} (hat : AtAngle w a u)
    (hn : a.bin.val + n ≤ 63) (h : P u) : P (boundaries n u) := by
  induction n with
  | zero => exact h
  | succ n ih =>
    rw [boundaries_succ]
    refine hP.boundary hm (ih (by omega)) ?_
    rw [(at_boundaries n hat).1, advance_inner a (by omega)]
    intro hb
    have hval : a.bin.val + n = 63 := congrArg Fin.val hb
    omega

/-- The boundaries of the edge that brings the index event. -/
theorem Indexes.boundaries {Q : Bool → Bool → State → Prop} (hQ : Indexes Q) (hm : Moves (Q false false)) {a : Angle} (hat : AtAngle w a u)
    (hb : a.bin.val / 8 = 7) (h : Q false false u) : Q true true (boundaries (owed a.bin) u) := by
  obtain ⟨n, hn⟩ : ∃ n, owed a.bin = n + 1 := ⟨7 - a.bin.val % 8, by unfold owed; omega⟩
  have hlast : a.bin.val + n = 63 := by
    unfold owed at hn
    omega
  have hbin : (Machine.boundaries n u).angle.bin = 63 := by
    rw [(at_boundaries n hat).1, advance_inner a (by omega)]
    exact Fin.ext hlast
  let v : State := advanceBin (Machine.boundaries n u)
  have hadvanced : Q false false v := hm.advance ((hQ.bounds false false).boundaries hm hat (by omega) h)
  rw [hn, boundaries_succ, boundary_of_index hbin]
  exact hQ.indexBoundary _ (hm v { v.angle with revs := (v.angle.revs + 1) % 65536 } v.det hadvanced)

/-! ## What they leave aside -/

section
variable {G : Groups} {T : TrackLoop} {n : Nat} {posts : List Notice}

theorem bounds_turning : Bounds (Turning s G T n posts) where
  frontEnd h := h.closeFrontEnd
  revolution h := h.closeRevolution _
  defects h := h.defectBoundary _ _

theorem moves_turning : Moves (Turning s G T n posts) := fun u a d h => h.write a u.rev d u.freeCount

end

/-- A part whose group settings bring nothing at an index event, or whose counters are clear and bring no incident. -/
abbrev State.indexCalm (s : State) : Prop :=
  (s.groups.pending = none ∧ s.groups.shockMode = false) ∨ (s.countersClear ∧ limitsLaw s.groups.recs)

/-- Somewhere on the way through an edge, with settings that bring no incident. -/
def Calmly (s u : State) : Prop :=
  ∃ G T n posts, Turning s G T n posts u
    ∧ ((G.pending = none ∧ G.shockMode = false) ∨ (T.offCount = 0 ∧ s.focus.lost = 0 ∧ limitsLaw G.recs))

theorem limitsLaw_launched_counted {G : Groups} (h : limitsLaw G.recs) : limitsLaw G.launched.counted.recs := by
  unfold Groups.counted
  split
  · split <;> exact h
  · exact h

theorem indexes_calmly (s : State) : Indexes (fun _ _ => Calmly s) where
  bounds _ _ :=
    { frontEnd := fun ⟨G, T, n, posts, h, hcalm⟩ => ⟨G, T, n, posts, h.closeFrontEnd, hcalm⟩
      revolution := fun ⟨G, T, n, posts, h, hcalm⟩ => ⟨G, T, n, posts, h.closeRevolution _, hcalm⟩
      defects := fun ⟨G, T, n, posts, h, hcalm⟩ => ⟨G, T, n, posts, h.defectBoundary _ _, hcalm⟩ }
  order := fun ⟨G, T, n, posts, h, hcalm⟩ => ⟨G, T, n, posts, h.takeOrder, hcalm⟩
  jump := fun ⟨G, T, n, posts, h, hcalm⟩ => by
    obtain ⟨T', n', hT, h'⟩ := h.pauseJump
    exact ⟨G, T', n', posts, h', hcalm.imp_right fun ⟨ho, hrest⟩ => ⟨hT ho, hrest⟩⟩
  group {j u} := fun ⟨G, T, n, posts, h, hcalm⟩ => by
    rcases hcalm with ⟨hp, hm⟩ | ⟨ho, hl, hlim⟩
    · rw [groupIndex_of_still (by rw [h.groups]; exact hp) (by rw [h.groups]; exact hm)]
      exact ⟨G, T, n, posts, h, .inl ⟨hp, hm⟩⟩
    · obtain ⟨b, -, -, h'⟩ := h.groupIndex ⟨ho, hl⟩ hlim
      exact ⟨_, T, n, _, h', .inr ⟨ho, hl, limitsLaw_launched_counted hlim⟩⟩

theorem moves_calmly (s : State) : Moves (Calmly s) := fun u a d ⟨G, T, n, posts, h, hcalm⟩ => ⟨G, T, n, posts, moves_turning u a d h, hcalm⟩

/-- The boundaries of an edge leave the blocks aside as they are, where an index event brings no incident. -/
theorem aside_boundaries {a : Angle} (hat : AtAngle w a u) (hcalm : a.bin.val / 8 = 7 → u.indexCalm) :
    (boundaries (owed a.bin) u).aside = u.aside := by
  by_cases hb : a.bin.val / 8 = 7
  · have hstart : Calmly u u := ⟨_, _, _, _, turning_start u, (hcalm hb).imp_right fun ⟨⟨ho, hl⟩, hlim⟩ => ⟨ho, hl, hlim⟩⟩
    obtain ⟨G, T, n, posts, h, -⟩ := (indexes_calmly u).boundaries (moves_calmly u) hat hb hstart
    exact h.aside
  · have hinner : a.bin.val + owed a.bin ≤ 63 := by
      unfold owed
      omega
    exact (bounds_turning.boundaries moves_turning hat hinner (turning_start u)).aside

/-! ## The schedule (R19, R20) -/

/-- The angle after the boundaries and the schedule of an edge. -/
def Angle.edged (a : Angle) (timed : Bool) : Angle :=
  { a with
    bin := Fin.ofNat 64 (8 * a.edge.val), revs := if a.edge = 0 then (a.revs + 1) % 65536 else a.revs
    schedule := if timed then some ⟨1, a.p / 8⟩ else none, refValid := a.refValid || timed, sinceEdge := 0 }

theorem at_edgeSchedule {a : Angle} (timed : Bool) (h : AtAngle w a u) : AtAngle w
    { a with schedule := if timed then some ⟨1, a.p / 8⟩ else none, refValid := a.refValid || timed, sinceEdge := 0 }
    (edgeSchedule timed u) := by
  obtain ⟨rfl, he⟩ := h
  cases timed with
  | true => exact ⟨by rw [Bool.or_true]; rfl, he⟩
  | false => exact ⟨by rw [Bool.or_false]; rfl, he⟩

theorem at_edgeBoundaries {a : Angle} {e : Fin 8} (timed : Bool) (h : AtAngle w a u) (he : e.val = a.bin.val / 8) (hedge : a.edge = e + 1) :
    AtAngle w (a.edged timed) (edgeBoundaries timed u) := by
  have hbin : u.angle.bin = a.bin := congrArg Angle.bin h.1
  rw [edgeBoundaries, hbin]
  have hmoved := at_boundaries (owed a.bin) h
  rw [advance_owed he, ← hedge] at hmoved
  exact at_edgeSchedule timed hmoved

theorem aside_edgeBoundaries {a : Angle} (timed : Bool) (hat : AtAngle w a u) (hcalm : a.bin.val / 8 = 7 → u.indexCalm) :
    (edgeBoundaries timed u).aside = u.aside := by
  have hbin : u.angle.bin = a.bin := congrArg Angle.bin hat.1
  rw [edgeBoundaries, hbin, ← aside_boundaries hat hcalm]
  cases timed <;> rfl

end

end Sys2Proof.Machine
end


-- ==== Sys2Proof/Proofs/BrakingEdges.lean ====
section
/-! SUPPORT. The Spindle Controller at an FG edge: what it leaves of the angle, and what the stop of a braking spindle hands on (R18, R87,
R98 to R103, R143). -/

namespace Sys2Proof.Machine

section
variable {s t u : State} {X : Spindle} {w : Bool}

/-! ## The spindle's own act (R98 to R103) -/

theorem at_lockingEdge {a : Angle} (p : Nat) (h : AtAngle w a u) : AtAngle w a (lockingEdge p u) := by
  unfold lockingEdge
  dsimp only
  split
  · split
    · exact (steady_at a).setSpindleState (s := spindleCompute p u) h _
    · exact h
  · exact h

theorem at_lockedEdge {a : Angle} (p : Nat) (h : AtAngle w a u) : AtAngle w a (lockedEdge p u) := by
  unfold lockedEdge
  dsimp only
  split
  · split
    · exact (steady_at a).setSpindleState (s := spindleCompute p u) h _
    · exact h
  · exact h

theorem at_kickEdge {a : Angle} (p : Nat) (h : AtAngle w a u) : AtAngle w a (kickEdge p u) := by
  unfold kickEdge
  split
  · exact at_lockingEdge p ((steady_at a).setSpindleState h _)
  · exact h

/-- Only a stop changes the angle. -/
theorem at_spindleEdge {a : Angle} {p : Option Nat} (hb : u.spindle.state ≠ .braking) (h : AtAngle w a u) : AtAngle w a (spindleEdge p u) := by
  unfold spindleEdge
  split
  · exact at_kickEdge _ h
  · exact at_lockingEdge _ h
  · exact at_lockedEdge _ h
  next hbraking => exact absurd hbraking hb
  all_goals exact h

/-- The machine whose braking spindle has begun its state timer again (R103). -/
def State.retimed (s : State) : State := s.setSpindle { s.spindle with timer := 0 }

/-- A braking spindle at an edge stops where the edge measures a long interval (R18, R103). -/
theorem spindleEdge_of_braking (us : Nat) (hs : s.spindle.state = .braking) (hu : u.spindle.state = .braking) :
    spindleEdge (measured s us) u = if 1 ≤ s.angle.spinUp ∧ 50000 < us then enterStopped u.retimed else u.retimed := by
  have hedge (p : Option Nat) : spindleEdge p u = brakingEdge p u := by
    unfold spindleEdge
    rw [hu]
  rw [hedge]
  unfold measured
  by_cases hspin : s.angle.spinUp = 0
  · rw [if_pos (by simp [hspin]), if_neg (by omega)]
    rfl
  · rw [if_neg (by simp [hs, hspin])]
    exact if_congr (by omega) rfl rfl

/-! ## What a stop hands on in a part at rest (R87, R103, R143) -/

/-- A part at rest, or that disengages with nothing in its queue, while what a stop hands on is taken. -/
structure Idles (X : Spindle) (s : State) : Prop where
  spindle : s.spindle = X
  state : s.seq.state = .idle ∨ s.seq.state = .standby ∨ (s.seq.state = .disengaging ∧ s.seq.queue = [])
  signals : ∀ x ∈ s.signals, (x = .spindleMoved ∨ x = .spindleStopped ∨ x = .launchDue)
    ∨ (x = .offTrack ∨ x = .focusLost ∨ x = .focusLostDue) ∨ (x = .testHead ∧ s.seq.queue = [])

namespace Idles

theorem states (h : Idles X s) : s.seq.state ≠ .engaging ∧ s.seq.state ≠ .recovering ∧ s.seq.state ≠ .following
    ∧ (s.seq.state.engaged && !decide (s.seq.state = .disengaging)) = false ∧ s.haltWait = false := by
  rcases h.state with h | h | ⟨h, -⟩ <;> simp [h, SeqState.engaged, State.haltWait]

theorem emit (h : Idles X s) {x : Signal} (hx : x = .offTrack ∨ x = .focusLost ∨ x = .focusLostDue) : Idles X (emit x s) :=
  ⟨h.spindle, h.state, fun y hy => (List.mem_append.mp hy).elim (h.signals y) fun hy => .inr (.inl (List.mem_singleton.mp hy ▸ hx))⟩

theorem incident (h : Idles X s) (c : Cause) : Machine.incident c s = s := by
  unfold Machine.incident
  rcases h.state with h | h | ⟨h, -⟩ <;> rw [h]

theorem setTrack (h : Idles X s) (x : TrackLoop) : Idles X (s.setTrack x) := ⟨h.spindle, h.state, h.signals⟩

theorem raiseOffTrack (h : Idles X s) : Idles X (raiseOffTrack s) := by
  unfold Machine.raiseOffTrack
  split
  · exact (h.setTrack _).emit (.inl rfl)
  · exact h

theorem raiseFocusLost (h : Idles X s) : Idles X (raiseFocusLost s) := by
  unfold Machine.raiseFocusLost
  split
  · exact Idles.emit (s := (openFocus s).setSled _) ⟨h.spindle, h.state, h.signals⟩ (.inr (.inl rfl))
  · exact h

theorem loseFocus (h : Idles X s) : Idles X (loseFocus s) := by
  unfold Machine.loseFocus
  split
  · exact h.emit (.inr (.inr rfl))
  · exact h.raiseFocusLost

theorem takeOrder (h : Idles X s) : Idles X (takeOrder s).2 := ⟨h.spindle, h.state, h.signals⟩

theorem raiseDue (h : Idles X s) : Idles X (raiseDue s) := by
  unfold Machine.raiseDue
  split
  · dsimp only
    split
    · exact h.takeOrder.raiseOffTrack.loseFocus
    · exact h.takeOrder.raiseFocusLost
  · split
    · exact h.raiseOffTrack
    · split
      · exact h.loseFocus
      · exact h

theorem regroup (h : Idles X s) (g : Groups) : Idles X (regroup g s) := by
  unfold Machine.regroup
  dsimp only
  split
  · exact ⟨h.spindle, h.state, h.signals⟩
  · exact Idles.raiseDue ⟨h.spindle, h.state, h.signals⟩

theorem takePending (h : Idles X s) : Idles X (takePending s) := by
  unfold Machine.takePending takePendingThen
  split
  · exact h
  next g _ =>
    have hswitch : Idles X (Machine.regroup { { s.groups with pending := none } with base := g }
        (s.setGroups { s.groups with pending := none })) := Idles.regroup ⟨h.spindle, h.state, h.signals⟩ _
    exact ⟨hswitch.spindle, hswitch.state, hswitch.signals⟩

/-- The arrival leaves no entry in the queue. -/
theorem arrive (h : Idles X s) (hd : s.seq.state = .disengaging) : Idles X (arrive s) := by
  have hq : s.seq.queue = [] := by
    rcases h.state with h | h | ⟨-, hq⟩
    · exact SeqState.noConfusion (h.symm.trans hd)
    · exact SeqState.noConfusion (h.symm.trans hd)
    · exact hq
  have hne : s.seq.state ≠ .seeking := by rw [hd]; exact SeqState.noConfusion
  have hend (u : State) (hu : u.seq.queue = []) : endEntry .done u = u := by rw [endEntry, hu]
  have hsignals (x : Signal) (hx : x ∈ Signal.testHead :: s.signals) : (x = .spindleMoved ∨ x = .spindleStopped ∨ x = .launchDue)
      ∨ (x = .offTrack ∨ x = .focusLost ∨ x = .focusLostDue) ∨ (x = .testHead ∧ s.seq.queue = []) :=
    (List.mem_cons.mp hx).elim (fun he => .inr (.inr ⟨he, hq⟩)) (h.signals x)
  unfold Machine.arrive
  dsimp only
  cases s.seq.toStandby with
  | true =>
    rw [if_pos rfl, setSeqState_standby hne, hend _ (by exact hq)]
    exact ⟨h.spindle, .inr (.inl rfl), hsignals⟩
  | false =>
    rw [if_neg Bool.false_ne_true, setSeqState_eq (by decide) (by decide), hend _ (by exact hq)]
    refine ⟨?_, .inl rfl, hsignals⟩
    show { s.spindle with target := if s.seq.state = .seeking then s.ownTarget else s.spindle.target } = X
    rw [if_neg hne]
    exact h.spindle

/-- What a stop hands on leaves the spindle. -/
theorem handle {x : Signal} {rest : List Signal} (h : Idles X s) (hs : s.signals = x :: rest) : Idles X (handle x (s.setSignals rest)) := by
  have hrest : Idles X (s.setSignals rest) :=
    ⟨h.spindle, h.state, fun y hy => h.signals y (hs ▸ List.mem_cons_of_mem x hy)⟩
  obtain ⟨heng, hrec, -, hshock, hhalt⟩ := hrest.states
  rcases h.signals x (hs ▸ List.mem_cons_self) with (rfl | rfl | rfl) | (rfl | rfl | rfl) | ⟨rfl, hq⟩
  · show Idles X (engageAdvance (s.setSignals rest))
    rw [engageAdvance_of_not_engaging heng]
    exact hrest
  · show Idles X (seqStopped (s.setSignals rest))
    unfold seqStopped
    split
    next hd => exact hrest.arrive hd
    · exact hrest
  · exact hrest.takePending
  · show Idles X (takeOffTrack (s.setSignals rest))
    have hno : takeOffTrack (s.setSignals rest) = s.setSignals rest := by
      rw [takeOffTrack, if_neg (by simp [show s.seq.state ≠ .recovering from hrec]), hrest.incident, shockTrigger,
        if_neg (by rw [hshock]; exact Bool.false_ne_true)]
    rw [hno]
    exact hrest
  · show Idles X (seqFocusLost (disturb (s.setSignals rest)))
    have hdisturb : Idles X (disturb (s.setSignals rest)) := by
      unfold disturb
      split
      · exact ⟨hrest.spindle, hrest.state, hrest.signals⟩
      · exact hrest
    obtain ⟨-, -, -, -, hhalt'⟩ := hdisturb.states
    rw [seqFocusLost, if_neg (by rw [hhalt']; exact Bool.false_ne_true), hdisturb.incident]
    exact hdisturb
  · exact hrest.raiseFocusLost
  · show Idles X (startHead (s.setSignals rest))
    rw [startHead_of_none (headDue_of_empty (by exact hq))]
    exact hrest

theorem drain (n : Nat) (h : Idles X s) : Idles X (drain n s) := by
  induction n generalizing s with
  | zero => exact ⟨h.spindle, h.state, fun x hx => absurd hx List.not_mem_nil⟩
  | succ n ih =>
    cases hs : s.signals with
    | nil =>
      rw [drain_of_quiet (n + 1) hs]
      exact h
    | cons x rest =>
      rw [drain_cons n hs]
      exact ih (h.handle hs)

end Idles

/-- The stop of a braking spindle at an edge: the machine it leaves and what it hands on. -/
theorem enterStopped_hands (hs : s.signals = []) (hb : s.spindle.state = .braking) (he : s.loader.ejectPending = false) :
    ∃ c xs, enterStopped s = (s.halted.setFreeCount c).setSignals xs
      ∧ ∀ x ∈ xs, x = .spindleMoved ∨ x = .spindleStopped ∨ x = .launchDue := by
  obtain ⟨c, hc⟩ := stopSignals_snd s.halted
  refine ⟨c, _, (enterStopped_eq hs hb).trans (by rw [hc]), fun x hx => ?_⟩
  rcases List.mem_cons.mp hx with rfl | hx
  · exact .inl rfl
  · refine .inr ?_
    unfold stopSignals at hx
    rw [show s.halted.loader.ejectPending = false from he] at hx
    cases hp : s.halted.groups.pending with
    | none =>
      rw [hp] at hx
      exact .inl (List.mem_singleton.mp hx)
    | some g =>
      rw [hp] at hx
      dsimp only [Option.isSome_some] at hx
      split at hx <;> simp at hx
      · exact hx.symm
      · exact hx

end

end Sys2Proof.Machine
end


-- ==== Sys2Proof/Proofs/FgEdgeKeepsAngle.lean ====
section
/-! SUPPORT. What an FG edge makes of the angle, and a braking spindle's stop at it (R17 to R20, R24, R103). -/

namespace Sys2Proof.Machine

section
variable {s u : State} {us : Nat}

/-- The angle after the count of an edge (R17, R18). -/
def State.counted (s : State) (us : Nat) : Angle :=
  { s.angle with
    edge := s.angle.edge + 1
    p := if s.spindle.state = .stopped ∨ s.angle.spinUp = 0 then s.angle.p else min 65535 us
    spinUp := if s.spindle.state = .stopped then s.angle.spinUp else min 2 (s.angle.spinUp + 1) }

theorem edgeCount_eq (us : Nat) (s : State) : edgeCount us s = s.setAngle (s.counted us) := by
  unfold edgeCount edgeInterval measured State.counted
  by_cases hstop : s.spindle.state = .stopped
  · simp only [hstop, if_true, true_or]
  · by_cases hspin : s.angle.spinUp = 0
    · simp only [hstop, hspin, if_false, if_true, false_or, decide_true, Bool.or_true]
      rfl
    · simp only [hstop, hspin, if_false, false_or, decide_false, Bool.or_false, Bool.false_eq_true]
      rfl

/-- The edge gives a schedule from its second count on (R19). -/
def State.timedAt (s : State) (us : Nat) : Bool := (s.counted us).spinUp = 2

theorem fgEdge_eq (us : Nat) (s : State) : fgEdge us s
    = let p := measured s us
      let u := s.setAngle (s.counted us)
      if edgeSwitches u then
        if (takeOrder u).1 then spindleEdge p (drain 64 (edgeBoundaries (s.timedAt us) (takeOrder u).2))
        else edgeBoundaries (s.timedAt us) (afterSpindle (spindleEdge p (takeOrder u).2))
      else spindleEdge p (edgeBoundaries (s.timedAt us) u) := by
  unfold fgEdge
  dsimp only
  rw [edgeCount_eq]
  rfl

/-- An edge in a part whose index event brings no incident. -/
structure Edge (s : State) : Prop where
  quiet : s.signals = []
  eject : s.loader.ejectPending = false
  sector : s.angle.edge.val = s.angle.bin.val / 8
  calm : s.angle.edge = 7 → s.indexCalm

namespace Edge

theorem at_count (k : Edge s) : At (s.counted us) (s.setAngle (s.counted us)) := ⟨rfl, k.eject⟩

theorem calm_bin (k : Edge s) (h : s.angle.bin.val / 8 = 7) : s.indexCalm := k.calm (Fin.ext (k.sector.trans h))

/-- The boundaries of the edge, in a machine that differs in its angle, its spindle, its notices and what it hands on alone. -/
theorem boundaries (k : Edge s) {a : Angle} (timed : Bool) (hat : At a u) (hbin : a.bin = s.angle.bin) (hedge : a.edge = s.angle.edge + 1)
    (hu : u.track = s.track ∧ u.focus = s.focus ∧ u.groups = s.groups) :
    At (a.edged timed) (edgeBoundaries timed u) ∧ (edgeBoundaries timed u).aside = u.aside := by
  refine ⟨at_edgeBoundaries (e := s.angle.edge) timed hat (by rw [hbin]; exact k.sector) hedge,
    aside_edgeBoundaries timed hat fun hb => ?_⟩
  obtain ⟨ht, hf, hg⟩ := hu
  rw [State.indexCalm, State.countersClear, ht, hf, hg]
  exact k.calm_bin (hbin ▸ hb)

/-- The boundaries where they come before the spindle's act. -/
theorem first (k : Edge s) (u : State) (hu : u = s.setAngle (s.counted us) ∨ u = (takeOrder (s.setAngle (s.counted us))).2) :
    At ((s.counted us).edged (s.timedAt us)) (edgeBoundaries (s.timedAt us) u) ∧ (edgeBoundaries (s.timedAt us) u).aside = s.aside := by
  rcases hu with rfl | rfl
  · exact k.boundaries (a := s.counted us) _ ⟨rfl, k.eject⟩ rfl rfl ⟨rfl, rfl, rfl⟩
  · exact k.boundaries (a := s.counted us) _ ⟨rfl, k.eject⟩ rfl rfl ⟨rfl, rfl, rfl⟩

/-- Where the spindle is not braking the edge's angle is that of its boundaries and its schedule. -/
theorem angle (k : Edge s) (hb : s.spindle.state ≠ .braking) : At ((s.counted us).edged (s.timedAt us)) (fgEdge us s) := by
  have hspindle {v : State} (hv : v.aside = s.aside) : v.spindle.state ≠ .braking := by
    obtain ⟨-, -, -, -, -, -, -, hsp, -⟩ := aside_iff.mp hv
    rwa [hsp]
  rw [fgEdge_eq]
  dsimp only
  split
  · split
    · obtain ⟨hat, haside⟩ := k.first _ (.inr rfl)
      obtain ⟨-, -, -, -, -, -, -, -, hsig⟩ := aside_iff.mp haside
      rw [drain_of_quiet 64 (hsig.trans k.quiet)]
      exact at_spindleEdge (hspindle haside) hat
    · refine at_edgeBoundaries (a := s.counted us) (e := s.angle.edge) _ ?_ k.sector rfl
      have hat : At (s.counted us) (spindleEdge (measured s us) (takeOrder (s.setAngle (s.counted us))).2) :=
        at_spindleEdge (by exact hb) ⟨rfl, k.eject⟩
      unfold afterSpindle
      split
      · exact hat
      · exact (settling_at _).drain 64 hat
  · obtain ⟨hat, haside⟩ := k.first _ (.inl rfl)
    exact at_spindleEdge (hspindle haside) hat

end Edge

/-! ## A braking spindle (R18, R103) -/

/-- The spindle at an edge in BRAKING, stopped by it or not. -/
def Spindle.brakesOn (x : Spindle) (stops : Bool) : Spindle :=
  if stops then { x with state := .stopped, isp := 0, drive := 0, lockRun := 0, unlockRun := 0, timer := 0 } else { x with timer := 0 }

theorem aside_spindle (h : u.aside = s.aside) (f : Spindle → Spindle) (xs : List Signal) :
    ((u.setSpindle (f u.spindle)).setSignals xs).aside = ((s.setSpindle (f s.spindle)).setSignals xs).aside := by
  obtain ⟨hfocus, hsled, hseek, hseq, hloader, hsup, hheld, hspindle, -⟩ := aside_iff.mp h
  exact aside_iff.mpr ⟨hfocus, hsled, hseek, hseq, hloader, hsup, hheld, congrArg f hspindle, rfl⟩

/-- What a stop hands on. -/
abbrev stopHands (xs : List Signal) : Prop := ∀ x ∈ xs, x = .spindleMoved ∨ x = .spindleStopped ∨ x = .launchDue

namespace Edge

/-- The edge stops the braking spindle (R103). -/
abbrev stops (s : State) (us : Nat) : Prop := 1 ≤ s.angle.spinUp ∧ 50000 < us

/-- The spindle's act on a braking spindle, in a machine with the blocks aside as they were. -/
theorem brakes {a : Angle} (k : Edge s) (hb : s.spindle.state = .braking) (hat : At a u) (hu : u.aside = s.aside) :
    ∃ xs, stopHands xs ∧ (¬stops s us → xs = [])
      ∧ At { a with spinUp := if stops s us then 0 else a.spinUp } (spindleEdge (measured s us) u)
      ∧ (spindleEdge (measured s us) u).aside = ((s.setSpindle (s.spindle.brakesOn (decide (stops s us)))).setSignals xs).aside
      ∧ (spindleEdge (measured s us) u).track = u.track ∧ (spindleEdge (measured s us) u).groups = u.groups := by
  obtain ⟨-, -, -, -, hloader, -, -, hspindle, hsig⟩ := aside_iff.mp hu
  have hub : u.spindle.state = .braking := by rw [hspindle, hb]
  rw [spindleEdge_of_braking us hb hub]
  by_cases hstop : stops s us
  · obtain ⟨c, xs, heq, hxs⟩ := enterStopped_hands (s := u.retimed) (hsig.trans k.quiet) hub hat.2
    rw [if_pos hstop, if_pos hstop, decide_eq_true hstop, heq]
    refine ⟨xs, hxs, fun h => absurd hstop h, ⟨?_, hat.2⟩, ?_, rfl, rfl⟩
    · rw [← hat.1]
      rfl
    · exact aside_spindle hu (fun x => x.brakesOn true) xs
  · rw [if_neg hstop, if_neg hstop, decide_eq_false hstop]
    refine ⟨[], fun x hx => absurd hx List.not_mem_nil, fun _ => rfl, hat, ?_, rfl, rfl⟩
    have haside := aside_spindle hu (fun x => x.brakesOn false) []
    rw [← setSignals_nil (s := u.retimed) (hsig.trans k.quiet)]
    exact haside

/-- The machine after an edge on a braking spindle, before what the stop hands on is taken. -/
def Braked (s : State) (us : Nat) (t : State) : Prop :=
  ∃ xs, stopHands xs ∧ (¬stops s us → xs = [])
    ∧ At { (s.counted us).edged (s.timedAt us) with spinUp := if stops s us then 0 else (s.counted us).spinUp } t
    ∧ t.aside = ((s.setSpindle (s.spindle.brakesOn (decide (stops s us)))).setSignals xs).aside

theorem braking (k : Edge s) (hb : s.spindle.state = .braking) : Braked s us (fgEdge us s) := by
  have hfirst {v : State} (hv : At ((s.counted us).edged (s.timedAt us)) v ∧ v.aside = s.aside) :
      Braked s us (spindleEdge (measured s us) v) := by
    obtain ⟨xs, hxs, hnone, hat, haside, -, -⟩ := k.brakes (us := us) hb hv.1 hv.2
    exact ⟨xs, hxs, hnone, hat, haside⟩
  rw [fgEdge_eq]
  dsimp only
  split
  · split
    · have hv := k.first (us := us) _ (.inr rfl)
      obtain ⟨-, -, -, -, -, -, -, -, hsig⟩ := aside_iff.mp hv.2
      rw [drain_of_quiet 64 (hsig.trans k.quiet)]
      exact hfirst hv
    · let v : State := (takeOrder (s.setAngle (s.counted us))).2
      obtain ⟨xs, hxs, hnone, hat, haside, ht, hg⟩ := k.brakes (u := v) (us := us) (a := s.counted us) hb ⟨rfl, k.eject⟩ rfl
      obtain ⟨hfocus, -, -, -, -, -, -, hsp, hsig⟩ := aside_iff.mp haside
      have hafter : afterSpindle (spindleEdge (measured s us) v) = spindleEdge (measured s us) v := by
        unfold afterSpindle
        by_cases hstop : stops s us
        · exact if_pos (by rw [hsp, decide_eq_true hstop]; rfl)
        · split
          · rfl
          · exact drain_of_quiet 64 (hsig.trans (hnone hstop))
      rw [hafter]
      obtain ⟨hat', haside'⟩ := k.boundaries (s.timedAt us) hat rfl rfl ⟨ht, hfocus, hg⟩
      exact ⟨xs, hxs, hnone, hat', haside'.trans haside⟩
  · exact hfirst (k.first (us := us) _ (.inl rfl))

end Edge

end

/-- Settles O28. -/
theorem fgEdgeKeepsAngle : Obligations.FgEdgeKeepsAngle := by
  unfold Obligations.FgEdgeKeepsAngle
  intro s us hs heject hsector hcalm edge spin p turned
  have k : Edge s := ⟨hs.1.1, heject, hsector, fun h => (hcalm h).imp_right fun ⟨hclear, hg⟩ => ⟨hclear, limitsLaw_of_groupLaw hg⟩⟩
  have hturned (n : Nat) : { (s.counted us).edged (s.timedAt us) with spinUp := n } = turned n := by
    have hschedule : (if s.timedAt us = true then some (⟨1, p / 8⟩ : Schedule) else none) = if spin = 2 then some ⟨1, p / 8⟩ else none :=
      if_congr decide_eq_true_iff rfl rfl
    exact congrArg (fun x => ({ turned n with schedule := x } : Angle)) hschedule
  refine ⟨fun hb => ?_, fun hb hrest => ?_⟩
  · have hat := (settling_at _).settle (k.angle (us := us) hb)
    exact ⟨_, done_of_running (fgEdge us) hs.2, hat.1.trans (hturned spin)⟩
  · intro stops
    obtain ⟨xs, hxs, hnone, hat, haside⟩ := k.braking (us := us) hb
    obtain ⟨-, -, -, hseq, hloader, hsup, -, hspindle, hsig⟩ := aside_iff.mp haside
    refine ⟨_, done_of_running (fgEdge us) hs.2, ?_, ?_⟩
    · refine ((settling_at _).settle hat).1.trans ((hturned _).trans (congrArg turned ?_))
      exact if_congr decide_eq_true_iff.symm rfl rfl
    · refine .trans ?_ (show s.spindle.brakesOn stops = _ by cases stops <;> rfl)
      have hidles : Idles (s.spindle.brakesOn stops) (fgEdge us s) :=
        ⟨hspindle, by rw [hseq]; exact hrest, fun x hx => .inl (hxs x (by rw [hsig] at hx; exact hx))⟩
      have hdrained := hidles.drain 64
      have heject := (settling_at _).drain 64 hat
      rw [settle, loaderTest, ejectRelease_of_not_due fun hd => Bool.false_ne_true (heject.2.symm.trans hd.2.1)]
      exact hdrained.spindle

end Sys2Proof.Machine
end


-- ==== Sys2Proof/Proofs/SpindleEdges.lean ====
section
/-! SUPPORT. The Spindle Controller at a measured edge in KICK, LOCKING and LOCKED (R98 to R101, R105). -/

namespace Sys2Proof.Machine

section
variable {s t u : State} {p : Nat}

/-! ## What a measured edge makes of the spindle (R98 to R101) -/

/-- LOCKING at a measured edge: the computation and the lock test (R98, R100). -/
def Spindle.locks (x : Spindle) (kp ki p : Nat) : Spindle :=
  let y := x.compute kp ki p
  if x.target / 32 < (x.err p).natAbs then { y with lockRun := 0 }
  else if x.lockRun + 1 < 8 then { y with lockRun := x.lockRun + 1 }
  else { y with state := .locked, lockRun := 8, unlockRun := 0 }

/-- LOCKED at a measured edge: the computation and the hold test (R98, R101). -/
def Spindle.follows (x : Spindle) (kp ki p : Nat) : Spindle :=
  let y := x.compute kp ki p
  if (x.err p).natAbs ≤ x.target / 16 then { y with unlockRun := 0 }
  else if x.unlockRun + 1 < 4 then { y with unlockRun := x.unlockRun + 1 }
  else { y with state := .locking, lockRun := 0, unlockRun := 4, timer := 0 }

/-- A change of the spindle alone, with its notice and up to `k` times what it hands on (R105, R139). -/
def Spins (k : Nat) (u : State) (x : Spindle) (t : State) : Prop :=
  ∃ n, n ≤ k ∧ t = ((u.setSpindle x).setLink (u.link.postAll (spindleNotice u.spindle.state x.state))).setSignals
    (u.signals ++ List.replicate n .spindleMoved)

theorem spins_same {x : Spindle} {k : Nat} (h : x.state = u.spindle.state) : Spins k u x (u.setSpindle x) := by
  have hquiet : spindleNotice u.spindle.state x.state = [] := by simp [spindleNotice, spindleReports, h]
  refine ⟨0, Nat.zero_le k, ?_⟩
  rw [hquiet, List.replicate_zero, List.append_nil]
  rfl

theorem spins_set (x : Spindle) (u : State) (h : u.spindle.state ≠ x.state) : Spins 1 u x (setSpindleState x u) :=
  ⟨1, Nat.le_refl 1, setSpindleState_moved h⟩

theorem spins_locking (h : u.spindle.state = .locking) : Spins 1 u (u.spindle.locks u.active[27] u.active[28] p) (lockingEdge p u) := by
  let v : State := spindleCompute p u
  by_cases herr : u.spindle.target / 32 < (u.spindle.err p).natAbs
  · have hedge : lockingEdge p u = v.setSpindle { v.spindle with lockRun := 0 } := if_neg (Nat.not_le.mpr herr)
    have hspindle : u.spindle.locks u.active[27] u.active[28] p = { v.spindle with lockRun := 0 } := if_pos herr
    rw [hedge, hspindle]
    exact spins_same (u := u) rfl
  · by_cases hrun : u.spindle.lockRun + 1 < 8
    · have hedge : lockingEdge p u = v.setSpindle { v.spindle with lockRun := u.spindle.lockRun + 1 } :=
        (if_pos (Nat.not_lt.mp herr)).trans (if_neg (Nat.not_le.mpr (Nat.lt_of_succ_lt_succ hrun)))
      have hspindle : u.spindle.locks u.active[27] u.active[28] p = { v.spindle with lockRun := u.spindle.lockRun + 1 } :=
        (if_neg herr).trans (if_pos hrun)
      rw [hedge, hspindle]
      exact spins_same (u := u) rfl
    · have hedge : lockingEdge p u = setSpindleState { v.spindle with state := .locked, lockRun := 8, unlockRun := 0 } v :=
        (if_pos (Nat.not_lt.mp herr)).trans (if_pos (Nat.le_of_succ_le_succ (Nat.not_lt.mp hrun)))
      have hspindle : u.spindle.locks u.active[27] u.active[28] p = { v.spindle with state := .locked, lockRun := 8, unlockRun := 0 } :=
        (if_neg herr).trans (if_neg hrun)
      rw [hedge, hspindle]
      exact spins_set _ v (by show u.spindle.state ≠ _; rw [h]; exact SpindleState.noConfusion)

theorem spins_locked (h : u.spindle.state = .locked) : Spins 1 u (u.spindle.follows u.active[27] u.active[28] p) (lockedEdge p u) := by
  let v : State := spindleCompute p u
  by_cases herr : (u.spindle.err p).natAbs ≤ u.spindle.target / 16
  · have hedge : lockedEdge p u = v.setSpindle { v.spindle with unlockRun := 0 } := if_neg (Nat.not_lt.mpr herr)
    have hspindle : u.spindle.follows u.active[27] u.active[28] p = { v.spindle with unlockRun := 0 } := if_pos herr
    rw [hedge, hspindle]
    exact spins_same (u := u) rfl
  · by_cases hrun : u.spindle.unlockRun + 1 < 4
    · have hedge : lockedEdge p u = v.setSpindle { v.spindle with unlockRun := u.spindle.unlockRun + 1 } :=
        (if_pos (Nat.not_le.mp herr)).trans (if_neg (Nat.not_le.mpr (Nat.lt_of_succ_lt_succ hrun)))
      have hspindle : u.spindle.follows u.active[27] u.active[28] p = { v.spindle with unlockRun := u.spindle.unlockRun + 1 } :=
        (if_neg herr).trans (if_pos hrun)
      rw [hedge, hspindle]
      exact spins_same (u := u) rfl
    · have hedge : lockedEdge p u = setSpindleState { v.spindle with state := .locking, lockRun := 0, unlockRun := 4, timer := 0 } v :=
        (if_pos (Nat.not_le.mp herr)).trans (if_pos (Nat.le_of_succ_le_succ (Nat.not_lt.mp hrun)))
      have hspindle : u.spindle.follows u.active[27] u.active[28] p
          = { v.spindle with state := .locking, lockRun := 0, unlockRun := 4, timer := 0 } := (if_neg herr).trans (if_neg hrun)
      rw [hedge, hspindle]
      exact spins_set _ v (by show u.spindle.state ≠ _; rw [h]; exact SpindleState.noConfusion)

/-- KICK at a measured edge (R99). -/
def Spindle.kicks (x : Spindle) (kp ki p : Nat) : Spindle :=
  if p ≤ 2 * x.target then Spindle.locks { x with state := .locking, timer := 0 } kp ki p else x

theorem locks_state {x : Spindle} (h : x.state = .locking) (kp ki : Nat) :
    (x.locks kp ki p).state = .locking ∨ (x.locks kp ki p).state = .locked := by
  unfold Spindle.locks
  dsimp only
  split
  · exact .inl h
  · split
    · exact .inl h
    · exact .inr rfl

theorem spins_kick (h : u.spindle.state = .kick) : Spins 2 u (u.spindle.kicks u.active[27] u.active[28] p) (kickEdge p u) := by
  by_cases hp : p ≤ 2 * u.spindle.target
  · let y : Spindle := { u.spindle with state := .locking, timer := 0 }
    let v : State := (u.setSpindle y).setSignals (u.signals ++ [.spindleMoved])
    have hfirst : setSpindleState y u = v := by
      rw [setSpindleState_moved (by rw [h]; exact SpindleState.noConfusion), h]
      rfl
    have hedge : kickEdge p u = lockingEdge p v := (if_pos hp).trans (congrArg (lockingEdge p) hfirst)
    have hspindle : u.spindle.kicks u.active[27] u.active[28] p = y.locks u.active[27] u.active[28] p := if_pos hp
    let z : Spindle := y.locks u.active[27] u.active[28] p
    have hnotice : spindleNotice .locking z.state = spindleNotice .kick z.state := by
      rcases locks_state (x := y) (p := p) rfl u.active[27] u.active[28] with hz | hz <;> rw [hz] <;> rfl
    rw [hedge, hspindle]
    obtain ⟨n, hn, heq⟩ := spins_locking (u := v) (p := p) rfl
    refine ⟨n + 1, Nat.succ_le_succ hn, heq.trans ?_⟩
    rw [h, ← show spindleNotice .locking z.state = spindleNotice .kick z.state from hnotice, List.replicate_succ]
    show _ = ((u.setSpindle z).setLink _).setSignals (u.signals ++ ([.spindleMoved] ++ List.replicate n .spindleMoved))
    rw [← List.append_assoc]
    rfl
  · have hedge : kickEdge p u = u := if_neg hp
    have hspindle : u.spindle.kicks u.active[27] u.active[28] p = u.spindle := if_neg hp
    rw [hedge, hspindle]
    exact spins_same (x := u.spindle) rfl

end

end Sys2Proof.Machine
end


-- ==== Sys2Proof/Proofs/SpindleTakesEdge.lean ====
section
/-! SUPPORT. A measured edge in a part that reads, or pauses: what the spindle hands on is nothing to it (R98 to R101, R105, R139). -/

namespace Sys2Proof.Machine

section
variable {s t u : State} {x : Spindle} {k : Nat}

/-- A property that both kinds of boundary keep is kept by an edge's boundaries. -/
theorem Indexes.edge {P : State → Prop} (hQ : Indexes (fun _ _ => P)) (hm : Moves P) (timed : Bool) (h : P u) : P (edgeBoundaries timed u) := by
  have hboundary {v : State} (hv : P v) : P (boundary v) := by
    by_cases hb : v.angle.bin = 63
    · let w : State := advanceBin v
      rw [boundary_of_index hb]
      exact hQ.indexBoundary _ (hm w { w.angle with revs := (w.angle.revs + 1) % 65536 } w.det (hm.advance hv))
    · exact (hQ.bounds true true).boundary hm hv hb
  have hall (n : Nat) : P (Machine.boundaries n u) := by
    induction n with
    | zero => exact h
    | succ n ih =>
      rw [boundaries_succ]
      exact hboundary ih
  let w : State := Machine.boundaries (owed u.angle.bin) u
  have hw : P w := hall _
  unfold edgeBoundaries
  cases timed with
  | true => exact hm w { w.angle with schedule := some ⟨1, w.angle.p / 8⟩, refValid := true, sinceEdge := 0 } w.det hw
  | false => exact hm w { w.angle with schedule := none, sinceEdge := 0 } w.det hw

/-- In FOLLOWING with no launch pending and no shock mode the boundaries leave the loops, the group settings and the notices. -/
theorem indexes_following (hf : s.seq.state = .following) (hp : s.groups.pending = none) (hm : s.groups.shockMode = false) :
    Indexes (fun _ _ => Turning s s.groups s.track s.fe.crossings []) where
  bounds _ _ := bounds_turning
  order h := h.takeOrder
  jump {_ u} h := by
    obtain ⟨-, -, -, hseq, -⟩ := aside_iff.mp h.aside
    rw [pauseJump_of_quiet fun hj => SeqState.noConfusion (hf.symm.trans (hseq ▸ hj.1))]
    exact h
  group {_ u} h := by
    rw [groupIndex_of_still (by rw [h.groups]; exact hp) (by rw [h.groups]; exact hm)]
    exact h

/-! ## What the spindle hands on (R139) -/

/-- The spindle's own changes are nothing to a sequencer that is not ENGAGING. -/
theorem drain_moves {n m : Nat} (hn : m ≤ n) (h : s.seq.state ≠ .engaging) :
    drain n (s.setSignals (List.replicate m .spindleMoved)) = s.setSignals [] := by
  induction m generalizing n with
  | zero => exact drain_of_quiet n rfl
  | succ m ih =>
    obtain ⟨n, rfl⟩ : ∃ n', n = n' + 1 := ⟨n - 1, by omega⟩
    rw [List.replicate_succ, drain_moved n h]
    exact ih (Nat.le_of_succ_le_succ hn)

theorem drain_spins (h : Spins k u x t) (hk : k ≤ 64) (hs : u.signals = []) (he : u.seq.state ≠ .engaging) :
    drain 64 t = (u.setSpindle x).setLink (u.link.postAll (spindleNotice u.spindle.state x.state)) := by
  obtain ⟨n, hn, rfl⟩ := h
  rw [hs, List.nil_append, drain_moves (hn.trans hk) (by exact he)]
  exact setSignals_nil (by exact hs)

/-! ## The edge -/

/-- The spindle after a measured edge in KICK, LOCKING or LOCKED (R98 to R101). -/
def Spindle.edges (x : Spindle) (kp ki p : Nat) : Spindle :=
  match x.state with
  | .kick => x.kicks kp ki p
  | .locking => x.locks kp ki p
  | .locked => x.follows kp ki p
  | _ => x

theorem spins_edge {p : Nat} (h : u.turning) : Spins 2 u (u.spindle.edges u.active[27] u.active[28] p) (spindleEdge (some p) u) := by
  have hmore {x : Spindle} {t : State} (h : Spins 1 u x t) : Spins 2 u x t := by
    obtain ⟨n, hn, heq⟩ := h
    exact ⟨n, hn.trans (by decide), heq⟩
  unfold spindleEdge Spindle.edges
  rcases h with h | h | h <;> rw [h]
  · exact spins_kick h
  · exact hmore (spins_locking h)
  · exact hmore (spins_locked h)

theorem edges_turning {x : Spindle} (h : x.state = .kick ∨ x.state = .locking ∨ x.state = .locked) (kp ki p : Nat) :
    (x.edges kp ki p).state = .kick ∨ (x.edges kp ki p).state = .locking ∨ (x.edges kp ki p).state = .locked := by
  unfold Spindle.edges
  rcases h with h | h | h <;> rw [h] <;> dsimp only
  · unfold Spindle.kicks
    split
    · exact .inr (locks_state (x := { x with state := .locking, timer := 0 }) rfl kp ki)
    · exact .inl h
  · exact .inr (locks_state h kp ki)
  · unfold Spindle.follows
    dsimp only
    split
    · exact .inr (.inr h)
    · split
      · exact .inr (.inr h)
      · exact .inr (.inl rfl)

theorem spindleNotice_posts (l : Link) (old new : SpindleState) : l.postAll (spindleNotice old new)
    = if old ≠ new ∧ (old = .locked ∨ new = .locked) then l.post .spindle [byte new.code] else l := by
  have hreports : spindleReports old new = true ↔ old ≠ new ∧ (old = .locked ∨ new = .locked) := by
    simp [spindleReports, and_comm]
  rw [← if_congr hreports rfl rfl, spindleNotice]
  split <;> rfl

theorem measured_of_turning {us : Nat} (h : s.turning) (hspin : 1 ≤ s.angle.spinUp) : measured s us = some (min 65535 us) := by
  unfold measured
  rw [if_neg]
  simp only [Bool.or_eq_true, decide_eq_true_iff, not_or]
  exact ⟨turning_ne_stopped h, by omega⟩

end

/-- Settles O29. -/
theorem spindleTakesEdge : Obligations.SpindleTakesEdge := by
  unfold Obligations.SpindleTakesEdge
  intro s us hs hf hpend hshock hspin p x err isp drive locking next hturn
  have hturning : s.turning := hturn
  have hswitch : edgeSwitches (s.setAngle (s.counted us)) = false := by
    have hexit : s.groups.exitDue = false := by rw [Groups.exitDue, hshock, Bool.false_and]
    show (_ && (s.groups.pending.isSome || s.groups.exitDue)) = false
    rw [hpend, hexit, Option.isSome_none, Bool.or_self, Bool.and_false]
  let v : State := edgeBoundaries (s.timedAt us) (s.setAngle (s.counted us))
  have hv : Turning s s.groups s.track s.fe.crossings [] v :=
    (indexes_following hf hpend hshock).edge moves_turning _ (moves_turning s (s.counted us) s.det (turning_start s))
  obtain ⟨hfocus, hsled, hseek, hseq, hloader, hsup, hheld, hspindle, hsig⟩ := aside_iff.mp hv.aside
  have hactive : v.active = s.active := by simp only [State.active, hv.groups]
  have hedge : fgEdge us s = spindleEdge (some p) v := by
    rw [fgEdge_eq]
    dsimp only
    rw [hswitch, if_neg Bool.false_ne_true, measured_of_turning hturning hspin]
  have hsame {k : SpindleState} (h : x.state = k) : x = { x with state := k } := by rw [← h]
  have hnext : x.edges s.active[27] s.active[28] p = next := by
    rcases hturn with h | h | h <;> simp only [Spindle.edges, next, h]
    · exact if_congr Iff.rfl rfl rfl
    · exact (congrArg (fun y : Spindle => y.locks s.active[27] s.active[28] p) (hsame h)).trans rfl
    · exact (congrArg (fun y : Spindle => y.follows s.active[27] s.active[28] p) (hsame h)).trans rfl
  have hspins := spins_edge (u := v) (p := p) (by rw [State.turning, hspindle]; exact hturn)
  rw [hactive, hspindle, hnext] at hspins
  let t : State := (v.setSpindle next).setLink (v.link.postAll (spindleNotice x.state next.state))
  have hdrain : drain 64 (fgEdge us s) = t := by
    rw [hedge, drain_spins hspins (by decide) (hsig.trans hs.1.1) (by rw [hseq, hf]; exact SeqState.noConfusion), hspindle]
  have hnextTurns : next.state = .kick ∨ next.state = .locking ∨ next.state = .locked :=
    hnext ▸ edges_turning hturn s.active[27] s.active[28] p
  have hrest : t.atRest := atRest_of_not_stopped (turning_ne_stopped hturning) (turning_ne_stopped (s := t) hnextTurns) hs.1
    (hsig.trans hs.1.1) hloader
  have hsettle : settle (fgEdge us s) = t := by
    rw [settle, hdrain]
    exact loaderTest_of_atRest hrest
  refine ⟨t, (done_of_running _ hs.2).trans (congrArg _ hsettle), rfl, hfocus, hv.track, hv.groups, hsled, hseek, hseq, hloader, hsup,
    fun hnone => ?_⟩
  obtain ⟨-, hlink⟩ := hv.empty hnone
  show v.link.postAll (spindleNotice x.state next.state) = _
  rw [hlink]
  exact spindleNotice_posts s.link x.state next.state

end Sys2Proof.Machine
end


-- ==== Sys2Proof/Proofs/PostedNotices.lean ====
section
/-! SUPPORT. Notices posted one after another to an unmasked queue with room for them: which of them stand, and where (R196, R204). -/

namespace Sys2Proof.Machine

section
variable {l : Link} {k k' : NoticeKind} {p : List Byte} {n : Notice} {i m : Nat}

/-- An unmasked queue of at most `m` notices. -/
structure Link.Room (m : Nat) (l : Link) : Prop where
  mask : l.mask = 0
  length : l.notices.length ≤ m

/-- The queue after a posting it has room for (R196). -/
theorem post_notices (h : l.Room 7) : (l.post k p).notices
    = if k.isState && l.notices.any (fun n => n.kind = k) then replaceNotice k p l.notices else l.notices ++ [⟨k, p⟩] := by
  have hmask : l.masked k = false := by rw [Link.masked, h.mask]; exact BitVec.getLsbD_zero
  split
  next hs =>
    obtain ⟨hstate, hany⟩ := Bool.and_eq_true_iff.mp hs
    rw [Link.post_update hmask hstate hany]
    exact (replaceNotice_eq k p l.notices).symm
  next hs => rw [Link.post_new hmask (Bool.eq_false_iff.mpr hs), if_pos (Nat.lt_succ_of_le h.length), Link.startPulse]

namespace Link.Room

theorem mono (h : l.Room i) (hm : i ≤ m) : l.Room m := ⟨h.mask, h.length.trans hm⟩

theorem post (h : l.Room m) (hm : m ≤ 7) (k : NoticeKind) (p : List Byte) : (l.post k p).Room (m + 1) := by
  obtain ⟨-, -, -, hmask, -⟩ := Link.post_frame k p l
  refine ⟨hmask.trans h.mask, ?_⟩
  have hl := h.length
  rw [post_notices (h.mono hm)]
  split
  · rw [replaceNotice, List.length_map]
    omega
  · rw [List.length_append, List.length_singleton]
    omega

/-- A notice just posted stands in the queue. -/
theorem mem_post (h : l.Room 7) : (⟨k, p⟩ : Notice) ∈ (l.post k p).notices := by
  rw [post_notices h]
  split
  next hs =>
    obtain ⟨-, hany⟩ := Bool.and_eq_true_iff.mp hs
    obtain ⟨n, hn, hk⟩ := List.any_eq_true.mp hany
    exact List.mem_map.mpr ⟨n, hn, by rw [if_pos (of_decide_eq_true hk), ← of_decide_eq_true hk]⟩
  · exact List.mem_append_right _ List.mem_cons_self

/-- A posting of another kind leaves a notice where it stands. -/
theorem getElem?_post (h : l.Room 7) (hn : l.notices[i]? = some n) (hk : n.kind ≠ k) : (l.post k p).notices[i]? = some n := by
  rw [post_notices h]
  split
  · rw [replaceNotice, List.getElem?_map, hn, Option.map_some, if_neg hk]
  · exact List.getElem?_append_left (List.getElem?_eq_some_iff.mp hn).1 ▸ hn

/-- A posting brings no other kind to the queue. -/
theorem kind_post (h : l.Room 7) (hne : ∀ x ∈ l.notices, x.kind ≠ k') (hk : k ≠ k') : ∀ x ∈ (l.post k p).notices, x.kind ≠ k' := by
  intro x hx
  rw [post_notices h] at hx
  split at hx
  · obtain ⟨y, hy, rfl⟩ := List.mem_map.mp hx
    split
    · exact hne y hy
    · exact hne y hy
  · rcases List.mem_append.mp hx with hx | hx
    · exact hne x hx
    · rw [List.mem_singleton.mp hx]
      exact hk

/-- A kind that the queue does not hold goes to its end. -/
theorem post_fresh (h : l.Room 7) (hne : ∀ x ∈ l.notices, x.kind ≠ k) : (l.post k p).notices = l.notices ++ [⟨k, p⟩] := by
  rw [post_notices h, if_neg]
  rw [Bool.and_eq_true_iff, List.any_eq_true, not_and]
  rintro - ⟨x, hx, hk⟩
  exact hne x hx (of_decide_eq_true hk)

end Link.Room

/-! ## The notices of an index event among those of the spindle (R87, R93, R105) -/

/-- At most one notice of the spindle. -/
abbrev spindleAlone (ns : List Notice) : Prop := ns = [] ∨ ∃ q, ns = [⟨.spindle, q⟩]

theorem spindleNotice_alone (old new : SpindleState) : spindleAlone (spindleNotice old new) := by
  unfold spindleNotice
  split
  · exact .inr ⟨_, rfl⟩
  · exact .inl rfl

/-- The notices of an event with that of the spindle before or after them. -/
abbrev Link.Around (l : Link) (sp acts : List Notice) (l' : Link) : Prop :=
  l' = (l.postAll sp).postAll acts ∨ l' = (l.postAll acts).postAll sp

theorem Link.Room.postAll {ns : List Notice} (h : l.Room m) (hm : m + ns.length ≤ 8) : (l.postAll ns).Room (m + ns.length) := by
  induction ns generalizing l m with
  | nil => exact h
  | cons x ns ih =>
    rw [List.length_cons] at hm ⊢
    have hmore := ih (h.post (by omega) x.kind x.payload) (by omega)
    rwa [Nat.add_assoc, Nat.add_comm 1] at hmore

/-- A notice of another kind than the spindle's stands where the event alone puts it, posted after the spindle's or not. -/
theorem Link.Room.around {sp acts : List Notice} {l' : Link} (h : l.Room 5) (hsp : spindleAlone sp) (ha : acts.length ≤ 2)
    (hl : l.Around sp acts l') : ∃ l₁ : Link, l₁.Room 6
      ∧ (∀ k, k ≠ .spindle → (∀ x ∈ l.notices, x.kind ≠ k) → ∀ x ∈ l₁.notices, x.kind ≠ k)
      ∧ ∀ (i : Nat) (n : Notice), (l₁.postAll acts).notices[i]? = some n → n.kind ≠ .spindle → l'.notices[i]? = some n := by
  have hroom := (h.postAll (ns := acts) (by omega)).mono (m := 7) (by omega)
  rcases hsp with rfl | ⟨q, rfl⟩
  · refine ⟨l, h.mono (by decide), fun _ _ hk => hk, fun i n hi _ => ?_⟩
    rcases hl with rfl | rfl <;> exact hi
  · rcases hl with rfl | rfl
    · exact ⟨_, h.post (by decide) _ _, fun k hk hne => (h.mono (by decide)).kind_post hne hk.symm, fun i n hi _ => hi⟩
    · exact ⟨l, h.mono (by decide), fun _ _ hk => hk, fun i n hi hk => hroom.getElem?_post hi hk⟩

/-- A notice that is the last of an event stands in the queue. -/
theorem mem_of_last {sp mid : List Notice} {l' : Link} (h : l.Room 5) (hsp : spindleAlone sp) (hmid : mid.length ≤ 1) (hk : k ≠ .spindle)
    (hl : l.Around sp (mid ++ [⟨k, p⟩]) l') : (⟨k, p⟩ : Notice) ∈ l'.notices := by
  have hlength : (mid ++ [(⟨k, p⟩ : Notice)]).length ≤ 2 := by
    rw [List.length_append, List.length_singleton]
    omega
  obtain ⟨l₁, hroom, -, hstays⟩ := h.around hsp hlength hl
  have hmiddle := (hroom.postAll (ns := mid) (by omega)).mono (m := 7) (by omega)
  obtain ⟨i, hi⟩ := List.getElem?_of_mem (hmiddle.mem_post (k := k) (p := p))
  rw [postAll_append] at hstays
  exact List.mem_of_getElem? (hstays i _ hi hk)

/-- Two notices of kinds that the queue does not hold stand in their order. -/
theorem in_order {sp : List Notice} {l' : Link} {q : List Byte} (h : l.Room 5) (hsp : spindleAlone sp) (hk : k ≠ .spindle)
    (hk' : k' ≠ .spindle) (hne : k ≠ k') (hnone : ∀ x ∈ l.notices, x.kind ≠ k ∧ x.kind ≠ k')
    (hl : l.Around sp [⟨k, p⟩, ⟨k', q⟩] l') :
    ∃ i j : Fin 8, i < j ∧ l'.notices[i.val]? = some ⟨k, p⟩ ∧ l'.notices[j.val]? = some ⟨k', q⟩ := by
  obtain ⟨l₁, hroom, hkinds, hstays⟩ := h.around hsp (acts := [⟨k, p⟩, ⟨k', q⟩]) (Nat.le_refl 2) hl
  have hfirst := (hroom.mono (m := 7) (by decide)).post_fresh (p := p) (hkinds k hk fun x hx => (hnone x hx).1)
  have hlast := (hroom.post (by decide) k p).post_fresh (p := q)
    ((hroom.mono (m := 7) (by decide)).kind_post (hkinds k' hk' fun x hx => (hnone x hx).2) hne)
  have hall : (l₁.postAll [⟨k, p⟩, ⟨k', q⟩]).notices = l₁.notices ++ [⟨k, p⟩] ++ [⟨k', q⟩] := hlast.trans (by rw [hfirst])
  have hlength := hroom.length
  refine ⟨⟨l₁.notices.length, by omega⟩, ⟨l₁.notices.length + 1, by omega⟩, Nat.lt_succ_self _, hstays _ _ ?_ hk, hstays _ _ ?_ hk'⟩
  · rw [hall, List.append_assoc, List.getElem?_append_right (Nat.le_refl _), Nat.sub_self]
    rfl
  · rw [hall, List.append_assoc, List.getElem?_append_right (Nat.le_succ _), Nat.succ_sub (Nat.le_refl _), Nat.sub_self]
    rfl

end

end Sys2Proof.Machine
end


-- ==== Sys2Proof/Proofs/IndexEvents.lean ====
section
/-! SUPPORT. The index event at an FG edge in a part with clear counters and no window in its table, before or after the spindle's own act
(R87, R92, R93, R97, R142). -/

namespace Sys2Proof.Machine

section
variable {s u : State}

/-! ## The index event among the boundaries (R87, R93, R142) -/

/-- The PAUSE jump is due (R142). -/
abbrev State.jumps (s : State) : Prop := s.seq.state = .paused ∧ (s.track.state = .locked ∨ s.track.state = .hold)

/-- The notices of the Group Store at an index event, the SHOCK notice first (R87, R93). -/
def Groups.indexPosts (g : Groups) (base : GroupId) : List Notice := g.exitPosts base ++ g.launchPosts

/-- The base group that a SHOCK notice of an index event may give (R87, R93). -/
abbrev Groups.indexBase (g : Groups) (b : GroupId) : Prop := (b = g.base ∨ g.pending = some b) ∧ (g.pending = none → b = g.base)

/-- The machine on the way through an index event: whether the PAUSE jump, and whether the Group Store's part, has been taken. -/
def Indexing (s : State) (j g : Bool) (u : State) : Prop :=
  ∃ b, s.groups.indexBase b ∧ Turning s (if g then s.groups.launched.counted else s.groups) (if j then s.jumpedTrack else s.track)
    (if j then if s.jumps then 0 else s.fe.crossings else s.fe.crossings) (if g then s.groups.indexPosts b else []) u

/-- A part whose index event brings no incident and counts no crossing. -/
structure Indexable (s : State) : Prop where
  clear : s.countersClear
  limits : limitsLaw s.groups.recs
  calm : s.fe.crossingNow = false
  empty : ∀ i : Fin 32, s.defects.entries[i] = none
  bin : s.angle.bin = 63
  quiet : s.signals = []

theorem jumpedTrack_offCount (h : s.countersClear) : s.jumpedTrack.offCount = 0 := by
  unfold State.jumpedTrack
  split
  · rfl
  · exact h.1

theorem indexes_indexing (h : Indexable s) : Indexes (Indexing s) where
  bounds _ _ :=
    { frontEnd := fun ⟨b, hb, ht⟩ => ⟨b, hb, ht.closeFrontEnd⟩
      revolution := fun ⟨b, hb, ht⟩ => ⟨b, hb, ht.closeRevolution _⟩
      defects := fun ⟨b, hb, ht⟩ => ⟨b, hb, ht.defectBoundary _ _⟩ }
  order := fun ⟨b, hb, ht⟩ => ⟨b, hb, ht.takeOrder⟩
  jump := fun ⟨b, hb, ht⟩ => ⟨b, hb, ht.pauseJump_of_calm h.calm⟩
  group {j _} := fun ⟨_, _, ht⟩ => by
    have hoff : (if j then s.jumpedTrack else s.track).offCount = 0 := by
      cases j with
      | true => exact jumpedTrack_offCount h.clear
      | false => exact h.clear.1
    obtain ⟨b, hbase, hnone, hgroup⟩ := ht.groupIndex ⟨hoff, h.clear.2⟩ h.limits
    exact ⟨b, ⟨hbase, hnone⟩, hgroup⟩

theorem moves_indexing (s : State) (j g : Bool) : Moves (Indexing s j g) := fun u a d ⟨b, hb, ht⟩ => ⟨b, hb, moves_turning u a d ht⟩

/-- The machine after an index event, before or after the spindle's act at the same edge. -/
structure Indexed (s t : State) : Prop where
  groups : t.groups = s.groups.launched.counted
  track : t.track = s.jumpedTrack
  crossings : t.fe.crossings = if s.jumps then 0 else s.fe.crossings
  others : (t.focus, t.sled, t.seek, t.seq, t.loader, t.sup, t.signals) = (s.focus, s.sled, s.seek, s.seq, s.loader, s.sup, [])
  stopped : t.spindle.state = .stopped ↔ s.spindle.state = .stopped

/-- The boundaries of the edge bring the index event. -/
theorem Indexable.boundaries (h : Indexable s) (timed : Bool) :
    ∃ b, s.groups.indexBase b ∧ Indexed s (edgeBoundaries timed s) ∧ (edgeBoundaries timed s).spindle = s.spindle
      ∧ (edgeBoundaries timed s).link = s.link.postAll (s.groups.indexPosts b) := by
  have hbin : s.angle.bin.val / 8 = 7 := by rw [h.bin]; rfl
  have hstart : Indexing s false false s := ⟨s.groups.base, ⟨.inl rfl, fun _ => rfl⟩, turning_start s⟩
  have hbounds := (indexes_indexing h).boundaries (moves_indexing s false false) (w := s.loader.ejectPending) ⟨rfl, rfl⟩ hbin hstart
  have hturn : Indexing s true true (edgeBoundaries timed s) := by
    let v : State := Machine.boundaries (owed s.angle.bin) s
    unfold edgeBoundaries
    cases timed with
    | true =>
      exact moves_indexing s true true v { v.angle with schedule := some ⟨1, v.angle.p / 8⟩, refValid := true, sinceEdge := 0 } v.det hbounds
    | false => exact moves_indexing s true true v { v.angle with schedule := none, sinceEdge := 0 } v.det hbounds
  obtain ⟨b, hb, ht⟩ := hturn
  obtain ⟨hfocus, hsled, hseek, hseq, hloader, hsup, -, hspindle, hsig⟩ := aside_iff.mp ht.aside
  refine ⟨b, hb, ⟨ht.groups, ht.track, ht.crossings, ?_, by rw [hspindle]⟩, hspindle, (ht.empty h.empty).2⟩
  rw [hfocus, hsled, hseek, hseq, hloader, hsup, hsig, h.quiet]

/-! ## The spindle's act (R105, R139) -/

/-- A machine that differs in its spindle and the spindle's notice alone. -/
def Spun (u w : State) : Prop :=
  ∃ x sp, spindleAlone sp ∧ (x.state = .stopped ↔ u.spindle.state = .stopped) ∧ w = (u.setSpindle x).setLink (u.link.postAll sp)

theorem spun_self (u : State) : Spun u u := ⟨u.spindle, [], .inl rfl, Iff.rfl, rfl⟩

theorem spindleEdge_of_idle {p : Option Nat} (hb : u.spindle.state ≠ .braking) (h : ¬(u.turning ∧ p.isSome)) : spindleEdge p u = u := by
  unfold spindleEdge
  split
  case h_1 hs => exact absurd ⟨.inl hs, rfl⟩ h
  case h_2 hs => exact absurd ⟨.inr (.inl hs), rfl⟩ h
  case h_3 hs => exact absurd ⟨.inr (.inr hs), rfl⟩ h
  case h_4 hs => exact absurd hs hb
  all_goals rfl

/-- What the spindle hands on at an edge is nothing to a part that is not ENGAGING, taken at once or at the end. -/
theorem spun_spindleEdge {p : Option Nat} (hsig : u.signals = []) (he : u.seq.state ≠ .engaging) (hb : u.spindle.state ≠ .braking) :
    Spun u (drain 64 (spindleEdge p u)) ∧ Spun u (afterSpindle (spindleEdge p u)) := by
  by_cases h : u.turning ∧ p.isSome
  · obtain ⟨hturn, hp⟩ := h
    obtain ⟨p, rfl⟩ := Option.isSome_iff_exists.mp hp
    have hturns := edges_turning (p := p) hturn u.active[27] u.active[28]
    let x : Spindle := u.spindle.edges u.active[27] u.active[28] p
    have hx : x.state ≠ .stopped := turning_ne_stopped (s := u.setSpindle x) hturns
    have hspins := spins_edge (p := p) hturn
    have hspun : Spun u (drain 64 (spindleEdge (some p) u)) :=
      ⟨x, _, spindleNotice_alone _ _, iff_of_false hx (turning_ne_stopped hturn), drain_spins hspins (by decide) hsig he⟩
    have hmoves : (spindleEdge (some p) u).spindle = x := by
      obtain ⟨n, -, heq⟩ := hspins
      rw [heq]
      rfl
    have hafter : afterSpindle (spindleEdge (some p) u) = drain 64 (spindleEdge (some p) u) := if_neg (by rw [hmoves]; exact hx)
    exact ⟨hspun, hafter.symm ▸ hspun⟩
  · have hdrain : drain 64 u = u := drain_of_quiet 64 hsig
    have hafter : afterSpindle u = u := by
      unfold afterSpindle
      split
      · rfl
      · exact hdrain
    rw [spindleEdge_of_idle hb h, hdrain, hafter]
    exact ⟨spun_self u, spun_self u⟩

end

end Sys2Proof.Machine
end


-- ==== Sys2Proof/Proofs/IndexEventActsOnGroups.lean ====
section
/-! SUPPORT. The edge that brings an index event, with the spindle's act first or last (R87, R92, R93, R97, R142, log entry 1). -/

namespace Sys2Proof.Machine

section
variable {s t u v : State} {us : Nat}

/-! ## The two orders (log entry 1) -/

/-- The machine after an edge that brings an index event. -/
structure EdgeIndexed (s : State) (us : Nat) (t : State) : Prop where
  indexed : Indexed s t
  angle : t.angle = (s.counted us).edged (s.timedAt us)
  link : ∃ b sp, s.groups.indexBase b ∧ spindleAlone sp ∧ s.link.Around sp (s.groups.indexPosts b) t.link

theorem Indexed.quiet (h : Indexed s t) : t.signals = [] := by
  have hothers := h.others
  simp only [Prod.mk.injEq] at hothers
  exact hothers.2.2.2.2.2.2

theorem Indexed.spun (h : Indexed s v) (hv : Spun v t) : Indexed s t := by
  obtain ⟨x, sp, -, hx, rfl⟩ := hv
  exact ⟨h.groups, h.track, h.crossings, h.others, hx.trans h.stopped⟩

theorem Indexed.of_spun (hu : Spun s u) (h : Indexed u t) : Indexed s t := by
  obtain ⟨x, sp, -, hx, rfl⟩ := hu
  exact ⟨h.groups, h.track, h.crossings, h.others, h.stopped.trans hx⟩

/-- The edge of an index event: the spindle is not braking, and the part reads or pauses. -/
structure IndexEdge (s : State) : Prop extends Indexable s where
  edge : s.angle.edge = 7
  turns : s.spindle.state ≠ .braking
  reads : s.seq.state ≠ .engaging

namespace IndexEdge

/-- The machine after the count, with the count of free orders as the choice of the order leaves it. -/
abbrev start (s : State) (us c : Nat) : State := (s.setAngle (s.counted us)).setFreeCount c

theorem start_indexable (k : IndexEdge s) (c : Nat) : Indexable (start s us c) := ⟨k.clear, k.limits, k.calm, k.empty, k.bin, k.quiet⟩

theorem at_boundaries (k : IndexEdge s) (h : u.angle = s.counted us) :
    (edgeBoundaries (s.timedAt us) u).angle = (s.counted us).edged (s.timedAt us) := by
  have hsector : s.angle.edge.val = (s.counted us).bin.val / 8 := by
    show s.angle.edge.val = s.angle.bin.val / 8
    rw [k.edge, k.bin]
    rfl
  exact (at_edgeBoundaries (a := s.counted us) (w := u.loader.ejectPending) _ ⟨h, rfl⟩ hsector rfl).1

/-- The boundaries first. -/
theorem boundaries_first (k : IndexEdge s) (c : Nat) (p : Option Nat) :
    EdgeIndexed s us (drain 64 (spindleEdge p (edgeBoundaries (s.timedAt us) (start s us c)))) := by
  obtain ⟨b, hb, hindexed, hspindle, hlink⟩ := (k.start_indexable (us := us) c).boundaries (s.timedAt us)
  have hothers := hindexed.others
  simp only [Prod.mk.injEq] at hothers
  obtain ⟨-, -, -, hseq, -⟩ := hothers
  obtain ⟨hspun, -⟩ := spun_spindleEdge (p := p) hindexed.quiet (by rw [hseq]; exact k.reads) (by rw [hspindle]; exact k.turns)
  have hdone := hindexed.spun hspun
  obtain ⟨x, sp, hsp, -, heq⟩ := hspun
  refine ⟨⟨hdone.groups, hdone.track, hdone.crossings, hdone.others, hdone.stopped⟩, ?_, b, sp, hb, hsp, .inr ?_⟩
  · rw [heq]
    exact k.at_boundaries rfl
  · rw [heq]
    exact congrArg (fun l : Link => l.postAll sp) hlink

/-- The spindle's act first. -/
theorem spindle_first (k : IndexEdge s) (c : Nat) (p : Option Nat) :
    EdgeIndexed s us (drain 64 (edgeBoundaries (s.timedAt us) (afterSpindle (spindleEdge p (start s us c))))) := by
  obtain ⟨-, hspun⟩ := spun_spindleEdge (u := start s us c) (p := p) k.quiet k.reads k.turns
  generalize afterSpindle (spindleEdge p (start s us c)) = w at hspun ⊢
  obtain ⟨x, sp, hsp, hx, rfl⟩ := hspun
  have hw : Indexable (((start s us c).setSpindle x).setLink ((start s us c).link.postAll sp)) :=
    ⟨k.clear, k.limits, k.calm, k.empty, k.bin, k.quiet⟩
  obtain ⟨b, hb, hindexed, -, hlink⟩ := hw.boundaries (s.timedAt us)
  rw [drain_of_quiet 64 hindexed.quiet]
  exact ⟨⟨hindexed.groups, hindexed.track, hindexed.crossings, hindexed.others, hindexed.stopped.trans hx⟩, k.at_boundaries rfl,
    b, sp, hb, hsp, .inl hlink⟩

/-- In either order the edge brings the index event, and the spindle's notice before its notices or after them. -/
theorem edge_indexed (k : IndexEdge s) : EdgeIndexed s us (drain 64 (fgEdge us s)) := by
  rw [fgEdge_eq]
  dsimp only
  split
  · split
    · obtain ⟨b, -, hindexed, -⟩ := (k.start_indexable (us := us) (takeOrder (s.setAngle (s.counted us))).2.freeCount).boundaries (s.timedAt us)
      have hfirst := k.boundaries_first (us := us) (takeOrder (s.setAngle (s.counted us))).2.freeCount (measured s us)
      rw [← drain_of_quiet 64 hindexed.quiet] at hfirst
      exact hfirst
    · exact k.spindle_first _ _
  · exact k.boundaries_first s.freeCount _

end IndexEdge

/-! ## The outcome -/

theorem Indexed.atRest (h : Indexed s t) (hs : s.atRest) : t.atRest := by
  have hothers := h.others
  simp only [Prod.mk.injEq] at hothers
  obtain ⟨-, -, -, hseq, hloader, hsup, hsig⟩ := hothers
  have hpermit : t.motorPermit = s.motorPermit := by
    simp only [State.motorPermit, State.laserOn, hseq, hsup, h.stopped]
  have hdemand : t.loaderDemand = s.loaderDemand := by simp only [State.loaderDemand, hpermit, hloader]
  obtain ⟨-, hdrive, hrelease⟩ := hs
  exact ⟨hsig, by rw [hloader, hdemand]; exact hdrive, by rw [hloader, hpermit]; exact hrelease⟩

/-- The group settings after an index event (R87, R92, R93). -/
theorem launched_counted_eq {g : Groups} (h : shockLaw g) : g.launched.counted
    = { g with
        base := g.pending.getD g.base, pending := none, shockMode := g.shockMode && !g.exitDue
        clean := if g.shockMode = true ∧ g.exitDue = false then g.cleanNext else 0, disturbed := false } := by
  by_cases hm : g.shockMode = true
  · by_cases he : g.exitDue = true
    · rw [counted_of_exit (g := g.launched) hm he]
      simp [hm, he, Groups.unshocked, Groups.launched]
    · rw [counted_of_stay (g := g.launched) hm he]
      simp [hm, he, Groups.launched, Groups.cleanNext]
  · obtain ⟨-, hclean⟩ := h
    rw [if_neg hm] at hclean
    rw [counted_of_open (g := g.launched) hm]
    simp [hm, Groups.launched, hclean.1, hclean.2]

end

/-- Settles O31. -/
theorem indexEventActsOnGroups : Obligations.IndexEventActsOnGroups := by
  unfold Obligations.IndexEventActsOnGroups
  intro s us hs hstate hbrake hedge hbin hclear hgroup hshock hempty hmask hlength hcalm clean leaves jumps
  have hreads : s.seq.state ≠ .engaging := by rcases hstate with h | h <;> rw [h] <;> exact SeqState.noConfusion
  have k : IndexEdge s := ⟨⟨hclear, limitsLaw_of_groupLaw hgroup, hcalm, hempty, hbin, hs.1.1⟩, hedge, hbrake, hreads⟩
  obtain ⟨hindexed, hangle, b, sp, ⟨hbase, hnone⟩, hsp, hlink⟩ := k.edge_indexed (us := us)
  have hsettle : settle (fgEdge us s) = drain 64 (fgEdge us s) := loaderTest_of_atRest (hindexed.atRest hs.1)
  have hothers := hindexed.others
  simp only [Prod.mk.injEq] at hothers
  obtain ⟨hfocus, hsled, hseek, hseq, hloader, hsup, -⟩ := hothers
  have hleaves : s.groups.exitDue = leaves :=
    Bool.eq_iff_iff.mpr ((Bool.and_eq_true_iff.trans (and_congr Iff.rfl decide_eq_true_iff)).trans decide_eq_true_iff.symm)
  have hjumps : s.jumps ↔ jumps = true := decide_eq_true_iff.symm
  have hroom : s.link.Room 5 := ⟨hmask, hlength⟩
  have hexit (he : leaves = true) : s.groups.exitPosts b = [⟨.shock, [0, byte b.val]⟩] := if_pos (hleaves.trans he)
  have hlaunch {g : GroupId} (hg : s.groups.pending = some g) : s.groups.launchPosts = [⟨.launch, [byte g.val]⟩] := by
    rw [Groups.launchPosts, hg]
    rfl
  refine ⟨_, (done_of_running (fgEdge us) hs.2).trans (congrArg _ hsettle), ?_, ?_, ?_, ?_, ?_, ?_, ?_, ?_,
    hfocus, hseq, hseek, hsled, hloader, hsup⟩
  · rw [hangle, Angle.edged, show (s.counted us).edge = 0 by rw [State.counted, hedge]; rfl]
    rfl
  · rw [hangle, Angle.edged, show (s.counted us).edge = 0 by rw [State.counted, hedge]; rfl, if_pos rfl]
    rfl
  · rw [hindexed.groups, launched_counted_eq hshock, hleaves]
    rfl
  · intro g hg
    have hmid : (s.groups.exitPosts b).length ≤ 1 := by
      unfold Groups.exitPosts
      split
      · exact Nat.le_refl 1
      · exact Nat.zero_le 1
    rw [Groups.indexPosts, hlaunch hg] at hlink
    exact mem_of_last hroom hsp hmid NoticeKind.noConfusion hlink
  · intro he hp
    rw [Groups.indexPosts, hexit he, Groups.launchPosts, hp] at hlink
    rw [← hnone hp]
    exact mem_of_last (mid := []) hroom hsp (Nat.zero_le 1) NoticeKind.noConfusion hlink
  · intro he g hg hkinds
    rw [Groups.indexPosts, hexit he, hlaunch hg] at hlink
    obtain ⟨i, j, hij, hi, hj⟩ := in_order hroom hsp NoticeKind.noConfusion NoticeKind.noConfusion NoticeKind.noConfusion hkinds hlink
    refine ⟨i, j, b, hij, ?_, hi, hj⟩
    exact hbase.symm.imp_left fun h => Option.some.inj (h.symm.trans hg)
  · rw [hindexed.crossings]
    exact if_congr hjumps rfl rfl
  · rw [hindexed.track, State.jumpedTrack]
    exact if_congr hjumps rfl rfl

end Sys2Proof.Machine
end


-- ==== Sys2Proof/Proofs/AgedParts.lean ====
section
/-! SUPPORT. The address age is counted by the millisecond and read by no block: what a block does comes to the same before the count of
the age and after it (R114). Each lemma takes the count of the age inward past one function. -/

namespace Sys2Proof.Machine

section
variable (s : State)

/-! ## What the count of the age leaves -/

theorem aged_if {c : Prop} [Decidable c] {a b a' b' : State} (ha : a.aged = a') (hb : b.aged = b') :
    (if c then a else b).aged = if c then a' else b' := by rw [apply_ite State.aged, ha, hb]

/-- One function after another. -/
theorem aged_then {u u' : State} (f : State → State) (hf : ∀ s, (f s).aged = f s.aged) (hu : u.aged = u') : (f u).aged = f u' :=
  (hf u).trans (congrArg f hu)

/-! ## Notices, ends of entries and changes of state -/

theorem aged_setPower (m : Power) : (setPower m s).aged = setPower m s.aged := aged_if rfl rfl

theorem aged_evalTarget : (evalTarget s).aged = evalTarget s.aged := rfl

theorem aged_setSeqState (st : SeqState) : (setSeqState st s).aged = setSeqState st s.aged := by
  have hidle {w w' : State} (hw : w.aged = w') : (w.setSup { w.sup with idleTimer := if st = .paused then some 0 else none }).aged
      = w'.setSup { w'.sup with idleTimer := if st = .paused then some 0 else none } := by
    rw [← hw]
    rfl
  let u : State := s.setSeq (s.seq.enter st s.seek)
  have hwatch := hidle
    (aged_if (c := (st.reading && !s.seq.state.reading) = true) (a := u.setSeek { u.seek with watch := 0 }) (b := u) rfl rfl)
  have htarget := aged_if (c := (decide (s.seq.state = .seeking) || decide (st = .seeking)) = true)
    (aged_then evalTarget aged_evalTarget hwatch) hwatch
  exact aged_if (aged_then (setPower .standby) (fun v => aged_setPower v .standby) htarget) htarget

theorem aged_endEntry (o : EndOutcome) : (endEntry o s).aged = endEntry o s.aged := by
  have hqueue : s.aged.seq.queue = s.seq.queue := rfl
  unfold endEntry
  rw [hqueue]
  cases s.seq.queue with
  | nil => rfl
  | cons e es => exact aged_if rfl rfl

theorem aged_postAbandoned (es : List Entry) : (postAbandoned es s).aged = postAbandoned es s.aged := by
  induction es generalizing s with
  | nil => rfl
  | cons e es ih => exact ih (postDone e .abandoned s)

theorem aged_flush : (flush s).aged = flush s.aged := aged_postAbandoned _ _

theorem aged_abandonAll : (abandonAll s).aged = abandonAll s.aged := by
  have hflush := aged_then flush aged_flush (aged_endEntry s .abandoned)
  exact aged_if (congrArg (fun u : State => postRecovery u.seq.cause .abandoned u.seq.attempts u) hflush) hflush

theorem aged_endFollowing (o : EndOutcome) : (endFollowing o s).aged = endFollowing o s.aged :=
  congrArg testHead (aged_then (setSeqState .following) (aged_setSeqState · .following) (aged_endEntry s o))

/-! ## The loops and their orders (R39 to R56) -/

theorem aged_searchOrder : (searchOrder s).aged = searchOrder s.aged := aged_if rfl rfl

theorem aged_leaveMove : (leaveMove s).aged = leaveMove s.aged := aged_if rfl rfl

theorem aged_pullInOrder : (pullInOrder s).aged = pullInOrder s.aged :=
  aged_if (congrArg (fun u : State => u.setTrack { u.track.pullIn 1 with goal := .trackLocked, byPause := false }) (aged_leaveMove s)) rfl

theorem aged_restartCrossings : (restartCrossings s).aged = restartCrossings s.aged := aged_if rfl rfl

theorem aged_jumpOrder (n : Int) (byPause : Bool) :
    (jumpOrder n byPause s.aged).1 = (jumpOrder n byPause s).1 ∧ (jumpOrder n byPause s).2.aged = (jumpOrder n byPause s.aged).2 := by
  have hheld : s.aged.trackHeld = s.trackHeld := rfl
  unfold jumpOrder
  rw [hheld]
  cases s.trackHeld with
  | false => exact ⟨rfl, rfl⟩
  | true =>
    by_cases hn : n = 0
    · rw [if_pos rfl, if_pos rfl, if_pos hn, if_pos hn]
      exact ⟨rfl, rfl⟩
    · rw [if_pos rfl, if_pos rfl, if_neg hn, if_neg hn]
      exact ⟨rfl, aged_restartCrossings _⟩

theorem aged_moveOrder (out : Bool) (count : Nat) :
    (moveOrder out count s.aged).1 = (moveOrder out count s).1 ∧ (moveOrder out count s).2.aged = (moveOrder out count s.aged).2 := by
  have hheld : s.aged.trackHeld = s.trackHeld := rfl
  unfold moveOrder
  rw [hheld]
  cases s.trackHeld with
  | false => exact ⟨rfl, rfl⟩
  | true => exact ⟨rfl, aged_restartCrossings _⟩

theorem aged_stopOrder : (stopOrder s).aged = stopOrder s.aged := by
  have htrack : s.aged.track = s.track := rfl
  unfold stopOrder
  rw [htrack]
  cases s.track.state with
  | jumping => cases s.track.phase <;> rfl
  | _ => rfl

theorem aged_raiseOffTrack : (raiseOffTrack s).aged = raiseOffTrack s.aged := aged_if rfl rfl

theorem aged_raiseFocusLost : (raiseFocusLost s).aged = raiseFocusLost s.aged := aged_if rfl rfl

theorem aged_loseFocus : (loseFocus s).aged = loseFocus s.aged := aged_if rfl (aged_raiseFocusLost s)

theorem aged_raiseDue : (raiseDue s).aged = raiseDue s.aged :=
  aged_if (aged_if (aged_then loseFocus aged_loseFocus (aged_raiseOffTrack _)) (aged_raiseFocusLost _))
    (aged_if (aged_raiseOffTrack s) (aged_if (aged_loseFocus s) rfl))

/-! ## The Group Store (R81, R87, R91, R93) -/

theorem aged_regroup (g : Groups) : (regroup g s).aged = regroup g s.aged := aged_if rfl (aged_raiseDue _)

theorem aged_endShock : (endShock s).aged = endShock s.aged :=
  aged_if (congrArg (fun u : State => post .shock [0, byte u.groups.base.val] u) (aged_regroup s _)) rfl

theorem aged_shockTrigger : (shockTrigger s).aged = shockTrigger s.aged :=
  aged_if (aged_if rfl (congrArg (fun u : State => post .shock [1, byte u.groups.shock.val] u) (aged_regroup s _))) rfl

theorem aged_disturb : (disturb s).aged = disturb s.aged := aged_if rfl rfl

theorem aged_takePending : (takePending s).aged = takePending s.aged := by
  have hpending : s.aged.groups.pending = s.groups.pending := rfl
  unfold takePending takePendingThen
  rw [hpending]
  cases s.groups.pending with
  | none => rfl
  | some g => exact congrArg (post .launch [byte g.val]) (aged_regroup (s.setGroups { s.groups with pending := none }) _)

/-! ## The Spindle Controller's orders (R95, R96, R105) -/

theorem aged_setSpindleState (x : Spindle) : (setSpindleState x s).aged = setSpindleState x s.aged := by
  have hpost := aged_if (c := spindleReports s.spindle.state x.state = true)
    (a := post .spindle [byte x.state.code] (s.setSpindle x)) (b := s.setSpindle x) rfl rfl
  exact aged_if hpost (congrArg (emit .spindleMoved) hpost)

theorem aged_startOrder : (startOrder s).aged = startOrder s.aged := by
  have haged : evalTarget (s.aged.setSpindle { s.aged.spindle with run := true })
      = (evalTarget (s.setSpindle { s.spindle with run := true })).aged := rfl
  unfold startOrder
  dsimp only
  rw [haged]
  generalize evalTarget (s.setSpindle { s.spindle with run := true }) = u
  have hstate : u.aged.spindle.state = u.spindle.state := rfl
  rw [hstate]
  cases u.spindle.state with
  | stopped => exact aged_if (aged_setSpindleState u _) (aged_setSpindleState u _)
  | braking => exact aged_if rfl (aged_setSpindleState u _)
  | _ => rfl

theorem aged_brakeOrder : (brakeOrder s).aged = brakeOrder s.aged := by
  have haged : s.aged.setSpindle { s.aged.spindle with run := false } = (s.setSpindle { s.spindle with run := false }).aged := rfl
  unfold brakeOrder
  dsimp only
  rw [haged]
  generalize s.setSpindle { s.spindle with run := false } = u
  have hstate : u.aged.spindle.state = u.spindle.state := rfl
  rw [hstate]
  cases u.spindle.state with
  | kick => exact aged_setSpindleState u _
  | locking => exact aged_setSpindleState u _
  | locked => exact aged_setSpindleState u _
  | _ => rfl

/-! ## Disengaging (R136, R143) -/

theorem aged_disengageSteps : (disengageSteps s).aged = disengageSteps s.aged := by
  let u : State := openFocus (cancelTask s)
  exact congrArg (fun v : State => v.setSeek { v.seek with valid := false })
    (aged_then endShock aged_endShock (aged_brakeOrder (u.setSeq { u.seq with laser := false })))

theorem aged_arrive : (arrive s).aged = arrive s.aged := by
  have hstate := aged_setSeqState s (if s.seq.toStandby then .standby else .idle)
  exact congrArg testHead (aged_then (endEntry .done) (aged_endEntry · .done)
    (aged_then (fun u : State => u.setSeq { u.seq with toStandby := false }) (fun _ => rfl) hstate))

theorem aged_disengage (standby : Bool) : (disengage standby s).aged = disengage standby s.aged := by
  have hsteps := congrArg (fun u : State => u.setSeq { u.seq with toStandby := standby }) (aged_disengageSteps s)
  let u : State := (disengageSteps s).setSeq { (disengageSteps s).seq with toStandby := standby }
  have hbranch : (if u.spindle.state = .stopped then arrive u else setSeqState .disengaging u).aged
      = if u.aged.spindle.state = .stopped then arrive u.aged else setSeqState .disengaging u.aged :=
    aged_if (aged_arrive u) (aged_setSeqState u .disengaging)
  exact hbranch.trans (congrArg (fun u : State => if u.spindle.state = .stopped then arrive u else setSeqState .disengaging u) hsteps)

theorem aged_failureEnd (o : EndOutcome) : (failureEnd o s).aged = failureEnd o s.aged :=
  aged_then (disengage false) (aged_disengage · false) (aged_then flush aged_flush (aged_endEntry s o))

end

end Sys2Proof.Machine
end


-- ==== Sys2Proof/Proofs/AgedWork.lean ====
section
/-! SUPPORT. The count of the address age and what one block hands on to another: it comes to the same before the count and after it
(R114, R121 to R155). -/

namespace Sys2Proof.Machine

section
variable (s : State)

/-! ## The Seek Engine (R121 to R130) -/

theorem aged_endTask (o : EndOutcome) : (endTask o s).aged = endTask o s.aged := rfl

theorem aged_beginWait : (beginWait s).aged = beginWait s.aged := rfl

theorem aged_orderLeg : (orderLeg s).aged = orderLeg s.aged := by
  have hleg : s.aged.seek.leg = s.seek.leg := rfl
  unfold orderLeg
  rw [hleg]
  cases s.seek.leg with
  | jump n =>
    obtain ⟨htaken, horder⟩ := aged_jumpOrder s n false
    dsimp only
    rw [htaken, ← horder]
    rfl
  | move out count goes =>
    obtain ⟨htaken, horder⟩ := aged_moveOrder s out count
    dsimp only
    rw [htaken, ← horder]
    rfl
  | _ => rfl

theorem aged_orderTested (leg : Leg) : (orderTested leg s).aged = orderTested leg s.aged := aged_if rfl (aged_orderLeg _)

theorem aged_seekLeg (leg : Leg) : (seekLeg leg s).aged = seekLeg leg s.aged :=
  aged_if (aged_if rfl (aged_orderTested _ leg)) (aged_orderTested s leg)

theorem aged_seekCheck (target a : Nat) : (seekCheck target a s).aged = seekCheck target a s.aged := by
  have hstep : checkStep ((s.aged.seek.track target : Int) - (s.aged.seek.track a : Int)) a target s.aged.active[26]
      = checkStep ((s.seek.track target : Int) - (s.seek.track a : Int)) a target s.active[26] := rfl
  unfold seekCheck
  dsimp only
  rw [hstep]
  cases checkStep ((s.seek.track target : Int) - (s.seek.track a : Int)) a target s.active[26] with
  | none => rfl
  | some leg => exact aged_seekLeg s leg

theorem aged_startSeek (target : Nat) : (startSeek target s).aged = startSeek target s.aged :=
  aged_if (aged_seekCheck (s.setSeek { s.seek.dropTask with task := some (.seek target) }) target s.seek.aCur) rfl

theorem aged_payRemainder : (payRemainder s).aged = payRemainder s.aged := aged_if rfl (aged_orderTested s _)

theorem aged_startJump (n : Int) : (startJump n s).aged = startJump n s.aged :=
  aged_if rfl (aged_if (aged_orderTested _ _) (aged_orderTested _ _))

theorem aged_seekJumpDone : (seekJumpDone s).aged = seekJumpDone s.aged := by
  have hseek : s.aged.seek.leg = s.seek.leg ∧ s.aged.seek.task = s.seek.task := ⟨rfl, rfl⟩
  unfold seekJumpDone
  rw [hseek.1, hseek.2]
  refine aged_if rfl (aged_if rfl ?_)
  cases s.seek.leg with
  | jump n =>
    cases s.seek.task with
    | none => rfl
    | some task =>
      cases task with
      | seek target => rfl
      | jump m => exact aged_payRemainder (s.setSeek { s.seek with remainder := if s.seek.remainder = 0 then 0 else s.seek.remainder - n })
  | _ => rfl

theorem aged_seekMoveDone : (seekMoveDone s).aged = seekMoveDone s.aged := by
  have hleg : s.aged.seek.leg = s.seek.leg := rfl
  unfold seekMoveDone
  rw [hleg]
  cases s.seek.leg <;> rfl

theorem aged_seekTrackLocked : (seekTrackLocked s).aged = seekTrackLocked s.aged := by
  have hseek : s.aged.seek.leg = s.seek.leg ∧ s.aged.seek.task = s.seek.task := ⟨rfl, rfl⟩
  unfold seekTrackLocked
  rw [hseek.1, hseek.2]
  cases s.seek.leg with
  | move out count goes =>
    cases goes with
    | false => rfl
    | true =>
      cases s.seek.task with
      | none => rfl
      | some task =>
        cases task with
        | seek target => rfl
        | jump m => exact aged_payRemainder s
  | _ => rfl

theorem aged_seekReorder : (seekReorder s).aged = seekReorder s.aged := aged_if (aged_orderLeg s) rfl

theorem aged_seekTrackFail : (seekTrackFail s).aged = seekTrackFail s.aged := aged_if rfl rfl

/-! ## ENGAGE (R139, R140) -/

theorem aged_engageReturn : (engageReturn s).aged = engageReturn s.aged := by
  have hseq : s.aged.seq.fromStandby = s.seq.fromStandby ∧ s.aged.seq.resume = s.seq.resume := ⟨rfl, rfl⟩
  unfold engageReturn
  rw [hseq.1, hseq.2]
  cases s.seq.fromStandby with
  | false => exact aged_endFollowing s .done
  | true =>
    cases s.seq.resume with
    | none => exact aged_endFollowing s .done
    | some target => exact aged_startSeek _ target

theorem aged_engageReady : (engageReady s).aged = engageReady s.aged := by
  let next (u : State) : State := if u.trackHeld && u.spindle.state = .locked && u.seek.valid then engageReturn u else u
  have hnext (u : State) : (next u).aged = next u.aged := aged_if (aged_engageReturn u) rfl
  exact aged_then next hnext (aged_if (c := s.seek.valid = true) (a := s.setSeq { s.seq with addrTimer := none }) rfl rfl)

theorem aged_engageTrack : (engageTrack s).aged = engageTrack s.aged :=
  aged_if (aged_engageReady _) (aged_if (aged_pullInOrder s) rfl)

theorem aged_engageFocus : (engageFocus s).aged = engageFocus s.aged :=
  aged_if (aged_engageTrack _) (aged_if (aged_searchOrder s) rfl)

theorem aged_engageAdvance : (engageAdvance s).aged = engageAdvance s.aged := by
  have hstep : s.aged.seq.step = s.seq.step := rfl
  unfold engageAdvance
  rw [hstep]
  refine aged_if ?_ rfl
  cases s.seq.step with
  | engageFocus => exact aged_engageFocus s
  | engageTrack => exact aged_engageTrack s
  | engageReady => exact aged_engageReady s
  | _ => rfl

theorem aged_engageRun : (engageRun s).aged = engageRun s.aged := by
  have hlit := aged_then (fun u : State => (u.setFe (u.fe.engage u.active)).setSeq { u.seq with laser := true }) (fun _ => rfl)
    (aged_setSeqState s .engaging)
  have hstart := aged_then startOrder aged_startOrder hlit
  exact aged_then engageAdvance aged_engageAdvance
    (aged_then (fun u : State => u.setSeq { u.seq with step := .engageFocus }) (fun _ => rfl) hstart)

theorem aged_engageFirst : (engageFirst s).aged = engageFirst s.aged :=
  aged_if (aged_then engageRun aged_engageRun (aged_setPower _ .active)) (aged_engageRun _)

/-! ## Starting entries (R136) -/

theorem aged_markHead : (markHead s).aged = markHead s.aged := by
  have hqueue : s.aged.seq.queue = s.seq.queue := rfl
  unfold markHead
  rw [hqueue]
  cases s.seq.queue <;> rfl

theorem aged_endsAtOnce (o : EndOutcome) : (endsAtOnce o s).aged = endsAtOnce o s.aged :=
  congrArg testHead (aged_then (endEntry o) (aged_endEntry · o) (aged_markHead s))

theorem aged_pauseRun : (pauseRun s).aged = pauseRun s.aged := aged_if (aged_endFollowing s .done) (aged_setSeqState s .paused)

theorem aged_startDisengaged (m : Motion) : (startDisengaged m s).aged = startDisengaged m s.aged := by
  cases m with
  | engage => exact aged_if (aged_then engageFirst aged_engageFirst (aged_markHead s)) (aged_endsAtOnce s .abandoned)
  | _ => exact aged_endsAtOnce s _

theorem aged_startFollowing (m : Motion) : (startFollowing m s).aged = startFollowing m s.aged := by
  cases m with
  | engage => exact aged_endsAtOnce s .done
  | seek t => exact aged_then (startSeek t) (aged_startSeek · t) (aged_then (setSeqState .seeking) (aged_setSeqState · .seeking) (aged_markHead s))
  | jump n => exact aged_then (startJump n) (aged_startJump · n) (aged_then (setSeqState .jumping) (aged_setSeqState · .jumping) (aged_markHead s))
  | pause => exact aged_then pauseRun aged_pauseRun (aged_markHead s)
  | disengage => exact aged_then (disengage false) (aged_disengage · false) (aged_markHead s)

theorem aged_startHead : (startHead s).aged = startHead s.aged := by
  have hdue : s.aged.headDue = s.headDue := rfl
  unfold startHead
  rw [hdue]
  cases s.headDue with
  | none => rfl
  | some m => exact aged_if (aged_startFollowing s m) (aged_startDisengaged s m)

/-! ## Recovery (R150 to R153) -/

theorem aged_recoverPullIn : (recoverPullIn s).aged = recoverPullIn s.aged := aged_pullInOrder _

theorem aged_recoverFocus : (recoverFocus s).aged = recoverFocus s.aged := aged_if (aged_recoverPullIn _) (aged_searchOrder _)

theorem aged_recoverLoops : (recoverLoops s).aged = recoverLoops s.aged := aged_if rfl (aged_if (aged_recoverPullIn s) rfl)

theorem aged_attemptBegin : (attemptBegin s).aged = attemptBegin s.aged := by
  have haged : s.aged.setSeq { s.aged.seq with attempts := s.aged.seq.attempts + 1 }
      = (s.setSeq { s.seq with attempts := s.seq.attempts + 1 }).aged := rfl
  unfold attemptBegin
  dsimp only
  rw [haged]
  generalize s.setSeq { s.seq with attempts := s.seq.attempts + 1 } = u
  have hcause : u.aged.seq.cause = u.seq.cause := rfl
  rw [hcause]
  cases u.seq.cause with
  | focusLost => exact aged_recoverFocus u
  | _ => exact aged_recoverLoops u

theorem aged_attemptFail : (attemptFail s).aged = attemptFail s.aged := by
  let next (u : State) : State :=
    if u.seq.attempts < 3 then attemptBegin u else failureEnd .recoveryFail (postRecovery u.seq.cause .failed u.seq.attempts u)
  have hnext (u : State) : (next u).aged = next u.aged := aged_if (aged_attemptBegin u) (aged_failureEnd _ .recoveryFail)
  exact aged_then next hnext (aged_stopOrder (cancelTask s))

theorem aged_replayJump (n : Int) : (replayJump n s).aged = replayJump n s.aged :=
  aged_then (startJump n) (aged_startJump · n) (aged_setSeqState s .jumping)

theorem aged_attemptSuccess : (attemptSuccess s).aged = attemptSuccess s.aged := by
  let u : State := postRecovery s.seq.cause .resumed s.seq.attempts s
  have hmotion : (postRecovery s.aged.seq.cause .resumed s.aged.seq.attempts s.aged).motion = u.motion := rfl
  unfold attemptSuccess
  dsimp only
  rw [hmotion]
  cases u.motion with
  | none => exact congrArg testHead (aged_setSeqState u .following)
  | some m =>
    cases m with
    | engage => exact aged_if (aged_setSeqState u .suspended) (aged_engageRun u)
    | seek t => exact aged_if (aged_setSeqState u .suspended) (aged_then (startSeek t) (aged_startSeek · t) (aged_setSeqState u .seeking))
    | jump n => exact aged_if (aged_setSeqState u .suspended) (aged_replayJump u n)
    | pause => exact aged_pauseRun u
    | disengage => exact congrArg testHead (aged_setSeqState u .following)

theorem aged_recoveryStart (c : Cause) : (recoveryStart c s).aged = recoveryStart c s.aged := by
  have hstate := aged_then (setSeqState .recovering) (aged_setSeqState · .recovering) (aged_stopOrder (cancelTask s))
  exact aged_then attemptBegin aged_attemptBegin
    (aged_then (fun u : State => u.setSeq { u.seq with cause := c, attempts := 0 }) (fun _ => rfl) hstate)

theorem aged_incident (c : Cause) : (incident c s).aged = incident c s.aged := by
  have hstate : s.aged.seq.state = s.seq.state := rfl
  unfold incident
  rw [hstate]
  cases s.seq.state with
  | recovering => exact aged_attemptFail _
  | idle => rfl
  | standby => rfl
  | disengaging => rfl
  | _ => exact aged_recoveryStart s c

end

end Sys2Proof.Machine
end


-- ==== Sys2Proof/Proofs/AgedEnds.lean ====
section
/-! SUPPORT. The count of the address age and the end of a step, and the timers of a millisecond that stand behind it (R114, R160,
R185, log entry 4). -/

namespace Sys2Proof.Machine

section
variable (s : State)

/-! ## Reports to the sequencer (R124, R139 to R154) -/

theorem aged_seqFocusCaptured : (seqFocusCaptured s).aged = seqFocusCaptured s.aged := aged_if (aged_recoverPullIn s) (aged_engageAdvance s)

theorem aged_seqFocusFail : (seqFocusFail s).aged = seqFocusFail s.aged :=
  aged_if (aged_failureEnd s .focusFail) (aged_if (aged_attemptFail s) rfl)

theorem aged_seqLockEntered : (seqLockEntered s).aged = seqLockEntered s.aged :=
  aged_if (aged_if (congrArg testHead (aged_setSeqState s .following)) rfl) (aged_if (aged_if rfl rfl) (aged_engageAdvance s))

theorem aged_flushed : (disengage false (flush s)).aged = disengage false (flush s.aged) :=
  aged_then (disengage false) (aged_disengage · false) (aged_flush s)

theorem aged_seqTrackFail (byPause : Bool) : (seqTrackFail byPause s).aged = seqTrackFail byPause s.aged :=
  aged_if (aged_attemptFail s) (aged_if (aged_flushed s) (aged_if (aged_failureEnd s .trackFail)
    (aged_if (aged_seekTrackFail s) (aged_if (aged_failureEnd s .trackFail) rfl))))

theorem aged_seqFocusLost : (seqFocusLost s).aged = seqFocusLost s.aged := aged_if (aged_flushed s) (aged_incident s .focusLost)

theorem aged_seqOutcome (o : EndOutcome) : (seqOutcome o s).aged = seqOutcome o s.aged := by
  have hstate : s.aged.seq.state = s.seq.state := rfl
  have hmotion : s.aged.motion = s.motion := rfl
  have hends : (if o = .trackFail then failureEnd o s else endFollowing o s).aged
      = if o = .trackFail then failureEnd o s.aged else endFollowing o s.aged := aged_if (aged_failureEnd s o) (aged_endFollowing s o)
  unfold seqOutcome
  rw [hstate, hmotion]
  cases s.seq.state with
  | engaging => exact hends
  | seeking => exact hends
  | jumping => exact hends
  | recovering => exact aged_if (aged_attemptSuccess s) (aged_attemptFail s)
  | suspended =>
    refine aged_if ?_ hends
    cases s.motion with
    | none => rfl
    | some m =>
      cases m with
      | jump n => exact aged_replayJump s n
      | _ => rfl
  | _ => rfl

theorem aged_seqSpinFail : (seqSpinFail s).aged = seqSpinFail s.aged :=
  aged_if (aged_then (failureEnd .spinFail) (aged_failureEnd · .spinFail)
    (aged_if (c := s.seq.state = .recovering) (a := postRecovery s.seq.cause .failed s.seq.attempts s) rfl
      (aged_if (c := s.current.isNone = true) (a := postRecovery .spinFail .failed 0 s) (b := s) rfl rfl))) rfl

theorem aged_seqStopped : (seqStopped s).aged = seqStopped s.aged := aged_if (aged_arrive s) rfl

theorem aged_takeOffTrack : (takeOffTrack s).aged = takeOffTrack s.aged :=
  aged_if (aged_if (aged_then (incident .offTrack) (aged_incident · .offTrack) (aged_shockTrigger _))
      (aged_then shockTrigger aged_shockTrigger (aged_incident _ .offTrack)))
    (aged_then shockTrigger aged_shockTrigger (aged_incident s .offTrack))

/-! ## The loader (R164 to R168) -/

/-- The largest age stands. -/
theorem aged_of_oldest (h : s.seek.age = 65535) : s.aged = s := by
  have hage : (if s.seek.age < 65535 then s.seek.age + 1 else 65535) = s.seek.age := by rw [if_neg (by omega), h]
  rw [State.aged, hage]
  rfl

/-- The unclamp leaves the largest age. -/
theorem aged_unclamp : (unclamp s).aged = unclamp s.aged := aged_of_oldest (unclamp s) rfl

theorem aged_enterPresented : (enterPresented s).aged = enterPresented s.aged := aged_if rfl rfl

theorem aged_enterReleasing : (enterReleasing s).aged = enterReleasing s.aged := by
  let next (u : State) : State := if u.sup.ejectEnd.level then enterPresented u else u
  have hnext (u : State) : (next u).aged = next u.aged := aged_if (aged_enterPresented u) rfl
  let u : State := setLoaderState { s.loader with state := .releasing, ejectPending := false, timer := 0 } s
  exact aged_then next hnext (aged_if (c := decide (s.loader.state = .clamped) = true) (a := unclamp u) (b := u) (aged_unclamp u) rfl)

theorem aged_ejectRelease : (ejectRelease s).aged = ejectRelease s.aged := aged_if (aged_enterReleasing s) rfl

theorem aged_loadTimeout : (loadTimeout s).aged = loadTimeout s.aged := aged_if (aged_enterReleasing _) rfl

theorem aged_releaseTimeout : (releaseTimeout s).aged = releaseTimeout s.aged := aged_if rfl rfl

theorem aged_reloadExpiry : (reloadExpiry s).aged = reloadExpiry s.aged := aged_if (aged_if rfl rfl) rfl

/-! ## The timers of the sequencer behind the address's (R114, R185) -/

theorem aged_addressLost : (addressLost s).aged = addressLost s.aged := aged_if rfl rfl

theorem aged_standbyOrder : (standbyOrder s).aged = standbyOrder s.aged := by
  have haged : abandonAll s.aged = (abandonAll s).aged := (aged_abandonAll s).symm
  unfold standbyOrder
  dsimp only
  rw [haged]
  generalize abandonAll s = u
  have hstate : u.aged.seq.state = u.seq.state := rfl
  rw [hstate]
  cases u.seq.state with
  | idle => exact aged_setSeqState u .standby
  | standby => exact aged_setPower u .standby
  | disengaging => rfl
  | _ => exact aged_disengage u true

theorem aged_idleExpiry : (idleExpiry s).aged = idleExpiry s.aged :=
  aged_if (aged_then standbyOrder aged_standbyOrder (aged_endEntry s .done)) rfl

/-! ## The end of a step (R40, R159) -/

theorem aged_handle (x : Signal) : (handle x s).aged = handle x s.aged := by
  cases x with
  | focusCaptured => exact aged_seqFocusCaptured s
  | focusFail => exact aged_seqFocusFail s
  | trackLocked => exact aged_seekTrackLocked s
  | trackFail byPause => exact aged_seqTrackFail s byPause
  | jumpDone byPause => exact aged_if rfl (aged_seekJumpDone s)
  | moveDone => exact aged_seekMoveDone s
  | lockEntered => exact aged_then seqLockEntered aged_seqLockEntered (aged_seekReorder s)
  | offTrack => exact aged_takeOffTrack s
  | focusLost => exact aged_then seqFocusLost aged_seqFocusLost (aged_disturb s)
  | focusLostDue => exact aged_raiseFocusLost s
  | addressLost => exact aged_incident s .addressLost
  | spinFail => exact aged_seqSpinFail s
  | spindleMoved => exact aged_engageAdvance s
  | spindleStopped => exact aged_seqStopped s
  | outcome o => exact aged_seqOutcome s o
  | testHead => exact aged_startHead s
  | launchDue => exact aged_takePending s
  | loaderDue => exact aged_ejectRelease s

theorem aged_drain (n : Nat) : (drain n s).aged = drain n s.aged := by
  induction n generalizing s with
  | zero => rfl
  | succ n ih =>
    have hsignals : s.aged.signals = s.signals := rfl
    cases hs : s.signals with
    | nil => rw [drain_of_quiet (n + 1) hs, drain_of_quiet (n + 1) (hsignals.trans hs)]
    | cons x rest =>
      rw [drain_cons n hs, drain_cons n (hsignals.trans hs), ih, aged_handle]
      rfl

theorem aged_loaderTest : (loaderTest s).aged = loaderTest s.aged :=
  aged_then (fun u : State => u.setLoader { u.loader with drive := u.loaderDemand }) (fun _ => rfl) (aged_ejectRelease s)

theorem aged_settle : (settle s).aged = settle s.aged := aged_then loaderTest aged_loaderTest (aged_drain s 64)

end

end Sys2Proof.Machine
end


-- ==== Sys2Proof/Proofs/TimerParts.lean ====
section
/-! SUPPORT. The parts of a millisecond, one for each timer, with the count of the address age taken last (R20, R99, R100, R103, R114,
R125, R140, R151, R152, R160, R185, log entry 4). -/

namespace Sys2Proof.Machine

section
variable {s u : State} {k : Timer}

/-! ## The parts in their order (log entry 4) -/

/-- The watch time's part of `tickAddress` (R114). -/
def tickWatch (s : State) : State :=
  if s.seq.state.reading then
    let s := s.setSeek { s.seek with watch := countUp 300 s.seek.watch }
    if 300 ≤ s.seek.watch then addressLost s else s
  else s

/-- What a millisecond does for one timer, before what follows from it. -/
def Timer.part : Timer → State → State
  | .boundary => tickAngle
  | .spindle => tickSpindle
  | .wait => tickWait
  | .engage => tickEngage
  | .loopWait => tickLoopWait
  | .recovery => tickRecovery
  | .watch => tickWatch
  | .idle => tickIdle
  | .loader => tickLoader
  | .reload => tickReload

theorem tickAddress_eq (s : State) : tickAddress s = tickWatch s.aged := by
  have hage : countUp 65535 s.seek.age = if s.seek.age < 65535 then s.seek.age + 1 else 65535 := by
    unfold countUp
    split <;> omega
  unfold tickAddress
  rw [hage]
  rfl

theorem aged_tickWatch (s : State) : (tickWatch s).aged = tickWatch s.aged := aged_if (aged_if (aged_addressLost _) rfl) rfl

theorem aged_tickIdle (s : State) : (tickIdle s).aged = tickIdle s.aged := by
  have hsup : s.aged.sup = s.sup := rfl
  unfold tickIdle
  rw [hsup]
  cases s.sup.idleTimer with
  | none => rfl
  | some t =>
    refine aged_if rfl ?_
    show (match idleLength s.sup.idleSetting with
      | some l => if l ≤ countUp 15240000 t then idleExpiry _ else _
      | none => _).aged = (match idleLength s.sup.idleSetting with
      | some l => if l ≤ countUp 15240000 t then idleExpiry _ else _
      | none => _)
    cases idleLength s.sup.idleSetting with
    | none => rfl
    | some l => exact aged_if (aged_idleExpiry _) rfl

theorem aged_loaderTimeout (s : State) : (loaderTimeout s).aged = loaderTimeout s.aged := by
  have hstate : s.aged.loader.state = s.loader.state := rfl
  unfold loaderTimeout
  rw [hstate]
  cases s.loader.state with
  | pulling => exact aged_loadTimeout s
  | releasing => exact aged_releaseTimeout s
  | _ => rfl

theorem aged_tickLoader (s : State) : (tickLoader s).aged = tickLoader s.aged := aged_if (aged_if (aged_loaderTimeout _) rfl) rfl

theorem aged_tickReload (s : State) : (tickReload s).aged = tickReload s.aged := by
  have hreload : s.aged.loader.reload = s.loader.reload := rfl
  unfold tickReload
  rw [hreload]
  cases s.loader.reload with
  | none => rfl
  | some r => exact aged_if (aged_if (aged_reloadExpiry _) rfl) rfl

/-- A millisecond takes the parts of the timers one by one, and counts the address age. -/
theorem step_millisecond (hq : s.pending = []) (h : s.held = false) :
    step s = .next (Timer.order.foldl (fun u k => settle (k.part u)) (settle (pulseEnd s))).aged := by
  have hpart {f : State → State} (hf : ∀ u, (f u).aged = f u.aged) {u u' : State} (hu : u.aged = u') : (settle (f u)).aged = settle (f u') :=
    aged_then settle aged_settle (aged_then f hf hu)
  let u : State := [Timer.boundary, .spindle, .wait, .engage, .loopWait, .recovery].foldl (fun u k => settle (k.part u)) (settle (pulseEnd s))
  have hlast := hpart aged_tickReload (hpart aged_tickLoader (hpart aged_tickIdle (hpart aged_tickWatch (u := u) rfl)))
  rw [← tickAddress_eq] at hlast
  have hfold : Timer.order.foldl (fun u k => settle (k.part u)) (settle (pulseEnd s))
      = settle (tickReload (settle (tickLoader (settle (tickIdle (settle (tickWatch u))))))) := by
    simp only [Timer.order, u, List.foldl_cons, List.foldl_nil, Timer.part]
  have htick : tickParts.foldl (fun s part => settle (part s)) s
      = settle (tickReload (settle (tickLoader (settle (tickIdle (settle (tickAddress u))))))) := by
    simp only [tickParts, u, List.foldl_cons, List.foldl_nil, Timer.part]
  rw [step_of_empty hq h, hfold, hlast, htick]

/-! ## What a count leaves -/

theorem atRest_countOn (k : Timer) (h : u.atRest) : (u.countOn k).atRest := by
  cases k <;> exact h

theorem held_countOn (k : Timer) : (u.countOn k).held = u.held := by
  cases k <;> rfl

theorem idleSetting_countOn (k : Timer) : (u.countOn k).sup.idleSetting = u.sup.idleSetting := by
  cases k <;> rfl

/-- Counting starts and stops no timer. -/
theorem runs_countOn (j k : Timer) : (u.countOn k).runs j = u.runs j := by
  cases k with
  | engage => cases j with
    | engage => exact Option.isSome_map
    | _ => rfl
  | loopWait => cases j with
    | loopWait => exact Option.isSome_map
    | _ => rfl
  | idle => cases j with
    | idle => exact congrArg (· && _) Option.isSome_map
    | _ => rfl
  | reload => cases j with
    | reload =>
      have hsome : ((u.countOn .reload).loader.reload).isSome = u.loader.reload.isSome := Option.isSome_map
      unfold State.runs
      rw [hsome]
      rfl
    | _ => rfl
  | _ => cases j <;> rfl

/-- A count brings no other timer nearer its end. -/
theorem ends_countOn {j : Timer} (h : j ≠ k) : (u.countOn k).deadline j = u.deadline j ∧ (u.countOn k).elapsed j = u.elapsed j := by
  cases k <;> cases j
  case boundary.boundary | spindle.spindle | wait.wait | engage.engage | loopWait.loopWait | recovery.recovery | watch.watch | idle.idle
      | loader.loader | reload.reload => exact absurd rfl h
  all_goals exact ⟨rfl, rfl⟩

end

end Sys2Proof.Machine
end


-- ==== Sys2Proof/Proofs/TimerEnds.lean ====
section
/-! SUPPORT. The part of one timer in a millisecond: it stands, counts on, or acts at its end as the table's event does (R20, R99, R100,
R103, R114, R125, R140, R151, R152, R164, R167, R168, R185). -/

namespace Sys2Proof.Machine

section
variable {s u : State} {k : Timer}

/-! ## The end of a timer -/

/-- What a timer does at its end. -/
def Timer.act : Timer → State → State
  | .boundary => timedBoundary
  | .spindle => spindleTimeout
  | .wait => addressWaitTimeout
  | .engage => engageAddressTimeout
  | .loopWait => loopWaitTimeout
  | .recovery => recoveryAddressTimeout
  | .watch => addressLost
  | .idle => idleExpiry
  | .loader => loaderTimeout
  | .reload => reloadExpiry

/-- The table's event of a timer does what the timer does at its end. -/
theorem exec_expiry (hr : u.runs k = true) (hh : u.held = false) :
    exec (u.expiry k) (u.countOn k) = .next (settle (k.act (u.countOn k))) := by
  have hheld : (u.countOn k).held = false := (held_countOn k).trans hh
  cases k with
  | spindle =>
    have hstate : (u.countOn .spindle).spindle.state = u.spindle.state := rfl
    have hrun : (u.spindle.state = .kick ∨ u.spindle.state = .locking) ∨ u.spindle.state = .braking := by
      simpa [State.runs] using hr
    rcases hrun with (h | h) | h <;> simp only [State.expiry, Timer.act, spindleTimeout, hstate, h]
    · exact done_of_running kickTimeout hheld
    · exact done_of_running lockingTimeout hheld
    · exact done_of_running brakingTimeout hheld
  | loader =>
    have hstate : (u.countOn .loader).loader.state = u.loader.state := rfl
    have hrun : u.loader.state = .pulling ∨ u.loader.state = .releasing := by
      simp only [State.runs, Bool.and_eq_true, Bool.or_eq_true, decide_eq_true_eq] at hr
      exact hr.1.1.1.1
    rcases hrun with h | h <;> simp only [State.expiry, Timer.act, loaderTimeout, hstate, h, if_true, reduceCtorEq, if_false]
    · exact done_of_running loadTimeout hheld
    · exact done_of_running releaseTimeout hheld
  | boundary => exact done_of_running timedBoundary hheld
  | wait => exact done_of_running addressWaitTimeout hheld
  | engage => exact done_of_running engageAddressTimeout hheld
  | loopWait => exact done_of_running loopWaitTimeout hheld
  | recovery => exact done_of_running recoveryAddressTimeout hheld
  | watch => exact done_of_running addressLost hheld
  | idle => exact done_of_running idleExpiry hheld
  | reload => exact done_of_running reloadExpiry hheld

/-- A timer of milliseconds short of its end, or at it. -/
theorem counts_to {l : Nat} (hk : k ≠ .boundary) (hd : u.deadline k = some l) (h : u.below k = true ∨ u.expires k = true) :
    u.elapsed k + 1 ≤ l ∧ (u.expires k = true ↔ l ≤ u.elapsed k + 1) := by
  have hunit : k.unit = 1 := if_neg hk
  have hends : u.expires k = true ↔ l = u.elapsed k + 1 := by
    unfold State.expires
    split
    · exact absurd rfl hk
    · rw [hd, decide_eq_true_iff, Option.some.injEq]
  have hbelow : u.below k = true ↔ u.elapsed k + 1 < l := by
    unfold State.below
    rw [hd, hunit]
    exact decide_eq_true_iff
  rw [hends, hbelow] at h
  exact ⟨by omega, hends.trans (by omega)⟩

/-- A count that saturates at its limit, with what it brings there. -/
theorem countUp_then {l n : Nat} (f : Nat → State) (act : State → State) (h : n + 1 ≤ l) :
    (if l ≤ countUp l n then act (f (countUp l n)) else f (countUp l n)) = if l ≤ n + 1 then act (f (n + 1)) else f (n + 1) := by
  rw [countUp, Nat.min_eq_right h]

/-! ## Each timer's part -/

/-- The part of a timer that runs. -/
def Timer.runsOn (k : Timer) (u : State) : State := if u.expires k then k.act (u.countOn k) else u.countOn k

theorem runsOn_of {k : Timer} {l : Nat} (h : u.expires k = true ↔ l ≤ u.elapsed k + 1) :
    (if l ≤ u.elapsed k + 1 then k.act (u.countOn k) else u.countOn k) = k.runsOn u := if_congr h.symm rfl rfl

theorem tickSpindle_of_limit {l : Nat} (hlimit : u.spindle.state.limit = some l) (h : u.spindle.timer + 1 ≤ l) :
    tickSpindle u = if l ≤ u.spindle.timer + 1 then spindleTimeout (u.countOn .spindle) else u.countOn .spindle := by
  unfold tickSpindle
  rw [hlimit]
  exact countUp_then (fun n => u.setSpindle { u.spindle with timer := n }) spindleTimeout h

theorem tickEngage_of_some {n : Nat} (ht : u.seq.addrTimer = some n) (h : n + 1 ≤ 1000) :
    tickEngage u = if 1000 ≤ n + 1 then engageAddressTimeout (u.countOn .engage) else u.countOn .engage := by
  have hcount : u.countOn .engage = u.setSeq { u.seq with addrTimer := some (n + 1) } := by rw [State.countOn, ht]; rfl
  unfold tickEngage
  rw [ht, hcount]
  dsimp only
  rw [countUp, Nat.min_eq_right h]

theorem tickLoopWait_of_some {n : Nat} (ht : u.seq.loopWait = some n) (h : n + 1 ≤ 20) :
    tickLoopWait u = if 20 ≤ n + 1 then loopWaitTimeout (u.countOn .loopWait) else u.countOn .loopWait := by
  have hcount : u.countOn .loopWait = u.setSeq { u.seq with loopWait := some (n + 1) } := by rw [State.countOn, ht]; rfl
  unfold tickLoopWait
  rw [ht, hcount]
  dsimp only
  rw [countUp, Nat.min_eq_right h]

theorem tickReload_of_some {r : Reload} (ht : u.loader.reload = some r) (hr : u.reloadRuns = true) (h : r.time + 1 ≤ r.length) :
    tickReload u = if r.length ≤ r.time + 1 then reloadExpiry (u.countOn .reload) else u.countOn .reload := by
  have hcount : u.countOn .reload = u.setLoader { u.loader with reload := some { r with time := r.time + 1 } } := by
    rw [State.countOn, ht]; rfl
  unfold tickReload
  rw [ht]
  dsimp only
  rw [if_pos hr, hcount, countUp, Nat.min_eq_right h]

/-- A timer of milliseconds that runs below its end or comes to it, the idle timer apart. -/
theorem part_of_runs (hk : k ≠ .boundary) (hk' : k ≠ .idle) (hr : u.runs k = true) (h : u.below k = true ∨ u.expires k = true) :
    k.part u = k.runsOn u := by
  cases k with
  | boundary => exact absurd rfl hk
  | idle => exact absurd rfl hk'
  | spindle =>
    have hrun : (u.spindle.state = .kick ∨ u.spindle.state = .locking) ∨ u.spindle.state = .braking := by
      simpa [State.runs] using hr
    have hpart {l : Nat} (hd : u.deadline .spindle = some l) (hlimit : u.spindle.state.limit = some l) :
        Timer.spindle.part u = Timer.spindle.runsOn u := by
      obtain ⟨hle, hends⟩ := counts_to hk hd h
      exact (tickSpindle_of_limit hlimit hle).trans (runsOn_of hends)
    rcases hrun with (hs | hs) | hs
    · exact hpart (l := 1500) (by simp only [State.deadline, hs]) (by rw [hs]; rfl)
    · exact hpart (l := 3000) (by simp only [State.deadline, hs]) (by rw [hs]; rfl)
    · exact hpart (l := 100) (by simp only [State.deadline, hs]) (by rw [hs]; rfl)
  | wait =>
    obtain ⟨hle, hends⟩ := counts_to (l := 300) hk rfl h
    refine (if_pos (of_decide_eq_true hr)).trans (.trans ?_ (runsOn_of hends))
    exact countUp_then (fun n => u.setSeek { u.seek with waitTimer := n }) addressWaitTimeout hle
  | engage =>
    obtain ⟨hle, hends⟩ := counts_to (l := 1000) hk rfl h
    obtain ⟨n, hn⟩ := Option.isSome_iff_exists.mp hr
    have hn' : u.elapsed .engage = n := by rw [State.elapsed, hn]; rfl
    rw [← runsOn_of hends]
    rw [hn'] at hle ⊢
    exact tickEngage_of_some hn hle
  | loopWait =>
    obtain ⟨hle, hends⟩ := counts_to (l := 20) hk rfl h
    obtain ⟨n, hn⟩ := Option.isSome_iff_exists.mp hr
    have hn' : u.elapsed .loopWait = n := by rw [State.elapsed, hn]; rfl
    rw [← runsOn_of hends]
    rw [hn'] at hle ⊢
    exact tickLoopWait_of_some hn hle
  | recovery =>
    obtain ⟨hle, hends⟩ := counts_to (l := 300) hk rfl h
    refine (if_pos hr).trans (.trans ?_ (runsOn_of hends))
    exact countUp_then (fun n => u.setSeq { u.seq with recTimer := n }) recoveryAddressTimeout hle
  | watch =>
    obtain ⟨hle, hends⟩ := counts_to (l := 300) hk rfl h
    refine (if_pos hr).trans (.trans ?_ (runsOn_of hends))
    exact countUp_then (fun n => u.setSeek { u.seek with watch := n }) addressLost hle
  | loader =>
    obtain ⟨hle, hends⟩ := counts_to (l := 5000) hk rfl h
    have hruns : ((u.loader.state = .pulling || u.loader.state = .releasing) && u.motorPermit) = true := by
      simpa only [State.runs, State.motorPermit, State.laserOn, Bool.and_assoc] using hr
    refine (if_pos hruns).trans (.trans ?_ (runsOn_of hends))
    exact countUp_then (fun n => u.setLoader { u.loader with timer := n }) loaderTimeout hle
  | reload =>
    have hruns : u.reloadRuns = true := by
      simpa only [State.runs, State.reloadRuns, State.motorsHeld, Bool.not_or, Bool.and_assoc] using hr
    obtain ⟨r, ht⟩ : ∃ r, u.loader.reload = some r := by
      simp only [State.runs, Bool.and_eq_true] at hr
      exact Option.isSome_iff_exists.mp hr.1.1.1.2
    obtain ⟨hle, hends⟩ := counts_to (l := r.length) hk (by rw [State.deadline, ht]; rfl) h
    have htime : u.elapsed .reload = r.time := by rw [State.elapsed, ht]; rfl
    rw [← runsOn_of hends]
    rw [htime] at hle ⊢
    exact tickReload_of_some ht hruns hle

end

end Sys2Proof.Machine
end


-- ==== Sys2Proof/Proofs/TimerRuns.lean ====
section
/-! SUPPORT. The idle timer and the timed boundaries in a millisecond, and what it makes of a timer in all (R20, R185, log entry 4). -/

namespace Sys2Proof.Machine

section
variable {s t u : State} {k : Timer}

/-! ## The idle timer (R185) -/

theorem deadline_idle : u.deadline .idle = idleLength u.sup.idleSetting := by
  unfold State.deadline idleLength
  dsimp only
  by_cases hzero : u.sup.idleSetting = 0
  · rw [if_neg (by omega), if_pos hzero, if_pos hzero]
  · rw [if_neg hzero, if_neg hzero]

theorem tickIdle_of_runs (hr : u.runs .idle = true) : tickIdle u = match u.deadline .idle with
    | some l => if l ≤ min 15240000 (u.elapsed .idle + 1) then idleExpiry (u.countOn .idle) else u.countOn .idle
    | none => u.countOn .idle := by
  obtain ⟨htimer, hwaits⟩ := Bool.and_eq_true_iff.mp hr
  obtain ⟨n, hn⟩ := Option.isSome_iff_exists.mp htimer
  have hbehind : u.waitsBehind = false := by
    rw [State.waitsBehind, List.any_eq_false]
    intro e he
    rw [Bool.not_eq_true', List.all_eq_true.mp hwaits e he]
    exact Bool.noConfusion
  have helapsed : u.elapsed .idle = n := by rw [State.elapsed, hn]; rfl
  have hcount : u.countOn .idle = u.setSup { u.sup with idleTimer := some (min 15240000 (n + 1)) } := by rw [State.countOn, hn]; rfl
  have htick : tickIdle u = match idleLength u.sup.idleSetting with
      | some l => if l ≤ min 15240000 (n + 1) then idleExpiry (u.countOn .idle) else u.countOn .idle
      | none => u.countOn .idle := by
    unfold tickIdle
    rw [hn, hcount]
    exact if_neg (Bool.eq_false_iff.mp hbehind)
  rw [htick, deadline_idle, helapsed]

/-- No setting reaches beyond the idle timer's range. -/
theorem deadline_idle_le {l : Nat} (hset : u.sup.idleSetting ≤ 255) (h : u.deadline .idle = some l) : l ≤ 15240000 := by
  rw [deadline_idle, idleLength] at h
  split at h
  · cases h
    omega
  · split at h
    · exact absurd h nofun
    · cases h
      omega

/-! ## The timed boundaries (R20) -/

/-- The next timed boundary's time has not come. -/
def State.notDue (u : State) : Prop := ∀ x, u.angle.schedule = some x → u.angle.sinceEdge < x.next * x.spacing

theorem dueBoundaries_of_notDue (n : Nat) (h : u.notDue) : dueBoundaries n u = u := by
  cases n with
  | zero => rfl
  | succ n =>
    unfold dueBoundaries
    cases hx : u.angle.schedule with
    | none => rfl
    | some x => exact if_neg (Nat.not_le.mpr (h x hx))

/-- The angle stands, or nothing more is scheduled on it. -/
def Scheduled (a : Angle) (s : State) : Prop := s.angle = a ∨ s.angle.schedule = none

theorem steady_scheduled (a : Angle) : Steady (Scheduled a) where
  fe h _ _ := h
  focus h := h
  track h := h
  det h := h
  defects h := h
  spindle h := h
  sled h := h
  seek h := h
  seq h := h
  link h := h
  freeCount h := h
  groups h _ _ := h
  sup h _ := h
  drive h := h
  signals h _ := h

/-- What follows from a boundary leaves the schedule, or ends it with a release of the disc (R166). -/
theorem settling_scheduled (a : Angle) : Settling (Scheduled a) where
  toSteady := steady_scheduled a
  launch h _ := (steady_scheduled a).takePending fun _ _ => h
  release {s} h := by
    unfold ejectRelease
    split
    next hdue =>
      simp only [Bool.and_eq_true, decide_eq_true_eq] at hdue
      obtain ⟨x, l, heq, -⟩ := enterReleasing_clamped hdue.1.1
      rw [heq]
      exact .inr rfl
    · exact h

/-- The boundary that comes leaves none behind it that has come too (R20). -/
theorem settle_dueBoundaries (he : u.expires .boundary = true) :
    settle (dueBoundaries 7 (u.countOn .boundary)) = settle (timedBoundary (u.countOn .boundary)) := by
  let v : State := u.countOn .boundary
  cases hx : u.angle.schedule with
  | none =>
    rw [State.expires, hx] at he
    exact absurd he Bool.false_ne_true
  | some x =>
    have hv : v.angle.schedule = some x := hx
    rw [State.expires, hx] at he
    simp only [Bool.and_eq_true, Bool.or_eq_true, decide_eq_true_eq] at he
    obtain ⟨hdue, hlast⟩ := he
    let a : Angle := { v.angle with schedule := if x.next < 7 then some { x with next := x.next + 1 } else none }
    have hboundary : timedBoundary v = boundary (v.setAngle a) := by
      unfold timedBoundary
      rw [hv]
    have hangle : Scheduled a.advance (settle (timedBoundary v)) := by
      rw [hboundary]
      exact (settling_scheduled _).settle (.inl (at_boundary (u := v.setAngle a) (w := v.loader.ejectPending) ⟨rfl, rfl⟩).1)
    have hstands : (settle (timedBoundary v)).notDue := by
      intro y hy
      rcases hangle with ha | hnone
      · rw [ha] at hy ⊢
        have hy' : (if x.next < 7 then some { x with next := x.next + 1 } else none) = some y := hy
        split at hy'
        · cases hy'
          show u.angle.sinceEdge + 1000 < (x.next + 1) * x.spacing
          rcases hlast with h | h
          · omega
          · exact h
        · exact absurd hy' nofun
      · exact absurd (hnone.symm.trans hy) nofun
    have hfirst : dueBoundaries 7 v = dueBoundaries 6 (settle (timedBoundary v)) := by
      rw [dueBoundaries, hv]
      exact if_pos hdue
    rw [hfirst, dueBoundaries_of_notDue 6 hstands]
    exact settle_of_atRest (settle_atRest _)

/-! ## A timer's part in all -/

theorem part_of_still (hr : ¬u.runs k = true) : k.part u = u := by
  cases k with
  | boundary => exact if_neg hr
  | spindle =>
    have hlimit : u.spindle.state.limit = none := by
      simp only [State.runs, Bool.or_eq_true, decide_eq_true_eq, not_or] at hr
      obtain ⟨⟨hkick, hlocking⟩, hbraking⟩ := hr
      cases hs : u.spindle.state with
      | kick => exact absurd hs hkick
      | locking => exact absurd hs hlocking
      | braking => exact absurd hs hbraking
      | _ => rfl
    show tickSpindle u = u
    rw [tickSpindle, hlimit]
  | wait => exact if_neg fun h => hr (decide_eq_true h)
  | engage =>
    show tickEngage u = u
    rw [tickEngage, Option.not_isSome_iff_eq_none.mp hr]
  | loopWait =>
    show tickLoopWait u = u
    rw [tickLoopWait, Option.not_isSome_iff_eq_none.mp hr]
  | recovery => exact if_neg hr
  | watch => exact if_neg hr
  | idle =>
    show tickIdle u = u
    unfold tickIdle
    cases hn : u.sup.idleTimer with
    | none => rfl
    | some n =>
      refine if_pos ?_
      simpa [State.runs, hn, State.waitsBehind] using hr
  | loader =>
    refine if_neg fun h => hr ?_
    simpa only [State.runs, State.motorPermit, State.laserOn, Bool.and_assoc] using h
  | reload =>
    show tickReload u = u
    unfold tickReload
    cases u.loader.reload with
    | none => rfl
    | some r =>
      refine if_neg fun h => hr ?_
      simpa only [State.runs, State.reloadRuns, State.motorsHeld, Bool.not_or, Bool.and_assoc] using h

theorem not_expires_of_below (hk : k ≠ .boundary) (hb : u.below k = true) : ¬u.expires k = true := by
  intro he
  have hd : u.deadline k = some (u.elapsed k + 1) := by
    unfold State.expires at he
    split at he
    · exact absurd rfl hk
    · exact of_decide_eq_true he
  rw [State.below, hd, Timer.unit, if_neg hk] at hb
  exact Nat.lt_irrefl _ (of_decide_eq_true hb)

theorem part_of_below (hr : u.runs k = true) (hb : u.below k = true) : k.part u = u.countOn k := by
  by_cases hk : k = .boundary
  · subst hk
    refine (if_pos hr).trans (dueBoundaries_of_notDue (u := u.countOn .boundary) 7 fun x hx => ?_)
    have hx' : u.angle.schedule = some x := hx
    rw [State.below, State.deadline, hx'] at hb
    exact of_decide_eq_true hb
  · have hends := not_expires_of_below hk hb
    by_cases hidle : k = .idle
    · subst hidle
      refine (tickIdle_of_runs hr).trans ?_
      cases hd : u.deadline .idle with
      | none => rfl
      | some l =>
        rw [State.below, hd] at hb
        have hlt : u.elapsed .idle + 1 < l := of_decide_eq_true hb
        exact if_neg (by omega)
    · exact (part_of_runs hk hidle hr (.inl hb)).trans (if_neg hends)

theorem settle_part_of_expires (hset : u.sup.idleSetting ≤ 255) (hr : u.runs k = true) (he : u.expires k = true) :
    settle (k.part u) = settle (k.act (u.countOn k)) := by
  by_cases hk : k = .boundary
  · subst hk
    exact (congrArg settle (if_pos hr)).trans (settle_dueBoundaries he)
  · refine congrArg settle ?_
    by_cases hidle : k = .idle
    · subst hidle
      have hd : u.deadline .idle = some (u.elapsed .idle + 1) := of_decide_eq_true he
      have hle := deadline_idle_le hset hd
      refine (tickIdle_of_runs hr).trans ?_
      rw [hd]
      exact if_pos (by omega)
    · exact (part_of_runs hk hidle hr (.inr he)).trans (if_pos he)

end

end Sys2Proof.Machine
end


-- ==== Sys2Proof/Proofs/EmptyQueuePassesAMillisecond.lean ====
section
/-! SUPPORT. The millisecond of all timers, in their order (log entry 4). -/

namespace Sys2Proof.Machine

section
variable {s t u : State} {j k : Timer}

/-! ## What the counts of the other timers leave -/

theorem below_countOn (h : j ≠ k) : (u.countOn k).below j = u.below j := by
  obtain ⟨hd, he⟩ := ends_countOn (u := u) h
  rw [State.below, State.below, hd, he]

theorem expires_countOn (h : j ≠ k) : (u.countOn k).expires j = u.expires j := by
  obtain ⟨hd, he⟩ := ends_countOn (u := u) h
  cases j with
  | boundary =>
    cases k with
    | boundary => exact absurd rfl h
    | _ => rfl
  | _ => exact congrArg₂ (fun (d : Option Nat) (n : Nat) => decide (d = some (n + 1))) hd he

theorem expiry_countOn (j k : Timer) : (u.countOn k).expiry j = u.expiry j := by
  cases k <;> cases j <;> rfl

theorem count_append (ks js : List Timer) : u.count (ks ++ js) = (u.count ks).count js := List.foldl_append

theorem count_cons (ks : List Timer) : u.count (k :: ks) = (if u.runs k then u.countOn k else u).count ks := rfl

/-- Counts of other timers neither start a timer nor bring it nearer its end. -/
theorem count_keeps (ks : List Timer) (hj : j ∉ ks) :
    (u.count ks).runs j = u.runs j ∧ (u.count ks).expires j = u.expires j ∧ (u.count ks).expiry j = u.expiry j
      ∧ (u.count ks).held = u.held ∧ (u.count ks).sup.idleSetting = u.sup.idleSetting := by
  induction ks generalizing u with
  | nil => exact ⟨rfl, rfl, rfl, rfl, rfl⟩
  | cons k ks ih =>
    obtain ⟨hne, hks⟩ := not_or.mp (List.mem_cons.not.mp hj)
    rw [count_cons]
    split
    · obtain ⟨hruns, hexpires, hexpiry, hheld, hsetting⟩ := ih (u := u.countOn k) hks
      exact ⟨hruns.trans (runs_countOn j k), hexpires.trans (expires_countOn hne), hexpiry.trans (expiry_countOn j k),
        hheld.trans (held_countOn k), hsetting.trans (idleSetting_countOn k)⟩
    · exact ih hks

/-- Timers that run short of their ends count on, and nothing follows. -/
theorem foldl_parts {ks : List Timer} (hu : u.atRest) (hks : ks.Nodup) (h : ∀ j ∈ ks, u.runs j = true → u.below j = true) :
    ks.foldl (fun u k => settle (k.part u)) u = u.count ks ∧ (u.count ks).atRest := by
  induction ks generalizing u with
  | nil => exact ⟨rfl, hu⟩
  | cons k ks ih =>
    obtain ⟨hk, hnodup⟩ := List.nodup_cons.mp hks
    rw [List.foldl_cons, count_cons]
    by_cases hr : u.runs k = true
    · have hrest := atRest_countOn k hu
      rw [part_of_below hr (h k List.mem_cons_self hr), settle_of_atRest hrest, if_pos hr]
      refine ih hrest hnodup fun j hj hrun => ?_
      have hne : j ≠ k := fun he => hk (he ▸ hj)
      rw [below_countOn hne]
      exact h j (List.mem_cons_of_mem k hj) ((runs_countOn j k).symm.trans hrun)
    · rw [part_of_still hr, settle_of_atRest hu, if_neg hr]
      exact ih hu hnodup fun j hj => h j (List.mem_cons_of_mem k hj)

/-- The end of a pulse is nothing to a timer. -/
theorem setLink_keeps (l : Link) (j : Timer) :
    (s.setLink l).runs j = s.runs j ∧ (s.setLink l).below j = s.below j ∧ (s.setLink l).expires j = s.expires j
      ∧ (s.setLink l).expiry j = s.expiry j := by
  cases j <;> exact ⟨rfl, rfl, rfl, rfl⟩

/-- A timer at its end, in the order of the timers: those before it have counted, and those after it count on. -/
theorem foldl_parts_ends {before after : List Timer} (hu : u.settled) (hset : u.sup.idleSetting ≤ 255) (hks : (before ++ k :: after).Nodup)
    (hbefore : ∀ j ∈ before, u.runs j = true → u.below j = true) (hr : u.runs k = true) (he : u.expires k = true)
    (ht : exec (u.expiry k) (u.count (before ++ [k])) = .next t) (hafter : ∀ j ∈ after, t.runs j = true → t.below j = true) :
    (before ++ k :: after).foldl (fun u k => settle (k.part u)) u = t.count after := by
  obtain ⟨hnodup, hrest, hdisjoint⟩ := List.nodup_append.mp hks
  have hnot : k ∉ before := fun h => hdisjoint k h k List.mem_cons_self rfl
  obtain ⟨hruns, hexpires, hexpiry, hheld, hsetting⟩ := count_keeps (u := u) before hnot
  obtain ⟨hfirst, -⟩ := foldl_parts hu.1 hnodup hbefore
  let v : State := u.count before
  have hcount : u.count (before ++ [k]) = v.countOn k := (count_append before [k]).trans (if_pos (hruns.trans hr))
  have hacts : settle (k.act (v.countOn k)) = t := by
    have hexec := exec_expiry (u := v) (k := k) (hruns.trans hr) (hheld.trans hu.2)
    rw [hexpiry] at hexec
    rw [hcount, hexec] at ht
    exact Host.Outcome.next.inj ht
  have hpart : settle (k.part v) = t := (settle_part_of_expires (hsetting ▸ hset) (hruns.trans hr) (hexpires.trans he)).trans hacts
  have htrest : t.atRest := hacts ▸ settle_atRest _
  rw [List.foldl_append, hfirst, List.foldl_cons, show settle (k.part (u.count before)) = t from hpart]
  exact (foldl_parts htrest (List.nodup_cons.mp hrest).2 hafter).1

end

/-- Settles O2. -/
theorem emptyQueuePassesAMillisecond : Obligations.EmptyQueuePassesAMillisecond := by
  unfold Obligations.EmptyQueuePassesAMillisecond
  intro s before after k hq hs hset p
  have hnodup : Timer.order.Nodup := by decide
  have hp : p.settled := ⟨atRest_setLink hs.1 _, hs.2⟩
  have hkeeps (j : Timer) := setLink_keeps (s := s) { s.link with pulse := false } j
  have hbelow (j : Timer) (h : s.runs j = true → s.below j = true) : p.runs j = true → p.below j = true := by
    obtain ⟨hruns, hb, -, -⟩ := hkeeps j
    rw [hruns, hb]
    exact h
  have hstep : step s = .next (Timer.order.foldl (fun u k => settle (k.part u)) p).aged := by
    rw [step_millisecond hq hs.2, show settle (pulseEnd s) = p from settle_of_atRest hp.1]
  refine ⟨fun h => ?_, fun horder hbefore hr he t ht hafter => ?_⟩
  · rw [hstep, (foldl_parts hp.1 hnodup fun j _ => hbelow j (h j)).1]
  · obtain ⟨hruns, -, hexpires, hexpiry⟩ := hkeeps k
    rw [hstep, horder, foldl_parts_ends hp hset (horder ▸ hnodup) (fun j hj => hbelow j (hbefore j hj)) (hruns.trans hr)
      (hexpires.trans he) (hexpiry.symm ▸ ht) hafter]

end Sys2Proof.Machine
end
